-- ==== Sys2Proof/Word.lean ====
section
/-! DEFINITION. The word types of the machine and the small banks its register files are made of. -/

namespace Sys2Proof

/-- A 32-bit register or address (R17, R30, R160). -/
abbrev Word := BitVec 32

/-- One byte of memory (R160). -/
abbrev Byte := BitVec 8

/-- A general register number, 0 to 31 (R243). -/
abbrev Reg := BitVec 5

/-- A three-bit register field of a 16-bit instruction; it names x8 to x15 (R262). -/
abbrev CReg := BitVec 3

/-- Two values, selected by one bit: the cell from which banks of like registers are built. -/
structure Pair (α : Type) where
  /-- the value selected by 0 -/
  lo : α
  /-- the value selected by 1 -/
  hi : α
  deriving DecidableEq, Repr

/-- Both halves hold `x`. -/
def Pair.both {α : Type} (x : α) : Pair α := ⟨x, x⟩

/-- The half that the bit selects. -/
def Pair.sel {α : Type} (p : Pair α) (b : Bool) : α := cond b p.hi p.lo

/-- Replaces the half that the bit selects by its image under `f`. -/
def Pair.modify {α : Type} (p : Pair α) (b : Bool) (f : α → α) : Pair α :=
  cond b { p with hi := f p.hi } { p with lo := f p.lo }

/-- Four like registers. -/
abbrev Bank4 (α : Type) := Pair (Pair α)

/-- Thirty-two like registers. -/
structure Bank32 (α : Type) where
  cells : Pair (Pair (Pair (Pair (Pair α))))
  deriving DecidableEq, Repr

/-- Two hundred and fifty-six like registers. -/
structure Bank256 (α : Type) where
  banks : Pair (Pair (Pair (Bank32 α)))
  deriving DecidableEq, Repr

/-- Four copies of one value. -/
def Bank4.fill {α : Type} (x : α) : Bank4 α := Pair.both (Pair.both x)

/-- Reads register `i` of four. -/
def Bank4.get {α : Type} (b : Bank4 α) (i : BitVec 2) : α :=
  (b.sel (i.getLsbD 1)).sel (i.getLsbD 0)

/-- Writes register `i` of four. -/
def Bank4.set {α : Type} (b : Bank4 α) (i : BitVec 2) (v : α) : Bank4 α :=
  b.modify (i.getLsbD 1) fun p => p.modify (i.getLsbD 0) fun _ => v

/-- Thirty-two copies of one value. -/
def Bank32.fill {α : Type} (x : α) : Bank32 α := ⟨Pair.both (Pair.both (Pair.both (Bank4.fill x)))⟩

/-- Reads register `i` of thirty-two. -/
def Bank32.get {α : Type} (b : Bank32 α) (i : BitVec 5) : α :=
  ((((b.cells.sel (i.getLsbD 4)).sel (i.getLsbD 3)).sel (i.getLsbD 2)).sel (i.getLsbD 1)).sel
    (i.getLsbD 0)

/-- Writes register `i` of thirty-two. -/
def Bank32.set {α : Type} (b : Bank32 α) (i : BitVec 5) (v : α) : Bank32 α :=
  ⟨b.cells.modify (i.getLsbD 4) fun p => p.modify (i.getLsbD 3) fun p =>
    p.modify (i.getLsbD 2) fun p => p.modify (i.getLsbD 1) fun p => p.modify (i.getLsbD 0) fun _ => v⟩

/-- Two hundred and fifty-six copies of one value. -/
def Bank256.fill {α : Type} (x : α) : Bank256 α :=
  ⟨Pair.both (Pair.both (Pair.both (Bank32.fill x)))⟩

/-- Reads register `i` of two hundred and fifty-six. -/
def Bank256.get {α : Type} (b : Bank256 α) (i : BitVec 8) : α :=
  (((b.banks.sel (i.getLsbD 7)).sel (i.getLsbD 6)).sel (i.getLsbD 5)).get (i.extractLsb' 0 5)

/-- Writes register `i` of two hundred and fifty-six. -/
def Bank256.set {α : Type} (b : Bank256 α) (i : BitVec 8) (v : α) : Bank256 α :=
  ⟨b.banks.modify (i.getLsbD 7) fun p => p.modify (i.getLsbD 6) fun p =>
    p.modify (i.getLsbD 5) fun q => q.set (i.extractLsb' 0 5) v⟩

end Sys2Proof
end

