-- ==== Sys2Proof/Config.lean ====
section
/-! DEFINITION. What an implementation and its platform fix (the build arguments of R11 to R15, as data), and the
free values: constants without a body, which no proof can evaluate, for everything the spec leaves open. -/

namespace Sys2Proof

/-- One instruction or data access window (R11, R13, R182). -/
structure Window where
  /-- *_ACCESS_ENABLEx -/
  enabled : Bool
  /-- *_ACCESS_ADDRx -/
  addr : Word
  /-- *_ACCESS_MASKx: the window's size minus 1 -/
  mask : Word
  deriving DecidableEq, Repr

/-- What answers at a system bus address (R15, R171, R183, R186). -/
inductive BusKind where
  /-- readable, writable, fetchable memory -/
  | memory
  /-- a ROM; it answers a write with an error when `rejects`, else drops it (R183) -/
  | rom (rejects : Bool)
  /-- a device: reads return what it likes, writes are seen by it -/
  | device
  /-- the test register DEVREQ of 96_test_programs.md, which drives `extintsrc_req[8:1]` -/
  | requestRegister
  /-- nothing: every access gets a bus error -/
  | error
  deriving DecidableEq, Repr

/-- A range of bus addresses of one kind; `last` is its last byte. -/
structure BusArea where
  first : Word
  last : Word
  kind : BusKind
  deriving DecidableEq, Repr

/-- `BUS_TYPE` (R11). -/
inductive BusType where
  | axi4
  | ahbLite
  deriving DecidableEq, Repr

/-- The build arguments and platform parameters (R11, R14, R15). Sizes are in KB, offsets in bytes. -/
structure Build where
  /-- RV_ICCM_ENABLE -/
  iccmEnable : Bool
  /-- RV_ICCM_REGION -/
  iccmRegion : BitVec 4
  /-- RV_ICCM_OFFSET -/
  iccmOffset : Nat
  /-- RV_ICCM_SIZE -/
  iccmKb : Nat
  /-- RV_DCCM_REGION -/
  dccmRegion : BitVec 4
  /-- RV_DCCM_OFFSET -/
  dccmOffset : Nat
  /-- RV_DCCM_SIZE -/
  dccmKb : Nat
  /-- RV_PIC_REGION -/
  picRegion : BitVec 4
  /-- RV_PIC_OFFSET -/
  picOffset : Nat
  /-- RV_PIC_SIZE -/
  picKb : Nat
  /-- RV_PIC_TOTAL_INT, `Smax` -/
  picTotalInt : Nat
  /-- GATEWAY_CONFIGURABLE: bit S for source S -/
  gatewayConfigurable : BitVec 256
  /-- RV_ICACHE_ENABLE -/
  icacheEnable : Bool
  /-- RV_ICACHE_SIZE -/
  icacheKb : Nat
  /-- RV_ICACHE_ECC: false parity, true ECC -/
  icacheEcc : Bool
  /-- INST_ACCESS_ENABLE0..7, ADDR, MASK -/
  instWindows : List Window
  /-- DATA_ACCESS_ENABLE0..7, ADDR, MASK -/
  dataWindows : List Window
  /-- BUS_TYPE -/
  busType : BusType
  /-- RV_IFU_BUS_TAG, a width no software sees -/
  ifuBusTag : Nat
  /-- RV_LSU_BUS_TAG, as `ifuBusTag` -/
  lsuBusTag : Nat
  /-- RV_SB_BUS_TAG, as `ifuBusTag` -/
  sbBusTag : Nat
  /-- RV_DMA_BUS_TAG, as `ifuBusTag` -/
  dmaBusTag : Nat
  /-- rst_vec[31:1] -/
  rstVec : BitVec 31
  /-- nmi_vec[31:1] at reset -/
  nmiVec : BitVec 31
  /-- the level of mpc_reset_run_req at reset -/
  mpcResetRunReq : Bool
  /-- jtag_id[31:1], which only the debugger's port shows (R14) -/
  jtagId : BitVec 31
  /-- MTIME_ADDR, where the SoC has its machine timer, if it has one on the bus (R15) -/
  mtimeAddr : Option Word
  /-- MTIMECMP_ADDR -/
  mtimecmpAddr : Option Word
  /-- the initial memory image: what these bytes hold at reset (R15, R704) -/
  image : List Host.Cell
  /-- BusMap: the first area that holds an address decides; an address of no area gets an error -/
  busMap : List BusArea
  deriving DecidableEq, Repr

/-- The test configuration CFG-T of 95_test_vectors.md, with DEVREQ at the start of its device range
(DESIGN CHOICE, log 1; unsafe). -/
def cfgT : Build where
  iccmEnable := true
  iccmRegion := 0
  iccmOffset := 0x40000
  iccmKb := 128
  dccmRegion := 0
  dccmOffset := 0x80000
  dccmKb := 128
  picRegion := 0
  picOffset := 0xC0000
  picKb := 32
  picTotalInt := 8
  gatewayConfigurable := 0x1FE
  icacheEnable := false
  icacheKb := 16
  icacheEcc := false
  instWindows := []
  dataWindows := []
  busType := .axi4
  ifuBusTag := 1
  lsuBusTag := 1
  sbBusTag := 1
  dmaBusTag := 1
  rstVec := 0x20000
  nmiVec := 0x20800
  mpcResetRunReq := true
  jtagId := 0
  mtimeAddr := none
  mtimecmpAddr := none
  image := []
  busMap := [⟨0x10000000, 0x10000003, .requestRegister⟩, ⟨0x10000004, 0x10000FFF, .device⟩,
    ⟨0x20000000, 0x2000FFFF, .memory⟩]

namespace Config

/-! ## Free values. The first argument is the step they are drawn at, unless the docstring says otherwise. -/

/-- Core clock cycles beyond the first that counting step `k` takes (R671, D21; log 12). -/
opaque extraCycles : (k : Nat) → Nat

/-- How many of those further cycles of counting step `k` come before its instruction reads a counter: all, when it is more
(R671, R672; log 12). -/
opaque cyclesBefore : (k : Nat) → Nat

/-- For how many further boundaries an interrupt that has become takeable waits: finitely many, as fairness asks
(R530, D20; log 11). -/
opaque interruptDelay : Nat → Nat

/-- For how many further boundaries a pending NMI waits (R552; log 10). -/
opaque nmiDelay : Nat → Nat

/-- For how many further boundaries the hart may not see a recognised level of an asynchronous input; the inputs are 0 `timer_int`,
1 `nmi_int`, 2 the PMU's requests, 3 the MPC's (R692, R742, D20; log 47). -/
opaque syncDelay : (step input : Nat) → Nat

/-- The inputs of a group whose `k`-th level since the last boundary, which has not stood for two cycles yet, the
synchroniser drops; groups 0 to 3 as for `syncDelay`, of which bit 0 speaks for all, and 4 `extintsrc_req`
(R550, R574, R692; log 47). -/
opaque levelMissed : (step input k : Nat) → BitVec 256

/-- Which NMI is entered first when the pin and a D-bus error are both pending (R552; log 10). -/
opaque pinNmiFirst : Nat → Bool

/-- For how many further boundaries a halt the PMU requests waits (R643; log 15). -/
opaque pmuHaltDelay : Nat → Nat

/-- For how many further boundaries a halt the MPC requests waits (R658; log 15). -/
opaque mpcHaltDelay : Nat → Nat

/-- For how many further boundaries a recognised level of the request inputs may be unseen by the gateways
(R742, D20; log 44). -/
opaque inputDelay : Nat → Nat

/-- The request inputs whose change the gateways see already (R742; log 44). -/
opaque inputMask : Nat → BitVec 256

/-- For how many further boundaries a change of the gateways' requests may be unseen by the evaluation
(R585, R630; log 44). -/
opaque stageDelay : Nat → Nat

/-- The gateways' requests whose change the evaluation sees already (R585, R630; log 44). -/
opaque stageMask : Nat → BitVec 256

/-- Whether `timer_int` wakes a halted hart that would not take the interrupt (R646, D14; log 15). -/
opaque timerWakes : Nat → Bool

/-- Whether an interrupt that is pending but not taken ends PAUSE (R652, D13; log 14). -/
opaque pendingEndsPause : Nat → Bool

/-- How many buffered stores leave the write buffer at a boundary (R201; log 7). -/
opaque storesSent : Nat → Nat

/-- How many outstanding bus transactions are answered at a boundary (R207, R216; log 7). -/
opaque answersReceived : Nat → Nat

/-- Whether an idempotent store, or its piece `k`, joins the transaction of the buffered store before it
(R187, R203; log 7). -/
opaque coalesces : (step k : Nat) → Bool

/-- Whether a misaligned store on AXI4 is cut into single bytes, and not into aligned parts (R184; log 41). -/
opaque cutsToBytes : Nat → Bool

/-- How many of the accesses other agents are about to make fall before piece `k` of a split access
(R184, R210; log 42). -/
opaque actsBetween : (step k : Nat) → Nat

/-- Whether the answers a drain waits for are reported in one clock cycle (R215; log 9). -/
opaque reportedTogether : Nat → Bool

/-- Which byte of a failing transaction is captured in `mdseac` (R215; log 8). -/
opaque capturedByte : Nat → Nat

/-- Whether an error of a byte that an idempotent load does not ask for, in the double-word it reads, fails the load;
arguments step and address of the double-word (R187, R212; log 46). -/
opaque widerReadErrs : (step address : Nat) → Bool

/-- The contents an address of SoC memory, ICCM or DCCM has before anything writes it; the argument is the
address (R15, R704; log 5). -/
opaque initialByte : (address : Nat) → Byte

/-- Whether a read of an uninitialised ECC word reports an uncorrectable error; arguments step and address
(R223; log 6). -/
opaque uninitialisedErrs : Nat → Nat → Bool

/-- What a byte of an uninitialised ECC word reads as; arguments step and address (R223; log 6). -/
opaque uninitialisedByte : Nat → Nat → Byte

/-- What a byte of a word with an ECC error reads as while checking is disabled; arguments step and address
(R220; log 6). -/
opaque corruptedByte : Nat → Nat → Byte

/-- What a failed non-blocking load writes to its register (R213; log 39). -/
opaque failedLoad : Nat → Word

/-- What a device answers to a read of one byte; arguments step and address (R171, R186; log 28). -/
opaque deviceByte : Nat → Nat → Byte

/-- Whether a device answers an access with an error; arguments step and address (R212; log 28). -/
opaque deviceErrs : Nat → Nat → Bool

/-- Whether the fetch side still acts on an older value of a byte; arguments step and address; the number
picks among the values it has held (R191; log 21). -/
opaque fetchPick : Nat → Nat → Nat

/-- Which of the values `mrac` has held since the last FENCE a data access is performed under (R722; log 20). -/
opaque mracDataPick : Nat → Nat

/-- Which of the values `mrac` has held since the last FENCE.I a fetch is performed under (R722; log 20). -/
opaque mracFetchPick : Nat → Nat

/-- Which of the values `mfdc` has held since the last FENCE.I acts (R723, D32; log 16). -/
opaque mfdcPick : Nat → Nat

/-- The addresses of speculative reads of the I-bus at a step, as far as the instruction windows let them pass
(R174, R730; log 28). -/
opaque speculativeFetches : Nat → List Word

/-- Whether the PIC already acts on un-fenced update `i` when it is asked for use `u` (R721, D32; log 18). -/
opaque picActs : (step u i : Nat) → Bool

/-- The interrupt pending bits a write to `meigwctrlS` leaves (R577; log 19). -/
opaque gatewayIp : Nat → BitVec 256

/-- The sources whose edge is lost because it came while a store to `meigwclrS` or `meigwctrlS` waited for its
effect (R577; log 19). -/
opaque edgesLost : Nat → BitVec 256

/-- The internal priority level that a late change of `priord` leaves in a priority register: source 1 to 255, or 256,
257, 258 for `meipt`, `meicidpl`, `meicurpl` (R582, D18; log 17). -/
opaque lateLevel : (step register : Nat) → BitVec 4

/-- What a priority register reads as while its value under the new order is open; the registers as for `lateLevel`
(R582, D18; log 17). -/
opaque openPriority : (step register : Nat) → BitVec 4

/-- How often an event that is not exact happens for counter `n` in one step (R673, D22; log 13). -/
opaque eventDraw : (step n : Nat) → Nat

/-- How often of these it happens before the instruction of the step reads the counter: always, when it is more
(R671, R672; log 13). -/
opaque eventsBefore : (step n : Nat) → Nat

/-- Whether an instruction of open class membership counts for event `e` (R455, R673; log 13). -/
opaque classDraw : (step e : Nat) → Bool

/-- Whether a store in the write buffer at reset leaves the new byte; arguments step and address (R705; log 30). -/
opaque resetStores : Nat → Nat → Bool

/-- How many of the stores in the write buffer at reset devices have still seen, the oldest first (R202, R705; log 30). -/
opaque resetShown : (step : Nat) → Nat

/-- Which of the values a byte has held since its last FENCE it has after a reset; arguments step and address
(R705; log 30). -/
opaque resetPick : Nat → Nat → Nat

/-- What a byte targeted by a bus transaction that a reset abandons holds; arguments step and address (R705, 93 section
1.4; log 30). -/
opaque abandonedByte : Nat → Nat → Byte

/-- What an I-cache array entry of unknown contents reads as; arguments step and field: 0 the data, 1 the check bits,
2 the LRU bits, 3 the check bits beside a tag's, 4 the unused bits of a tag (R113, R114, R704; log 22). -/
opaque icacheWord : Nat → Nat → Word

/-- Whether a fetch looks for a line whose tag the debugger wrote into the I-cache; arguments step and address (R190, R686;
log 22). -/
opaque icacheHits : Nat → Nat → Bool

/-- Whether a fetch is served from the line the hardware has filled; arguments step and line (R190; log 22). -/
opaque lineHeld : (step line : Nat) → Bool

/-- Whether a line that is read is allocated in the I-cache; arguments step and line (R190; log 22). -/
opaque lineAllocated : (step line : Nat) → Bool

/-- The way a line is filled in; arguments step and line (R190; log 22). -/
opaque fillWay : (step line : Nat) → BitVec 2

/-- The five check bits of a 16-bit chunk of an I-cache data entry, in an ECC build: the code is not in the spec (R9, R114, R220,
R681; log 22). -/
opaque icacheEcc : (chunk : BitVec 16) → BitVec 5

/-- The five check bits of an I-cache tag, in an ECC build (R9, R114, R220; log 22). -/
opaque icacheTagEcc : (tag : BitVec 20) → BitVec 5

end Config
end Sys2Proof
end

