-- ==== Sys2Proof/Machine/Cells.lean ====
section
/-! DEFINITION. Sparse contents by key, in canonical form, and what the initial memory image makes of them. -/

namespace Sys2Proof.Machine

/-- The value listed at a key. -/
def cellGet {β : Type} : List (Nat × β) → Nat → Option β
  | [], _ => none
  | (k, v) :: rest, a => if k = a then some v else cellGet rest a

/-- Lists a value at a key, keys kept in rising order. -/
def cellSet {β : Type} : List (Nat × β) → Nat → β → List (Nat × β)
  | [], a, v => [(a, v)]
  | (k, w) :: rest, a, v =>
    if a < k then (a, v) :: (k, w) :: rest
    else if a = k then (a, v) :: rest
    else (k, w) :: cellSet rest a v

/-- The list with a value at a key, or with none there. -/
def cellPut {β : Type} (l : List (Nat × β)) (a : Nat) : Option β → List (Nat × β)
  | some v => cellSet l a v
  | none => l.filter fun e => e.1 != a

/-- Whether the keys rise strictly. -/
def rising {β : Type} : List (Nat × β) → Bool
  | [] => true
  | [_] => true
  | (k, _) :: (k', v') :: rest => decide (k < k') && rising ((k', v') :: rest)

/-- `cur`, or one of the older values chosen by `n` when there are any. -/
def pickAmong {α : Type} (n : Nat) (cur : α) : List α → α
  | [] => cur
  | old => (cur :: old).getD (n % (old.length + 1)) cur

/-- What a record of old values says of a key, newest first. -/
def heldAt {α : Type} (l : List (Nat × α)) (a : Nat) : List α :=
  l.filterMap fun e => if e.1 = a then some e.2 else none

/-- What the check bits of a 32-bit memory word say (R220 to R223). -/
inductive EccState where
  /-- consistent -/
  | good
  /-- a single-bit error, found at the next access -/
  | correctable
  /-- a double-bit error; of a SoC word, an error indication -/
  | uncorrectable
  deriving DecidableEq, Repr

/-- The bytes the initial memory image lists (R15, R704); of two entries for a byte the later counts. -/
def imageMem (c : Build) : List Host.Cell := c.image.foldl (fun m e => cellSet m e.1 e.2) []

/-- The words the image covers whole; they have sound check bits, every other word of ICCM and DCCM is uninitialised
(R223, R704). -/
def imageEcc (c : Build) : List (Nat × EccState) :=
  let m := imageMem c
  let covered := fun a : Nat => [a, a + 1, a + 2, a + 3].all fun b => (cellGet m b).isSome
  m.foldl (fun l e => if e.1 % 4 = 0 && covered e.1 then cellSet l (e.1 / 4) .good else l) []

end Sys2Proof.Machine
end

