-- ==== Sys2Proof/Machine/State.lean ====
section
/-! DEFINITION. The state of the machine as plain data, the reasons a step can stop, and the state after reset. -/

namespace Sys2Proof.Machine

/-- Why the machine stops although the spec names no exception. Raised by host events only, never by an
instruction. -/
inductive Fault where
  /-- The PMU asked for halt and run at once. Raised by the host events of the PMU pins: R648 and R727 give such a
  host no meaning. Safe: the model stops where the hardware may do anything. -/
  | pmuProtocol
  /-- The MPC asked for halt and run at once. Raised by the host events of the MPC pins (R658, R727). Safe, as
  `pmuProtocol`. -/
  | mpcProtocol
  deriving DecidableEq, Repr

/-- What the model refuses to give a meaning. -/
inductive Refusal where
  /-- An instruction that has no meaning yet. No arm raises it in this model. Safe. -/
  | notModelled (mnemonic : String)
  /-- A Zicsr instruction names a trigger CSR, 0x7A0 to 0x7A3. Raised by the CSR access check: R60 and R452 tell the
  model to refuse the access. Safe. -/
  | triggerCsr
  /-- A program writes `mfdc` without a FENCE.I immediately before and after the write. Raised by the CSR access check for
  the one before, by the step for the one after: R723, D32 and 93 section 1.2 refuse such a program. Safe. -/
  | mfdcFence
  /-- The build arguments break R12, R13, R163 or R702. Raised by `boot`. Safe. -/
  | illegalConfiguration
  deriving DecidableEq, Repr

/-- The activity states (R641). -/
inductive Activity where
  | running
  | dbHalt
  | pmuFwHalt
  deriving DecidableEq, Repr

/-- A D-bus error waiting for its NMI (R61, R215). -/
inductive BusError where
  | store
  | load
  deriving DecidableEq, Repr

/-- A store waiting in the write buffer (R201). -/
structure BusStore where
  addr : Word
  size : Nat
  data : Word
  sideEffect : Bool
  /-- a piece of a misaligned store (R184) -/
  part : Bool
  /-- coalesced into the transaction of the entry before it (R187, R203; log 7) -/
  joined : Bool
  deriving DecidableEq, Repr

/-- A transaction sent on the D-bus and not answered yet, with the answer it will get (R207, R213, R214). -/
structure BusResponse where
  addr : Word
  size : Nat
  isLoad : Bool
  isError : Bool
  /-- a split or coalesced access, of which any byte address may be captured (R215; log 8) -/
  anyByte : Bool
  deriving DecidableEq, Repr

/-- What an access seen by a device does. -/
inductive AccessKind where
  | read
  | write
  /-- an instruction fetch on the I-bus, speculative or not (R174) -/
  | fetch
  deriving DecidableEq, Repr

/-- An access as a device sees it. -/
structure DeviceAccess where
  kind : AccessKind
  addr : Word
  size : Nat
  /-- the valid bytes of a write, the lowest first, and nothing above them: what the other lanes carry R186 leaves open, and the
  record does not say it (DESIGN CHOICE, log 28; safe) -/
  data : Word
  /-- in one transaction with the access before it (R187) -/
  joined : Bool
  deriving DecidableEq, Repr

/-- A change the PIC may not have acted on yet (R602, R721). -/
inductive PicUpdate where
  /-- a word store at an offset of the PIC block -/
  | store (offset : Nat) (value : Word)
  /-- a store to `mpiccfg` that changes the order; `late` when a priority register no longer holds its reset value
  (R582, log 17) -/
  | order (priord : Bool) (late : Bool)
  /-- active edges at gateways with a waiting store, under the configuration before and after the stores (log 19) -/
  | edge (before after : BitVec 256)
  deriving DecidableEq, Repr

/-- What the outside of the hart does, one event a step, between instructions (R14, R690). -/
inductive HostEvent where
  /-- the hart takes one step -/
  | run
  /-- the level of `timer_int` (R541) -/
  | timerInt (level : Bool)
  /-- the levels of `extintsrc_req`, bit S for source S (R574) -/
  | extInt (levels : BitVec 256)
  /-- the level of `nmi_int`; a rising edge is a request (R550) -/
  | nmiInt (level : Bool)
  /-- the value of `nmi_vec[31:1]` (R552) -/
  | nmiVec (vec : BitVec 31)
  /-- the level of `i_cpu_halt_req` (R643) -/
  | cpuHaltReq (level : Bool)
  /-- the level of `i_cpu_run_req` (R647) -/
  | cpuRunReq (level : Bool)
  /-- the level of `mpc_debug_halt_req` (R658) -/
  | mpcHaltReq (level : Bool)
  /-- the level of `mpc_debug_run_req` (R658) -/
  | mpcRunReq (level : Bool)
  /-- the level of `mpc_reset_run_req` (R659) -/
  | mpcResetRunReq (level : Bool)
  /-- the debugger asks for Debug Mode (R656) -/
  | debugHalt
  /-- the debugger asks the hart to resume (R657, R660) -/
  | debugResume
  /-- the debugger reads a CSR in Debug Mode (R664) -/
  | debugReadCsr (number : BitVec 12)
  /-- the debugger writes a CSR in Debug Mode (R664) -/
  | debugWriteCsr (number : BitVec 12) (value : Word)
  /-- the debugger reads a general register in Debug Mode (R655) -/
  | debugReadReg (r : Reg)
  /-- the debugger writes a general register in Debug Mode (R655) -/
  | debugWriteReg (r : Reg) (value : Word)
  /-- a read of `size` bytes on the DMA slave port (R192) -/
  | dmaRead (addr : Word) (size : Nat)
  /-- a write of `size` bytes on the DMA slave port (R193) -/
  | dmaWrite (addr : Word) (size : Nat) (data : BitVec 64)
  /-- another bus master writes a byte of SoC memory -/
  | busWrite (addr : Word) (data : Byte)
  /-- a memory word gets an ECC error, or a SoC word an error indication (R220) -/
  | eccError (addr : Word) (uncorrectable : Bool)
  /-- a detected I-cache parity or ECC error in a set (R221) -/
  | icacheError (set : Nat)
  /-- `rst_l` or `ndmreset`; with the debugger's `haltreq` held across it or not (R700, R666) -/
  | reset (haltReq : Bool)
  deriving DecidableEq, Repr

/-- The control and status registers that have storage (R39, R100), as they are read; the PIC's three priority
registers in the internal order of R581. -/
structure Csrs where
  mstatus : Word
  mie : Word
  mtvec : Word
  mscratch : Word
  mepc : Word
  mcause : Word
  mtval : Word
  mrac : Word
  mdseac : Word
  micect : Word
  miccmect : Word
  mdccmect : Word
  mgpmc : Word
  mcgc : Word
  mfdc : Word
  meivt : Word
  /-- meipt.prithresh, internal order -/
  ithresh : BitVec 4
  /-- meicidpl.clidpri, internal order -/
  iclid : BitVec 4
  /-- meicurpl.currpri, internal order -/
  icur : BitVec 4
  /-- meihap.claimid -/
  claimid : BitVec 8
  /-- meipt (bit 0), meicidpl (1), meicurpl (2) read as anything until written (R582; model's own, log 17) -/
  priDoubt : BitVec 3
  dcsr : Word
  dpc : Word
  dscratch0 : Word
  dscratch1 : Word
  dicawics : Word
  dicad0 : Word
  dicad1 : Word
  deriving DecidableEq, Repr

/-- The counters (R52 to R56). `mcycle` is the value at counting step `mcycleMark`; what it reads now adds the
cycles of the counting steps since (R671, log 12). -/
structure Counters where
  mcycle : BitVec 64
  mcycleMark : Nat
  /-- the steps so far in which `mcycle` counts, over all resets: no two of them share their free number of cycles (model's own,
  log 12) -/
  cycleSteps : Nat
  /-- whether the step under way is one of them (model's own, log 12) -/
  stepCounted : Bool
  minstret : BitVec 64
  /-- mhpmcounter3 to mhpmcounter6 -/
  hpm : Bank4 (BitVec 64)
  /-- mhpmevent3 to mhpmevent6 -/
  event : Bank4 Word
  deriving DecidableEq, Repr

/-- Levels on their way from one place to another, in order, none of them lost (R585, R630, R692, R742, D20; model's own,
logs 44, 47). -/
structure DelayLine (w : Nat) where
  /-- the levels that have not arrived, oldest first -/
  queue : List (BitVec w)
  /-- for how many more boundaries the oldest waits at most -/
  wait : Option Nat
  deriving DecidableEq, Repr

/-- The PIC's memory-mapped registers and gateways (R603 to R608, R577); bit S or entry S for source S. -/
structure PicRegs where
  priord : Bool
  /-- meiplS.priority, internal order (R581) -/
  ipl : Bank256 (BitVec 4)
  /-- meieS.inten -/
  inten : BitVec 256
  /-- meigwctrlS.type -/
  gwType : BitVec 256
  /-- meigwctrlS.polarity -/
  gwPol : BitVec 256
  /-- the gateways' interrupt pending bits -/
  ip : BitVec 256
  /-- the last sample of the request inputs -/
  prev : BitVec 256
  /-- the gateways' requests as the evaluation sees them (R585, R630; model's own, log 44) -/
  staged : BitVec 256
  /-- the gateways' requests on their way to the evaluation (R585, R630; model's own, log 44) -/
  staging : DelayLine 256
  /-- the sources whose priority reads as anything until written (R582; model's own, log 17) -/
  doubt : BitVec 256
  deriving DecidableEq, Repr

/-- An entry of an I-cache array: its data and check bits in the layouts of dicad0 and dicad1 (R113, R114). -/
structure ICacheEntry where
  word : Word
  check : Word
  deriving DecidableEq, Repr

/-- The raw I-cache arrays: the entries the debugger wrote over what the hardware had put there, and the lines the hardware has
filled, whose entries follow from memory; what neither tells is unknown (R190, R681, R685). A line the hardware fills takes the
place of what the debugger wrote. Keys are
65536 * way + index bits 15:2 for data, 65536 * way + set for tags, and the set for the LRU bits. -/
structure ICache where
  data : List (Nat × ICacheEntry)
  tags : List (Nat × ICacheEntry)
  /-- pseudo LRU bits of a set -/
  lru : List (Nat × BitVec 3)
  /-- the lines, by address / 64, that the hardware has filled since the last invalidation, and the way of each (R190) -/
  filled : List (Nat × BitVec 2)
  deriving DecidableEq, Repr

/-- The input pins and the handshake outputs (R690). -/
structure Pins where
  timerInt : Bool
  extInt : BitVec 256
  nmiInt : Bool
  nmiVec : BitVec 31
  cpuHaltReq : Bool
  cpuRunReq : Bool
  mpcHaltReq : Bool
  mpcRunReq : Bool
  mpcResetRunReq : Bool
  cpuHaltAck : Bool
  cpuRunAck : Bool
  mpcHaltAck : Bool
  mpcRunAck : Bool
  deriving DecidableEq, Repr

/-- The synchroniser of a group of `w` asynchronous inputs: what it has to remember of their levels to be sure of those that
stand for two cycles, and the levels it has recognised, on their way (R574, R692; model's own, log 47). -/
structure InputLine (w : Nat) where
  /-- the levels the inputs have taken since the last boundary, oldest first -/
  taken : List (BitVec w)
  /-- the inputs that have changed while an instruction or the bus was at work, and not between two steps -/
  within : BitVec w
  /-- their levels at the last boundary -/
  last : BitVec w
  /-- the inputs that changed between the last two boundaries -/
  recent : BitVec w
  /-- the levels recognised last -/
  passed : BitVec w
  /-- recognised levels on their way to the hart -/
  way : DelayLine w
  deriving DecidableEq, Repr

/-- The synchronisers of the asynchronous inputs; of the PMU's and the MPC's pairs the halt request is bit 1, the run request
bit 0 (R692; model's own, log 47). -/
structure InputLines where
  /-- `timer_int` -/
  timer : InputLine 1
  /-- `nmi_int` -/
  nmi : InputLine 1
  /-- the PMU's requests -/
  pmu : InputLine 2
  /-- the MPC's requests -/
  mpc : InputLine 2
  /-- `extintsrc_req`, bit S for source S -/
  ext : InputLine 256
  deriving DecidableEq, Repr

/-- The levels of the asynchronous inputs as the hart sees them, behind their synchronisers (R692, R742; those of
`extintsrc_req` are `PicRegs.prev`). -/
structure Seen where
  timerInt : Bool
  nmiInt : Bool
  cpuHaltReq : Bool
  cpuRunReq : Bool
  mpcHaltReq : Bool
  mpcRunReq : Bool
  deriving DecidableEq, Repr

/-- The answer to the last access on the DMA slave port (R192, R193). -/
inductive DmaResponse where
  | none
  | data (value : BitVec 64)
  | written
  | error
  deriving DecidableEq, Repr

/-- What is put off at the boundaries, and for how many more at most (R530, R552, R643, R658; model's own, log 43). -/
structure Waits where
  /-- a takeable interrupt -/
  interrupt : Option Nat
  /-- a pending NMI -/
  nmi : Option Nat
  /-- the PMU's halt request -/
  pmuHalt : Option Nat
  /-- the MPC's halt request -/
  mpcHalt : Option Nat
  deriving DecidableEq, Repr

/-- The state of the machine. -/
structure State where
  /-- x1 to x31; entry 0 is never read or written (R30, R31) -/
  regs : Bank32 Word
  /-- the address of the instruction to execute (R33) -/
  pc : Word
  csr : Csrs
  counters : Counters
  pic : PicRegs
  /-- updates since the last fence that the PIC may not act on yet, oldest first (R721) -/
  picQueue : List PicUpdate
  /-- the written bytes of ICCM, DCCM and SoC memory: addresses strictly rising (R160, R186) -/
  mem : List Host.Cell
  /-- the known check state of 32-bit words, by word address / 4, strictly rising (R220) -/
  ecc : List (Nat × EccState)
  /-- values bytes held since the last FENCE.I, newest first; none is the initial content (R191) -/
  stale : List (Nat × Option Byte)
  /-- values bytes held before stores the hart made since the last FENCE, newest first (R705; log 30) -/
  unfenced : List (Nat × Option Byte)
  /-- the check state words had before such stores (R705; log 30) -/
  unfencedEcc : List (Nat × Option EccState)
  /-- the write buffer, oldest first (R201) -/
  wb : List BusStore
  /-- outstanding D-bus transactions, oldest first; their number is the counter of R207 -/
  responses : List BusResponse
  /-- values `mrac` held since the last FENCE (R722) -/
  mracData : List Word
  /-- values `mrac` held since the last FENCE.I (R722) -/
  mracFetch : List Word
  /-- values `mfdc` held since the last FENCE.I (R723) -/
  mfdcOld : List Word
  /-- the addresses right after a FENCE.I that has completed, until an `mfdc` write there (R723; model's own, log 16) -/
  fenced : List Word
  /-- the addresses right after an `mfdc` write, until a FENCE.I there (R723; model's own, log 16) -/
  fencesDue : List Word
  icache : ICache
  activity : Activity
  /-- a single step is executing (R665) -/
  stepping : Bool
  dbgHaltState : Bool
  mpcHaltState : Bool
  /-- debug_brkpt_status (R663) -/
  brkptStatus : Bool
  /-- nmi_pin_pending (R550) -/
  nmiPending : Bool
  /-- dbus_err_pending (R215) -/
  dbusErr : Option BusError
  mdseacLocked : Bool
  /-- pause_count (R652) -/
  pauseCount : Word
  waits : Waits
  pins : Pins
  /-- the inputs as the hart sees them (R692) -/
  seen : Seen
  /-- what lies between the inputs and the hart's view of them (R574, R692) -/
  lines : InputLines
  /-- the test device's register (96_test_programs.md) -/
  devReq : Word
  /-- the accesses devices have seen, oldest first (model's own, log 28) -/
  deviceTrace : List DeviceAccess
  dmaResponse : DmaResponse
  /-- the value the debugger's last read returned (model's own, log 24) -/
  dbgData : Word
  /-- the build and platform parameters (R11 to R15, log 1) -/
  cfg : Build
  /-- the host events still to come (model's own, log 23) -/
  inputs : List HostEvent
  /-- the step the free values are drawn at (model's own, log 3) -/
  stepNo : Nat
  deriving DecidableEq, Repr

/-- The CSRs after reset (R62, R63, R703). mtvec, mscratch, mepc and mtval have no reset value in the spec: zero
(DESIGN CHOICE, log 2). The debug CSRs are the family's (PRESUMED, log 4). -/
def Csrs.reset (c : Build) : Csrs where
  mstatus := 0x1800
  mie := 0
  mtvec := 0
  mscratch := 0
  mepc := 0
  mcause := 0
  mtval := 0
  mrac := 0
  mdseac := 0
  micect := 0
  miccmect := 0
  mdccmect := 0
  mgpmc := 1
  mcgc := 0
  mfdc := match c.busType with
    | .axi4 => 0x00070040
    | .ahbLite => 0x00070000
  meivt := 0
  ithresh := 0
  iclid := 0
  icur := 0
  claimid := 0
  priDoubt := 0
  dcsr := 0x40000003
  dpc := 0
  dscratch0 := 0
  dscratch1 := 0
  dicawics := 0
  dicad0 := 0
  dicad1 := 0

/-- The counters after reset: no value in the spec, zero (R63; DESIGN CHOICE, log 2), and no step under way (log 12). -/
def Counters.reset : Counters where
  mcycle := 0
  mcycleMark := 0
  cycleSteps := 0
  stepCounted := false
  minstret := 0
  hpm := Bank4.fill 0
  event := Bank4.fill 0

/-- Nothing is on its way. -/
def DelayLine.idle (w : Nat) : DelayLine w where
  queue := []
  wait := none

/-- The PIC after reset (R610); the previous sample is a DESIGN CHOICE (log 19). -/
def PicRegs.reset : PicRegs where
  priord := false
  ipl := Bank256.fill 0
  inten := 0
  gwType := 0
  gwPol := 0
  ip := 0
  prev := 0
  staged := 0
  staging := .idle 256
  doubt := 0

/-- The I-cache after reset: no valid line, array contents unknown (R703, R704). -/
def ICache.reset : ICache where
  data := []
  tags := []
  lru := []
  filled := []

/-- The pins when nothing is asked of the hart (R14). -/
def Pins.reset (c : Build) : Pins where
  timerInt := false
  extInt := 0
  nmiInt := false
  nmiVec := c.nmiVec
  cpuHaltReq := false
  cpuRunReq := false
  mpcHaltReq := false
  mpcRunReq := false
  mpcResetRunReq := c.mpcResetRunReq
  cpuHaltAck := false
  cpuRunAck := false
  mpcHaltAck := false
  mpcRunAck := false

/-- The hart's view of its inputs after reset: low, as every flop (R700; DESIGN CHOICE, log 47). -/
def Seen.reset : Seen where
  timerInt := false
  nmiInt := false
  cpuHaltReq := false
  cpuRunReq := false
  mpcHaltReq := false
  mpcRunReq := false

/-- A synchroniser whose inputs have stood at a level for long. -/
def InputLine.steady {w : Nat} (level : BitVec w) : InputLine w where
  taken := []
  within := 0
  last := level
  recent := 0
  passed := level
  way := DelayLine.idle w

/-- The synchronisers after reset: low, as every flop (R700; DESIGN CHOICE, log 47). -/
def InputLines.reset : InputLines where
  timer := .steady 0
  nmi := .steady 0
  pmu := .steady 0
  mpc := .steady 0
  ext := .steady 0

/-- Nothing is put off. -/
def Waits.idle : Waits where
  interrupt := none
  nmi := none
  pmuHalt := none
  mpcHalt := none

/-- The state when reset is released, in a build (R700, R703). With mpc_reset_run_req = 0 the hart is in db-halt,
held by the MPC (R659, R706). Memory holds the initial image (R15, R704). -/
def State.resetWith (c : Build) : State where
  regs := Bank32.fill 0
  pc := c.rstVec ++ 0#1
  csr := cond c.mpcResetRunReq (Csrs.reset c)
    { Csrs.reset c with dpc := c.rstVec ++ 0#1, dcsr := 0x400000C3 }
  counters := Counters.reset
  pic := PicRegs.reset
  picQueue := []
  mem := imageMem c
  ecc := imageEcc c
  stale := []
  unfenced := []
  unfencedEcc := []
  wb := []
  responses := []
  mracData := []
  mracFetch := []
  mfdcOld := []
  fenced := []
  fencesDue := []
  icache := ICache.reset
  activity := cond c.mpcResetRunReq .running .dbHalt
  stepping := false
  dbgHaltState := false
  mpcHaltState := !c.mpcResetRunReq
  brkptStatus := false
  nmiPending := false
  dbusErr := none
  mdseacLocked := false
  pauseCount := 0
  waits := Waits.idle
  pins := Pins.reset c
  seen := Seen.reset
  lines := InputLines.reset
  devReq := 0
  deviceTrace := []
  dmaResponse := .none
  dbgData := 0
  cfg := c
  inputs := []
  stepNo := 0

/-- The machine right after reset, in the configuration CFG-T (log 1). -/
def State.reset : State := State.resetWith cfgT

end Sys2Proof.Machine
end

