-- ==== Sys2Proof/Machine/Inputs.lean ====
section
/-! DEFINITION. How the level of an asynchronous input reaches the hart: the synchronisers, and the free finite delay behind
them (R574, R585, R630, R692, R742, D20; logs 44, 47). -/

namespace Sys2Proof.Machine

variable {w : Nat}

/-- The levels on their way when some inputs, those in `mask`, already show their next change: what is seen now, and what is
still on its way. Every input shows its own levels in their order, none left out. -/
def lookAhead (mask seen : BitVec w) : List (BitVec w) → BitVec w × List (BitVec w)
  | [] => (seen, [])
  | l :: rest =>
    let now := mask &&& (l ^^^ seen)
    let r := lookAhead (mask &&& ~~~now) (seen ^^^ now) rest
    (r.1, ((l &&& ~~~mask) ||| (r.1 &&& mask)) :: r.2)

/-- One boundary of a delay line: the oldest level arrives after a finite, free delay, for some inputs sooner than for others; an
input of the mask shows its next change, or has the level that arrives, not both, so that each of its levels is seen at one
boundary at least (R585, R630, R742, D20; logs 44, 47). -/
def DelayLine.advance (d : DelayLine w) (seen mask : BitVec w) (draw : Nat) : BitVec w × DelayLine w :=
  let r := lookAhead mask seen d.queue
  match r.2 with
  | [] => (r.1, ⟨[], none⟩)
  | l :: rest =>
    match d.wait.getD draw with
    | 0 => (l, ⟨rest, none⟩)
    | n + 1 => (r.1, ⟨l :: rest, some n⟩)

/-- A level sets out, if it differs from the one that set out before it. -/
def DelayLine.push (d : DelayLine w) (seen level : BitVec w) : DelayLine w :=
  if level = d.queue.getLastD seen then d else { d with queue := d.queue ++ [level] }

/-- The inputs that change while the levels of a list follow `last`. -/
def changesOf (last : BitVec w) : List (BitVec w) → BitVec w
  | [] => 0
  | l :: rest => (l ^^^ last) ||| changesOf l rest

/-- The levels a synchroniser recognises of those its inputs take, from the `k`-th on, after it has recognised `passed`: of every
input its level or not, as it likes (R574, R692). -/
def recognised (missed : Nat → BitVec w) (k : Nat) (passed : BitVec w) : List (BitVec w) → List (BitVec w)
  | [] => []
  | l :: rest =>
    if l = passed then recognised missed (k + 1) passed rest
    else
      let q := (l &&& ~~~(missed k)) ||| (passed &&& missed k)
      q :: recognised missed (k + 1) q rest

/-- An input takes a level since the last boundary; `within` when the time of that inside the step is not known. -/
def InputLine.note (line : InputLine w) (within : Bool) (level : BitVec w) : InputLine w :=
  { line with
    taken := line.taken ++ [level]
    within := if within then line.within ||| (level ^^^ line.taken.getLastD line.last) else line.within }

/-- The inputs whose level at the last boundary has stood for two full cycles by now, or until it changed after the step: those
that stood through the step before as well, since a step takes a cycle at least, and all when the step took two (`long`); but not
those that changed at an unknown time within it (R574, R692, D21; log 47). -/
def InputLine.stood (line : InputLine w) (long : Bool) : BitVec w :=
  (if long then BitVec.allOnes w else ~~~line.recent) &&& ~~~line.within

/-- What the synchroniser has recognised when the levels that have stood for two cycles are: those it recognises for sure
(R574, R692). -/
def InputLine.certain (line : InputLine w) (long : Bool) : BitVec w :=
  if line.last = line.passed then line.passed
  else (line.last &&& line.stood long) ||| (line.passed &&& ~~~(line.stood long))

/-- The levels the synchroniser recognises at a boundary: those that have stood for two cycles, then those the inputs have taken
since, or not, as it likes (R574, R692; log 47; safe). -/
def InputLine.recognises (line : InputLine w) (missed : Nat → BitVec w) (long : Bool) (level : BitVec w) : List (BitVec w) :=
  let sure := line.certain long
  (if sure = line.passed then [] else [sure]) ++ recognised missed 0 sure (line.taken ++ [level])

/-- The synchroniser at a boundary, after a step that took two cycles or more (`long`) or may have taken one: every level it
recognises sets out (R574, R692; log 47). -/
def InputLine.sample (line : InputLine w) (missed : Nat → BitVec w) (long : Bool) (level : BitVec w) : InputLine w :=
  let new := line.recognises missed long level
  { taken := []
    within := 0
    last := level
    recent := changesOf line.last (line.taken ++ [level])
    passed := new.getLastD line.passed
    way := { line.way with queue := line.way.queue ++ new } }

/-- The hart's view of a group of inputs follows them: the synchroniser, then the delay (R692, R742). -/
def InputLine.follow (line : InputLine w) (missed : Nat → BitVec w) (long : Bool) (mask : BitVec w) (draw : Nat)
    (level seen : BitVec w) : BitVec w × InputLine w :=
  let line := line.sample missed long level
  let r := line.way.advance seen mask draw
  (r.1, { line with way := r.2 })

/-- A request pair: halt, then run. -/
def pairOf (halt run : Bool) : BitVec 2 := BitVec.ofBool halt ++ BitVec.ofBool run

/-- Changes the pins' lines. -/
def withLines (s : State) (f : InputLines → InputLines) : State := { s with lines := f s.lines }

end Sys2Proof.Machine
end

