-- ==== Sys2Proof/Machine/Platform.lean ====
section
/-! DEFINITION. The memory map a build lays out (R163 to R166, R182), and which builds are legal (R12, R13, R163, R702). -/

namespace Sys2Proof.Machine

/-- The region of an address: its bits 31:28 (R160). -/
def region (a : Word) : BitVec 4 := a.extractLsb' 28 4

/-- First byte of a block from its region and offset (R164). -/
def blockBase (r : BitVec 4) (offset : Nat) : Nat := r.toNat * 0x10000000 + offset

/-- Whether a byte address lies in the block of `kb` KB at `base`. -/
def inBlock (base kb a : Nat) : Bool := base ≤ a && a < base + kb * 1024

/-- `InICCM` (R164). -/
def inIccm (c : Build) (a : Word) : Bool :=
  c.iccmEnable && inBlock (blockBase c.iccmRegion c.iccmOffset) c.iccmKb a.toNat

/-- `InDCCM` (R164). -/
def inDccm (c : Build) (a : Word) : Bool :=
  inBlock (blockBase c.dccmRegion c.dccmOffset) c.dccmKb a.toNat

/-- First byte of the PIC block (R600). -/
def picBase (c : Build) : Nat := blockBase c.picRegion c.picOffset

/-- `InPIC` (R164). -/
def inPic (c : Build) (a : Word) : Bool := inBlock (picBase c) c.picKb a.toNat

/-- `IccmRegion` (R164). -/
def iccmRegion (c : Build) (a : Word) : Bool := c.iccmEnable && region a == c.iccmRegion

/-- `DataLocalRegion` (R164). -/
def dataLocalRegion (c : Build) (a : Word) : Bool :=
  region a == c.dccmRegion || region a == c.picRegion

/-- Whether an enabled window contains the byte (R182). -/
def Window.covers (w : Window) (b : Word) : Bool := w.enabled && b &&& ~~~w.mask == w.addr

/-- Whether the windows of a kind allow the byte: none is enabled, or an enabled one contains it (R182). -/
def windowsAllow (ws : List Window) (b : Word) : Bool :=
  !ws.any (·.enabled) || ws.any (Window.covers · b)

/-- `BusMap`: what answers at a bus address (R15, R171). -/
def busKind (c : Build) (a : Word) : BusKind :=
  match c.busMap.find? fun area => area.first ≤ a && a ≤ area.last with
  | some area => area.kind
  | none => .error

/-- Whether an instruction can be fetched from the address, as far as the map goes (R169 to R171). -/
def fetchable (c : Build) (a : Word) : Bool :=
  if iccmRegion c a then inIccm c a
  else windowsAllow c.instWindows a &&
    match busKind c a with
    | .memory | .rom _ => true
    | .device | .requestRegister | .error => false

/-- The naturally aligned, region-bounded placement of R12 for a block of `kb` KB aligned to `alignKb` KB. -/
def placed (kb alignKb offset : Nat) : Bool :=
  offset % (alignKb * 1024) == 0 && offset + kb * 1024 ≤ 0x10000000

/-- Whether two blocks share no byte (R12). -/
def apart (base1 kb1 base2 kb2 : Nat) : Bool :=
  base1 + kb1 * 1024 ≤ base2 || base2 + kb2 * 1024 ≤ base1

/-- The window argument rules of R13. -/
def Window.legal (w : Window) : Bool :=
  w.addr &&& 0x3F == 0 && w.mask &&& 0x3F == 0x3F && w.mask &&& (w.mask + 1) == 0 &&
    w.addr &&& w.mask == 0

/-- A bus area holds no address of a region with core-local memory (R163). -/
def BusArea.legal (c : Build) (area : BusArea) : Bool :=
  area.first ≤ area.last &&
    !((c.iccmEnable && region area.first ≤ c.iccmRegion && c.iccmRegion ≤ region area.last) ||
      (region area.first ≤ c.dccmRegion && c.dccmRegion ≤ region area.last) ||
      (region area.first ≤ c.picRegion && c.picRegion ≤ region area.last))

/-- The argument values of R11. -/
def argumentsLegal (c : Build) : Bool :=
  [4, 8, 16, 32, 64, 128, 256, 512].contains c.iccmKb &&
    [4, 8, 16, 32, 48, 64, 128, 256, 512].contains c.dccmKb &&
    [32, 64, 128, 256].contains c.picKb && [16, 32, 64, 128, 256].contains c.icacheKb &&
    2 ≤ c.picTotalInt && c.picTotalInt ≤ 255 &&
    c.instWindows.length ≤ 8 && c.dataWindows.length ≤ 8

/-- The placement rules of R12; a 48 KB DCCM is aligned to 64 KB. -/
def placementLegal (c : Build) : Bool :=
  let iccm := blockBase c.iccmRegion c.iccmOffset
  let dccm := blockBase c.dccmRegion c.dccmOffset
  let pic := picBase c
  (!c.iccmEnable || (placed c.iccmKb c.iccmKb c.iccmOffset &&
      apart iccm c.iccmKb dccm c.dccmKb && apart iccm c.iccmKb pic c.picKb)) &&
    placed c.dccmKb (if c.dccmKb = 48 then 64 else c.dccmKb) c.dccmOffset &&
    placed c.picKb c.picKb c.picOffset && apart dccm c.dccmKb pic c.picKb

/-- Whether memory answers at the address: the initial image lists nothing else (R15). -/
def isMemory (c : Build) (a : Word) : Bool :=
  inIccm c a || inDccm c a ||
    match busKind c a with
    | .memory | .rom _ => true
    | .device | .requestRegister | .error => false

/-- The machine timer is a device on the bus, where there is one (R15, D19; log 1). -/
def timerLegal (c : Build) : Option Word → Bool
  | none => true
  | some a => busKind c a == .device

/-- The platform parameters of R15: bus areas, initial image, machine timer; and a reset vector whose parcel can be
fetched (R702). -/
def platformLegal (c : Build) : Bool :=
  c.busMap.all (BusArea.legal c) && timerLegal c c.mtimeAddr && timerLegal c c.mtimecmpAddr &&
    (c.image.all fun e => e.1 < 0x100000000 && isMemory c (BitVec.ofNat 32 e.1)) &&
    fetchable c (c.rstVec ++ 0#1) && fetchable c (c.rstVec ++ 1#1)

/-- A build that is a SweRV EH1 on a usable platform (R12, R13, R163, R166, R702). -/
def legalBuild (c : Build) : Bool :=
  argumentsLegal c && placementLegal c && c.instWindows.all Window.legal &&
    c.dataWindows.all Window.legal && platformLegal c

/-- The state in which a build comes out of reset; an illegal build is refused (R12, R702; log 40). -/
def boot (c : Build) : Host.Outcome State Fault Refusal :=
  if legalBuild c then .next (State.resetWith c) else .refused .illegalConfiguration

end Sys2Proof.Machine
end

