-- ==== Sys2Proof/Machine/Memory.lean ====
section
/-! DEFINITION. Sparse memory in canonical form, little-endian values, ECC words and the fetch side's view of bytes. -/

namespace Sys2Proof.Machine

/-- The canonical form of memory: addresses strictly rising. An address that is not listed has never been written;
what it then reads as is `Config.initialByte`, a value no entry can be equal to by computation (log 5). -/
def Memory.wf (m : List Host.Cell) : Bool := rising m

/-! ## Bytes -/

/-- The content of a memory byte: what was written last, else the initial content (R15, R704; log 5). -/
def memByte (s : State) (a : Nat) : Byte := (cellGet s.mem a).getD (Config.initialByte a)

/-- Writes a byte of memory from which nothing is fetched (DCCM, R185). -/
def writeByte (s : State) (a : Nat) (b : Byte) : State := { s with mem := cellSet s.mem a b }

/-- Writes a byte of memory that can be fetched: the fetch side may go on using the old value until FENCE.I
(R191; log 21). -/
def writeFetchableByte (s : State) (a : Nat) (b : Byte) : State :=
  { s with mem := cellSet s.mem a b, stale := (a, cellGet s.mem a) :: s.stale }

/-- The hart stores a byte from which nothing is fetched; until FENCE a reset may undo it (R185, R705; log 30). -/
def storeByte (s : State) (a : Nat) (b : Byte) : State :=
  { writeByte s a b with unfenced := (a, cellGet s.mem a) :: s.unfenced }

/-- The hart stores a byte that can be fetched (R191, R705; logs 21, 30). -/
def storeFetchableByte (s : State) (a : Nat) (b : Byte) : State :=
  { writeFetchableByte s a b with unfenced := (a, cellGet s.mem a) :: s.unfenced }

/-- The values the byte has held since the last FENCE.I, without the present one (R191). -/
def staleValues (s : State) (a : Nat) : List (Option Byte) := heldAt s.stale a

/-- A byte as the fetch side sees it: the present value or an older one (R191; log 21). -/
def fetchByte (s : State) (a : Nat) : Byte :=
  (pickAmong (Config.fetchPick s.stepNo a) (cellGet s.mem a) (staleValues s a)).getD (Config.initialByte a)

/-- Byte `k` of a word (R161). -/
def byteOf (v : Word) (k : Nat) : Byte := v.extractLsb' (8 * k) 8

/-- The little-endian value of `n` bytes, 1, 2 or 4, at `a`, zero-extended (R161). -/
def assemble (f : Nat → Byte) (a n : Nat) : Word :=
  match n with
  | 1 => (f a).setWidth 32
  | 2 => (f (a + 1) ++ f a).setWidth 32
  | _ => f (a + 3) ++ f (a + 2) ++ f (a + 1) ++ f a

/-- Writes the low `n` bytes of a value, lowest first (R161). -/
def writeBytes (w : State → Nat → Byte → State) (s : State) (a n : Nat) (v : Word) : State :=
  (List.range n).foldl (fun s k => w s (a + k) (byteOf v k)) s

/-! ## ECC words (R220 to R223; log 6) -/

/-- The value of `mfdc` that acts now: an older one may act until FENCE.I (R723, D32; log 16). -/
def mfdcNow (s : State) : Word := pickAmong (Config.mfdcPick s.stepNo) s.csr.mfdc s.mfdcOld

/-- Whether ICCM and DCCM errors are detected: `mfdc.cecd` = 0 (R116, R220). -/
def eccChecked (s : State) : Bool := !(mfdcNow s).getLsbD 8

/-- What an access to a closely-coupled word meets. -/
inductive WordCheck where
  /-- the data -/
  | sound
  /-- the data, after a correction that is counted -/
  | corrected
  /-- an uncorrectable error -/
  | failed
  /-- data spoilt by an error nobody checks -/
  | spoilt
  /-- an uninitialised word that reports no error -/
  | anything
  deriving DecidableEq, Repr

/-- What an access to ICCM or DCCM word `w` (address / 4) meets (R220 to R223). -/
def checkWord (s : State) (w : Nat) : WordCheck :=
  match cellGet s.ecc w with
  | some .good => .sound
  | some .correctable => if eccChecked s then .corrected else .spoilt
  | some .uncorrectable => if eccChecked s then .failed else .spoilt
  | none =>
    if eccChecked s then
      if Config.uninitialisedErrs s.stepNo (4 * w) then .failed else .anything
    else .sound

/-- A byte of a closely-coupled word, by what the access meets; `f` is the content. -/
def checkedByte (s : State) (f : Nat → Byte) (a : Nat) : Byte :=
  match checkWord s (a / 4) with
  | .spoilt => Config.corruptedByte s.stepNo a
  | .anything => Config.uninitialisedByte s.stepNo a
  | .sound | .corrected | .failed => f a

/-- Adds one to the 27-bit count of an error counter register (R106). -/
def bumpCount (v : Word) : Word := v.extractLsb' 27 5 ++ (v.extractLsb' 0 27 + 1)

/-- Marks a word's check bits. -/
def setEcc (s : State) (w : Nat) (e : EccState) : State := { s with ecc := cellSet s.ecc w e }

/-- A store of the hart marks a word's check bits; until FENCE a reset may undo it (R705; log 30). -/
def storeEcc (s : State) (w : Nat) (e : EccState) : State :=
  { setEcc s w e with unfencedEcc := (w, cellGet s.ecc w) :: s.unfencedEcc }

/-- The closely-coupled memories, for the counter that counts their errors. -/
inductive Ccm where
  | iccm
  | dccm
  deriving DecidableEq, Repr

/-- Counts a corrected error of the memory (R106). -/
def countCorrected (s : State) : Ccm → State
  | .iccm => { s with csr := { s.csr with miccmect := bumpCount s.csr.miccmect } }
  | .dccm => { s with csr := { s.csr with mdccmect := bumpCount s.csr.mdccmect } }

/-- The corrected word is written back and counted, if the access met a correctable error (R221). -/
def writeBackWord (m : Ccm) (s : State) (w : Nat) : State :=
  match checkWord s w with
  | .corrected => setEcc (countCorrected s m) w .good
  | _ => s

/-- The words of an access have their correctable errors corrected, written back and counted (R221). -/
def writeBack (m : Ccm) (s : State) (ws : List Nat) : State := ws.foldl (writeBackWord m) s

/-- The words that `n` bytes at `a` touch, as address / 4; `n` is at most 8. -/
def wordsOf (a n : Nat) : List Nat :=
  (List.range ((a + n - 1) / 4 - a / 4 + 1)).map (a / 4 + ·)

/-- Whether an access to the words meets an uncorrectable error. -/
def anyFailed (s : State) (ws : List Nat) : Bool := ws.any fun w => checkWord s w == .failed

/-- The SoC reports an error with the data of one of the words (R172, R188, R213). -/
def socFailed (s : State) (ws : List Nat) : Bool :=
  ws.any fun w => cellGet s.ecc w == some .uncorrectable

end Sys2Proof.Machine
end

