-- ==== Sys2Proof/Machine/Pic.lean ====
section
/-! DEFINITION. The programmable interrupt controller: gateways, registers, evaluation, claim (61_pic.md). -/

namespace Sys2Proof.Machine

/-- Bits 1 to `Smax` (R570). -/
def sourceMask (c : Build) : BitVec 256 := BitVec.ofNat 256 (2 ^ (c.picTotalInt + 1) - 2)

/-- Whether source `n` exists (R570). -/
def validSource (c : Build) (n : Nat) : Bool := 1 ≤ n && n ≤ c.picTotalInt

/-- The sources with a configurable gateway (R575, R576). -/
def configurable (c : Build) : BitVec 256 := c.gatewayConfigurable &&& sourceMask c

/-- `v` with bit `i` set to `b`. -/
def putBit {w : Nat} (v : BitVec w) (i : Nat) (b : Bool) : BitVec w :=
  if b then v ||| BitVec.twoPow w i else v &&& ~~~(BitVec.twoPow w i)

/-- The levels of `extintsrc_req`: the host's pins and the test device's bits 8:1 (R574, 96_test_programs.md). -/
def requestLevels (s : State) : BitVec 256 := s.pins.extInt ||| s.devReq.setWidth 256

/-- The request inputs have changed, between two steps, or `within` one (R574). -/
def noteRequests (s : State) (within : Bool) : State :=
  withLines s fun l => { l with ext := l.ext.note within (requestLevels s) }

/-- The gateways' requests to the PIC core, from the last sample (R575, R576). -/
def requests (c : Build) (p : PicRegs) : BitVec 256 :=
  let edge := p.gwType &&& configurable c
  let active := p.prev ^^^ (p.gwPol &&& configurable c)
  ((active &&& ~~~edge) ||| (p.ip &&& edge)) &&& sourceMask c

/-- The evaluation sees source `n`'s request as it is now, and no older one any more: what a store to its gateway leaves
(R630). -/
def restage (c : Build) (n : Nat) (p : PicRegs) : PicRegs :=
  let now := (requests c p).getLsbD n
  { p with
    staged := putBit p.staged n now
    staging := { p.staging with queue := p.staging.queue.map fun l => putBit l n now } }

/-- The inversion of the reverse priority order (R581). -/
def orderMask (priord : Bool) : BitVec 4 := if priord then 0xF else 0

/-- A word store at an offset of the block, R603 to R608; unused addresses drop it (R601; log 33). A write to
`meigwctrlS` leaves IP[S] arbitrary (R577; log 19). -/
def storePic (c : Build) (step : Nat) (p : PicRegs) (offset : Nat) (v : Word) : PicRegs :=
  let n := offset % 0x1000 / 4
  match offset / 0x1000 with
  | 0 =>
    if validSource c n then
      { p with
        ipl := p.ipl.set (BitVec.ofNat 8 n) (v.extractLsb' 0 4 ^^^ orderMask p.priord)
        doubt := putBit p.doubt n false }
    else p
  | 2 => if validSource c n then { p with inten := putBit p.inten n (v.getLsbD 0) } else p
  | 4 =>
    if (configurable c).getLsbD n then
      restage c n { p with
        gwType := putBit p.gwType n (v.getLsbD 1)
        gwPol := putBit p.gwPol n (v.getLsbD 0)
        ip := putBit p.ip n ((Config.gatewayIp step).getLsbD n) }
    else p
  | 5 => if (configurable c).getLsbD n then restage c n { p with ip := putBit p.ip n false } else p
  | _ => p

/-- The priority levels of sources 1 to `n` are anything: what a late change of the order leaves (R582; log 17). -/
def lateLevels (step : Nat) (b : Bank256 (BitVec 4)) : Nat → Bank256 (BitVec 4)
  | 0 => b
  | n + 1 => (lateLevels step b n).set (BitVec.ofNat 8 (n + 1)) (Config.lateLevel step (n + 1))

/-- A change of the priority order. It leaves the reset values when all registers hold them, else any; in the reverse
order, and after a late change, no register has a value to read until it is written (R582, D18; log 17). -/
def changeOrder (c : Build) (step : Nat) (p : PicRegs) (b late : Bool) : PicRegs :=
  { p with
    priord := b
    ipl := if late then lateLevels step p.ipl c.picTotalInt else p.ipl
    doubt := if b || late then sourceMask c else 0 }

/-- The gateways whose stores have taken effect so far, in one view of the PIC. -/
structure GatewayView where
  /-- by a store to `meigwctrlS` -/
  configured : BitVec 256
  /-- by a store to `meigwctrlS` or `meigwclrS` -/
  touched : BitVec 256
  deriving DecidableEq, Repr

/-- No gateway store has taken effect. -/
def GatewayView.none : GatewayView := ⟨0, 0⟩

/-- The source whose gateway an update writes, when it is a store to that page of the block (R607, R608). -/
def gatewaySource (page : Nat) : PicUpdate → BitVec 256
  | .store offset _ => if offset / 0x1000 = page then BitVec.twoPow 256 (offset % 0x1000 / 4) else 0
  | .order _ _ => 0
  | .edge _ _ => 0

/-- The view after one more update. -/
def GatewayView.after (g : GatewayView) (u : PicUpdate) : GatewayView where
  configured := g.configured ||| gatewaySource 4 u
  touched := g.touched ||| gatewaySource 4 u ||| gatewaySource 5 u

/-- The sources with a gateway store in the queue. -/
def gatewayStores (q : List PicUpdate) : BitVec 256 := (q.foldl GatewayView.after GatewayView.none).touched

/-- The edges a view has latched: under the old configuration or the new one, as the view has it; an edge beside a
store that has taken effect may be lost (R577, D32; log 19). -/
def edgesLatched (step : Nat) (g : GatewayView) (before after : BitVec 256) : BitVec 256 :=
  let edges := (before &&& ~~~g.configured) ||| (after &&& g.configured)
  if g.touched = 0 then edges else edges &&& ~~~(g.touched &&& Config.edgesLost step)

/-- Edges set the pending bits; some of them the evaluation sees at once, and then no older level of that source. Before the
fence whether it sees one is drawn anew at each boundary, so that it may see it, lose it and see it again: R585 and R630 do not
say when it sees an edge beside a waiting store (DESIGN CHOICE, log 44; safe). -/
def latchEdges (c : Build) (step : Nat) (p : PicRegs) (edges : BitVec 256) : PicRegs :=
  let p := { p with ip := p.ip ||| edges }
  let early := edges &&& Config.stageMask step
  let now := fun l => (l &&& ~~~early) ||| (requests c p &&& early)
  { p with staged := now p.staged, staging := { p.staging with queue := p.staging.queue.map now } }

/-- One update takes effect in a view. -/
def applyUpdate (c : Build) (step : Nat) (g : GatewayView) (p : PicRegs) : PicUpdate → PicRegs
  | .store offset v => storePic c step p offset v
  | .order b late => changeOrder c step p b late
  | .edge before after => latchEdges c step p (edgesLatched step g before after)

/-- Whether an update takes effect whatever the PIC does about stores: an edge is the gateway's own. -/
def PicUpdate.isEdge : PicUpdate → Bool
  | .edge _ _ => true
  | .store _ _ | .order _ _ => false

/-- The edges, and the stores that `acts` selects, take effect in order. -/
def applyUpdates (c : Build) (step : Nat) (acts : Nat → Bool) :
    Nat → GatewayView → PicRegs → List PicUpdate → PicRegs
  | _, _, p, [] => p
  | i, g, p, u :: us =>
    if u.isEdge || acts i then applyUpdates c step acts (i + 1) (g.after u) (applyUpdate c step g p u) us
    else applyUpdates c step acts (i + 1) g p us

/-- The registers with every store applied: what the hart's own loads see (R602), and what a fence leaves. -/
def picNewest (s : State) : PicRegs :=
  applyUpdates s.cfg s.stepNo (fun _ => true) 0 .none s.pic s.picQueue

/-- The registers as the PIC acts on them now: each un-fenced update may be in effect or not, afresh at each use
`u` (R721, D32; log 18). -/
def picNow (s : State) (u : Nat) : PicRegs :=
  applyUpdates s.cfg s.stepNo (Config.picActs s.stepNo u) 0 .none s.pic s.picQueue

/-- The winner among the sources 1 to `n` that take part: highest priority, lowest ID (R584, R585). -/
def winnerUpTo (p : PicRegs) (taking : BitVec 256) : Nat → BitVec 4 × BitVec 8
  | 0 => (0, 0)
  | n + 1 =>
    let w := winnerUpTo p taking n
    let level := p.ipl.get (BitVec.ofNat 8 (n + 1))
    if taking.getLsbD (n + 1) && w.1 < level then (level, BitVec.ofNat 8 (n + 1)) else w

/-- `maxpri` and `winid`, of the requests as the evaluation sees them (R585, R630). -/
def picWinner (c : Build) (p : PicRegs) : BitVec 4 × BitVec 8 :=
  let taking := p.staged &&& p.inten
  if taking = 0 then (0, 0) else winnerUpTo p taking c.picTotalInt

/-- `mexintirq`, which is `mip.meip` (R590, R540). -/
def externalPending (s : State) (u : Nat) : Bool :=
  let m := (picWinner s.cfg (picNow s u)).1
  s.csr.ithresh < m && s.csr.icur < m

/-- `mhwakeup` (R591). -/
def wakeUpNotification (s : State) (u : Nat) : Bool := (picWinner s.cfg (picNow s u)).1 == 15

/-- The claim a write of `meicpct` triggers (R593). -/
def captureClaim (s : State) : State :=
  let w := picWinner s.cfg (picNow s 2)
  { s with csr := { s.csr with claimid := w.2, iclid := w.1, priDoubt := putBit s.csr.priDoubt 1 false } }

/-- Word `x` of the pending bits (R583, R605). -/
def pendingWord (c : Build) (p : PicRegs) (x : Nat) : Word := (requests c p).extractLsb' (32 * x) 32

/-- A word load at an offset of the block (R601 to R608). The pending bits are computed by the PIC as it acts now;
every other register reads as last stored (R721). -/
def loadPic (s : State) (offset : Nat) : Word :=
  let c := s.cfg
  let p := picNewest s
  let n := offset % 0x1000 / 4
  match offset / 0x1000 with
  | 0 =>
    if validSource c n then
      (if p.doubt.getLsbD n then Config.openPriority s.stepNo n
        else p.ipl.get (BitVec.ofNat 8 n) ^^^ orderMask p.priord).setWidth 32
    else 0
  | 1 => if n ≤ c.picTotalInt / 32 then pendingWord c (picNow s 3) n else 0
  | 2 => if validSource c n then (BitVec.ofBool (p.inten.getLsbD n)).setWidth 32 else 0
  | 3 => if n = 0 then (BitVec.ofBool p.priord).setWidth 32 else 0
  | 4 =>
    if (configurable c).getLsbD n then
      (BitVec.ofBool (p.gwType.getLsbD n) ++ BitVec.ofBool (p.gwPol.getLsbD n)).setWidth 32
    else 0
  | _ => 0

/-- Whether every priority register holds its reset value (R582). -/
def prioritiesReset (s : State) : Bool :=
  (picNewest s).ipl == Bank256.fill 0 && s.csr.ithresh == 0 && s.csr.iclid == 0 && s.csr.icur == 0

/-- A store to `mpiccfg` that changes the order: with every priority register at its reset value it is the use R582
asks for; a late one leaves the CSRs with any level (R582, D18; log 17). -/
def issueOrder (s : State) (b : Bool) : State :=
  if prioritiesReset s then
    { s with
      picQueue := s.picQueue ++ [.order b false]
      csr := { s.csr with priDoubt := if b then 7 else 0 } }
  else
    { s with
      picQueue := s.picQueue ++ [.order b true]
      csr := { s.csr with
        ithresh := Config.lateLevel s.stepNo 256
        iclid := Config.lateLevel s.stepNo 257
        icur := Config.lateLevel s.stepNo 258
        priDoubt := 7 } }

/-- A word store by the hart to the PIC block: issued now, acted on by a fence at the latest (R602, R721). -/
def issuePicStore (s : State) (offset : Nat) (v : Word) : State :=
  if offset = 0x3000 then
    if v.getLsbD 0 == (picNewest s).priord then s else issueOrder s (v.getLsbD 0)
  else { s with picQueue := s.picQueue ++ [.store offset v] }

/-- Every store to the PIC has taken effect: what FENCE waits for (R602, R721). -/
def settlePic (s : State) : State := { s with pic := picNewest s, picQueue := [] }

/-! ## What the gateways and the evaluation see (R574, R577, R630) -/

/-- The edges the gateways see when the inputs go from the last sample to `levels` (R577). -/
def edgesSeen (c : Build) (p : PicRegs) (levels : BitVec 256) : BitVec 256 :=
  (levels ^^^ p.gwPol) &&& ~~~(p.prev ^^^ p.gwPol) &&& p.gwType &&& configurable c

/-- The gateways take a new sample. An edge at a gateway with a waiting store is kept with both readings of its
configuration (R577, D32; log 19). -/
def takeSample (s : State) (levels : BitVec 256) : State :=
  let waiting := gatewayStores s.picQueue
  let before := edgesSeen s.cfg s.pic levels
  let after := edgesSeen s.cfg (picNewest s) levels
  let s := { s with pic := { s.pic with prev := levels, ip := s.pic.ip ||| (before &&& ~~~waiting) } }
  if (before ||| after) &&& waiting = 0 then s
  else { s with picQueue := s.picQueue ++ [.edge (before &&& waiting) (after &&& waiting)] }

/-- The gateways sample their synchronised inputs, once at each instruction boundary: an input that stands for two cycles is
seen, some time after its change; `long` when the step before took two cycles (R574, R577, R742; logs 19, 44, 47). -/
def sampleGateways (s : State) (long : Bool) : State :=
  let d := s.lines.ext.follow (Config.levelMissed s.stepNo 4) long (Config.inputMask s.stepNo) (Config.inputDelay s.stepNo)
    (requestLevels s) s.pic.prev
  takeSample (withLines s fun l => { l with ext := d.2 }) d.1

/-- The requests reach the evaluation in their order, some time after a change (R585, R630; log 44). -/
def stageRequests (s : State) : State :=
  let d := (s.pic.staging.push s.pic.staged (requests s.cfg s.pic)).advance s.pic.staged (Config.stageMask s.stepNo)
    (Config.stageDelay s.stepNo)
  { s with pic := { s.pic with staged := d.1, staging := d.2 } }

end Sys2Proof.Machine
end

