-- ==== Sys2Proof/Machine/Counters.lean ====
section
/-! DEFINITION. The cycle counter, the retired-instruction counter and the event counters (R52 to R57, R670 to R675). -/

namespace Sys2Proof.Machine

/-- The cycles of `n` counting steps from step `k`: at least one each (R671, D21; log 12). -/
def cyclesFrom (k : Nat) : Nat → Nat
  | 0 => 0
  | n + 1 => cyclesFrom k n + (1 + Config.extraCycles (k + n))

/-- The present value of `{mcycleh, mcycle}` (R52, R671). -/
def mcycleNow (s : State) : BitVec 64 :=
  s.counters.mcycle +
    BitVec.ofNat 64 (cyclesFrom s.counters.mcycleMark (s.counters.cycleSteps - s.counters.mcycleMark))

/-- Sets `{mcycleh, mcycle}`; it counts on from there. -/
def setMcycle (s : State) (v : BitVec 64) : State :=
  { s with counters := { s.counters with mcycle := v, mcycleMark := s.counters.cycleSteps } }

/-- The classes of instructions that the events distinguish (R673). -/
inductive InstrClass where
  /-- the integer instructions, NOP and WFI: the ALU operations of event 15 (R300, R400, R404, R474) -/
  | alu
  | mul
  | div
  | load
  | store
  | csr
  | fence
  | fenceI
  | mret
  | branch (taken : Bool)
  | jump
  deriving DecidableEq, Repr

/-- What the events need to know of a retired instruction. -/
structure Retired where
  /-- a 16-bit instruction -/
  short : Bool
  cls : InstrClass
  /-- a load or store whose address is not a multiple of its size -/
  misaligned : Bool
  deriving DecidableEq, Repr

/-- How often a retired instruction counts for an event: exact where R300, R404 and R673 are exact, a draw where the
membership of its class is not stated (R455, R673; log 13), zero for the events counted elsewhere. -/
def retiredEvents (step : Nat) (r : Retired) (e : Nat) : Nat :=
  match e with
  | 4 => 1
  | 5 => r.short.toNat
  | 6 => (!r.short).toNat
  | 9 => (r.cls == .mul).toNat
  | 10 => (r.cls == .div).toNat
  | 11 => (r.cls == .load).toNat
  | 12 => (r.cls == .store).toNat
  | 13 => (r.cls == .load && r.misaligned).toNat
  | 14 => (r.cls == .store && r.misaligned).toNat
  | 15 => if r.cls == .alu then 1 else (Config.classDraw step 15).toNat
  | 16 | 17 | 18 => if r.cls == .csr then (Config.classDraw step e).toNat else 0
  | 21 => (r.cls == .fence).toNat
  | 22 => (r.cls == .fenceI).toNat
  | 23 => (r.cls == .mret).toNat
  | 24 =>
    match r.cls with
    | .branch _ => 1
    | .jump => (Config.classDraw step 24).toNat
    | _ => 0
  | 26 =>
    match r.cls with
    | .branch taken => taken.toNat
    | .jump => (Config.classDraw step 26).toNat
    | _ => 0
  | _ => 0

/-- The events whose counts depend on the microarchitecture (R673). -/
def inexactEvent (e : Nat) : Bool :=
  match e with
  | 1 | 2 | 3 | 7 | 8 | 25 | 27 => true
  | _ => (28 ≤ e && e ≤ 36) || (40 ≤ e && e ≤ 50)

/-- Adds to counter `n`, 3 to 6 given as 0 to 3, the count of its selected event. -/
def addEvent (f : Nat → Nat → Nat) (c : Counters) (n : BitVec 2) : Counters :=
  { c with hpm := c.hpm.set n (c.hpm.get n + BitVec.ofNat 64 (f n.toNat (c.event.get n).toNat)) }

/-- The event counters count `f counter event`, while `mgpmc.enable` is 1 (R54, R110). -/
def countEvents (s : State) (f : Nat → Nat → Nat) : State :=
  if s.csr.mgpmc.getLsbD 0 then
    { s with counters := addEvent f (addEvent f (addEvent f (addEvent f s.counters 0) 1) 2) 3 }
  else s

/-- Whether `mcycle` and the event counters run: while Running, and in db-halt unless `dcsr.stopcount` (R641, R672). -/
def countersRun (s : State) : Bool :=
  match s.activity with
  | .running => true
  | .dbHalt => !s.csr.dcsr.getLsbD 10
  | .pmuFwHalt => false

/-- How often counter `n` counts an inexact event in this step (R673; log 13). -/
def inexactCount (s : State) (n e : Nat) : Nat := if inexactEvent e then Config.eventDraw s.stepNo n else 0

/-- The cycles and the inexact events of one step (R671, R673; logs 12, 13). -/
def countStep (s : State) : State :=
  if countersRun s then
    let s := { s with counters := { s.counters with cycleSteps := s.counters.cycleSteps + 1, stepCounted := true } }
    countEvents s (inexactCount s)
  else { s with counters := { s.counters with stepCounted := false } }

/-- The cycles of the step last counted (R671; log 12). -/
def cyclesNow (s : State) : Nat := 1 + Config.extraCycles (s.counters.cycleSteps - 1)

/-- Whether the last step is known to have taken two cycles or more; of one that has not counted nothing is known but that it took
one (R671, D21; logs 12, 47). -/
def longStep (s : State) : Bool := s.counters.stepCounted && decide (2 ≤ cyclesNow s)

/-- The cycles of the step under way that come before its instruction reads a counter: any number, for the instruction may have
waited, but its own cycle comes after (R671, R672; log 12). -/
def cyclesBeforeRead (s : State) : Nat :=
  let k := s.counters.cycleSteps - 1
  min (Config.cyclesBefore k) (Config.extraCycles k)

/-- Takes back from counter `n` what the step under way adds to it after its instruction's read: any part of what it adds
(R671, R672; log 13). -/
def takeBack (s : State) (c : Counters) (n : BitVec 2) : Counters :=
  let all := if s.csr.mgpmc.getLsbD 0 then inexactCount s n.toNat (c.event.get n).toNat else 0
  { c with hpm := c.hpm.set n (c.hpm.get n - BitVec.ofNat 64 (all - Config.eventsBefore s.stepNo n.toNat)) }

/-- The counters without what the step under way adds after its instruction's read, if it has been counted: what a CSR
instruction reads, "incremented after a read access". Between a write and the next instruction's read the counter has advanced by
any amount (R671, R672; log 12). -/
def countersBefore (s : State) : Counters :=
  if s.counters.stepCounted then
    let c := { s.counters with
      cycleSteps := s.counters.cycleSteps - 1
      mcycle := s.counters.mcycle + BitVec.ofNat 64 (cyclesBeforeRead s) }
    takeBack s (takeBack s (takeBack s (takeBack s c 0) 1) 2) 3
  else s.counters

/-- The state as a CSR instruction reads it. -/
def beforeStep (s : State) : State := { s with counters := countersBefore s }

end Sys2Proof.Machine
end

