-- ==== Sys2Proof/Machine/Bus.lean ====
section
/-! DEFINITION. The D-bus side of the load/store unit: write buffer, transactions, answers, error capture
(R201 to R216). -/

namespace Sys2Proof.Machine

/-! ## What the SoC does with an access -/

/-- Whether an access replaces a whole aligned word. -/
def wholeWord (a : Word) (n : Nat) : Bool := n == 4 && a.extractLsb' 0 2 == 0

/-- Whether the SoC answers the write of byte `a` with an error: nothing there, a ROM that rejects, a device that
errs, or a partial write of a memory word with an error indication (R183, R188, R212, R214). -/
def writeFails (s : State) (whole : Bool) (a : Word) : Bool :=
  match busKind s.cfg a with
  | .memory => !whole && socFailed s [a.toNat / 4]
  | .rom rejects => rejects
  | .device => Config.deviceErrs s.stepNo a.toNat
  | .requestRegister => false
  | .error => true

/-- The SoC performs the write of one byte to memory; other kinds change no memory. A byte whose own address does not fail is
written, also when the transaction is answered with an error for another: what such a store changes R214 calls the SoC's affair
(R186; DESIGN CHOICE, log 50; unsafe). -/
def busWriteByte (whole : Bool) (s : State) (a : Nat) (b : Byte) : State :=
  match busKind s.cfg (BitVec.ofNat 32 a) with
  | .memory => if writeFails s whole (BitVec.ofNat 32 a) then s else storeFetchableByte s a b
  | .rom _ | .device | .requestRegister | .error => s

/-- A whole-word write gives a memory word sound check bits (R186). -/
def healWord (s : State) (a : Word) : State :=
  match busKind s.cfg a with
  | .memory => if (cellGet s.ecc (a.toNat / 4)).isSome then storeEcc s (a.toNat / 4) .good else s
  | .rom _ | .device | .requestRegister | .error => s

/-- The byte addresses of an access; none of them wraps, since no access crosses a region (R177). -/
def accessBytes (a : Word) (n : Nat) : List Word := (List.range n).map fun k => a + BitVec.ofNat 32 k

/-- Whether a device answers at the address. -/
def isDevice (c : Build) (a : Word) : Bool :=
  match busKind c a with
  | .device | .requestRegister => true
  | .memory | .rom _ | .error => false

/-- What devices see of an access: all of it, when one of its bytes is theirs (log 28). -/
def traceDevice (s : State) (d : DeviceAccess) : State :=
  if (accessBytes d.addr d.size).any (isDevice s.cfg) then { s with deviceTrace := s.deviceTrace ++ [d] } else s

/-- A whole-word write replaces the test register, bits 8:1 kept; the request inputs it drives change with it
(96_test_programs.md). -/
def writeDevReq (s : State) (st : BusStore) : State :=
  match busKind s.cfg st.addr with
  | .requestRegister => if wholeWord st.addr st.size then noteRequests { s with devReq := st.data &&& 0x1FE } true else s
  | .memory | .rom _ | .device | .error => s

/-- What devices and the test register see of a store: its valid bytes (R186; log 28). -/
def showStore (s : State) (st : BusStore) : State :=
  writeDevReq (traceDevice s ⟨.write, st.addr, st.size, assemble (byteOf st.data) 0 st.size, st.joined⟩) st

/-- The SoC performs a store: it is visible to every agent from then on. Whether two observers see two stores in one order R209
leaves to the SoC's interconnect; the model has one memory and one order for all of them (DESIGN CHOICE, log 49; unsafe). -/
def performStore (s : State) (st : BusStore) : State :=
  let whole := wholeWord st.addr st.size
  let s := writeBytes (busWriteByte whole) s st.addr.toNat st.size st.data
  showStore (if whole then healWord s st.addr else s) st

/-- Whether the SoC answers a store with an error. -/
def storeFails (s : State) (st : BusStore) : Bool :=
  (accessBytes st.addr st.size).any (writeFails s (wholeWord st.addr st.size))

/-- The stores of one transaction are performed in order; the answer is an error when one of them fails. The others are performed
all the same, which R214 leaves to the SoC (DESIGN CHOICE, log 50; unsafe). -/
def performGroup : State → List BusStore → State × Bool
  | s, [] => (s, false)
  | s, st :: rest =>
    let r := performGroup (performStore s st) rest
    (r.1, storeFails s st || r.2)

/-- The answer a transaction of stores will get: its bytes run from the lowest to the highest stored. That the bytes between
coalesced stores, which none of them writes, belong to the transaction's addresses is a DESIGN CHOICE (R187, R203 do not say;
it matters to the captured byte and to an abandoned transaction, logs 8, 30; safe). -/
def groupResponse (st : BusStore) (joined : List BusStore) (isError : Bool) : BusResponse :=
  let first := joined.foldl (fun m x => min m x.addr.toNat) st.addr.toNat
  let last := joined.foldl (fun m x => max m (x.addr.toNat + x.size)) (st.addr.toNat + st.size)
  { addr := BitVec.ofNat 32 first, size := last - first, isLoad := false, isError
    anyByte := st.part || !joined.isEmpty }

/-! ## Answers and the error capture (R207, R215) -/

/-- The captured address: of the failing access, and of any byte of the transaction when it was split or coalesced
(R215; log 8). -/
def capturedAddress (s : State) (r : BusResponse) : Word :=
  if r.anyByte then r.addr + BitVec.ofNat 32 (Config.capturedByte s.stepNo % r.size) else r.addr

/-- The error of a batch reported in one cycle that is captured: a load error first (R215). -/
def firstError (batch : List BusResponse) : Option BusResponse :=
  match batch.find? fun r => r.isError && r.isLoad with
  | some r => some r
  | none => batch.find? fun r => r.isError

/-- Answers reported at one moment: the first error is captured, unless `mdseac` is locked (R215). -/
def reportAnswers (s : State) (batch : List BusResponse) : State :=
  match firstError batch with
  | none => s
  | some r =>
    if s.mdseacLocked then s
    else
      { s with
        csr := { s.csr with mdseac := capturedAddress s r }
        mdseacLocked := true
        dbusErr := some (if r.isLoad then .load else .store) }

/-- The oldest `n` outstanding transactions are answered at one moment. -/
def answer (s : State) (n : Nat) : State :=
  reportAnswers { s with responses := s.responses.drop n } (s.responses.take n)

/-- Every outstanding transaction is answered, in one cycle or one after another (R207, R215; log 9). -/
def answerAll (s : State) : State :=
  let batch := s.responses
  let s := { s with responses := [] }
  if batch.any (·.isError) then
    if Config.reportedTogether s.stepNo then reportAnswers s batch
    else batch.foldl (fun s r => reportAnswers s [r]) s
  else s

/-- A transaction is sent only while fewer than 255 are outstanding: an answer is waited for (R207; log 34). -/
def waitForRoom (s : State) : State := if s.responses.length < 255 then s else answer s (s.responses.length - 254)

/-- The transaction is sent; its answer is outstanding. -/
def sendTransaction (s : State) (r : BusResponse) : State := { s with responses := s.responses ++ [r] }

/-! ## The write buffer (R201 to R204) -/

/-- Side-effect stores hold back every later transaction until answered: `mfdc.sepd` (R116, R203; log 38). -/
def sideEffectStoresBlock (s : State) : Bool := (mfdcNow s).getLsbD 6

/-- The oldest store leaves the buffer, with the stores coalesced into its transaction, and is performed
(R187, R201, R202, R203). With `mfdc.sepd` = 1 the response to a side-effect store arrives in the step that sends it, so that it is
outstanding at no boundary: when it arrives R203, R214 and R216 leave open (DESIGN CHOICE, log 51; unsafe). -/
def sendStore (s : State) : State :=
  match s.wb with
  | [] => s
  | st :: rest =>
    let joined := rest.takeWhile (·.joined)
    let r := performGroup (waitForRoom { s with wb := rest.dropWhile (·.joined) }) (st :: joined)
    let s := sendTransaction r.1 (groupResponse st joined r.2)
    if st.sideEffect && sideEffectStoresBlock s then answerAll s else s

/-- The oldest `n` transactions leave the buffer. -/
def sendStores : Nat → State → State
  | 0, s => s
  | n + 1, s => sendStores n (sendStore s)

/-- The write buffer is emptied (R203, R204, R206). -/
def emptyBuffer (s : State) : State := sendStores s.wb.length s

/-- At most `n` transactions leave the buffer, until no side-effect store is in it. -/
def sendSideEffects : Nat → State → State
  | 0, s => s
  | n + 1, s => if s.wb.any (·.sideEffect) then sendSideEffects n (sendStore s) else s

/-- With `mfdc.sepd` = 1 the side-effect stores in the buffer are sent and answered, and with them the stores before them; a later
transaction waits for that, and for no younger store (R116, R202, R203, R204; log 38). -/
def awaitSideEffects (s : State) : State := if sideEffectStoresBlock s then sendSideEffects s.wb.length s else s

/-- The write buffer is emptied and every transaction answered: the LSU's part of FENCE, and quiescing. From now on no
reset undoes the stores (R206, R207, R649, R705). -/
def drainBus (s : State) : State := { answerAll (emptyBuffer s) with unfenced := [], unfencedEcc := [] }

/-- Some stores leave the buffer at a boundary, how many is open (R201; log 7). -/
def sendSome (s : State) : State :=
  match s.wb with
  | [] => s
  | _ :: _ => sendStores (min (Config.storesSent s.stepNo) s.wb.length) s

/-- Some transactions are answered at a boundary (R207; log 7). -/
def answerSome (s : State) : State :=
  match s.responses with
  | [] => s
  | _ :: _ => answer s (Config.answersReceived s.stepNo)

/-- The newest buffered store that holds byte `a`, if any. -/
def bufferedStore : List BusStore → Nat → Option BusStore
  | [], _ => none
  | st :: rest, a =>
    match bufferedStore rest a with
    | some found => some found
    | none => if st.addr.toNat ≤ a && a < st.addr.toNat + st.size then some st else none

/-- The byte a buffered store holds for address `a`. -/
def BusStore.byteAt (st : BusStore) (a : Nat) : Byte := byteOf st.data (a - st.addr.toNat)

/-! ## Loads from the bus (R186, R187, R203, R204, R213) -/

/-- What the SoC returns for one byte (R186). -/
def busReadByte (s : State) (a : Nat) : Byte :=
  match busKind s.cfg (BitVec.ofNat 32 a) with
  | .memory | .rom _ | .error => memByte s a
  | .device => Config.deviceByte s.stepNo a
  | .requestRegister => byteOf s.devReq (a % 4)

/-- Whether the SoC answers the read of a byte with an error (R212). -/
def readFails (s : State) (a : Word) : Bool :=
  match busKind s.cfg a with
  | .memory | .rom _ => socFailed s [a.toNat / 4]
  | .device => Config.deviceErrs s.stepNo a.toNat
  | .requestRegister => false
  | .error => true

/-- Whether a read that asks for some bytes and sees more of them fails: surely when the SoC answers one it asks for with an
error. Whether an error of another byte of the aligned double-word that an idempotent load reads fails the load, the spec
does not say: it may or may not (R187, R212; DESIGN CHOICE, log 46; safe). -/
def readErrs (s : State) (asked seen : List Word) : Bool :=
  asked.any (readFails s) ||
    (seen.any (readFails s) && Config.widerReadErrs s.stepNo ((seen.headD 0).toNat))

/-- The outcome of a memory access. -/
inductive Access where
  /-- performed; the value is zero-extended, and 0 for a store -/
  | done (v : Word) (s : State)
  /-- the access raises this exception (4 to 7) -/
  | raises (code : Word) (s : State)
  /-- a non-blocking load whose error comes later: its value is anything (R213) -/
  | lost (s : State)
  deriving DecidableEq, Repr

/-- The read the bus sees of a load, or of its aligned piece: its exact size with side effects, else the aligned
double-word that holds it (R187). -/
def readSeen (a : Word) (n : Nat) (sideEffect : Bool) : DeviceAccess :=
  if sideEffect then ⟨.read, a, n, 0, false⟩ else ⟨.read, a &&& ~~~7#32, 8, 0, false⟩

/-- What a load asks of the bus: `n` bytes at `a`, the whole of an access or a piece of one. -/
structure BusRead where
  addr : Word
  size : Nat
  sideEffect : Bool
  /-- a piece of a misaligned load (R184) -/
  part : Bool
  deriving DecidableEq, Repr

/-- A load transaction: blocking loads wait for their answer, and an error is the precise exception 5; the error of
a non-blocking load is reported later, and the value is anything (R213, D17; log 39). An idempotent load reads the whole
double-word, whose other bytes may fail it (R187; log 46). -/
def loadTransaction (s : State) (r : BusRead) (blocking : Bool) : Access :=
  let s := waitForRoom s
  let seen := readSeen r.addr r.size r.sideEffect
  let fails := readErrs s (accessBytes r.addr r.size) (accessBytes seen.addr seen.size)
  let v := assemble (busReadByte s) r.addr.toNat r.size
  let s := traceDevice s seen
  if blocking then (if fails then .raises 5 s else .done v s)
  else
    let s := sendTransaction s ⟨r.addr, r.size, true, fails, r.part⟩
    if fails then .lost s else .done v s

/-- A load that must be blocking: a side-effect load, or any while `mfdc.ldnbd` is 1 (R213, D17). -/
def blockingLoad (s : State) (sideEffect : Bool) : Bool := sideEffect || (mfdcNow s).getLsbD 5

/-- Whether every byte of the load is held by buffered stores that forward (R203, R204). -/
def forwards (wb : List BusStore) (a n : Nat) : Bool :=
  (List.range n).all fun k =>
    match bufferedStore wb (a + k) with
    | some st => !st.sideEffect
    | none => false

/-- Whether some byte of the load is held by a buffered store (R204). -/
def overlapsBuffer (wb : List BusStore) (a n : Nat) : Bool :=
  (List.range n).any fun k => (bufferedStore wb (a + k)).isSome

/-- The forwarded value (R204 case 1). -/
def forwardedValue (wb : List BusStore) (a n : Nat) : Word :=
  assemble (fun b => match bufferedStore wb b with | some st => st.byteAt b | none => 0) a n

/-! ## Misaligned accesses (R184; log 41) -/

/-- How an access of `n` bytes, 1, 2 or 4, at `a` is cut: whole when aligned, else into single bytes or into aligned
parts; offset and size of each. -/
def cutAccess (bytes : Bool) (a n : Nat) : List (Nat × Nat) :=
  if a % n = 0 then [(0, n)]
  else if bytes then (List.range n).map fun k => (k, 1)
  else if n = 2 then [(0, 1), (1, 1)]
  else if a % 2 = 0 then [(0, 2), (2, 2)]
  else [(0, 1), (1, 2), (3, 1)]

/-- Whether a misaligned store goes to the bus byte by byte: always on AHB-Lite, and on AXI4 it is open (R184). -/
def storesBytes (s : State) : Bool :=
  match s.cfg.busType with
  | .ahbLite => true
  | .axi4 => Config.cutsToBytes s.stepNo

/-- The stores that make up a store of `n` bytes. -/
def storePieces (bytes : Bool) (a : Word) (n : Nat) (v : Word) (sideEffect : Bool) : List BusStore :=
  (cutAccess bytes a.toNat n).map fun p =>
    ⟨a + BitVec.ofNat 32 p.1, p.2, v >>> (8 * p.1), sideEffect, a.toNat % n != 0, false⟩

/-- Whether store `k` of an access is coalesced with the newest buffered one: idempotent stores to one aligned
double-word may be, unless `mfdc.wbcd` is 1 (R187, R203; log 7). On AHB-Lite none is: R230 has each aligned store issued as a
single write and each misaligned one as byte writes, which R187's "may be merged" is read not to undo (DEDUCED, log 7;
unsafe). -/
def coalesced (s : State) (k : Nat) (st : BusStore) : Bool :=
  match s.wb.getLast? with
  | none => false
  | some last =>
    !last.sideEffect && !st.sideEffect && last.addr.toNat / 8 == st.addr.toNat / 8 &&
      s.cfg.busType == .axi4 && !(mfdcNow s).getLsbD 2 &&
      Config.coalesces s.stepNo k

/-- A store enters the write buffer (R201). -/
def bufferStore (s : State) (k : Nat) (st : BusStore) : State :=
  { s with wb := s.wb ++ [{ st with joined := coalesced s k st }] }

/-- Stores enter the write buffer one after another; `k` counts them. -/
def bufferStores : Nat → State → List BusStore → State
  | _, s, [] => s
  | k, s, st :: rest => bufferStores (k + 1) (bufferStore s k st) rest

/-- A store to the system bus enters the write buffer, a misaligned one in pieces (R184, R201). -/
def busStore (s : State) (a : Word) (n : Nat) (v : Word) (sideEffect : Bool) : State :=
  bufferStores 0 s (storePieces (storesBytes s) a n v sideEffect)

end Sys2Proof.Machine
end

