-- ==== Sys2Proof/Machine/Dma.lean ====
section
/-! DEFINITION. The other agents that reach memory: the DMA slave port (R192 to R194; log 31), other bus masters, and
what they do between the pieces of a split access of the hart (R184, R210; log 42). -/

namespace Sys2Proof.Machine

/-- The closely-coupled memory that holds all `n` bytes at `a`, if one does. -/
def ccmOf (c : Build) (a : Word) (n : Nat) : Option Ccm :=
  let last := a + BitVec.ofNat 32 (n - 1)
  if inIccm c a && inIccm c last then some .iccm
  else if inDccm c a && inDccm c last then some .dccm
  else none

/-- The little-endian value of up to eight bytes. -/
def assemble64 (f : Nat → Byte) (a n : Nat) : BitVec 64 :=
  (List.range n).foldl (fun v k => v ||| (f (a + k)).setWidth 64 <<< (8 * k)) 0

/-- A DMA read: data corrected and counted, or an error response (R192, R193). When one word of two is uncorrectable the
answer is the error alone: a correctable error of the other is then neither corrected nor counted, which R106 and R193
leave open (DESIGN CHOICE, log 31; unsafe). The two words of a double-word are read at one moment, though R194 does not say that
they are atomic to each other (DESIGN CHOICE, log 31; unsafe). -/
def dmaRead (s : State) (a : Word) (n : Nat) : State :=
  let ws := wordsOf a.toNat n
  match ccmOf s.cfg a n with
  | none => { s with dmaResponse := .error }
  | some m =>
    if n = 0 || 8 < n || anyFailed s ws then { s with dmaResponse := .error }
    else
      { writeBack m s ws with
        dmaResponse := .data (assemble64 (checkedByte s (memByte s)) a.toNat n) }

/-- One word of a DMA write: data and check bits are overwritten unchecked (R193). -/
def dmaWriteWord (m : Ccm) (s : State) (a : Nat) (v : Word) : State :=
  let w := match m with
    | .iccm => writeFetchableByte
    | .dccm => writeByte
  setEcc (writeBytes w s a 4 v) (a / 4) .good

/-- A DMA write: an aligned word or double-word, else an error response that changes nothing (R192, R193). The two words of a
double-word are written with nothing of the hart between them, though R194 does not state that they are atomic to each other
(DESIGN CHOICE, log 31; unsafe). -/
def dmaWrite (s : State) (a : Word) (n : Nat) (v : BitVec 64) : State :=
  match ccmOf s.cfg a n with
  | none => { s with dmaResponse := .error }
  | some m =>
    if n = 4 && a.toNat % 4 = 0 then
      { dmaWriteWord m s a.toNat (v.extractLsb' 0 32) with dmaResponse := .written }
    else if n = 8 && a.toNat % 8 = 0 then
      { dmaWriteWord m (dmaWriteWord m s a.toNat (v.extractLsb' 0 32)) (a.toNat + 4)
          (v.extractLsb' 32 32) with dmaResponse := .written }
    else { s with dmaResponse := .error }

/-- Another bus master writes a byte of SoC memory. Into a word with an error indication, of which R693 says nothing, the
write fails and changes nothing, as a partial write by the hart does (R188; DESIGN CHOICE, log 35; unsafe). R693 does not say in what sizes such a master, on its 64-bit bus, writes: the model has
single bytes alone, so that none of its writes is the write of a whole word that makes an error-marked word sound (DESIGN CHOICE,
log 35; unsafe). -/
def otherMasterWrite (s : State) (a : Word) (b : Byte) : State :=
  match busKind s.cfg a with
  | .memory => if socFailed s [a.toNat / 4] then s else writeFetchableByte s a.toNat b
  | .rom _ | .device | .requestRegister | .error => s

/-! ## Between the pieces of a split access (R184, R210; log 42) -/

/-- The memory access of another agent that an event stands for, if it stands for one. -/
def agentAccess : HostEvent → Option (State → State)
  | .dmaRead a n => some (dmaRead · a n)
  | .dmaWrite a n v => some (dmaWrite · a n v)
  | .busWrite a b => some (otherMasterWrite · a b)
  | .run | .timerInt _ | .extInt _ | .nmiInt _ | .nmiVec _ | .cpuHaltReq _ | .cpuRunReq _ | .mpcHaltReq _
  | .mpcRunReq _ | .mpcResetRunReq _ | .debugHalt | .debugResume | .debugReadCsr _ | .debugWriteCsr _ _
  | .debugReadReg _ | .debugWriteReg _ _ | .eccError _ _ | .icacheError _ | .reset _ => none

/-- Whether the next thing the outside does is such an access. -/
def agentNext (s : State) : Bool :=
  match s.inputs with
  | [] => false
  | e :: _ => (agentAccess e).isSome

/-- At most `n` accesses of other agents, those that come next in the list. -/
def runAgents : List HostEvent → Nat → State → State
  | [], _, s => s
  | e :: rest, n, s =>
    match agentAccess e with
    | none => s
    | some f =>
      match n with
      | 0 => s
      | n + 1 => runAgents rest n (f { s with inputs := rest })

/-- What other agents do before piece `k` of a split access: a free number of the accesses they are about to make. -/
def actBetween (s : State) (k : Nat) : State :=
  if k = 0 then s else runAgents s.inputs (Config.actsBetween s.stepNo k) s

end Sys2Proof.Machine
end

