-- ==== Sys2Proof/Machine/Lsu.lean ====
section
/-! DEFINITION. Data accesses: the checks of R175 to R182 and R189, and the access to DCCM, PIC or bus. -/

namespace Sys2Proof.Machine

/-- The `mrac` a data access is performed under: an older value may act until FENCE (R722; log 20). -/
def mracNow (s : State) : Word := pickAmong (Config.mracDataPick s.stepNo) s.csr.mrac s.mracData

/-- The side-effect bit of the address's region; '11' counts as side effect (R101, R102, R176). R102 has it ignored
for ICCM addresses, as for DCCM and PIC, which R176 does not list (DEDUCED from R102, log 45). -/
def sideEffectBit (c : Build) (mrac a : Word) : Bool :=
  !inIccm c a && mrac.getLsbD (2 * (region a).toNat + 1)

/-- Where a data access goes, or which kind of exception it raises (R175, R189). -/
inductive Target where
  | misaligned
  | fault
  | dccm
  | pic
  | bus (sideEffect : Bool)
  deriving DecidableEq, Repr

/-- Classifies an access of `n` bytes at `a` under a region access control value, in the order of R189. -/
def classify (c : Build) (mrac a : Word) (n : Nat) : Target :=
  let last := a + BitVec.ofNat 32 (n - 1)
  if region a ≠ region last then .misaligned
  else if dataLocalRegion c a then
    if inDccm c a && inDccm c last then .dccm
    else if inPic c a && inPic c last then (if wholeWord a n then .pic else .fault)
    else .fault
  else if sideEffectBit c mrac a && a.toNat % n != 0 then .misaligned
  else if windowsAllow c.dataWindows a && windowsAllow c.dataWindows last then .bus (sideEffectBit c mrac a)
  else .fault

/-! ## DCCM -/

/-- The pieces of a DCCM load are read in turn; other agents may act between them (R184, R185, R210; logs 41, 42). -/
def dccmLoadPieces (a : Nat) : Nat → Word → State → List (Nat × Nat) → Access
  | _, v, s, [] => .done v s
  | k, v, s, p :: ps =>
    let s := actBetween s k
    let w := assemble (checkedByte s (memByte s)) (a + p.1) p.2
    dccmLoadPieces a (k + 1) (v ||| w <<< (8 * p.1)) (writeBack .dccm s (wordsOf (a + p.1) p.2)) ps

/-- A load from the DCCM; an uncorrectable error is a load access fault (R185, R188). -/
def dccmLoad (s : State) (a n : Nat) : Access :=
  if anyFailed s (wordsOf a n) then .raises 5 s else dccmLoadPieces a 0 0 s (cutAccess false a n)

/-- What the read of a read-modify-write makes of a word: a correctable error corrected and counted, an error nobody
checks made part of the data, under check bits that fit it (R185, R220, R221). -/
def mergeWord (s : State) (w : Nat) : State :=
  match checkWord s w with
  | .corrected => writeBackWord .dccm s w
  | .spoilt =>
    let spoil := fun t k => writeByte t (4 * w + k) (Config.corruptedByte s.stepNo (4 * w + k))
    storeEcc ((List.range 4).foldl spoil s) w .good
  | .sound | .failed | .anything => s

/-- The pieces of a DCCM store smaller than a word are written in turn (R184, R185, R210; logs 41, 42). -/
def dccmStorePieces (a : Nat) (v : Word) : Nat → State → List (Nat × Nat) → State
  | _, s, [] => s
  | k, s, p :: ps =>
    let s := (wordsOf (a + p.1) p.2).foldl mergeWord (actBetween s k)
    dccmStorePieces a v (k + 1) (writeBytes storeByte s (a + p.1) p.2 (v >>> (8 * p.1))) ps

/-- A store to the DCCM: a whole aligned word overwrites data and check bits; a smaller or split one reads, modifies
and writes, and meets the errors of the words it reads before it writes any (R185, R188, R223, R510). -/
def dccmStore (s : State) (a : Word) (n : Nat) (v : Word) : Access :=
  if wholeWord a n then .done 0 (storeEcc (writeBytes storeByte s a.toNat n v) (a.toNat / 4) .good)
  else if anyFailed s (wordsOf a.toNat n) then .raises 7 s
  else .done 0 (dccmStorePieces a.toNat v 0 s (cutAccess false a.toNat n))

/-! ## Loads from the bus (R203, R204) -/

/-- The pieces of an idempotent load are read in turn; a blocking one stops at the first error, another goes on and
its value is lost (R184, R210, R213; logs 41, 42). Whether the later pieces of a blocking load are still sent after one has failed
the spec does not say, and devices can tell: they are not (DESIGN CHOICE, log 41; unsafe). -/
def busLoadPieces (a : Word) (part blocking : Bool) : Nat → Word → Bool → State → List (Nat × Nat) → Access
  | _, v, lost, s, [] => if lost then .lost s else .done v s
  | k, v, lost, s, p :: ps =>
    match loadTransaction (actBetween s k) ⟨a + BitVec.ofNat 32 p.1, p.2, false, part⟩ blocking with
    | .raises code s => .raises code s
    | .done w s => busLoadPieces a part blocking (k + 1) (v ||| w <<< (8 * p.1)) lost s ps
    | .lost s => busLoadPieces a part blocking (k + 1) v true s ps

/-- An idempotent load that goes to the bus. -/
def idempotentLoad (s : State) (a : Word) (n : Nat) : Access :=
  busLoadPieces a (a.toNat % n != 0) (blockingLoad s false) 0 0 false s (cutAccess false a.toNat n)

/-- A load from the system bus: side-effect loads empty the write buffer first; others forward, empty it on a
partial match, or pass it, all of it but the side-effect stores that `mfdc.sepd` makes them wait for (R203, R204, R208; log 38). -/
def busLoad (s : State) (a : Word) (n : Nat) (sideEffect : Bool) : Access :=
  if sideEffect then loadTransaction (emptyBuffer s) ⟨a, n, true, false⟩ true
  else if forwards s.wb a.toNat n then .done (forwardedValue s.wb a.toNat n) s
  else if overlapsBuffer s.wb a.toNat n then idempotentLoad (emptyBuffer s) a n
  else idempotentLoad (awaitSideEffects s) a n

/-! ## Every access -/

/-- `MemRead(a, n)` (R175). -/
def memLoad (s : State) (a : Word) (n : Nat) : Access :=
  match classify s.cfg (mracNow s) a n with
  | .misaligned => .raises 4 s
  | .fault => .raises 5 s
  | .dccm => dccmLoad s a.toNat n
  | .pic => .done (loadPic s (a.toNat - picBase s.cfg)) s
  | .bus sideEffect => busLoad s a n sideEffect

/-- `MemWrite(a, n, v)` (R175). -/
def memStore (s : State) (a : Word) (n : Nat) (v : Word) : Access :=
  match classify s.cfg (mracNow s) a n with
  | .misaligned => .raises 6 s
  | .fault => .raises 7 s
  | .dccm => dccmStore s a n v
  | .pic => .done 0 (issuePicStore s (a.toNat - picBase s.cfg) v)
  | .bus sideEffect => .done 0 (busStore s a n v sideEffect)

/-- A byte of memory as the hart's own loads see it: the newest buffered store's, else the memory's (R204, R209). -/
def dataByte (s : State) (a : Nat) : Byte :=
  match bufferedStore s.wb a with
  | some st => st.byteAt a
  | none => memByte s a

end Sys2Proof.Machine
end

