-- ==== Sys2Proof/Machine/Ops.lean ====
section
/-! DEFINITION. The operations the meanings share: registers, retiring, taking an exception and returning from one,
interrupts and NMIs, fences, halting and Debug Mode. -/

namespace Sys2Proof.Machine

/-! ## General registers -/

/-- `x[i]`; x0 reads zero (R18, R31). -/
def reg (s : State) (i : Reg) : Word := if i = 0 then 0 else s.regs.get i

/-- `x[i] <- v`; a write of x0 is discarded (R18, R31). -/
def setReg (s : State) (i : Reg) (v : Word) : State :=
  if i = 0 then s else { s with regs := s.regs.set i v }

/-- The register a three-bit field names, x8 to x15 (R262). -/
def wideReg (r : CReg) : Reg := 1#2 ++ r

/-! ## Retiring -/

/-- The instruction retires: `minstret` counts it, the event counters see it, the pc moves on (R34, R53, R673). -/
def retire (s : State) (r : Retired) (next : Word) : State :=
  let s := countEvents s fun _ e => retiredEvents s.stepNo r e
  { s with pc := next, counters := { s.counters with minstret := s.counters.minstret + 1 } }

/-- `Debug Mode` (R37, R61, R655): db-halt, or a single step executing. -/
def debugMode (s : State) : Bool := s.activity == .dbHalt || s.stepping

/-! ## Traps (R520 to R526, R552) -/

/-- `mstatus` at a trap: MPIE takes MIE, MIE clears, MPP stays 3 (R42, R520). -/
def trapStatus (m : Word) : Word := 0x1800 ||| (BitVec.ofBool (m.getLsbD 3)).setWidth 32 <<< 7

/-- `mstatus` after MRET: MIE takes MPIE, MPIE is set (R42, R471). -/
def returnStatus (m : Word) : Word := 0x1880 ||| (BitVec.ofBool (m.getLsbD 7)).setWidth 32 <<< 3

/-- The trap vector base (R45, R521). -/
def trapBase (s : State) : Word := s.csr.mtvec &&& 0xFFFFFFFC

/-- Every trap entry: one atomic step that saves the pc, the cause, the value and the interrupt enable, and goes to
the target (R520). -/
def enterTrap (s : State) (cause value target : Word) : State :=
  { s with
    csr := { s.csr with
      mepc := s.pc, mcause := cause, mtval := value, mstatus := trapStatus s.csr.mstatus }
    pc := target }

/-- Takes the synchronous exception `code` with `value` in `mtval`; it goes to the base in either mode of `mtvec`
(R511, R520, R521, R523), and event 37 counts it (R526). R674 leaves open whether an instruction that traps is among the
committed instructions of events 4 to 24; the model counts it in none of them but 19 and 20 (DESIGN CHOICE, log 13;
unsafe). -/
def takeException (s : State) (code value : Word) : State :=
  countEvents (enterTrap s code value (trapBase s)) fun _ e => (e == 37).toNat

/-- Where an interrupt goes: the base, or base + 4 * code in Vectored mode (R521). -/
def interruptTarget (s : State) (code : Word) : Word :=
  if s.csr.mtvec.getLsbD 0 then trapBase s + 4 * code else trapBase s

/-- Takes the interrupt `code`, 7, 11 or 30 (R520, R530); events 38 and 39 count timer and external interrupts
(R526). It ends PAUSE (R652). -/
def takeInterrupt (s : State) (code : Word) : State :=
  let s := enterTrap s (0x80000000 ||| code) 0 (interruptTarget s code)
  let s := { s with pauseCount := 0 }
  countEvents s fun _ e => ((e == 38 && code == 7) || (e == 39 && code == 11)).toNat

/-- Takes an NMI with this `mcause` at the NMI vector, whatever the mode of `mtvec` (R521, R552; log 10). -/
def takeNmi (s : State) (cause : Word) : State :=
  { enterTrap s cause 0 (s.pins.nmiVec ++ 0#1) with pauseCount := 0 }

/-- The return from a trap: MIE <- MPIE, MPIE <- 1, pc <- mepc (R471, R525). -/
def returnFromTrap (s : State) : State :=
  { s with
    csr := { s.csr with mstatus := returnStatus s.csr.mstatus }
    pc := s.csr.mepc }

/-! ## Interrupt and NMI requests (R530 to R552) -/

/-- The bit `count[thresh]` of an error counter register (R107). -/
def thresholdReached (v : Word) : Bool := (v.extractLsb' 0 27).getLsbD (v.extractLsb' 27 5).toNat

/-- `mip.mceip`, a level (R107, R542). -/
def correctablePending (s : State) : Bool :=
  thresholdReached s.csr.micect || thresholdReached s.csr.miccmect || thresholdReached s.csr.mdccmect

/-- The value of `mip` (R50), bit 7 the synchronised level of `timer_int` (R541); `u` is the use it is computed for
(R721). -/
def mipNow (s : State) (u : Nat) : Word :=
  (BitVec.ofBool (correctablePending s)).setWidth 32 <<< 30 |||
    (BitVec.ofBool (externalPending s u)).setWidth 32 <<< 11 |||
    (BitVec.ofBool s.seen.timerInt).setWidth 32 <<< 7

/-- The highest-priority pending and enabled interrupt: external, correctable error, timer (R531). -/
def enabledInterrupt (s : State) (u : Nat) : Option Word :=
  if s.csr.mie.getLsbD 11 && externalPending s u then some 11
  else if s.csr.mie.getLsbD 30 && correctablePending s then some 30
  else if s.csr.mie.getLsbD 7 && s.seen.timerInt then some 7
  else none

/-- Whether interrupts are held off by Debug Mode: a single step lets them through when `dcsr.stepie`, bit 11, is 1
(R530, R665; logs 4, 24). -/
def stepHoldsInterrupts (s : State) : Bool := s.stepping && !s.csr.dcsr.getLsbD 11

/-- The interrupt that is takeable at this boundary (R530). -/
def takeableInterrupt (s : State) : Option Word :=
  if s.csr.mstatus.getLsbD 3 && s.activity == .running && !stepHoldsInterrupts s then enabledInterrupt s 0 else none

/-- The `mcause` of a D-bus error NMI (R551). -/
def BusError.cause : BusError → Word
  | .store => 0xF0000000
  | .load => 0xF0000001

/-- Whether an NMI is pending (R550, R551). -/
def nmiPresent (s : State) : Bool := s.nmiPending || s.dbusErr.isSome

/-- Whether an NMI is pending and the hart may enter it: not in Debug Mode, a single step included (R552; log 10). -/
def nmiRequested (s : State) : Bool := nmiPresent s && !debugMode s

/-- Enters the pending NMI chosen at this boundary and clears its request; either may be first when both are
pending (R552; log 10). -/
def enterNmi (s : State) : State :=
  let pin := takeNmi { s with nmiPending := false } 0
  match s.dbusErr with
  | none => pin
  | some e => if s.nmiPending && Config.pinNmiFirst s.stepNo then pin else takeNmi { s with dbusErr := none } e.cause

/-- One boundary for something that happens after a finite, free delay once it is wanted: how much longer it may wait,
and whether it happens now (R530, R552, D20; log 43). -/
def waitStep (wanted : Bool) (wait : Option Nat) (draw : Nat) : Option Nat × Bool :=
  if wanted then
    match wait.getD draw with
    | 0 => (none, true)
    | n + 1 => (some n, false)
  else (none, false)

/-! ## Fences (R370, R440) -/

/-- The operation of FENCE: the write buffer is empty, every transaction answered, every PIC store in effect, and
`mrac` updates in effect for data (R206, R207, R370, R721, R722). -/
def fenceData (s : State) : State := { settlePic (drainBus s) with mracData := [] }

/-- Every I-cache line is invalid; what its entries hold, but for the data the debugger wrote, is unknown (R440; log 22). -/
def invalidateICache (s : State) : State :=
  { s with icache := { s.icache with tags := [], lru := [], filled := [] } }

/-- Whether the FENCE.I is missing that must stand immediately before a write of `mfdc` by the instruction at the pc. A
debugger's write is no program's, and needs none (R723, D32; log 16). -/
def fenceIMissing (s : State) : Bool := s.activity != .dbHalt && !s.fenced.contains s.pc

/-- FENCE.I has completed at the pc (R723, D32; log 16). -/
def recordFenceI (s : State) : State :=
  { s with fenced := (s.pc + 4) :: s.fenced.erase (s.pc + 4), fencesDue := s.fencesDue.erase s.pc }

/-- A program's write of `mfdc` has completed; the pc is already at the next instruction (R723, D32; log 16). -/
def recordMfdcWrite (s : State) : State :=
  if s.activity == .dbHalt then s
  else { s with fenced := s.fenced.erase (s.pc - 4), fencesDue := s.pc :: s.fencesDue.erase s.pc }

/-- The operation of FENCE.I: FENCE, and nothing already fetched is used again; `mrac` and `mfdc` updates are in
effect (R191, R440, R722, R723). -/
def fenceInstructions (s : State) : State :=
  { invalidateICache (fenceData s) with stale := [], mracFetch := [], mfdcOld := [] }

/-! ## Halting and Debug Mode (R641 to R668) -/

/-- Why Debug Mode is entered: `dcsr.cause` (R656). -/
inductive DebugCause where
  | ebreak
  | haltRequest
  | step
  deriving DecidableEq, Repr

/-- The code of a debug cause (R656). -/
def DebugCause.code : DebugCause → BitVec 3
  | .ebreak => 1
  | .haltRequest => 3
  | .step => 4

/-- `dcsr` with its cause field replaced (bits 8:6, R59). -/
def withCause (dcsr : Word) (c : DebugCause) : Word :=
  (dcsr &&& 0xFFFFFE3F) ||| c.code.setWidth 32 <<< 6

/-- Enters Debug Mode: the core quiesces, `dpc` takes the next pc, `dcsr.cause` is set; no machine-mode CSR and no
general register changes (R649, R656). -/
def enterDebug (s : State) (c : DebugCause) : State :=
  let s := drainBus s
  { s with
    csr := { s.csr with dpc := s.pc, dcsr := withCause s.csr.dcsr c }
    activity := .dbHalt
    stepping := false }

/-- The hart goes on at `dpc`, the state bits clear. A resume without a single step leaves Debug Mode, and the
breakpoint indication falls; R657 does not count one with a single step as an exit, and the indication stays
(R655, R657, R663, R665; log 24). -/
def exitDebug (s : State) (step : Bool) : State :=
  { s with
    pc := s.csr.dpc
    activity := .running
    stepping := step
    dbgHaltState := false
    mpcHaltState := false
    brkptStatus := s.brkptStatus && step }

/-- Enters pmu/fw-halt: the core quiesces first (R643, R644, R649). -/
def enterPmuFwHalt (s : State) : State := { drainBus s with activity := .pmuFwHalt }

/-- The firmware asks for a halt (R644). A debug halt request goes first (R642, R645): while the MPC's is seen, the core
quiesces and the MPC's halt is served at the next boundary, before another instruction. The firmware's request is not pending when
the hart leaves Debug Mode (R644), so it lapses then (DESIGN CHOICE, log 15; unsafe). -/
def firmwareHalt (s : State) : State :=
  if s.seen.mpcHaltReq then { drainBus s with waits := { s.waits with mpcHalt := some 0 } } else enterPmuFwHalt s

/-- EBREAK with `dcsr.ebreakm` = 1 goes to Debug Mode: with cause 1 and the breakpoint indication, or, in a single step,
which R645 ranks above a breakpoint, with cause 4 and no new indication (R476, R645, R663; log 36). -/
def breakToDebug (s : State) : State :=
  { enterDebug s (if s.stepping then .step else .ebreak) with
    brkptStatus := s.brkptStatus || !s.stepping
    dbgHaltState := true }

/-- The pin `o_cpu_halt_status`: the hart is in pmu/fw-halt (R643, R663). -/
def cpuHaltStatus (s : State) : Bool := s.activity == .pmuFwHalt

/-- The pin `o_debug_mode_status`: the hart is in Debug Mode (R655, R663). -/
def debugModeStatus (s : State) : Bool := debugMode s

end Sys2Proof.Machine
end

