-- ==== Sys2Proof/Machine/Operands.lean ====
section
/-! DEFINITION. Operand forms: immediates, targets, effective addresses and the widths of memory values. -/

namespace Sys2Proof.Machine

/-- A sign-extended immediate (R244, R263). -/
def sextImm {n : Nat} (imm : BitVec n) : Word := imm.signExtend 32

/-- A zero-extended immediate (R263). -/
def zextImm {n : Nat} (imm : BitVec n) : Word := imm.setWidth 32

/-- The U immediate: 20 bits above 12 zeros (R244). -/
def upperImm (imm : BitVec 20) : Word := imm ++ 0#12

/-- The C.LUI immediate, sign-extended from bit 17 (R263, R409). -/
def cUpperImm (imm : BitVec 6) : Word := (imm ++ 0#12).signExtend 32

/-- The target of a pc-relative transfer, modulo 2^32 (R330, R331). -/
def relTarget {n : Nat} (s : State) (off : BitVec n) : Word := s.pc + sextImm off

/-- The target of a register transfer: bit 0 of the sum is cleared (R332). -/
def regTarget {n : Nat} (s : State) (rs1 : Reg) (off : BitVec n) : Word :=
  (reg s rs1 + sextImm off) &&& 0xFFFFFFFE

/-- The effective address `x[rs1] + offset` (R350). -/
def effAddr (s : State) (rs1 : Reg) (off : Word) : Word := reg s rs1 + off

/-- The size of an instruction in bytes, 2 for a 16-bit one (R34). -/
def ilen (short : Bool) : Word := if short then 2 else 4

/-- The address after the instruction (R34). -/
def nextPc (s : State) (short : Bool) : Word := s.pc + ilen short

/-- How a loaded value of `n` bytes becomes a register value (R351 to R355). -/
inductive LoadKind where
  | signed8
  | signed16
  | word
  | unsigned8
  | unsigned16
  deriving DecidableEq, Repr

/-- The number of bytes loaded. -/
def LoadKind.size : LoadKind → Nat
  | .signed8 | .unsigned8 => 1
  | .signed16 | .unsigned16 => 2
  | .word => 4

/-- The register value: sign- or zero-extended (R351 to R355). -/
def LoadKind.extend (k : LoadKind) (v : Word) : Word :=
  match k with
  | .signed8 => (v.extractLsb' 0 8).signExtend 32
  | .signed16 => (v.extractLsb' 0 16).signExtend 32
  | .word => v
  | .unsigned8 => (v.extractLsb' 0 8).setWidth 32
  | .unsigned16 => (v.extractLsb' 0 16).setWidth 32

/-! ## How the instructions of a family end -/

/-- What a step answers. -/
abbrev Result := Host.Outcome State Fault Refusal

/-- An integer instruction, an ALU operation, writes its result and retires (R300, R400). -/
def finishAlu (s : State) (short : Bool) (rd : Reg) (v : Word) : Result :=
  .next (retire (setReg s rd v) ⟨short, .alu, false⟩ (nextPc s short))

/-- A multiplication or division writes its result and retires (R380). -/
def finishMulDiv (s : State) (cls : InstrClass) (rd : Reg) (v : Word) : Result :=
  .next (retire (setReg s rd v) ⟨false, cls, false⟩ (nextPc s false))

/-- A jump links the next address in `rd` and goes to its target (R330 to R332, R406). -/
def finishJump (s : State) (short : Bool) (rd : Reg) (target : Word) : Result :=
  .next (retire (setReg s rd (nextPc s short)) ⟨short, .jump, false⟩ target)

/-- A branch goes to its target if taken, else falls through; it writes no register (R330, R333). -/
def finishBranch (s : State) (short taken : Bool) (target : Word) : Result :=
  .next (retire s ⟨short, .branch taken, false⟩ (if taken then target else nextPc s short))

/-- A load at `a`: its exception with `mtval` = `a`, or the value in `rd`; any 32 bits when the load is lost
(R213, R350, R523; log 39). -/
def finishLoad (s : State) (short : Bool) (k : LoadKind) (rd : Reg) (a : Word) : Result :=
  let finish := fun (s : State) (v : Word) =>
    (.next (retire (setReg s rd v) ⟨short, .load, a.toNat % k.size != 0⟩ (nextPc s short)) : Result)
  match memLoad s a k.size with
  | .raises code s => .next (takeException s code a)
  | .done v s => finish s (k.extend v)
  | .lost s => finish s (Config.failedLoad s.stepNo)

/-- A store of `n` bytes at `a`: its exception with `mtval` = `a`, or the bytes stored (R350, R523). -/
def finishStore (s : State) (short : Bool) (n : Nat) (v a : Word) : Result :=
  match memStore s a n v with
  | .raises code s => .next (takeException s code a)
  | .done _ s | .lost s => .next (retire s ⟨short, .store, a.toNat % n != 0⟩ (nextPc s short))

end Sys2Proof.Machine
end

