-- ==== Sys2Proof/Machine/Flags.lean ====
section
/-! DEFINITION. This hardware has no flags (R35): the comparisons that stand in their place, as Bools and as 0 or 1. -/

namespace Sys2Proof.Machine

/-- The six branch conditions (R333 to R338). -/
inductive Cond where
  | eq
  | ne
  | lt
  | ge
  | ltu
  | geu
  deriving DecidableEq, Repr

/-- Whether the condition holds of two register values; signed and unsigned as R17 says. -/
def Cond.holds (c : Cond) (a b : Word) : Bool :=
  match c with
  | .eq => a == b
  | .ne => a != b
  | .lt => a.slt b
  | .ge => !a.slt b
  | .ltu => a.ult b
  | .geu => !a.ult b

/-- 1 when the comparison holds, else 0, in 32 bits (R304, R305, R315, R316). -/
def boolWord (b : Bool) : Word := (BitVec.ofBool b).setWidth 32

end Sys2Proof.Machine
end

