-- ==== Sys2Proof/Machine/FenceSystem.lean ====
section
/-! DEFINITION. FENCE, ECALL, EBREAK (43_rv32i_fence_system.md) and FENCE.I (46_zifencei.md). -/

namespace Sys2Proof.Machine

/-- FENCE and FENCE.I retire once their operation is complete (R370, R440). -/
def finishFence (s : State) (cls : InstrClass) : Result := .next (retire s ⟨false, cls, false⟩ (nextPc s false))

/-- EBREAK and C.EBREAK: event 19 counts them; Debug Mode when `dcsr.ebreakm` is 1, else the breakpoint exception
with `mtval` the address of the instruction (R372, R476, R523, R674; log 36). Event 19 alone: whether 4 to 6 count it too
is open, and the model says no (DESIGN CHOICE, log 13; unsafe). -/
def finishBreak (s : State) : Result :=
  let s := countEvents s fun _ e => (e == 19).toNat
  if s.csr.dcsr.getLsbD 15 then .next (breakToDebug s) else .next (takeException s 3 s.pc)

/-- FENCE, conservative whatever its arguments (R370). -/
def execFence (_fm _pred _succ : BitVec 4) (_rs1 _rd : Reg) (s : State) : Result :=
  finishFence (fenceData s) .fence

/-- FENCE.I (R440). It is the one an `mfdc` write before it asks for, and the one an `mfdc` write right after it needs (R723,
D32; log 16). -/
def execFenceI (_imm : BitVec 12) (_rs1 _rd : Reg) (s : State) : Result :=
  finishFence (recordFenceI (fenceInstructions s)) .fenceI

/-- ECALL: exception 11 with `mtval` 0; event 20 counts it. Whether events 4 and 6 count it too R674 leaves open, and the
model says no (R371, R674; DESIGN CHOICE, log 13; unsafe). -/
def execEcall  (s : State) : Result :=
  .next (takeException (countEvents s fun _ e => (e == 20).toNat) 11 0)

/-- EBREAK (R372). -/
def execEbreak  (s : State) : Result :=
  finishBreak s

end Sys2Proof.Machine
end

