-- ==== Sys2Proof/Machine/Compressed.lean ====
section
/-! DEFINITION. The C extension (45_c_compressed.md): each as its expansion with a 2-byte length (R400). -/

namespace Sys2Proof.Machine

/-- C.ADDI4SPN (R401). -/
def execCAddi4spn (rd : CReg) (uimm : BitVec 10) (s : State) : Result :=
  finishAlu s true (wideReg rd) (reg s 2 + zextImm uimm)

/-- C.LW (R402). -/
def execCLw (rd rs1 : CReg) (uimm : BitVec 7) (s : State) : Result :=
  finishLoad s true .word (wideReg rd) (effAddr s (wideReg rs1) (zextImm uimm))

/-- C.SW (R403). -/
def execCSw (rs2 rs1 : CReg) (uimm : BitVec 7) (s : State) : Result :=
  finishStore s true 4 (reg s (wideReg rs2)) (effAddr s (wideReg rs1) (zextImm uimm))

/-- C.NOP, whatever its immediate: nothing but the pc and the counters (R404). -/
def execCNop (_imm : BitVec 6) (s : State) : Result :=
  finishAlu s true 0 0

/-- C.ADDI (R405). -/
def execCAddi (rd : Reg) (imm : BitVec 6) (s : State) : Result :=
  finishAlu s true rd (reg s rd + sextImm imm)

/-- C.JAL links pc + 2 in x1 (R406). -/
def execCJal (off : BitVec 12) (s : State) : Result :=
  finishJump s true 1 (relTarget s off)

/-- C.LI (R407). -/
def execCLi (rd : Reg) (imm : BitVec 6) (s : State) : Result :=
  finishAlu s true rd (sextImm imm)

/-- C.ADDI16SP (R408). -/
def execCAddi16sp (imm : BitVec 10) (s : State) : Result :=
  finishAlu s true 2 (reg s 2 + sextImm imm)

/-- C.LUI (R409). -/
def execCLui (rd : Reg) (imm : BitVec 6) (s : State) : Result :=
  finishAlu s true rd (cUpperImm imm)

/-- C.SRLI (R410). -/
def execCSrli (rd : CReg) (shamt : BitVec 5) (s : State) : Result :=
  finishAlu s true (wideReg rd) (reg s (wideReg rd) >>> shamt)

/-- C.SRAI (R411). -/
def execCSrai (rd : CReg) (shamt : BitVec 5) (s : State) : Result :=
  finishAlu s true (wideReg rd) ((reg s (wideReg rd)).sshiftRight shamt.toNat)

/-- C.ANDI (R412). -/
def execCAndi (rd : CReg) (imm : BitVec 6) (s : State) : Result :=
  finishAlu s true (wideReg rd) (reg s (wideReg rd) &&& sextImm imm)

/-- C.SUB (R413). -/
def execCSub (rd rs2 : CReg) (s : State) : Result :=
  finishAlu s true (wideReg rd) (reg s (wideReg rd) - reg s (wideReg rs2))

/-- C.XOR (R414). -/
def execCXor (rd rs2 : CReg) (s : State) : Result :=
  finishAlu s true (wideReg rd) (reg s (wideReg rd) ^^^ reg s (wideReg rs2))

/-- C.OR (R415). -/
def execCOr (rd rs2 : CReg) (s : State) : Result :=
  finishAlu s true (wideReg rd) (reg s (wideReg rd) ||| reg s (wideReg rs2))

/-- C.AND (R416). -/
def execCAnd (rd rs2 : CReg) (s : State) : Result :=
  finishAlu s true (wideReg rd) (reg s (wideReg rd) &&& reg s (wideReg rs2))

/-- C.J (R417). -/
def execCJ (off : BitVec 12) (s : State) : Result :=
  finishJump s true 0 (relTarget s off)

/-- C.BEQZ (R418). -/
def execCBeqz (rs1 : CReg) (off : BitVec 9) (s : State) : Result :=
  finishBranch s true (Cond.holds .eq (reg s (wideReg rs1)) 0) (relTarget s off)

/-- C.BNEZ (R419). -/
def execCBnez (rs1 : CReg) (off : BitVec 9) (s : State) : Result :=
  finishBranch s true (Cond.holds .ne (reg s (wideReg rs1)) 0) (relTarget s off)

/-- C.SLLI (R420). -/
def execCSlli (rd : Reg) (shamt : BitVec 5) (s : State) : Result :=
  finishAlu s true rd (reg s rd <<< shamt)

/-- C.LWSP (R421). -/
def execCLwsp (rd : Reg) (uimm : BitVec 8) (s : State) : Result :=
  finishLoad s true .word rd (effAddr s 2 (zextImm uimm))

/-- C.JR (R422). -/
def execCJr (rs1 : Reg) (s : State) : Result :=
  finishJump s true 0 (regTarget s rs1 0#12)

/-- C.MV (R423). -/
def execCMv (rd rs2 : Reg) (s : State) : Result :=
  finishAlu s true rd (reg s rs2)

/-- C.EBREAK: as EBREAK (R425). -/
def execCEbreak  (s : State) : Result :=
  finishBreak s

/-- C.JALR links pc + 2 in x1; the target uses the old rs1 (R424). -/
def execCJalr (rs1 : Reg) (s : State) : Result :=
  finishJump s true 1 (regTarget s rs1 0#12)

/-- C.ADD (R426). -/
def execCAdd (rd rs2 : Reg) (s : State) : Result :=
  finishAlu s true rd (reg s rd + reg s rs2)

/-- C.SWSP (R427). -/
def execCSwsp (rs2 : Reg) (uimm : BitVec 8) (s : State) : Result :=
  finishStore s true 4 (reg s rs2) (effAddr s 2 (zextImm uimm))

end Sys2Proof.Machine
end

