-- ==== Sys2Proof/Machine/Control.lean ====
section
/-! DEFINITION. RV32I control transfer (41_rv32i_control.md). -/

namespace Sys2Proof.Machine

/-- JAL (R331). -/
def execJal (rd : Reg) (off : BitVec 21) (s : State) : Result :=
  finishJump s false rd (relTarget s off)

/-- JALR: the target uses the old rs1 (R332). -/
def execJalr (rd rs1 : Reg) (off : BitVec 12) (s : State) : Result :=
  finishJump s false rd (regTarget s rs1 off)

/-- BEQ (R333). -/
def execBeq (rs1 rs2 : Reg) (off : BitVec 13) (s : State) : Result :=
  finishBranch s false (Cond.holds .eq (reg s rs1) (reg s rs2)) (relTarget s off)

/-- BNE (R334). -/
def execBne (rs1 rs2 : Reg) (off : BitVec 13) (s : State) : Result :=
  finishBranch s false (Cond.holds .ne (reg s rs1) (reg s rs2)) (relTarget s off)

/-- BLT (R335). -/
def execBlt (rs1 rs2 : Reg) (off : BitVec 13) (s : State) : Result :=
  finishBranch s false (Cond.holds .lt (reg s rs1) (reg s rs2)) (relTarget s off)

/-- BGE (R336). -/
def execBge (rs1 rs2 : Reg) (off : BitVec 13) (s : State) : Result :=
  finishBranch s false (Cond.holds .ge (reg s rs1) (reg s rs2)) (relTarget s off)

/-- BLTU (R337). -/
def execBltu (rs1 rs2 : Reg) (off : BitVec 13) (s : State) : Result :=
  finishBranch s false (Cond.holds .ltu (reg s rs1) (reg s rs2)) (relTarget s off)

/-- BGEU (R338). -/
def execBgeu (rs1 rs2 : Reg) (off : BitVec 13) (s : State) : Result :=
  finishBranch s false (Cond.holds .geu (reg s rs1) (reg s rs2)) (relTarget s off)

end Sys2Proof.Machine
end

