-- ==== Sys2Proof/Machine/Integer.lean ====
section
/-! DEFINITION. RV32I integer computational instructions (40_rv32i_integer.md); sources are read before rd is written (R322). -/

namespace Sys2Proof.Machine

/-- LUI: rd takes the upper immediate (R301). -/
def execLui (rd : Reg) (imm : BitVec 20) (s : State) : Result :=
  finishAlu s false rd (upperImm imm)

/-- AUIPC: rd takes pc plus the upper immediate (R302). -/
def execAuipc (rd : Reg) (imm : BitVec 20) (s : State) : Result :=
  finishAlu s false rd (s.pc + upperImm imm)

/-- ADDI (R303). -/
def execAddi (rd rs1 : Reg) (imm : BitVec 12) (s : State) : Result :=
  finishAlu s false rd (reg s rs1 + sextImm imm)

/-- SLTI: signed compare (R304). -/
def execSlti (rd rs1 : Reg) (imm : BitVec 12) (s : State) : Result :=
  finishAlu s false rd (boolWord ((reg s rs1).slt (sextImm imm)))

/-- SLTIU: unsigned compare with the sign-extended immediate (R305). -/
def execSltiu (rd rs1 : Reg) (imm : BitVec 12) (s : State) : Result :=
  finishAlu s false rd (boolWord ((reg s rs1).ult (sextImm imm)))

/-- XORI (R306). -/
def execXori (rd rs1 : Reg) (imm : BitVec 12) (s : State) : Result :=
  finishAlu s false rd (reg s rs1 ^^^ sextImm imm)

/-- ORI (R307). -/
def execOri (rd rs1 : Reg) (imm : BitVec 12) (s : State) : Result :=
  finishAlu s false rd (reg s rs1 ||| sextImm imm)

/-- ANDI (R308). -/
def execAndi (rd rs1 : Reg) (imm : BitVec 12) (s : State) : Result :=
  finishAlu s false rd (reg s rs1 &&& sextImm imm)

/-- SLLI (R309). -/
def execSlli (rd rs1 : Reg) (shamt : BitVec 5) (s : State) : Result :=
  finishAlu s false rd (reg s rs1 <<< shamt)

/-- SRLI (R310). -/
def execSrli (rd rs1 : Reg) (shamt : BitVec 5) (s : State) : Result :=
  finishAlu s false rd (reg s rs1 >>> shamt)

/-- SRAI (R311). -/
def execSrai (rd rs1 : Reg) (shamt : BitVec 5) (s : State) : Result :=
  finishAlu s false rd ((reg s rs1).sshiftRight shamt.toNat)

/-- ADD (R312). -/
def execAdd (rd rs1 rs2 : Reg) (s : State) : Result :=
  finishAlu s false rd (reg s rs1 + reg s rs2)

/-- SUB (R313). -/
def execSub (rd rs1 rs2 : Reg) (s : State) : Result :=
  finishAlu s false rd (reg s rs1 - reg s rs2)

/-- SLL: the low five bits of rs2 (R314). -/
def execSll (rd rs1 rs2 : Reg) (s : State) : Result :=
  finishAlu s false rd (reg s rs1 <<< (reg s rs2).extractLsb' 0 5)

/-- SLT (R315). -/
def execSlt (rd rs1 rs2 : Reg) (s : State) : Result :=
  finishAlu s false rd (boolWord ((reg s rs1).slt (reg s rs2)))

/-- SLTU (R316). -/
def execSltu (rd rs1 rs2 : Reg) (s : State) : Result :=
  finishAlu s false rd (boolWord ((reg s rs1).ult (reg s rs2)))

/-- XOR (R317). -/
def execXor (rd rs1 rs2 : Reg) (s : State) : Result :=
  finishAlu s false rd (reg s rs1 ^^^ reg s rs2)

/-- SRL: the low five bits of rs2 (R318). -/
def execSrl (rd rs1 rs2 : Reg) (s : State) : Result :=
  finishAlu s false rd (reg s rs1 >>> (reg s rs2).extractLsb' 0 5)

/-- SRA: the low five bits of rs2 (R319). -/
def execSra (rd rs1 rs2 : Reg) (s : State) : Result :=
  finishAlu s false rd ((reg s rs1).sshiftRight ((reg s rs2).extractLsb' 0 5).toNat)

/-- OR (R320). -/
def execOr (rd rs1 rs2 : Reg) (s : State) : Result :=
  finishAlu s false rd (reg s rs1 ||| reg s rs2)

/-- AND (R321). -/
def execAnd (rd rs1 rs2 : Reg) (s : State) : Result :=
  finishAlu s false rd (reg s rs1 &&& reg s rs2)

end Sys2Proof.Machine
end

