-- ==== Sys2Proof/Machine/LoadStore.lean ====
section
/-! DEFINITION. RV32I loads and stores (42_rv32i_loadstore.md). -/

namespace Sys2Proof.Machine

/-- LB (R351). -/
def execLb (rd rs1 : Reg) (off : BitVec 12) (s : State) : Result :=
  finishLoad s false .signed8 rd (effAddr s rs1 (sextImm off))

/-- LH (R352). -/
def execLh (rd rs1 : Reg) (off : BitVec 12) (s : State) : Result :=
  finishLoad s false .signed16 rd (effAddr s rs1 (sextImm off))

/-- LW (R353). -/
def execLw (rd rs1 : Reg) (off : BitVec 12) (s : State) : Result :=
  finishLoad s false .word rd (effAddr s rs1 (sextImm off))

/-- LBU (R354). -/
def execLbu (rd rs1 : Reg) (off : BitVec 12) (s : State) : Result :=
  finishLoad s false .unsigned8 rd (effAddr s rs1 (sextImm off))

/-- LHU (R355). -/
def execLhu (rd rs1 : Reg) (off : BitVec 12) (s : State) : Result :=
  finishLoad s false .unsigned16 rd (effAddr s rs1 (sextImm off))

/-- SB (R356). -/
def execSb (rs2 rs1 : Reg) (off : BitVec 12) (s : State) : Result :=
  finishStore s false 1 (reg s rs2) (effAddr s rs1 (sextImm off))

/-- SH (R357). -/
def execSh (rs2 rs1 : Reg) (off : BitVec 12) (s : State) : Result :=
  finishStore s false 2 (reg s rs2) (effAddr s rs1 (sextImm off))

/-- SW (R358). -/
def execSw (rs2 rs1 : Reg) (off : BitVec 12) (s : State) : Result :=
  finishStore s false 4 (reg s rs2) (effAddr s rs1 (sextImm off))

end Sys2Proof.Machine
end

