-- ==== Sys2Proof/Machine/MulDiv.lean ====
section
/-! DEFINITION. The M extension (44_m_muldiv.md); no flag, no exception (R380). -/

namespace Sys2Proof.Machine

/-- The high 32 bits of a 64-bit two's complement product (R382 to R384). -/
def highProduct (a b : Int) : Word := (BitVec.ofInt 64 (a * b)).extractLsb' 32 32

/-- Signed division toward zero, with the two special cases (R385, R389). -/
def divSigned (a b : Word) : Word :=
  if b = 0 then 0xFFFFFFFF
  else if a = 0x80000000 ∧ b = 0xFFFFFFFF then 0x80000000
  else BitVec.ofInt 32 (a.toInt.tdiv b.toInt)

/-- Unsigned division; by zero it gives all ones (R386, R389). -/
def divUnsigned (a b : Word) : Word :=
  if b = 0 then 0xFFFFFFFF else BitVec.ofNat 32 (a.toNat / b.toNat)

/-- Signed remainder with the sign of the dividend (R387, R389). -/
def remSigned (a b : Word) : Word :=
  if b = 0 then a
  else if a = 0x80000000 ∧ b = 0xFFFFFFFF then 0
  else BitVec.ofInt 32 (a.toInt.tmod b.toInt)

/-- Unsigned remainder; by zero it gives the dividend (R388, R389). -/
def remUnsigned (a b : Word) : Word :=
  if b = 0 then a else BitVec.ofNat 32 (a.toNat % b.toNat)

/-- MUL (R381). -/
def execMul (rd rs1 rs2 : Reg) (s : State) : Result :=
  finishMulDiv s .mul rd (reg s rs1 * reg s rs2)

/-- MULH (R382). -/
def execMulh (rd rs1 rs2 : Reg) (s : State) : Result :=
  finishMulDiv s .mul rd (highProduct (reg s rs1).toInt (reg s rs2).toInt)

/-- MULHSU (R383). -/
def execMulhsu (rd rs1 rs2 : Reg) (s : State) : Result :=
  finishMulDiv s .mul rd (highProduct (reg s rs1).toInt (reg s rs2).toNat)

/-- MULHU (R384). -/
def execMulhu (rd rs1 rs2 : Reg) (s : State) : Result :=
  finishMulDiv s .mul rd (highProduct (reg s rs1).toNat (reg s rs2).toNat)

/-- DIV (R385). -/
def execDiv (rd rs1 rs2 : Reg) (s : State) : Result :=
  finishMulDiv s .div rd (divSigned (reg s rs1) (reg s rs2))

/-- DIVU (R386). -/
def execDivu (rd rs1 rs2 : Reg) (s : State) : Result :=
  finishMulDiv s .div rd (divUnsigned (reg s rs1) (reg s rs2))

/-- REM (R387). -/
def execRem (rd rs1 rs2 : Reg) (s : State) : Result :=
  finishMulDiv s .div rd (remSigned (reg s rs1) (reg s rs2))

/-- REMU (R388). -/
def execRemu (rd rs1 rs2 : Reg) (s : State) : Result :=
  finishMulDiv s .div rd (remUnsigned (reg s rs1) (reg s rs2))

end Sys2Proof.Machine
end

