-- ==== Sys2Proof/Machine/Privileged.lean ====
section
/-! DEFINITION. MRET and WFI (48_privileged.md). -/

namespace Sys2Proof.Machine

/-- MRET: the return from a trap (R471). -/
def execMret  (s : State) : Result :=
  .next (retire (returnFromTrap s) ⟨false, .mret, false⟩ s.csr.mepc)

/-- WFI is a NOP, an ALU operation for event 15 (R474). -/
def execWfi  (s : State) : Result :=
  finishAlu s false 0 0

end Sys2Proof.Machine
end

