-- ==== Sys2Proof/Syntax.lean ====
section
/-! DEFINITION. The instructions: one constructor per row of spec/opcode_table.json, operands as the row's fields. -/

namespace Sys2Proof

/-- The 84 instructions of SweRV EH1 (R290). Immediates are the fields of the encoding at their own
width, already scaled to bytes where the spec scales them (R244, R263); `Instr.wellFormed` says
which values an encoding admits. -/
inductive Instr where
  -- RV32I upper immediates (R301, R302)
  | lui (rd : Reg) (imm : BitVec 20)
  | auipc (rd : Reg) (imm : BitVec 20)
  -- RV32I control transfer (R331 to R338); offsets in bytes, bit 0 zero
  | jal (rd : Reg) (off : BitVec 21)
  | jalr (rd rs1 : Reg) (off : BitVec 12)
  | beq (rs1 rs2 : Reg) (off : BitVec 13)
  | bne (rs1 rs2 : Reg) (off : BitVec 13)
  | blt (rs1 rs2 : Reg) (off : BitVec 13)
  | bge (rs1 rs2 : Reg) (off : BitVec 13)
  | bltu (rs1 rs2 : Reg) (off : BitVec 13)
  | bgeu (rs1 rs2 : Reg) (off : BitVec 13)
  -- RV32I loads and stores (R351 to R358)
  | lb (rd rs1 : Reg) (off : BitVec 12)
  | lh (rd rs1 : Reg) (off : BitVec 12)
  | lw (rd rs1 : Reg) (off : BitVec 12)
  | lbu (rd rs1 : Reg) (off : BitVec 12)
  | lhu (rd rs1 : Reg) (off : BitVec 12)
  | sb (rs2 rs1 : Reg) (off : BitVec 12)
  | sh (rs2 rs1 : Reg) (off : BitVec 12)
  | sw (rs2 rs1 : Reg) (off : BitVec 12)
  -- RV32I register-immediate (R303 to R311)
  | addi (rd rs1 : Reg) (imm : BitVec 12)
  | slti (rd rs1 : Reg) (imm : BitVec 12)
  | sltiu (rd rs1 : Reg) (imm : BitVec 12)
  | xori (rd rs1 : Reg) (imm : BitVec 12)
  | ori (rd rs1 : Reg) (imm : BitVec 12)
  | andi (rd rs1 : Reg) (imm : BitVec 12)
  | slli (rd rs1 : Reg) (shamt : BitVec 5)
  | srli (rd rs1 : Reg) (shamt : BitVec 5)
  | srai (rd rs1 : Reg) (shamt : BitVec 5)
  -- RV32I register-register (R312 to R321)
  | add (rd rs1 rs2 : Reg)
  | sub (rd rs1 rs2 : Reg)
  | sll (rd rs1 rs2 : Reg)
  | slt (rd rs1 rs2 : Reg)
  | sltu (rd rs1 rs2 : Reg)
  | xor (rd rs1 rs2 : Reg)
  | srl (rd rs1 rs2 : Reg)
  | sra (rd rs1 rs2 : Reg)
  | or (rd rs1 rs2 : Reg)
  | and (rd rs1 rs2 : Reg)
  -- FENCE, ECALL, EBREAK, FENCE.I (R370 to R372, R440); the ignored fields are kept
  | fence (fm pred succ : BitVec 4) (rs1 rd : Reg)
  | ecall
  | ebreak
  | fenceI (imm : BitVec 12) (rs1 rd : Reg)
  -- Zicsr (R446 to R451)
  | csrrw (rd : Reg) (csr : BitVec 12) (rs1 : Reg)
  | csrrs (rd : Reg) (csr : BitVec 12) (rs1 : Reg)
  | csrrc (rd : Reg) (csr : BitVec 12) (rs1 : Reg)
  | csrrwi (rd : Reg) (csr : BitVec 12) (uimm : BitVec 5)
  | csrrsi (rd : Reg) (csr : BitVec 12) (uimm : BitVec 5)
  | csrrci (rd : Reg) (csr : BitVec 12) (uimm : BitVec 5)
  -- M (R381 to R388)
  | mul (rd rs1 rs2 : Reg)
  | mulh (rd rs1 rs2 : Reg)
  | mulhsu (rd rs1 rs2 : Reg)
  | mulhu (rd rs1 rs2 : Reg)
  | div (rd rs1 rs2 : Reg)
  | divu (rd rs1 rs2 : Reg)
  | rem (rd rs1 rs2 : Reg)
  | remu (rd rs1 rs2 : Reg)
  -- privileged (R471, R474)
  | mret
  | wfi
  -- C, quadrant 0 (R401 to R403)
  | cAddi4spn (rd : CReg) (uimm : BitVec 10)
  | cLw (rd rs1 : CReg) (uimm : BitVec 7)
  | cSw (rs2 rs1 : CReg) (uimm : BitVec 7)
  -- C, quadrant 1 (R404 to R419)
  | cNop (imm : BitVec 6)
  | cAddi (rd : Reg) (imm : BitVec 6)
  | cJal (off : BitVec 12)
  | cLi (rd : Reg) (imm : BitVec 6)
  | cAddi16sp (imm : BitVec 10)
  | cLui (rd : Reg) (imm : BitVec 6)
  | cSrli (rd : CReg) (shamt : BitVec 5)
  | cSrai (rd : CReg) (shamt : BitVec 5)
  | cAndi (rd : CReg) (imm : BitVec 6)
  | cSub (rd rs2 : CReg)
  | cXor (rd rs2 : CReg)
  | cOr (rd rs2 : CReg)
  | cAnd (rd rs2 : CReg)
  | cJ (off : BitVec 12)
  | cBeqz (rs1 : CReg) (off : BitVec 9)
  | cBnez (rs1 : CReg) (off : BitVec 9)
  -- C, quadrant 2 (R420 to R427)
  | cSlli (rd : Reg) (shamt : BitVec 5)
  | cLwsp (rd : Reg) (uimm : BitVec 8)
  | cJr (rs1 : Reg)
  | cMv (rd rs2 : Reg)
  | cEbreak
  | cJalr (rs1 : Reg)
  | cAdd (rd rs2 : Reg)
  | cSwsp (rs2 : Reg) (uimm : BitVec 8)
  deriving DecidableEq, Repr

end Sys2Proof
end

