-- ==== Sys2Proof/WellFormed.lean ====
section
/-! DEFINITION. Which operand values an encoding of the instruction exists for (R244, R263, R268). -/

namespace Sys2Proof

/-- The low bit of a byte offset is zero (R244, R263). -/
def evenOffset {n : Nat} (off : BitVec n) : Bool := !off.getLsbD 0

/-- The immediate is a multiple of four (R263). -/
def wordScaled {n : Nat} (imm : BitVec n) : Bool := imm.extractLsb' 0 2 == 0#2

/-- The operands are values that some encoding of the instruction carries: offsets are even, scaled
immediates are multiples of their scale, and the operand values the C extension reserves or gives to
another instruction are absent (R263, R268, the constraints of R401 to R427). -/
def Instr.wellFormed : Instr → Bool
  | .jal _ off => evenOffset off
  | .beq _ _ off | .bne _ _ off | .blt _ _ off | .bge _ _ off | .bltu _ _ off
  | .bgeu _ _ off => evenOffset off
  | .cAddi4spn _ uimm => wordScaled uimm && uimm != 0
  | .cLw _ _ uimm | .cSw _ _ uimm => wordScaled uimm
  | .cAddi rd _ => rd != 0
  | .cJal off | .cJ off => evenOffset off
  | .cAddi16sp imm => imm.extractLsb' 0 4 == 0#4 && imm != 0
  | .cLui rd imm => rd != 2 && imm != 0
  | .cBeqz _ off | .cBnez _ off => evenOffset off
  | .cLwsp rd uimm => rd != 0 && wordScaled uimm
  | .cSwsp _ uimm => wordScaled uimm
  | .cJr rs1 | .cJalr rs1 => rs1 != 0
  | .cMv _ rs2 | .cAdd _ rs2 => rs2 != 0
  | .lui _ _ | .auipc _ _ | .jalr _ _ _ | .lb _ _ _ | .lh _ _ _ | .lw _ _ _ | .lbu _ _ _
  | .lhu _ _ _ | .sb _ _ _ | .sh _ _ _ | .sw _ _ _ | .addi _ _ _ | .slti _ _ _ | .sltiu _ _ _
  | .xori _ _ _ | .ori _ _ _ | .andi _ _ _ | .slli _ _ _ | .srli _ _ _ | .srai _ _ _
  | .add _ _ _ | .sub _ _ _ | .sll _ _ _ | .slt _ _ _ | .sltu _ _ _ | .xor _ _ _ | .srl _ _ _
  | .sra _ _ _ | .or _ _ _ | .and _ _ _ | .fence _ _ _ _ _ | .ecall | .ebreak | .fenceI _ _ _
  | .csrrw _ _ _ | .csrrs _ _ _ | .csrrc _ _ _ | .csrrwi _ _ _ | .csrrsi _ _ _ | .csrrci _ _ _
  | .mul _ _ _ | .mulh _ _ _ | .mulhsu _ _ _ | .mulhu _ _ _ | .div _ _ _ | .divu _ _ _
  | .rem _ _ _ | .remu _ _ _ | .mret | .wfi | .cNop _ | .cLi _ _ | .cSrli _ _ | .cSrai _ _
  | .cAndi _ _ | .cSub _ _ | .cXor _ _ | .cOr _ _ | .cAnd _ _ | .cSlli _ _ | .cEbreak => true

end Sys2Proof
end

