-- ==== Sys2Proof/Decode.lean ====
section
/-! DEFINITION. Decoding, total on any bytes, and after it the encoder, both from the formats of 30_encoding.md. -/

namespace Sys2Proof

/-! ## Codes: the two instruction lengths (R240, R241) -/

/-- The bits of one instruction: a 16-bit parcel, or two parcels read as a 32-bit word. -/
inductive Code where
  | half (h : BitVec 16)
  | word (w : BitVec 32)
  deriving DecidableEq, Repr

/-- The instruction bits as `mtval` reports them (R523, R293): a parcel is zero-extended. -/
def Code.bits : Code → Word
  | .half h => h.setWidth 32
  | .word w => w

/-- The number of bytes of the instruction (R241). -/
def Code.size : Code → Nat
  | .half _ => 2
  | .word _ => 4

/-- The bytes of the instruction, lowest address first (R161, R240). -/
def Code.bytes : Code → List Byte
  | .half h => [h.extractLsb' 0 8, h.extractLsb' 8 8]
  | .word w => [w.extractLsb' 0 8, w.extractLsb' 8 8, w.extractLsb' 16 8, w.extractLsb' 24 8]

/-- Whether a first parcel belongs to a 32-bit instruction (R241). -/
def longParcel (p : BitVec 16) : Bool := p.extractLsb' 0 2 == 3#2

/-! ## Fields: every format is a regrouping of the R layout (R242, R243) and of CI/CR (R260, R261) -/

/-- The six fields of a 32-bit word in the R layout. -/
structure Fields where
  /-- bits 31:25 -/
  f7 : BitVec 7
  /-- bits 24:20 -/
  rs2 : BitVec 5
  /-- bits 19:15 -/
  rs1 : BitVec 5
  /-- bits 14:12 -/
  f3 : BitVec 3
  /-- bits 11:7 -/
  rd : BitVec 5
  /-- bits 6:0 -/
  op : BitVec 7
  deriving DecidableEq, Repr

/-- Splits a word into its fields (R242). -/
def Fields.ofWord (w : BitVec 32) : Fields where
  f7 := w.extractLsb' 25 7
  rs2 := w.extractLsb' 20 5
  rs1 := w.extractLsb' 15 5
  f3 := w.extractLsb' 12 3
  rd := w.extractLsb' 7 5
  op := w.extractLsb' 0 7

/-- Joins the fields into a word (R242). -/
def Fields.toWord (f : Fields) : BitVec 32 :=
  f.f7 ++ f.rs2 ++ f.rs1 ++ f.f3 ++ f.rd ++ f.op

/-- I-imm, bits 31:20 (R244); also the CSR number (R243). -/
def Fields.immI (f : Fields) : BitVec 12 := f.f7 ++ f.rs2

/-- S-imm, bits 31:25 and 11:7 (R244). -/
def Fields.immS (f : Fields) : BitVec 12 := f.f7 ++ f.rd

/-- B-imm: bit 12 is inst[31], bit 11 inst[7], bits 10:5 inst[30:25], bits 4:1 inst[11:8] (R244). -/
def Fields.immB (f : Fields) : BitVec 13 :=
  f.f7.extractLsb' 6 1 ++ f.rd.extractLsb' 0 1 ++ f.f7.extractLsb' 0 6 ++ f.rd.extractLsb' 1 4 ++ 0#1

/-- U-imm, bits 31:12 (R244). -/
def Fields.immU (f : Fields) : BitVec 20 := f.f7 ++ f.rs2 ++ f.rs1 ++ f.f3

/-- J-imm: bit 20 is inst[31], bits 19:12 inst[19:12], bit 11 inst[20], bits 10:1 inst[30:21] (R244). -/
def Fields.immJ (f : Fields) : BitVec 21 :=
  f.f7.extractLsb' 6 1 ++ f.rs1 ++ f.f3 ++ f.rs2.extractLsb' 0 1 ++ f.f7.extractLsb' 0 6 ++
    f.rs2.extractLsb' 1 4 ++ 0#1

/-- The five fields of a 16-bit parcel in the CI and CR layouts. -/
structure Fields16 where
  /-- bits 15:13 -/
  f3 : BitVec 3
  /-- bit 12 -/
  b12 : BitVec 1
  /-- bits 11:7 -/
  r1 : BitVec 5
  /-- bits 6:2 -/
  r2 : BitVec 5
  /-- bits 1:0 -/
  op : BitVec 2
  deriving DecidableEq, Repr

/-- Splits a parcel into its fields (R260). -/
def Fields16.ofParcel (h : BitVec 16) : Fields16 where
  f3 := h.extractLsb' 13 3
  b12 := h.extractLsb' 12 1
  r1 := h.extractLsb' 7 5
  r2 := h.extractLsb' 2 5
  op := h.extractLsb' 0 2

/-- Joins the fields into a parcel (R260). -/
def Fields16.toParcel (f : Fields16) : BitVec 16 := f.f3 ++ f.b12 ++ f.r1 ++ f.r2 ++ f.op

/-- The register field in bits 4:2 (R262). -/
def Fields16.lowReg (f : Fields16) : CReg := f.r2.extractLsb' 0 3

/-- The register field in bits 9:7 (R262). -/
def Fields16.highReg (f : Fields16) : CReg := f.r1.extractLsb' 0 3

/-- imm[5:0] of the CI format, and of C.ANDI (R263). -/
def Fields16.imm6 (f : Fields16) : BitVec 6 := f.b12 ++ f.r2

/-- nzuimm of C.ADDI4SPN: [9:6] inst[10:7], [5:4] inst[12:11], [3] inst[5], [2] inst[6] (R263). -/
def Fields16.immIw (f : Fields16) : BitVec 10 :=
  f.r1.extractLsb' 0 4 ++ f.b12 ++ f.r1.extractLsb' 4 1 ++ f.r2.extractLsb' 3 1 ++
    f.r2.extractLsb' 4 1 ++ 0#2

/-- uimm of C.LW and C.SW: [6] inst[5], [5:3] inst[12:10], [2] inst[6] (R263). -/
def Fields16.immLs (f : Fields16) : BitVec 7 :=
  f.r2.extractLsb' 3 1 ++ f.b12 ++ f.r1.extractLsb' 3 2 ++ f.r2.extractLsb' 4 1 ++ 0#2

/-- imm of C.JAL and C.J (R263). -/
def Fields16.immCj (f : Fields16) : BitVec 12 :=
  f.b12 ++ f.r1.extractLsb' 1 1 ++ f.r1.extractLsb' 2 2 ++ f.r2.extractLsb' 4 1 ++
    f.r1.extractLsb' 0 1 ++ f.r2.extractLsb' 0 1 ++ f.r1.extractLsb' 4 1 ++ f.r2.extractLsb' 1 3 ++ 0#1

/-- nzimm of C.ADDI16SP: [9] inst[12], [8:7] inst[4:3], [6] inst[5], [5] inst[2], [4] inst[6] (R263). -/
def Fields16.imm16sp (f : Fields16) : BitVec 10 :=
  f.b12 ++ f.r2.extractLsb' 1 2 ++ f.r2.extractLsb' 3 1 ++ f.r2.extractLsb' 0 1 ++
    f.r2.extractLsb' 4 1 ++ 0#4

/-- imm of C.BEQZ and C.BNEZ: [8] inst[12], [7:6] inst[6:5], [5] inst[2], [4:3] inst[11:10],
[2:1] inst[4:3] (R263). -/
def Fields16.immCb (f : Fields16) : BitVec 9 :=
  f.b12 ++ f.r2.extractLsb' 3 2 ++ f.r2.extractLsb' 0 1 ++ f.r1.extractLsb' 3 2 ++
    f.r2.extractLsb' 1 2 ++ 0#1

/-- uimm of C.LWSP: [7:6] inst[3:2], [5] inst[12], [4:2] inst[6:4] (R263). -/
def Fields16.immLwsp (f : Fields16) : BitVec 8 :=
  f.r2.extractLsb' 0 2 ++ f.b12 ++ f.r2.extractLsb' 2 3 ++ 0#2

/-- uimm of C.SWSP: [7:6] inst[8:7], [5:2] inst[12:9] (R263). -/
def Fields16.immSwsp (f : Fields16) : BitVec 8 :=
  f.r1.extractLsb' 0 2 ++ f.b12 ++ f.r1.extractLsb' 2 3 ++ 0#2

/-! ## Decoding 32-bit words (R245 to R251) -/

/-- LOAD and STORE by funct3 (R246). -/
def decodeLoad (f : Fields) : Option Instr :=
  match f.f3 with
  | 0#3 => some (.lb f.rd f.rs1 f.immI)
  | 1#3 => some (.lh f.rd f.rs1 f.immI)
  | 2#3 => some (.lw f.rd f.rs1 f.immI)
  | 4#3 => some (.lbu f.rd f.rs1 f.immI)
  | 5#3 => some (.lhu f.rd f.rs1 f.immI)
  | _ => none

/-- STORE by funct3 (R246). -/
def decodeStore (f : Fields) : Option Instr :=
  match f.f3 with
  | 0#3 => some (.sb f.rs2 f.rs1 f.immS)
  | 1#3 => some (.sh f.rs2 f.rs1 f.immS)
  | 2#3 => some (.sw f.rs2 f.rs1 f.immS)
  | _ => none

/-- OP-IMM by funct3; the shifts fix inst[31:25] (R247). -/
def decodeOpImm (f : Fields) : Option Instr :=
  match f.f3 with
  | 0#3 => some (.addi f.rd f.rs1 f.immI)
  | 1#3 => if f.f7 = 0#7 then some (.slli f.rd f.rs1 f.rs2) else none
  | 2#3 => some (.slti f.rd f.rs1 f.immI)
  | 3#3 => some (.sltiu f.rd f.rs1 f.immI)
  | 4#3 => some (.xori f.rd f.rs1 f.immI)
  | 5#3 =>
    if f.f7 = 0#7 then some (.srli f.rd f.rs1 f.rs2)
    else if f.f7 = 0x20#7 then some (.srai f.rd f.rs1 f.rs2) else none
  | 6#3 => some (.ori f.rd f.rs1 f.immI)
  | _ => some (.andi f.rd f.rs1 f.immI)

/-- OP with funct7 = 0000000 (R248). -/
def decodeOpBase (f : Fields) : Instr :=
  match f.f3 with
  | 0#3 => .add f.rd f.rs1 f.rs2
  | 1#3 => .sll f.rd f.rs1 f.rs2
  | 2#3 => .slt f.rd f.rs1 f.rs2
  | 3#3 => .sltu f.rd f.rs1 f.rs2
  | 4#3 => .xor f.rd f.rs1 f.rs2
  | 5#3 => .srl f.rd f.rs1 f.rs2
  | 6#3 => .or f.rd f.rs1 f.rs2
  | _ => .and f.rd f.rs1 f.rs2

/-- OP with funct7 = 0000001, the M extension (R248). -/
def decodeOpM (f : Fields) : Instr :=
  match f.f3 with
  | 0#3 => .mul f.rd f.rs1 f.rs2
  | 1#3 => .mulh f.rd f.rs1 f.rs2
  | 2#3 => .mulhsu f.rd f.rs1 f.rs2
  | 3#3 => .mulhu f.rd f.rs1 f.rs2
  | 4#3 => .div f.rd f.rs1 f.rs2
  | 5#3 => .divu f.rd f.rs1 f.rs2
  | 6#3 => .rem f.rd f.rs1 f.rs2
  | _ => .remu f.rd f.rs1 f.rs2

/-- OP by funct7 and funct3 (R248). -/
def decodeOp (f : Fields) : Option Instr :=
  if f.f7 = 0#7 then some (decodeOpBase f)
  else if f.f7 = 1#7 then some (decodeOpM f)
  else if f.f7 = 0x20#7 then
    match f.f3 with
    | 0#3 => some (.sub f.rd f.rs1 f.rs2)
    | 5#3 => some (.sra f.rd f.rs1 f.rs2)
    | _ => none
  else none

/-- BRANCH by funct3 (R249). -/
def decodeBranch (f : Fields) : Option Instr :=
  match f.f3 with
  | 0#3 => some (.beq f.rs1 f.rs2 f.immB)
  | 1#3 => some (.bne f.rs1 f.rs2 f.immB)
  | 4#3 => some (.blt f.rs1 f.rs2 f.immB)
  | 5#3 => some (.bge f.rs1 f.rs2 f.immB)
  | 6#3 => some (.bltu f.rs1 f.rs2 f.immB)
  | 7#3 => some (.bgeu f.rs1 f.rs2 f.immB)
  | _ => none

/-- MISC-MEM: FENCE and FENCE.I whatever their ignored fields hold (R250). -/
def decodeMiscMem (f : Fields) : Option Instr :=
  match f.f3 with
  | 0#3 => some (.fence (f.immI.extractLsb' 8 4) (f.immI.extractLsb' 4 4) (f.immI.extractLsb' 0 4)
      f.rs1 f.rd)
  | 1#3 => some (.fenceI f.immI f.rs1 f.rd)
  | _ => none

/-- SYSTEM with funct3 = 000: whole-word encodings (R251); DRET, SRET, URET and SFENCE.VMA are illegal. -/
def decodePriv (f : Fields) : Option Instr :=
  if f.rd = 0#5 ∧ f.rs1 = 0#5 then
    if f.immI = 0x000#12 then some .ecall
    else if f.immI = 0x001#12 then some .ebreak
    else if f.immI = 0x302#12 then some .mret
    else if f.immI = 0x105#12 then some .wfi
    else none
  else none

/-- SYSTEM by funct3 (R251). -/
def decodeSystem (f : Fields) : Option Instr :=
  match f.f3 with
  | 0#3 => decodePriv f
  | 1#3 => some (.csrrw f.rd f.immI f.rs1)
  | 2#3 => some (.csrrs f.rd f.immI f.rs1)
  | 3#3 => some (.csrrc f.rd f.immI f.rs1)
  | 5#3 => some (.csrrwi f.rd f.immI f.rs1)
  | 6#3 => some (.csrrsi f.rd f.immI f.rs1)
  | 7#3 => some (.csrrci f.rd f.immI f.rs1)
  | _ => none

/-- The major opcodes this core uses; every other value is illegal (R245). -/
def decodeFields (f : Fields) : Option Instr :=
  match f.op with
  | 0x03#7 => decodeLoad f
  | 0x0F#7 => decodeMiscMem f
  | 0x13#7 => decodeOpImm f
  | 0x17#7 => some (.auipc f.rd f.immU)
  | 0x23#7 => decodeStore f
  | 0x33#7 => decodeOp f
  | 0x37#7 => some (.lui f.rd f.immU)
  | 0x63#7 => decodeBranch f
  | 0x67#7 => if f.f3 = 0#3 then some (.jalr f.rd f.rs1 f.immI) else none
  | 0x6F#7 => some (.jal f.rd f.immJ)
  | 0x73#7 => decodeSystem f
  | _ => none

/-! ## Decoding 16-bit parcels: the decision list of R428 -/

/-- Quadrant 0 (R264). -/
def decodeQuadrant0 (f : Fields16) : Option Instr :=
  match f.f3 with
  | 0#3 => if f.immIw = 0#10 then none else some (.cAddi4spn f.lowReg f.immIw)
  | 2#3 => some (.cLw f.lowReg f.highReg f.immLs)
  | 6#3 => some (.cSw f.lowReg f.highReg f.immLs)
  | _ => none

/-- The register-register group of quadrant 1 (R265). -/
def decodeCa (f : Fields16) : Option Instr :=
  if f.b12 = 1#1 then none
  else
    match f.r2.extractLsb' 3 2 with
    | 0#2 => some (.cSub f.highReg f.lowReg)
    | 1#2 => some (.cXor f.highReg f.lowReg)
    | 2#2 => some (.cOr f.highReg f.lowReg)
    | _ => some (.cAnd f.highReg f.lowReg)

/-- Quadrant 1, funct3 = 100, by inst[11:10] (R265); a shift with shamt[5] = 1 is illegal (R268). -/
def decodeCArith (f : Fields16) : Option Instr :=
  match f.r1.extractLsb' 3 2 with
  | 0#2 => if f.b12 = 1#1 then none else some (.cSrli f.highReg f.r2)
  | 1#2 => if f.b12 = 1#1 then none else some (.cSrai f.highReg f.r2)
  | 2#2 => some (.cAndi f.highReg f.imm6)
  | _ => decodeCa f

/-- Quadrant 1 (R265). -/
def decodeQuadrant1 (f : Fields16) : Option Instr :=
  match f.f3 with
  | 0#3 => if f.r1 = 0#5 then some (.cNop f.imm6) else some (.cAddi f.r1 f.imm6)
  | 1#3 => some (.cJal f.immCj)
  | 2#3 => some (.cLi f.r1 f.imm6)
  | 3#3 =>
    if f.imm6 = 0#6 then none
    else if f.r1 = 2#5 then some (.cAddi16sp f.imm16sp) else some (.cLui f.r1 f.imm6)
  | 4#3 => decodeCArith f
  | 5#3 => some (.cJ f.immCj)
  | 6#3 => some (.cBeqz f.highReg f.immCb)
  | _ => some (.cBnez f.highReg f.immCb)

/-- Quadrant 2, funct3 = 100 (R266). -/
def decodeCr (f : Fields16) : Option Instr :=
  if f.b12 = 0#1 then
    if f.r2 = 0#5 then (if f.r1 = 0#5 then none else some (.cJr f.r1))
    else some (.cMv f.r1 f.r2)
  else if f.r2 = 0#5 then (if f.r1 = 0#5 then some .cEbreak else some (.cJalr f.r1))
  else some (.cAdd f.r1 f.r2)

/-- Quadrant 2 (R266). -/
def decodeQuadrant2 (f : Fields16) : Option Instr :=
  match f.f3 with
  | 0#3 => if f.b12 = 1#1 then none else some (.cSlli f.r1 f.r2)
  | 2#3 => if f.r1 = 0#5 then none else some (.cLwsp f.r1 f.immLwsp)
  | 4#3 => decodeCr f
  | 6#3 => some (.cSwsp f.r2 f.immSwsp)
  | _ => none

/-- Any parcel by quadrant (R428); op = 11 is no 16-bit instruction. -/
def decodeFields16 (f : Fields16) : Option Instr :=
  match f.op with
  | 0#2 => decodeQuadrant0 f
  | 1#2 => decodeQuadrant1 f
  | 2#2 => decodeQuadrant2 f
  | _ => none

/-- The instruction a code stands for; `none` is an illegal instruction (R291). -/
def decodeCode : Code → Option Instr
  | .half h => decodeFields16 (Fields16.ofParcel h)
  | .word w => decodeFields (Fields.ofWord w)

/-! ## Decoding bytes -/

/-- Why bytes do not decode. -/
inductive DecodeError where
  /-- fewer bytes than the instruction has -/
  | truncated
  /-- a 16-bit parcel that no row of the opcode table matches (R268, R291) -/
  | illegal16 (h : BitVec 16)
  /-- a 32-bit word that no row of the opcode table matches (R291) -/
  | illegal32 (w : BitVec 32)
  deriving DecidableEq, Repr

/-- The code at the front of the bytes, and the bytes after it (R161, R241). -/
def takeCode : List Byte → Option (Code × List Byte)
  | b0 :: b1 :: rest =>
    if longParcel (b1 ++ b0) then
      match rest with
      | b2 :: b3 :: rest => some (.word (b3 ++ b2 ++ b1 ++ b0), rest)
      | _ => none
    else some (.half (b1 ++ b0), rest)
  | _ => none

/-- The error of an undecodable code. -/
def Code.illegal : Code → DecodeError
  | .half h => .illegal16 h
  | .word w => .illegal32 w

/-- Decodes the instruction at the front of the bytes and returns the rest. -/
def decode (bytes : List Byte) : Except DecodeError (Instr × List Byte) :=
  match takeCode bytes with
  | none => .error .truncated
  | some (c, rest) =>
    match decodeCode c with
    | none => .error c.illegal
    | some i => .ok (i, rest)

/-! ## The encoder -/

/-- R format (R242, R248). -/
def codeR (f7 : BitVec 7) (f3 : BitVec 3) (rd rs1 rs2 : Reg) : Code :=
  .word (Fields.toWord ⟨f7, rs2, rs1, f3, rd, 0x33#7⟩)

/-- I format (R242). -/
def codeI (op : BitVec 7) (f3 : BitVec 3) (rd rs1 : Reg) (imm : BitVec 12) : Code :=
  .word (Fields.toWord ⟨imm.extractLsb' 5 7, imm.extractLsb' 0 5, rs1, f3, rd, op⟩)

/-- I format of the constant shifts (R247). -/
def codeShift (f7 : BitVec 7) (f3 : BitVec 3) (rd rs1 : Reg) (shamt : BitVec 5) : Code :=
  .word (Fields.toWord ⟨f7, shamt, rs1, f3, rd, 0x13#7⟩)

/-- S format (R242). -/
def codeS (f3 : BitVec 3) (rs2 rs1 : Reg) (imm : BitVec 12) : Code :=
  .word (Fields.toWord ⟨imm.extractLsb' 5 7, rs2, rs1, f3, imm.extractLsb' 0 5, 0x23#7⟩)

/-- B format (R242, R244). -/
def codeB (f3 : BitVec 3) (rs1 rs2 : Reg) (off : BitVec 13) : Code :=
  .word (Fields.toWord ⟨off.extractLsb' 12 1 ++ off.extractLsb' 5 6, rs2, rs1, f3,
    off.extractLsb' 1 4 ++ off.extractLsb' 11 1, 0x63#7⟩)

/-- U format (R242). -/
def codeU (op : BitVec 7) (rd : Reg) (imm : BitVec 20) : Code :=
  .word (Fields.toWord ⟨imm.extractLsb' 13 7, imm.extractLsb' 8 5, imm.extractLsb' 3 5,
    imm.extractLsb' 0 3, rd, op⟩)

/-- J format (R242, R244). -/
def codeJ (rd : Reg) (off : BitVec 21) : Code :=
  .word (Fields.toWord ⟨off.extractLsb' 20 1 ++ off.extractLsb' 5 6,
    off.extractLsb' 1 4 ++ off.extractLsb' 11 1, off.extractLsb' 15 5, off.extractLsb' 12 3, rd, 0x6F#7⟩)

/-- Any 16-bit format, from its fields (R260). -/
def code16 (f3 : BitVec 3) (b12 : BitVec 1) (r1 r2 : BitVec 5) (op : BitVec 2) : Code :=
  .half (Fields16.toParcel ⟨f3, b12, r1, r2, op⟩)

/-- CI format with a six-bit immediate (R260, R263). -/
def codeCi (f3 : BitVec 3) (rd : Reg) (imm : BitVec 6) (op : BitVec 2) : Code :=
  code16 f3 (imm.extractLsb' 5 1) rd (imm.extractLsb' 0 5) op

/-- CL and CS formats of C.LW and C.SW (R263). -/
def codeCls (f3 : BitVec 3) (low high : CReg) (uimm : BitVec 7) : Code :=
  code16 f3 (uimm.extractLsb' 5 1) (uimm.extractLsb' 3 2 ++ high)
    (uimm.extractLsb' 2 1 ++ uimm.extractLsb' 6 1 ++ low) 0#2

/-- CJ format (R263). -/
def codeCj (f3 : BitVec 3) (off : BitVec 12) : Code :=
  code16 f3 (off.extractLsb' 11 1)
    (off.extractLsb' 4 1 ++ off.extractLsb' 8 2 ++ off.extractLsb' 10 1 ++ off.extractLsb' 6 1)
    (off.extractLsb' 7 1 ++ off.extractLsb' 1 3 ++ off.extractLsb' 5 1) 1#2

/-- CB format of the branches (R263). -/
def codeCb (f3 : BitVec 3) (rs1 : CReg) (off : BitVec 9) : Code :=
  code16 f3 (off.extractLsb' 8 1) (off.extractLsb' 3 2 ++ rs1)
    (off.extractLsb' 6 2 ++ off.extractLsb' 1 2 ++ off.extractLsb' 5 1) 1#2

/-- Quadrant 1, funct3 = 100: inst[11:10], a three-bit register and inst[6:2] (R265). -/
def codeCArith (b12 : BitVec 1) (sel : BitVec 2) (rd : CReg) (r2 : BitVec 5) : Code :=
  code16 4#3 b12 (sel ++ rd) r2 1#2

/-- The code of an instruction, from the encoding tables R242 to R268. -/
def Instr.code : Instr → Code
  | .lui rd imm => codeU 0x37#7 rd imm
  | .auipc rd imm => codeU 0x17#7 rd imm
  | .jal rd off => codeJ rd off
  | .jalr rd rs1 off => codeI 0x67#7 0#3 rd rs1 off
  | .beq rs1 rs2 off => codeB 0#3 rs1 rs2 off
  | .bne rs1 rs2 off => codeB 1#3 rs1 rs2 off
  | .blt rs1 rs2 off => codeB 4#3 rs1 rs2 off
  | .bge rs1 rs2 off => codeB 5#3 rs1 rs2 off
  | .bltu rs1 rs2 off => codeB 6#3 rs1 rs2 off
  | .bgeu rs1 rs2 off => codeB 7#3 rs1 rs2 off
  | .lb rd rs1 off => codeI 0x03#7 0#3 rd rs1 off
  | .lh rd rs1 off => codeI 0x03#7 1#3 rd rs1 off
  | .lw rd rs1 off => codeI 0x03#7 2#3 rd rs1 off
  | .lbu rd rs1 off => codeI 0x03#7 4#3 rd rs1 off
  | .lhu rd rs1 off => codeI 0x03#7 5#3 rd rs1 off
  | .sb rs2 rs1 off => codeS 0#3 rs2 rs1 off
  | .sh rs2 rs1 off => codeS 1#3 rs2 rs1 off
  | .sw rs2 rs1 off => codeS 2#3 rs2 rs1 off
  | .addi rd rs1 imm => codeI 0x13#7 0#3 rd rs1 imm
  | .slti rd rs1 imm => codeI 0x13#7 2#3 rd rs1 imm
  | .sltiu rd rs1 imm => codeI 0x13#7 3#3 rd rs1 imm
  | .xori rd rs1 imm => codeI 0x13#7 4#3 rd rs1 imm
  | .ori rd rs1 imm => codeI 0x13#7 6#3 rd rs1 imm
  | .andi rd rs1 imm => codeI 0x13#7 7#3 rd rs1 imm
  | .slli rd rs1 shamt => codeShift 0#7 1#3 rd rs1 shamt
  | .srli rd rs1 shamt => codeShift 0#7 5#3 rd rs1 shamt
  | .srai rd rs1 shamt => codeShift 0x20#7 5#3 rd rs1 shamt
  | .add rd rs1 rs2 => codeR 0#7 0#3 rd rs1 rs2
  | .sub rd rs1 rs2 => codeR 0x20#7 0#3 rd rs1 rs2
  | .sll rd rs1 rs2 => codeR 0#7 1#3 rd rs1 rs2
  | .slt rd rs1 rs2 => codeR 0#7 2#3 rd rs1 rs2
  | .sltu rd rs1 rs2 => codeR 0#7 3#3 rd rs1 rs2
  | .xor rd rs1 rs2 => codeR 0#7 4#3 rd rs1 rs2
  | .srl rd rs1 rs2 => codeR 0#7 5#3 rd rs1 rs2
  | .sra rd rs1 rs2 => codeR 0x20#7 5#3 rd rs1 rs2
  | .or rd rs1 rs2 => codeR 0#7 6#3 rd rs1 rs2
  | .and rd rs1 rs2 => codeR 0#7 7#3 rd rs1 rs2
  | .fence fm pred succ rs1 rd => codeI 0x0F#7 0#3 rd rs1 (fm ++ pred ++ succ)
  | .ecall => codeI 0x73#7 0#3 0 0 0x000#12
  | .ebreak => codeI 0x73#7 0#3 0 0 0x001#12
  | .fenceI imm rs1 rd => codeI 0x0F#7 1#3 rd rs1 imm
  | .csrrw rd csr rs1 => codeI 0x73#7 1#3 rd rs1 csr
  | .csrrs rd csr rs1 => codeI 0x73#7 2#3 rd rs1 csr
  | .csrrc rd csr rs1 => codeI 0x73#7 3#3 rd rs1 csr
  | .csrrwi rd csr uimm => codeI 0x73#7 5#3 rd uimm csr
  | .csrrsi rd csr uimm => codeI 0x73#7 6#3 rd uimm csr
  | .csrrci rd csr uimm => codeI 0x73#7 7#3 rd uimm csr
  | .mul rd rs1 rs2 => codeR 1#7 0#3 rd rs1 rs2
  | .mulh rd rs1 rs2 => codeR 1#7 1#3 rd rs1 rs2
  | .mulhsu rd rs1 rs2 => codeR 1#7 2#3 rd rs1 rs2
  | .mulhu rd rs1 rs2 => codeR 1#7 3#3 rd rs1 rs2
  | .div rd rs1 rs2 => codeR 1#7 4#3 rd rs1 rs2
  | .divu rd rs1 rs2 => codeR 1#7 5#3 rd rs1 rs2
  | .rem rd rs1 rs2 => codeR 1#7 6#3 rd rs1 rs2
  | .remu rd rs1 rs2 => codeR 1#7 7#3 rd rs1 rs2
  | .mret => codeI 0x73#7 0#3 0 0 0x302#12
  | .wfi => codeI 0x73#7 0#3 0 0 0x105#12
  | .cAddi4spn rd u => code16 0#3 (u.extractLsb' 5 1) (u.extractLsb' 4 1 ++ u.extractLsb' 6 4)
      (u.extractLsb' 2 1 ++ u.extractLsb' 3 1 ++ rd) 0#2
  | .cLw rd rs1 uimm => codeCls 2#3 rd rs1 uimm
  | .cSw rs2 rs1 uimm => codeCls 6#3 rs2 rs1 uimm
  | .cNop imm => codeCi 0#3 0 imm 1#2
  | .cAddi rd imm => codeCi 0#3 rd imm 1#2
  | .cJal off => codeCj 1#3 off
  | .cLi rd imm => codeCi 2#3 rd imm 1#2
  | .cAddi16sp i => code16 3#3 (i.extractLsb' 9 1) 2#5
      (i.extractLsb' 4 1 ++ i.extractLsb' 6 1 ++ i.extractLsb' 7 2 ++ i.extractLsb' 5 1) 1#2
  | .cLui rd imm => codeCi 3#3 rd imm 1#2
  | .cSrli rd shamt => codeCArith 0#1 0#2 rd shamt
  | .cSrai rd shamt => codeCArith 0#1 1#2 rd shamt
  | .cAndi rd imm => codeCArith (imm.extractLsb' 5 1) 2#2 rd (imm.extractLsb' 0 5)
  | .cSub rd rs2 => codeCArith 0#1 3#2 rd (0#2 ++ rs2)
  | .cXor rd rs2 => codeCArith 0#1 3#2 rd (1#2 ++ rs2)
  | .cOr rd rs2 => codeCArith 0#1 3#2 rd (2#2 ++ rs2)
  | .cAnd rd rs2 => codeCArith 0#1 3#2 rd (3#2 ++ rs2)
  | .cJ off => codeCj 5#3 off
  | .cBeqz rs1 off => codeCb 6#3 rs1 off
  | .cBnez rs1 off => codeCb 7#3 rs1 off
  | .cSlli rd shamt => code16 0#3 0#1 rd shamt 2#2
  | .cLwsp rd u => code16 2#3 (u.extractLsb' 5 1) rd (u.extractLsb' 2 3 ++ u.extractLsb' 6 2) 2#2
  | .cJr rs1 => code16 4#3 0#1 rs1 0 2#2
  | .cMv rd rs2 => code16 4#3 0#1 rd rs2 2#2
  | .cEbreak => code16 4#3 1#1 0 0 2#2
  | .cJalr rs1 => code16 4#3 1#1 rs1 0 2#2
  | .cAdd rd rs2 => code16 4#3 1#1 rd rs2 2#2
  | .cSwsp rs2 u => code16 6#3 (u.extractLsb' 5 1) (u.extractLsb' 2 3 ++ u.extractLsb' 6 2) rs2 2#2

/-- The bytes of an instruction, lowest address first. -/
def encode (i : Instr) : List Byte := i.code.bytes

/-! ## The table word -/

/-- `n` little-endian bytes of a number (R161). -/
def littleEndian : Nat → Nat → List Byte
  | 0, _ => []
  | n + 1, w => BitVec.ofNat 8 w :: littleEndian n (w / 256)

/-- The four bytes that hold an instruction whose low `nbits` bits are `w`, every other bit zero. -/
def tableBytes (nbits w : Nat) : List Byte := littleEndian 4 (w % 2 ^ nbits)

/-- The instruction this decoder reads from an instruction whose bits are `w`. -/
def decodeTableWord (nbits w : Nat) : Option Instr :=
  match decode (tableBytes nbits w) with
  | .ok (i, _) => some i
  | .error _ => none

end Sys2Proof
end

