-- ==== Sys2Proof/Machine/ICache.lean ====
section
/-! DEFINITION. The I-cache as far as it can be seen: diagnostic access (R112 to R115, R680 to R686), lines a debugger
wrote, lines the hardware has filled (R190), invalidation. The bytes of a filled line are the stale bytes of R191
(logs 21, 22). -/

namespace Sys2Proof.Machine

/-- Bytes of one way (R681): a quarter of the cache. -/
def wayBytes (c : Build) : Nat := c.icacheKb * 256

/-- The index bits that exist, 15:2 at most (R112). -/
def indexMask (c : Build) : Word := BitVec.ofNat 32 (wayBytes c - 1) &&& 0xFFFC

/-- The bits of `dicad0` that exist in the tag layout: unused higher tag bits are 0 (R113). -/
def tagMask (c : Build) : Word := BitVec.ofNat 32 ((0x100000000 / wayBytes c - 1) * 0x1000 + 0xFFF)

/-- `dicawics.array`, `way` and the index bits (R112). -/
def dicawicsTags (w : Word) : Bool := w.getLsbD 24

/-- The key of the selected data entry (R112, R681). -/
def dataKey (c : Build) (w : Word) : Nat :=
  65536 * (w.extractLsb' 20 2).toNat + (w &&& indexMask c).toNat / 4

/-- The set the index selects; bits 5:2 are ignored (R112). -/
def setOf (c : Build) (w : Word) : Nat := (w &&& indexMask c).toNat / 64

/-- The key of the selected tag entry. -/
def tagKey (c : Build) (w : Word) : Nat := 65536 * (w.extractLsb' 20 2).toNat + setOf c w

/-- The bits of `dicad1` that exist (R114). -/
def checkMask (c : Build) : Word := if c.icacheEcc then 0x3FF else 0x3

/-- The check bits that belong to a tag (R114, R685). -/
def tagCheckMask (c : Build) : Word := if c.icacheEcc then 0x1F else 0x1

/-! ## The entries of the arrays -/

/-- The exclusive or of the low `n` bits (R114: even parity). -/
def parityOf (v : Word) : Nat → Bool
  | 0 => false
  | n + 1 => parityOf v n ^^ v.getLsbD n

/-- Half 0 or 1 of a data entry: a separately protected chunk (R112, R681). -/
def chunkOf (e : ICacheEntry) (half : Nat) : BitVec 16 := e.word.extractLsb' (16 * half) 16

/-- The width of the check bits of a chunk or a tag (R114, R220). -/
def checkWidth (c : Build) : Nat := if c.icacheEcc then 5 else 1

/-- The check bits the hardware generates for a chunk: even parity, or the ECC code, which is not in the spec
(R114, R220; log 22). -/
def chunkCheck (c : Build) (h : BitVec 16) : Word :=
  if c.icacheEcc then (Config.icacheEcc h).setWidth 32 else (BitVec.ofBool (parityOf (h.setWidth 32) 16)).setWidth 32

/-- The check bits the hardware generates for a tag in the layout of `dicad0` (R114, R220; log 22). -/
def tagCheck (c : Build) (word : Word) : Word :=
  if c.icacheEcc then (Config.icacheTagEcc (word.extractLsb' 12 20)).setWidth 32
  else (BitVec.ofBool (parityOf (word >>> 12) 20)).setWidth 32

/-- The field of check bits `i` of an entry. -/
def checkField (c : Build) (e : ICacheEntry) (i : Nat) : Word :=
  (e.check >>> (checkWidth c * i)) &&& (if c.icacheEcc then 0x1F else 1)

/-- Whether the check of a fetched half of a data entry reports an error: its check bits are not those of the chunk
(R172, R220, R221; DEDUCED for ECC, whose code is not in the spec, log 22). -/
def halfErrs (c : Build) (e : ICacheEntry) (half : Nat) : Bool := checkField c e half != chunkCheck c (chunkOf e half)

/-- The tag's own check (R114, R220). -/
def tagErrs (c : Build) (e : ICacheEntry) : Bool := checkField c e 0 != tagCheck c e.word

/-- The sets of the cache: one line of 64 bytes in each way (R681). -/
def icacheSets (c : Build) : Nat := wayBytes c / 64

/-- Whether a filled line stands in the set and way. -/
def inPlace (c : Build) (f : Nat × BitVec 2) (set : Nat) (way : BitVec 2) : Bool :=
  f.1 % icacheSets c == set && f.2 == way

/-- The line the hardware has filled in a set and way, if any (R190). -/
def filledAt (s : State) (set way : Nat) : Option Nat :=
  (s.icache.filled.find? fun f => inPlace s.cfg f set (BitVec.ofNat 2 way)).map (·.1)

/-- A byte as the I-bus returns it (R171, R191). -/
def busFetchByte (s : State) (a : Nat) : Byte :=
  match busKind s.cfg (BitVec.ofNat 32 a) with
  | .memory | .rom _ => fetchByte s a
  | .device | .requestRegister | .error => busReadByte s a

/-- The data entry the hardware fills from the word at an address: the bytes filled, as old as they may be (R191), and the
check bits it generates for them (R112, R114, R190; logs 21, 22). -/
def filledData (s : State) (a : Nat) : ICacheEntry :=
  let v := assemble (busFetchByte s) a 4
  ⟨v, chunkCheck s.cfg (v.extractLsb' 0 16) ||| chunkCheck s.cfg (v.extractLsb' 16 16) <<< checkWidth s.cfg⟩

/-- The tag entry of a line the hardware has filled: its tag, valid, with the check bits it generates (R113, R114). -/
def filledTag (c : Build) (line : Nat) : ICacheEntry :=
  let v := BitVec.ofNat 32 (line * 64 / wayBytes c) <<< 12 ||| 1
  ⟨v, tagCheck c v⟩

/-- Words nothing is known of (R704; log 22). -/
def unknownEntry (s : State) : ICacheEntry := ⟨Config.icacheWord s.stepNo 0, Config.icacheWord s.stepNo 1⟩

/-- What the data array holds: what the debugger wrote there since the line was filled, else the line's word (R190, R682,
R683). -/
def dataEntry (s : State) (k : Nat) : ICacheEntry :=
  match cellGet s.icache.data k with
  | some e => e
  | none =>
    match filledAt s (k % 65536 / 16) (k / 65536) with
    | some line => filledData s (line * 64 + k % 16 * 4)
    | none => unknownEntry s

/-- What the tag array holds: what the debugger wrote there since the line was filled, else the line's tag; without either the
line is not valid (R440, R685, R703). -/
def tagEntry (s : State) (k : Nat) : ICacheEntry :=
  match cellGet s.icache.tags k with
  | some e => e
  | none =>
    match filledAt s (k % 65536) (k / 65536) with
    | some line => filledTag s.cfg line
    | none => { unknownEntry s with word := (unknownEntry s).word &&& ~~~1#32 }

/-! ## Diagnostic access (R115, R682 to R685) -/

/-- The tag layout of `dicad0` with the set's LRU bits in 6:4 (R113, R685). -/
def withLru (s : State) (d : Word) (l : Option (BitVec 3)) : Word :=
  (d &&& 0xFFFFFF8F) ||| (l.getD ((Config.icacheWord s.stepNo 2).extractLsb' 0 3)).setWidth 32 <<< 4

/-- The bits 11:7 and 3:1 of a tag entry, to which R113 gives no use. -/
def unusedTagBits : Word := 0xF8E

/-- `v`, with a free value in the bits of a mask; `field` says of which field they are. -/
def withOpenBits (s : State) (field : Nat) (mask v : Word) : Word :=
  (v &&& ~~~mask) ||| (Config.icacheWord s.stepNo field &&& mask)

/-- A read of `dicago`: the selected entry, of a line the hardware has filled as well as one the debugger wrote,
is copied to `dicad0` and `dicad1` (R115, R190, R682, R685; log 22). Of a tag entry R113,
R114 and R685 give tag, valid, LRU and the parity0 or ecc0 field; what the unused bits 11:7 and 3:1 of `dicad0` and the parity1
or ecc1 field of `dicad1` then hold they leave open: free values (DESIGN CHOICE, log 22; safe). In a build without an I-cache the
spec does not say what the diagnostic registers do: the model reads and writes arrays of the size RV_ICACHE_SIZE names, which no
fetch uses (DESIGN CHOICE, log 22; unsafe). -/
def readArray (s : State) : State :=
  let w := s.csr.dicawics
  if dicawicsTags w then
    let e := tagEntry s (tagKey s.cfg w)
    { s with csr := { s.csr with
        dicad0 := withOpenBits s 4 unusedTagBits (withLru s e.word (cellGet s.icache.lru (setOf s.cfg w))) &&& tagMask s.cfg
        dicad1 := withOpenBits s 3 (~~~tagCheckMask s.cfg) e.check &&& checkMask s.cfg } }
  else
    let e := dataEntry s (dataKey s.cfg w)
    { s with csr := { s.csr with dicad0 := e.word, dicad1 := e.check &&& checkMask s.cfg } }

/-- A write of 1 to `dicago.go`: `dicad0` and `dicad1` are copied to the selected entry (R115, R683, R685). What the array
does with the bits of a tag entry that R113 and R685 give no use is open: they read back as anything, see `readArray` (DESIGN
CHOICE, log 22; safe). The data of a line the hardware has filled
there stay as they are. Without an I-cache as for `readArray` (DESIGN CHOICE, log 22; unsafe). -/
def writeArray (s : State) : State :=
  let w := s.csr.dicawics
  let e : ICacheEntry := ⟨s.csr.dicad0, s.csr.dicad1⟩
  if dicawicsTags w then
    { s with icache := { s.icache with
        tags := cellSet s.icache.tags (tagKey s.cfg w) { e with word := e.word &&& tagMask s.cfg }
        lru := cellSet s.icache.lru (setOf s.cfg w) (s.csr.dicad0.extractLsb' 4 3) } }
  else { s with icache := { s.icache with data := cellSet s.icache.data (dataKey s.cfg w) e } }

/-- The valid lines the debugger wrote in the set of an address, by way. -/
def writtenTags (s : State) (p : Word) : List (Nat × ICacheEntry) :=
  [0, 1, 2, 3].filterMap fun way =>
    match cellGet s.icache.tags (65536 * way + setOf s.cfg p) with
    | some t => if t.word.getLsbD 0 then some (way, t) else none
    | none => none

/-- The way whose tag matches the address. Of several ways the debugger has made valid with the same tag, which R113 and R686 say
nothing of, the lowest serves the fetch (DESIGN CHOICE, log 22; unsafe). -/
def hitWay (s : State) (p : Word) : Option Nat :=
  ((writtenTags s p).find? fun e => (e.2.word.extractLsb' 12 20).toNat == p.toNat / wayBytes s.cfg).map (·.1)

/-- The data entry of a way for an address. -/
def lineEntry (s : State) (p : Word) (way : Nat) : ICacheEntry :=
  dataEntry s (65536 * way + (p &&& indexMask s.cfg).toNat / 4)

/-- The line of an address: lines are 64 bytes (R190). -/
def lineOf (p : Word) : Nat := p.toNat / 64

/-- The first address of the line. -/
def lineBase (p : Word) : Word := p &&& ~~~0x3F#32

/-- A detected I-cache error: counted, and every line of the set is invalidated (R106, R172, R221). -/
def icacheErrorIn (s : State) (set : Nat) : State :=
  { s with
    csr := { s.csr with micect := bumpCount s.csr.micect }
    icache := { s.icache with
      tags := s.icache.tags.filter fun e => e.1 % 65536 != set
      lru := s.icache.lru.filter fun e => e.1 != set
      filled := s.icache.filled.filter fun f => f.1 % icacheSets s.cfg != set } }

/-- A line that misses the cache and is read from SoC memory, and the way it is allocated in, if any (R190). -/
structure LineFill where
  line : Nat
  way : Option (BitVec 2)
  deriving DecidableEq, Repr

/-- Whether the fill takes the place of the entry of a way at a set. -/
def LineFill.takes (c : Build) (f : LineFill) (way set : Nat) : Bool :=
  match f.way with
  | none => false
  | some w => set == f.line % icacheSets c && way == w.toNat

/-- The lines held after a fill: it was not held before, and stands in the place of another; it stays until the next
invalidation, or another fill in its place (R190). -/
def addLine (c : Build) (filled : List (Nat × BitVec 2)) (f : LineFill) : List (Nat × BitVec 2) :=
  let others := filled.filter fun e => e.1 != f.line
  match f.way with
  | none => others
  | some w => (f.line, w) :: others.filter fun e => !inPlace c e (f.line % icacheSets c) w

/-- Lines are filled from SoC memory. Nothing the debugger wrote in their places before is left, so that a fetch after FENCE.I
never sees it again (R190, R191, R440; log 22). -/
def ICache.afterFills (c : Build) (k : ICache) (fills : List LineFill) : ICache :=
  { k with
    data := k.data.filter fun e => fills.all fun f => !f.takes c (e.1 / 65536) (e.1 % 65536 / 16)
    tags := k.tags.filter fun e => fills.all fun f => !f.takes c (e.1 / 65536) (e.1 % 65536)
    lru := k.lru.filter fun e => fills.all fun f => e.1 != f.line % icacheSets c
    filled := fills.foldl (addLine c) k.filled }

/-- A cacheable fetch of an address looks at its set: how the LRU bits change is not stated (R681; log 22). -/
def lookUp (s : State) (p : Word) : State :=
  { s with icache := { s.icache with lru := s.icache.lru.filter fun e => e.1 != setOf s.cfg p } }

/-- The way of the line of the address that the hardware has filled, if a fetch is served from it: under the tag of the
hardware, for one that the debugger wrote is looked at like its others; it may be served or not (R190; log 22). -/
def servingWay (s : State) (p : Word) : Option (BitVec 2) :=
  match s.icache.filled.find? fun f => f.1 == lineOf p with
  | some f =>
    if (cellGet s.icache.tags (65536 * f.2.toNat + setOf s.cfg p)).isNone && Config.lineHeld s.stepNo (lineOf p) then some f.2
    else none
  | none => none

/-- What the debugger wrote, after the fill, over the data of the line filled in a way (R683, R686; log 22). -/
def overwrittenData (s : State) (p : Word) (way : BitVec 2) : Option ICacheEntry :=
  cellGet s.icache.data (65536 * way.toNat + (p &&& indexMask s.cfg).toNat / 4)

/-- The half of a data entry that holds the parcel. -/
def halfOf (p : Word) : Nat := if p.getLsbD 1 then 1 else 0

/-- A fetch of the parcel at `p` from the I-cache, in which the debugger has written lines. They may still be there, or
not. If they are, every tag of the set is checked, then the hit chunk; an error invalidates the set, and the parcel comes
from memory (R106, R172, R686; log 22). The tag of an invalid line is not checked (DESIGN CHOICE, log 22; unsafe). -/
def icacheFetch (s : State) (p : Word) : Option (BitVec 16) × State :=
  let tags := writtenTags s p
  let half := halfOf p
  if tags.isEmpty then (none, lookUp s p)
  else if !Config.icacheHits s.stepNo p.toNat then (none, lookUp s p)
  else if tags.any fun e => tagErrs s.cfg e.2 then (none, icacheErrorIn (lookUp s p) (setOf s.cfg p))
  else
    match hitWay s p with
    | none => (none, lookUp s p)
    | some way =>
      if halfErrs s.cfg (lineEntry s p way) half then (none, icacheErrorIn (lookUp s p) (setOf s.cfg p))
      else (some (chunkOf (lineEntry s p way) half), lookUp s p)

end Sys2Proof.Machine
end

