-- ==== Sys2Proof/Machine/Csr.lean ====
section
/-! DEFINITION. The CSR address space (R39, R100): numbers, access check, read and write functions. -/

namespace Sys2Proof.Machine

/-- The CSRs of R39. The numbered ones carry 3 to 31. -/
inductive Csr where
  | mstatus
  | misa
  | mie
  | mtvec
  | mhpmevent (n : BitVec 5)
  | mscratch
  | mepc
  | mcause
  | mtval
  | mip
  | dcsr
  | dpc
  | dscratch0
  | dscratch1
  | mrac
  | mcpc
  | dmst
  | mpmc
  | dicawics
  | dicad0
  | dicad1
  | dicago
  | mgpmc
  | micect
  | miccmect
  | mdccmect
  | mcgc
  | mfdc
  | mcycle
  | mcycleh
  | minstret
  | minstreth
  | mhpmcounter (n : BitVec 5)
  | mhpmcounterh (n : BitVec 5)
  | mdeau
  | meivt
  | meipt
  | meicpct
  | meicidpl
  | meicurpl
  | mvendorid
  | marchid
  | mimpid
  | mhartid
  | mdseac
  | meihap
  deriving DecidableEq, Repr

/-- The numbers of the standard and debug CSRs that stand alone (R39). -/
def standardCsrs : List (BitVec 12 × Csr) :=
  [(0x300, .mstatus), (0x301, .misa), (0x304, .mie), (0x305, .mtvec), (0x340, .mscratch), (0x341, .mepc),
   (0x342, .mcause), (0x343, .mtval), (0x344, .mip), (0x7B0, .dcsr), (0x7B1, .dpc), (0x7B2, .dscratch0),
   (0x7B3, .dscratch1)]

/-- The numbers of the platform CSRs from 0x7C0 on (R39). -/
def platformCsrs : List (BitVec 12 × Csr) :=
  [(0x7C0, .mrac), (0x7C2, .mcpc), (0x7C4, .dmst), (0x7C6, .mpmc), (0x7C8, .dicawics), (0x7C9, .dicad0),
   (0x7CA, .dicad1), (0x7CB, .dicago), (0x7D0, .mgpmc), (0x7F0, .micect), (0x7F1, .miccmect),
   (0x7F2, .mdccmect), (0x7F8, .mcgc), (0x7F9, .mfdc)]

/-- The numbers of the counters that stand alone and of the PIC's CSRs (R39). -/
def counterAndPicCsrs : List (BitVec 12 × Csr) :=
  [(0xB00, .mcycle), (0xB80, .mcycleh), (0xB02, .minstret), (0xB82, .minstreth), (0xBC0, .mdeau),
   (0xBC8, .meivt), (0xBC9, .meipt), (0xBCA, .meicpct), (0xBCB, .meicidpl), (0xBCC, .meicurpl)]

/-- The numbers of the read-only CSRs (R39). -/
def readOnlyCsrs : List (BitVec 12 × Csr) :=
  [(0xF11, .mvendorid), (0xF12, .marchid), (0xF13, .mimpid), (0xF14, .mhartid), (0xFC0, .mdseac),
   (0xFC8, .meihap)]

/-- The numbers of the CSRs that stand alone (R39). -/
def csrTable : List (BitVec 12 × Csr) := standardCsrs ++ platformCsrs ++ counterAndPicCsrs ++ readOnlyCsrs

/-- The CSR of a number: a numbered event selector or counter, or an entry of the table (R39). -/
def csrOfNumber (n : BitVec 12) : Option Csr :=
  let low := n.extractLsb' 0 5
  if n.extractLsb' 5 7 = 0x19#7 && 3#5 ≤ low then some (.mhpmevent low)
  else if n.extractLsb' 5 7 = 0x58#7 && 3#5 ≤ low then some (.mhpmcounter low)
  else if n.extractLsb' 5 7 = 0x5C#7 && 3#5 ≤ low then some (.mhpmcounterh low)
  else (csrTable.find? fun e => e.1 == n).map (·.2)

/-- The trigger CSRs, to which the spec gives no meaning (R60). -/
def triggerCsr (n : BitVec 12) : Bool := n.extractLsb' 2 10 == 0x1E8#10

/-- The Debug-Mode-only CSRs (R39, R452). -/
def debugOnly : Csr → Bool
  | .dcsr | .dpc | .dscratch0 | .dscratch1 | .dmst | .dicawics | .dicad0 | .dicad1 | .dicago => true
  | _ => false

/-- What the access check answers (R452). -/
inductive CsrCheck where
  | allowed (c : Csr)
  | illegal
  | refused (why : Refusal)
  deriving DecidableEq, Repr

/-- `check(csr, write)` (R40, R452; log 26 for the trigger CSRs). A program's write of `mfdc` without a FENCE.I immediately
before it is refused (R723, D32; log 16). -/
def csrCheck (s : State) (n : BitVec 12) (write : Bool) : CsrCheck :=
  if triggerCsr n then .refused .triggerCsr
  else
    match csrOfNumber n with
    | none => .illegal
    | some c =>
      if debugOnly c && !debugMode s then .illegal
      else if write && n.extractLsb' 10 2 == 3#2 then .illegal
      else if write && c == .mfdc && fenceIMissing s then .refused .mfdcFence
      else .allowed c

/-! ## Reading -/

/-- Whether the numbered counter or selector is one of the four that exist, 3 to 6 (R54 to R57). -/
def functional (n : BitVec 5) : Bool := 3#5 ≤ n && n ≤ 6#5

/-- The place of counter 3 to 6 in its bank. -/
def bankIndex (n : BitVec 5) : BitVec 2 := (n - 3).extractLsb' 0 2

/-- The inversion of the priority CSRs in reverse order (R581). -/
def csrOrderMask (s : State) : BitVec 4 := orderMask (picNow s 4).priord

/-- What a priority CSR reads as: its level in the present order, or anything while that is open; `k` is its place in
`priDoubt` (R581, R582; log 17). -/
def csrPriority (s : State) (k : Nat) (level : BitVec 4) : Word :=
  (if s.csr.priDoubt.getLsbD k then Config.openPriority s.stepNo (256 + k) else level ^^^ csrOrderMask s).setWidth 32

/-- The internal level a written priority CSR holds (R581). -/
def levelOf (s : State) (v : Word) : BitVec 4 := v.extractLsb' 0 4 ^^^ csrOrderMask s

/-- `CSRRead` (R445; the rule of each register stands in R42 to R59, R101 to R125). `dicad0` keeps all 32 bits written, and shows
them in the layout `dicawics.array` has when it is read, the unused tag bits as 0 while it is 1: of a change of `array` between
write and read R113 says nothing (DESIGN CHOICE, log 22; unsafe). -/
def csrRead (s : State) (c : Csr) : Word :=
  match c with
  | .mstatus => s.csr.mstatus
  | .misa => 0x40001104
  | .mie => s.csr.mie
  | .mtvec => s.csr.mtvec
  | .mhpmevent n => if functional n then s.counters.event.get (bankIndex n) else 0
  | .mscratch => s.csr.mscratch
  | .mepc => s.csr.mepc
  | .mcause => s.csr.mcause
  | .mtval => s.csr.mtval
  | .mip => mipNow s 5
  | .dcsr =>
    s.csr.dcsr ||| (BitVec.ofBool (s.nmiPending || s.dbusErr.isSome)).setWidth 32 <<< 3
  | .dpc => s.csr.dpc
  | .dscratch0 => s.csr.dscratch0
  | .dscratch1 => s.csr.dscratch1
  | .mrac => s.csr.mrac
  | .dicawics => s.csr.dicawics
  | .dicad0 => if dicawicsTags s.csr.dicawics then s.csr.dicad0 &&& tagMask s.cfg else s.csr.dicad0
  | .dicad1 => s.csr.dicad1
  | .mcpc | .dmst | .mpmc | .dicago | .mdeau | .meicpct => 0
  | .mgpmc => s.csr.mgpmc
  | .micect => s.csr.micect
  | .miccmect => s.csr.miccmect
  | .mdccmect => s.csr.mdccmect
  | .mcgc => s.csr.mcgc
  | .mfdc => s.csr.mfdc
  | .mcycle => (mcycleNow s).extractLsb' 0 32
  | .mcycleh => (mcycleNow s).extractLsb' 32 32
  | .minstret => s.counters.minstret.extractLsb' 0 32
  | .minstreth => s.counters.minstret.extractLsb' 32 32
  | .mhpmcounter n => if functional n then (s.counters.hpm.get (bankIndex n)).extractLsb' 0 32 else 0
  | .mhpmcounterh n => if functional n then (s.counters.hpm.get (bankIndex n)).extractLsb' 32 32 else 0
  | .meivt => s.csr.meivt
  | .meipt => csrPriority s 0 s.csr.ithresh
  | .meicidpl => csrPriority s 1 s.csr.iclid
  | .meicurpl => csrPriority s 2 s.csr.icur
  | .mvendorid => 0x45
  | .marchid => 0xB
  | .mimpid => 0x1
  | .mhartid => 0
  | .mdseac => s.csr.mdseac
  | .meihap => s.csr.meivt ||| s.csr.claimid.setWidth 32 <<< 2

/-- The side effect of a read: only `dicago` has one (R115; R453 is silent on it, log 22). -/
def csrReadEffect (s : State) (c : Csr) : State :=
  match c with
  | .dicago => readArray s
  | _ => s

/-! ## Writing -/

/-- An error counter register keeps the count and a threshold of at most 26 (R106). -/
def legalErrorCounter (v : Word) : Word :=
  (if 26#5 ≤ v.extractLsb' 27 5 then 26#5 else v.extractLsb' 27 5) ++ v.extractLsb' 0 27

/-- An event selector keeps at most 50 (R56). -/
def legalEvent (v : Word) : Word := if 50#32 ≤ v then 50 else v

/-- Replaces the low half (R52). -/
def withLow (c : BitVec 64) (v : Word) : BitVec 64 := c.extractLsb' 32 32 ++ v

/-- Replaces the high half (R52). -/
def withHigh (c : BitVec 64) (v : Word) : BitVec 64 := v ++ c.extractLsb' 0 32

/-- Writes the counter registers. -/
def withCounters (s : State) (f : Counters → Counters) : State := { s with counters := f s.counters }

/-- Writes the stored CSRs. -/
def withCsrs (s : State) (f : Csrs → Csrs) : State := { s with csr := f s.csr }

/-- A write of `mrac`: the value it had may act until FENCE, for fetches until FENCE.I (R102, R722; log 20). -/
def writeMrac (s : State) (v : Word) : State :=
  { s with
    csr := { s.csr with mrac := v }
    mracData := s.csr.mrac :: s.mracData
    mracFetch := s.csr.mrac :: s.mracFetch }

/-- A write of `mfdc`: the value it had may act until FENCE.I, which is due at the next pc, and for another write another
FENCE.I is due before it; a debugger's write asks for none (R116, R723, D32; log 16). -/
def writeMfdc (s : State) (v : Word) : State :=
  recordMfdcWrite { s with csr := { s.csr with mfdc := v &&& 0x000705FD }, mfdcOld := s.csr.mfdc :: s.mfdcOld }

/-- A write of `dmst`: the fence and fence.i operations (R103). -/
def writeDmst (s : State) (v : Word) : State :=
  let s := if v.getLsbD 1 then fenceData s else s
  if v.getLsbD 0 then fenceInstructions s else s

/-- The writable bits of `dcsr`: ebreakm, stepie, stopcount, stoptime, step (R59; PRESUMED, log 4). -/
def dcsrMask : Word := 0x8E04

/-- `CSRWrite` (R445; the rule of each register stands in R42 to R59, R101 to R125). -/
def csrWrite (s : State) (c : Csr) (v : Word) : State :=
  match c with
  | .mstatus => withCsrs s fun r => { r with mstatus := 0x1800 ||| (v &&& 0x88) }
  | .mie => withCsrs s fun r => { r with mie := v &&& 0x40000888 }
  | .mtvec => withCsrs s fun r => { r with mtvec := v &&& 0xFFFFFFFD }
  | .mhpmevent n =>
    if functional n then
      withCounters s fun k => { k with event := k.event.set (bankIndex n) (legalEvent v) }
    else s
  | .mscratch => withCsrs s fun r => { r with mscratch := v }
  | .mepc => withCsrs s fun r => { r with mepc := v &&& 0xFFFFFFFE }
  | .mcause => withCsrs s fun r => { r with mcause := v }
  | .mtval => withCsrs s fun r => { r with mtval := v }
  | .dcsr => withCsrs s fun r => { r with dcsr := (r.dcsr &&& ~~~dcsrMask) ||| (v &&& dcsrMask) }
  | .dpc => withCsrs s fun r => { r with dpc := v &&& 0xFFFFFFFE }
  | .dscratch0 => withCsrs s fun r => { r with dscratch0 := v }
  | .dscratch1 => withCsrs s fun r => { r with dscratch1 := v }
  | .mrac => writeMrac s v
  | .mcpc => { s with pauseCount := v }
  | .dmst => writeDmst s v
  | .mpmc => if v.getLsbD 0 && !debugMode s then firmwareHalt s else s
  | .dicawics => withCsrs s fun r => { r with dicawics := v &&& (0x01300000 ||| indexMask s.cfg) }
  | .dicad0 => withCsrs s fun r => { r with dicad0 := v }
  | .dicad1 => withCsrs s fun r => { r with dicad1 := v &&& checkMask s.cfg }
  | .dicago => if v.getLsbD 0 then writeArray s else s
  | .mgpmc => withCsrs s fun r => { r with mgpmc := v &&& 1 }
  | .micect => withCsrs s fun r => { r with micect := legalErrorCounter v }
  | .miccmect => withCsrs s fun r => { r with miccmect := legalErrorCounter v }
  | .mdccmect => withCsrs s fun r => { r with mdccmect := legalErrorCounter v }
  | .mcgc => withCsrs s fun r => { r with mcgc := v &&& 0x1FF }
  | .mfdc => writeMfdc s v
  | .mcycle => setMcycle s (withLow (mcycleNow s) v)
  | .mcycleh => setMcycle s (withHigh (mcycleNow s) v)
  | .minstret => withCounters s fun k => { k with minstret := withLow k.minstret v }
  | .minstreth => withCounters s fun k => { k with minstret := withHigh k.minstret v }
  | .mhpmcounter n =>
    if functional n then
      withCounters s fun k =>
        { k with hpm := k.hpm.set (bankIndex n) (withLow (k.hpm.get (bankIndex n)) v) }
    else s
  | .mhpmcounterh n =>
    if functional n then
      withCounters s fun k =>
        { k with hpm := k.hpm.set (bankIndex n) (withHigh (k.hpm.get (bankIndex n)) v) }
    else s
  | .mdeau => { s with mdseacLocked := false }
  | .meivt => withCsrs s fun r => { r with meivt := v &&& 0xFFFFFC00 }
  | .meipt => withCsrs s fun r => { r with ithresh := levelOf s v, priDoubt := putBit r.priDoubt 0 false }
  | .meicpct => captureClaim s
  | .meicidpl => withCsrs s fun r => { r with iclid := levelOf s v, priDoubt := putBit r.priDoubt 1 false }
  | .meicurpl => withCsrs s fun r => { r with icur := levelOf s v, priDoubt := putBit r.priDoubt 2 false }
  | .misa | .mip | .mvendorid | .marchid | .mimpid | .mhartid | .mdseac | .meihap => s

end Sys2Proof.Machine
end

