-- ==== Sys2Proof/Machine/Zicsr.lean ====
section
/-! DEFINITION. The Zicsr instructions (47_zicsr.md). -/

namespace Sys2Proof.Machine

/-- Every CSR instruction: the access check, the read, the instruction counted and retired, then the write, so that a
counter that is read shows its value before the instruction's own contribution and one that is written keeps the
written value (R445, R452, R454, R672). `code` is what `mtval` reports if the check fails (R523).
R445 lets no counter increment come between read and write, while R672 has the counters incremented after the read and before the
write: R672 is followed, so that of a counter written by halves the other half takes a carry of the instruction's own count
(DEDUCED, log 52; unsafe). Whether an instruction that writes an event selector or `mgpmc` is counted under the value it writes or
under the one before R674 leaves open beyond R672's sentence on counter CSRs: it is counted under the one before (DESIGN CHOICE,
log 53; unsafe). -/
def csrAccess (s : State) (code : Code) (rd : Reg) (n : BitVec 12) (reads writes : Bool)
    (f : Word → Word) : Result :=
  match csrCheck s n writes with
  | .refused why => .refused why
  | .illegal => .next (takeException s 2 code.bits)
  | .allowed c =>
    let v := csrRead (beforeStep s) c
    let s := if reads then csrReadEffect s c else s
    let s := retire (setReg s rd v) ⟨false, .csr, false⟩ (nextPc s false)
    .next (if writes then csrWrite s c (f v) else s)

/-- CSRRW: always writes; no read, and no read side effect, when rd is x0 (R446). -/
def execCsrrw (rd : Reg) (csr : BitVec 12) (rs1 : Reg) (s : State) : Result :=
  csrAccess s (Instr.csrrw rd csr rs1).code rd csr (rd != 0) true fun _ => reg s rs1

/-- CSRRS: writes unless rs1 is x0 (R447). -/
def execCsrrs (rd : Reg) (csr : BitVec 12) (rs1 : Reg) (s : State) : Result :=
  csrAccess s (Instr.csrrs rd csr rs1).code rd csr true (rs1 != 0) fun v => v ||| reg s rs1

/-- CSRRC: writes unless rs1 is x0 (R448). -/
def execCsrrc (rd : Reg) (csr : BitVec 12) (rs1 : Reg) (s : State) : Result :=
  csrAccess s (Instr.csrrc rd csr rs1).code rd csr true (rs1 != 0) fun v => v &&& ~~~(reg s rs1)

/-- CSRRWI: always writes; no read when rd is x0 (R449). -/
def execCsrrwi (rd : Reg) (csr : BitVec 12) (uimm : BitVec 5) (s : State) : Result :=
  csrAccess s (Instr.csrrwi rd csr uimm).code rd csr (rd != 0) true fun _ => zextImm uimm

/-- CSRRSI: writes unless the immediate is 0 (R450). -/
def execCsrrsi (rd : Reg) (csr : BitVec 12) (uimm : BitVec 5) (s : State) : Result :=
  csrAccess s (Instr.csrrsi rd csr uimm).code rd csr true (uimm != 0) fun v => v ||| zextImm uimm

/-- CSRRCI: writes unless the immediate is 0 (R451). -/
def execCsrrci (rd : Reg) (csr : BitVec 12) (uimm : BitVec 5) (s : State) : Result :=
  csrAccess s (Instr.csrrci rd csr uimm).code rd csr true (uimm != 0) fun v => v &&& ~~~(zextImm uimm)

end Sys2Proof.Machine
end

