-- ==== Sys2Proof/Machine/Agents.lean ====
section
/-! DEFINITION. What the outside does to the machine: pins, memory errors, the debugger, the MPC, reset
(R14, R220, R643 to R668, R700). -/

namespace Sys2Proof.Machine

/-! ## Memory errors (R220 to R223; log 6) -/

/-- An error event strikes the word that holds the address. -/
def eccEvent (s : State) (a : Word) (uncorrectable : Bool) : State :=
  let w := a.toNat / 4
  if inIccm s.cfg a || inDccm s.cfg a then
    match cellGet s.ecc w with
    | some .good => setEcc s w (if uncorrectable then .uncorrectable else .correctable)
    | some .correctable => if uncorrectable then setEcc s w .uncorrectable else s
    | some .uncorrectable | none => s
  else if uncorrectable then setEcc s w .uncorrectable
  else s

/-! ## The debugger (R655 to R668; log 24) -/

/-- Whether the debugger may issue commands: in Debug Mode, after a debug halt of its own or a breakpoint (R661). -/
def debuggerMayAct (s : State) : Bool := s.activity == .dbHalt && s.dbgHaltState

/-- A core debug halt request (R656, R660); it overrides pmu/fw-halt (R642, R645). -/
def debugHalt (s : State) : State :=
  let s := if s.activity == .dbHalt then s else enterDebug s .haltRequest
  { s with dbgHaltState := true }

/-- A debug resume request: ignored unless the debugger halted the hart; the hart leaves when the MPC does not hold
it, with a single step if `dcsr.step` is set (R657, R660, R661, R665). While the MPC holds the hart R661 has single steps
ignored and leaves open whether the resume is, too: the model releases the debugger's hold and drops the step (DESIGN
CHOICE, log 24; unsafe). -/
def debugResume (s : State) : State :=
  if debuggerMayAct s then
    let s := { s with dbgHaltState := false }
    if s.mpcHaltState then s else exitDebug s (s.csr.dcsr.getLsbD 2)
  else s

/-- The debugger reads a CSR; one that does not exist changes nothing. -/
def debugReadCsr (s : State) (n : BitVec 12) : Result :=
  if debuggerMayAct s then
    match csrCheck s n false with
    | .refused why => .refused why
    | .illegal => .next s
    | .allowed c => .next (csrReadEffect { s with dbgData := csrRead s c } c)
  else .next s

/-- The debugger writes a CSR; one that does not exist or is read-only changes nothing. -/
def debugWriteCsr (s : State) (n : BitVec 12) (v : Word) : Result :=
  if debuggerMayAct s then
    match csrCheck s n true with
    | .refused why => .refused why
    | .illegal => .next s
    | .allowed c => .next (csrWrite s c v)
  else .next s

/-! ## The MPC (R658, R660; log 24) -/

/-- The MPC holds the hart, which says so (R658, R660). -/
def mpcHolds (s : State) : State := { s with mpcHaltState := true, pins := { s.pins with mpcHaltAck := true } }

/-- The hart serves the MPC's halt request at a boundary: from any state it goes to db-halt after a finite delay, and
acknowledges the request while it lasts (R642, R658; log 15). -/
def serveMpcHalt (s : State) : State :=
  let w := waitStep (s.seen.mpcHaltReq && s.activity != .dbHalt) s.waits.mpcHalt (Config.mpcHaltDelay s.stepNo)
  let s := { s with waits := { s.waits with mpcHalt := w.1 } }
  if w.2 then mpcHolds (enterDebug s .haltRequest)
  else if s.seen.mpcHaltReq && s.activity == .dbHalt then mpcHolds s
  else s

/-- The run request of the MPC (R658, R660). -/
def serveMpcRun (s : State) : State :=
  if s.seen.mpcRunReq then
    let s :=
      if s.activity == .dbHalt && s.mpcHaltState then
        if s.dbgHaltState then { s with mpcHaltState := false } else exitDebug s false
      else s
    if s.activity == .running then { s with pins := { s.pins with mpcRunAck := true } } else s
  else s

/-! ## Reset (R700 to R706; log 30) -/

/-- What the hart stored since the last FENCE may be undone by the reset, byte by byte, and check bits too (R705). -/
def undoStores (s : State) : State :=
  { s with
    mem := s.unfenced.foldl (fun m e =>
      cellPut m e.1 (pickAmong (Config.resetPick s.stepNo e.1) (cellGet s.mem e.1) (heldAt s.unfenced e.1))) s.mem
    ecc := s.unfencedEcc.foldl (fun m e =>
      cellPut m e.1
        (pickAmong (Config.resetPick s.stepNo (0x100000000 + e.1)) (cellGet s.ecc e.1) (heldAt s.unfencedEcc e.1)))
      s.ecc }

/-- A store sent and not answered before the reset: SoC memory it touches holds anything (R705, 93 section 1.4). Of a coalesced
transaction the model takes every byte from the lowest to the highest stored as touched, those between its stores too, which
the spec leaves open (DESIGN CHOICE, log 30; safe). -/
def abandonTransaction (s : State) (r : BusResponse) : State :=
  if r.isLoad then s
  else
    (accessBytes r.addr r.size).foldl (fun s a =>
      match busKind s.cfg a with
      | .memory => writeByte s a.toNat (Config.abandonedByte s.stepNo a.toNat)
      | .rom _ | .device | .requestRegister | .error => s) s

/-- A store still in the write buffer at the reset: each byte of memory old or new (R705). -/
def abandonStore (s : State) (st : BusStore) : State :=
  writeBytes (fun s a b =>
    match busKind s.cfg (BitVec.ofNat 32 a) with
    | .memory => if Config.resetStores s.stepNo a then writeByte s a b else s
    | .rom _ | .device | .requestRegister | .error => s) s st.addr.toNat st.size st.data

/-- The oldest `n` of some stores are shown to devices. -/
def showStores : List BusStore → Nat → State → State
  | [], _, s => s
  | st :: rest, n, s =>
    match n with
    | 0 => s
    | n + 1 => showStores rest n (showStore s st)

/-- Memory and devices as a reset leaves them. Of the stores still in the write buffer a free number, the oldest, has reached its
devices, each whole: that none is performed there in part is a DESIGN CHOICE (R704, R705; log 30; unsafe). -/
def memoryAtReset (s : State) : State :=
  showStores s.wb (Config.resetShown s.stepNo)
    (s.wb.foldl abandonStore (s.responses.foldl abandonTransaction (undoStores s)))

/-- The counters after a reset event: at their reset values. The count of steps that ranks the free numbers of cycles goes on, so
that the cycles after a reset are as open as those before it (R52, R671, D21; log 12). -/
def countersAtReset (k : Counters) : Counters :=
  { Counters.reset with cycleSteps := k.cycleSteps, mcycleMark := k.cycleSteps }

/-- The pins keep their input levels, which the hart sees again in time (log 47); the acknowledgements fall. -/
def pinsAtReset (p : Pins) : Pins :=
  { p with cpuHaltAck := false, cpuRunAck := false, mpcHaltAck := false, mpcRunAck := false }

/-- Reset: every flop takes its reset value; memories, check bits and devices stay, but for stores no FENCE has made sure of
(R700, R704, R705; log 30). With the debugger's `haltreq` held, or mpc_reset_run_req = 0, the hart comes out in db-halt (R659, R666, R706). -/
def resetEvent (s : State) (haltReq : Bool) : State :=
  let old := memoryAtReset s
  let c := { s.cfg with mpcResetRunReq := s.pins.mpcResetRunReq && !haltReq }
  { State.resetWith c with
    mem := old.mem
    ecc := old.ecc
    counters := countersAtReset s.counters
    pins := pinsAtReset s.pins
    mpcHaltState := !s.pins.mpcResetRunReq
    dbgHaltState := haltReq
    devReq := old.devReq
    deviceTrace := old.deviceTrace
    cfg := s.cfg
    inputs := s.inputs
    stepNo := s.stepNo }

/-! ## Events -/

/-- Changes the pins. -/
def withPins (s : State) (f : Pins → Pins) : State := { s with pins := f s.pins }

/-- `timer_int` changes (R541, R692). -/
def changeTimerInt (s : State) (b : Bool) : State :=
  withLines (withPins s fun p => { p with timerInt := b }) fun l => { l with timer := l.timer.note false (BitVec.ofBool b) }

/-- `nmi_int` changes; a rising edge is a request once the hart has seen it (R550, R692). -/
def changeNmiInt (s : State) (b : Bool) : State :=
  withLines (withPins s fun p => { p with nmiInt := b }) fun l => { l with nmi := l.nmi.note false (BitVec.ofBool b) }

/-- The PMU's request pins change (R643, R647, R692). -/
def changePmu (s : State) (halt run : Bool) : State :=
  withLines (withPins s fun p => { p with cpuHaltReq := halt, cpuRunReq := run }) fun l =>
    { l with pmu := l.pmu.note false (pairOf halt run) }

/-- The MPC's request pins change (R658, R692). -/
def changeMpc (s : State) (halt run : Bool) : State :=
  withLines (withPins s fun p => { p with mpcHaltReq := halt, mpcRunReq := run }) fun l =>
    { l with mpc := l.mpc.note false (pairOf halt run) }

/-- One host event. A halt and a run request at once break the handshake and stop the model (R648, R658, R727;
log 25). A PMU or MPC request that is withdrawn before its acknowledgement leaves a handshake of R643, R647 or R658
unfinished, which R727 puts outside the contract: it lapses, without effect once the hart no longer sees it (DESIGN CHOICE,
log 25; unsafe). -/
def hostEvent (e : HostEvent) (s : State) : Result :=
  match e with
  | .run => .next s
  | .timerInt b => .next (changeTimerInt s b)
  | .extInt m => .next (noteRequests (withPins s fun p => { p with extInt := m }) false)
  | .nmiInt b => .next (changeNmiInt s b)
  | .nmiVec v => .next (withPins s fun p => { p with nmiVec := v })
  | .cpuHaltReq b =>
    if b && s.pins.cpuRunReq then .fault .pmuProtocol
    else .next (changePmu s b s.pins.cpuRunReq)
  | .cpuRunReq b =>
    if b && s.pins.cpuHaltReq then .fault .pmuProtocol
    else .next (changePmu s s.pins.cpuHaltReq b)
  | .mpcHaltReq b =>
    if b && s.pins.mpcRunReq then .fault .mpcProtocol
    else .next (changeMpc s b s.pins.mpcRunReq)
  | .mpcRunReq b =>
    if b && s.pins.mpcHaltReq then .fault .mpcProtocol
    else .next (changeMpc s s.pins.mpcHaltReq b)
  | .mpcResetRunReq b => .next (withPins s fun p => { p with mpcResetRunReq := b })
  | .debugHalt => .next (debugHalt s)
  | .debugResume => .next (debugResume s)
  | .debugReadCsr n => debugReadCsr s n
  | .debugWriteCsr n v => debugWriteCsr s n v
  | .debugReadReg r => .next (if debuggerMayAct s then { s with dbgData := reg s r } else s)
  | .debugWriteReg r v => .next (if debuggerMayAct s then setReg s r v else s)
  | .dmaRead a n => .next (dmaRead s a n)
  | .dmaWrite a n v => .next (dmaWrite s a n v)
  | .busWrite a b => .next (otherMasterWrite (answerSome (sendSome s)) a b)
  | .eccError a u => .next (eccEvent s a u)
  | .icacheError set => .next (if s.cfg.icacheEnable then icacheErrorIn s set else s)
  | .reset h => .next (resetEvent s h)

end Sys2Proof.Machine
end

