-- ==== Sys2Proof/Machine/Fetch.lean ====
section
/-! DEFINITION. Instruction fetch: the parcel rules R168 to R173, staleness R191, the I-cache R190. -/

namespace Sys2Proof.Machine

/-- A fetched parcel, or an access fault of it. -/
inductive Fetched where
  | parcel (h : BitVec 16) (s : State)
  | fault (s : State)
  deriving DecidableEq, Repr

/-- The `mrac` a fetch is performed under: an older value may act until FENCE.I (R722; log 20). -/
def mracFetchNow (s : State) : Word := pickAmong (Config.mracFetchPick s.stepNo) s.csr.mrac s.mracFetch

/-- Whether the region of the address is cacheable for fetches; '11' counts as cacheable (R101, R102, R190). -/
def cacheableBit (mrac a : Word) : Bool := mrac.getLsbD (2 * (region a).toNat)

/-- Two bytes, the lower address in the lower bits (R161). -/
def parcelAt (f : Nat → Byte) (p : Word) : BitVec 16 := f (p.toNat + 1) ++ f p.toNat

/-- A parcel from the ICCM (R169, R172). -/
def fetchIccm (s : State) (p : Word) : Fetched :=
  if anyFailed s [p.toNat / 4] then .fault s
  else .parcel (parcelAt (checkedByte s (fetchByte s)) p) (writeBack .iccm s [p.toNat / 4])

/-- A read of the I-bus for the parcel at `p`, as a device sees it: a cacheable one fills the aligned line of 64 bytes
(R190). That another reads the parcel and no more is a DESIGN CHOICE (log 28; unsafe). -/
def fetchSeen (cacheable : Bool) (p : Word) : DeviceAccess :=
  if cacheable then ⟨.fetch, lineBase p, 64, 0, false⟩ else ⟨.fetch, p, 2, 0, false⟩

/-- A parcel from the I-bus: any byte of it that is unmapped or answered with an error makes it fault (R168, R171,
R172). -/
def fetchBus (s : State) (cacheable : Bool) (p : Word) : Fetched :=
  let t := traceDevice s (fetchSeen cacheable p)
  if readFails s p || readFails s (p + 1) then .fault t else .parcel (parcelAt (busFetchByte s) p) t

/-- Whether the fetch of an address may be served from the I-cache and allocated in it (R190). -/
def cacheable (s : State) (p : Word) : Bool := s.cfg.icacheEnable && cacheableBit (mracFetchNow s) p

/-- The line of an address is read; whether it is allocated, and in which way, is open. R173 lets the errors of a parcel's own
bytes alone make its fetch fault; that a line of which some byte errs is not allocated is a DESIGN CHOICE (log 22; unsafe). -/
def fillOf (s : State) (p : Word) : LineFill where
  line := lineOf p
  way :=
    if Config.lineAllocated s.stepNo (lineOf p) && !(accessBytes (lineBase p) 64).any (readFails s) then
      some (Config.fillWay s.stepNo (lineOf p))
    else none

/-- A parcel that no line serves: the line is filled (R190). -/
def fillLine (s : State) (p : Word) : Fetched :=
  fetchBus { s with icache := s.icache.afterFills s.cfg [fillOf s p] } true p

/-- A parcel from a line the hardware has filled in a way: the bytes filled, as old as they may be (R191), or what the debugger
has written over them since, whose check may report an error (R172, R190). -/
def lineParcel (s : State) (p : Word) (way : BitVec 2) : Fetched :=
  match overwrittenData s p way with
  | none => .parcel (parcelAt (busFetchByte s) p) s
  | some e =>
    if halfErrs s.cfg e (halfOf p) then fillLine (icacheErrorIn s (setOf s.cfg p)) p else .parcel (chunkOf e (halfOf p)) s

/-- A cacheable parcel: from a line the debugger wrote, from one the hardware filled, or from the bus (R190, R686). -/
def fetchCached (s : State) (p : Word) : Fetched :=
  match icacheFetch s p with
  | (some h, s) => .parcel h s
  | (none, s) =>
    match servingWay s p with
    | some way => lineParcel s p way
    | none => fillLine s p

/-- A parcel at `p` (R169 to R173). -/
def fetchParcel (s : State) (p : Word) : Fetched :=
  if iccmRegion s.cfg p then (if inIccm s.cfg p then fetchIccm s p else .fault s)
  else if !windowsAllow s.cfg.instWindows p then .fault s
  else if cacheable s p then fetchCached s p
  else fetchBus s false p

/-- A fetched instruction, or the address of the parcel that faulted. -/
inductive FetchResult where
  | code (c : Code) (s : State)
  | fault (addr : Word) (s : State)
  deriving DecidableEq, Repr

/-- Whether a 32-bit instruction runs over the end of the ICCM: it faults on its second parcel (R169). Where the ICCM ends at
its region's end that parcel lies in another region, whose own rules R170 to R173 would let it be fetched; R169's words "a 32-bit
instruction whose first parcel is the last parcel of the ICCM faults (on p1)" are followed there too (DEDUCED, log 48;
unsafe). -/
def leavesIccm (c : Build) (p : Word) : Bool := inIccm c p && !inIccm c (p + 2)

/-- `Fetch(pc)`: the second parcel is read, and can fault, only when the first says so (R168, R169, R241). -/
def fetch (s : State) : FetchResult :=
  match fetchParcel s s.pc with
  | .fault s => .fault s.pc s
  | .parcel h s =>
    if !longParcel h then .code (.half h) s
    else if leavesIccm s.cfg s.pc then .fault (s.pc + 2) s
    else
      match fetchParcel s (s.pc + 2) with
      | .fault s => .fault (s.pc + 2) s
      | .parcel h2 s => .code (.word (h2 ++ h)) s

end Sys2Proof.Machine
end

