-- ==== Sys2Proof/Machine/Hart.lean ====
section
/-! DEFINITION. What happens at an instruction boundary before an instruction is fetched, and after it. -/

namespace Sys2Proof.Machine

/-- The speculative reads of the I-bus at this boundary, of parcels: outside the ICCM's region, inside the instruction windows,
which are made of aligned blocks of 64 bytes and so hold the whole of what is read (R13, R168, R174, R730). -/
def speculations (s : State) : List Word :=
  if s.activity == .running then
    ((Config.speculativeFetches s.stepNo).map (· &&& ~~~1#32)).filter fun a => !iccmRegion s.cfg a && windowsAllow s.cfg.instWindows a
  else []

/-- The speculative reads happen: devices see them, and cacheable ones may fill lines; nothing else changes
(R174, R190, R730; log 28). -/
def speculate (s : State) : State :=
  { s with
    deviceTrace := s.deviceTrace ++ ((speculations s).map fun a => fetchSeen (cacheable s a) a).filter fun d =>
      (accessBytes d.addr d.size).any (isDevice s.cfg)
    icache :=
      if s.cfg.icacheEnable then s.icache.afterFills s.cfg (((speculations s).filter (cacheable s)).map (fillOf s))
      else s.icache }

/-- The hart's view of group `input` of its asynchronous inputs, all of which are recognised or dropped, and arrive, together
(R692, R742; log 47). -/
def followPins {w : Nat} (step input : Nat) (long : Bool) (line : InputLine w) (level seen : BitVec w) :
    BitVec w × InputLine w :=
  line.follow (fun k => if (Config.levelMissed step input k).getLsbD 0 then BitVec.allOnes w else 0) long 0
    (Config.syncDelay step input) level seen

/-- The synchronisers: `timer_int`, `nmi_int`, whose seen rising edge is an NMI request (R550), and the request pairs of the PMU
and the MPC, whose acknowledgements fall when the hart sees the request fall (R643, R647, R658, R692). -/
def syncPins (s : State) (long : Bool) : State :=
  let timer := followPins s.stepNo 0 long s.lines.timer (BitVec.ofBool s.pins.timerInt) (BitVec.ofBool s.seen.timerInt)
  let nmi := followPins s.stepNo 1 long s.lines.nmi (BitVec.ofBool s.pins.nmiInt) (BitVec.ofBool s.seen.nmiInt)
  let pmu := followPins s.stepNo 2 long s.lines.pmu (pairOf s.pins.cpuHaltReq s.pins.cpuRunReq)
    (pairOf s.seen.cpuHaltReq s.seen.cpuRunReq)
  let mpc := followPins s.stepNo 3 long s.lines.mpc (pairOf s.pins.mpcHaltReq s.pins.mpcRunReq)
    (pairOf s.seen.mpcHaltReq s.seen.mpcRunReq)
  { s with
    lines := { s.lines with timer := timer.2, nmi := nmi.2, pmu := pmu.2, mpc := mpc.2 }
    seen :=
      { timerInt := timer.1.getLsbD 0, nmiInt := nmi.1.getLsbD 0
        cpuHaltReq := pmu.1.getLsbD 1, cpuRunReq := pmu.1.getLsbD 0
        mpcHaltReq := mpc.1.getLsbD 1, mpcRunReq := mpc.1.getLsbD 0 }
    nmiPending := s.nmiPending || (nmi.1.getLsbD 0 && !s.seen.nmiInt)
    pins := { s.pins with
      cpuHaltAck := s.pins.cpuHaltAck && pmu.1.getLsbD 1
      cpuRunAck := s.pins.cpuRunAck && pmu.1.getLsbD 0
      mpcHaltAck := s.pins.mpcHaltAck && mpc.1.getLsbD 1
      mpcRunAck := s.pins.mpcRunAck && mpc.1.getLsbD 0 } }

/-- The boundary: time passes, the bus goes on, the inputs are sampled, the evaluation follows
(R174, R574, R630, R671, R692; logs 7, 12, 13, 19, 28, 44, 47). -/
def boundary (s : State) : State :=
  let long := longStep s
  let s := { s with stepNo := s.stepNo + 1 }
  syncPins (stageRequests (sampleGateways (answerSome (sendSome (speculate (countStep s)))) long)) long

/-- An MPC's run request that ends db-halt at this boundary has an instruction executed in this step: its time counts, which
`dcsr.stopcount` may have kept from counting (R641, R671, R672; log 12). -/
def countResumed (s : State) : State :=
  if s.activity == .running && !s.counters.stepCounted then countStep s else s

/-- The state at which the hart decides what to do: after the boundary and the MPC's requests. -/
def atBoundary (s : State) : State := countResumed (serveMpcRun (serveMpcHalt (boundary s)))

/-- Whether `timer_int` wakes the hart: surely when the interrupt is enabled, else as it likes (R646; log 15). -/
def timerWake (s : State) : Bool :=
  s.seen.timerInt &&
    ((s.csr.mstatus.getLsbD 3 && s.csr.mie.getLsbD 7) || Config.timerWakes s.stepNo)

/-- The wake-up events of pmu/fw-halt (R646). -/
def wakes (s : State) : Bool :=
  s.seen.cpuRunReq || s.nmiPending ||
    (s.csr.mstatus.getLsbD 3 && s.csr.mie.getLsbD 11 && wakeUpNotification s 1) || timerWake s

/-- The hart wakes; a run request is acknowledged (R646, R647). -/
def wake (s : State) : State :=
  let s := { s with activity := .running }
  if s.seen.cpuRunReq then { s with pins := { s.pins with cpuRunAck := true } } else s

/-- The PMU's halt request is honoured and acknowledged (R643). -/
def pmuHalt (s : State) : State :=
  let s := enterPmuFwHalt s
  { s with pins := { s.pins with cpuHaltAck := true } }

/-- Whether an interrupt that does not get taken ends PAUSE (R652; log 14). -/
def pauseEnds (s : State) : Bool :=
  (mipNow s 6 != 0 || s.nmiPending || s.dbusErr.isSome) && Config.pendingEndsPause s.stepNo

/-- One step of PAUSE: the count falls by the step's cycles, to 0 at least (R109, R652; log 14). -/
def pauseTurn (s : State) : State :=
  if pauseEnds s then { s with pauseCount := 0 }
  else { s with pauseCount := s.pauseCount - BitVec.ofNat 32 (min (cyclesNow s) s.pauseCount.toNat) }

/-- What the hart does at this boundary: nothing more, or execute the next instruction. -/
inductive Turn where
  | over (s : State)
  | execute (s : State)
  deriving DecidableEq, Repr

/-- A hart that takes no trap at this boundary pauses, or executes the next instruction (R652). -/
def goOn (s : State) : Turn := if s.pauseCount = 0 then .execute s else .over (pauseTurn s)

/-- A takeable interrupt is taken, or one more instruction goes before, finitely often (R530; log 11). -/
def interruptTurn (s : State) : Turn :=
  let code := takeableInterrupt s
  let w := waitStep code.isSome s.waits.interrupt (Config.interruptDelay s.stepNo)
  let s := { s with waits := { s.waits with interrupt := w.1 } }
  match code with
  | none => goOn s
  | some c => if w.2 then .over (takeInterrupt s c) else goOn s

/-- A pending NMI is entered, or one more instruction goes before, finitely often; no interrupt overtakes it
(R531, R552; log 10). Nor does one in a single step that `dcsr.stepie` opens to interrupts, where the NMI itself has to wait for
the end of the step: R531's order is kept there too, of which the spec does not speak (DESIGN CHOICE, logs 10, 24; unsafe). R216
bounds what may run between a failing store and its NMI by the next FENCE, while R552 lets a pending NMI wait for any boundary:
the model reads the bound as one of the report, which the FENCE completes, and lets instructions after the FENCE go before the
entry (DESIGN CHOICE, log 10; safe). -/
def nmiTurn (s : State) : Turn :=
  let w := waitStep (nmiRequested s) s.waits.nmi (Config.nmiDelay s.stepNo)
  let s := { s with waits := { s.waits with nmi := w.1 } }
  if w.2 then .over (enterNmi s) else if nmiPresent s then goOn s else interruptTurn s

/-- Whether the PMU's halt request may be honoured: not in Debug Mode, and not while the MPC asks for a debug halt, which goes
first (R642, R643, R645). -/
def pmuHaltWanted (s : State) : Bool := s.seen.cpuHaltReq && !debugMode s && !s.seen.mpcHaltReq

/-- A running hart: PMU halt, NMI, interrupt, PAUSE, else an instruction (R530, R531, R552, R643, R645, R652). -/
def runningTurn (s : State) : Turn :=
  let w := waitStep (pmuHaltWanted s) s.waits.pmuHalt (Config.pmuHaltDelay s.stepNo)
  let s := { s with waits := { s.waits with pmuHalt := w.1 } }
  if w.2 then .over (pmuHalt s) else nmiTurn s

/-- The turn of the hart by its activity state (R641, R646, R650). -/
def turn (s : State) : Turn :=
  match s.activity with
  | .running => runningTurn s
  | .dbHalt => .over s
  | .pmuFwHalt => .over (if wakes s then wake s else s)

/-- After an instruction: a single step re-enters Debug Mode with cause 4 (R656, R665). -/
def afterInstr (s : State) : State :=
  if s.stepping && s.activity == .running then { enterDebug s .step with dbgHaltState := true } else s

/-- What follows the fetch fault of a parcel (R503, R523). -/
def fetchFault (s : State) (addr : Word) : State := afterInstr (takeException s 1 addr)

/-- What follows an instruction no row of the table matches (R291, R502, R523). -/
def illegalCode (s : State) (c : Code) : State := afterInstr (takeException s 2 c.bits)

/-- Whether the FENCE.I is missing that must stand immediately after a write of `mfdc`: it is due at the pc, and another
instruction stands there (R723, D32; log 16). -/
def fenceIDue (s : State) (i : Instr) : Bool :=
  s.fencesDue.contains s.pc &&
    match i with
    | .fenceI _ _ _ => false
    | _ => true

/-- Places an instruction at `pc`, where the next fetch reads it, with sound check bits and no older values. -/
def placeCode (s : State) (bytes : List Byte) : State :=
  (List.range bytes.length).foldl (fun s k =>
    let a := (s.pc + BitVec.ofNat 32 k).toNat
    { s with
      mem := cellSet s.mem a (bytes.getD k 0)
      ecc := cellSet s.ecc (a / 4) .good
      stale := s.stale.filter fun e => e.1 != a }) s

end Sys2Proof.Machine
end

