-- ==== Sys2Proof/Machine/Step.lean ====
section
/-! DEFINITION. One step of the machine. -/

namespace Sys2Proof.Machine

/-- What follows the meaning of an instruction; a stop stays a stop. -/
def finishStep (r : Host.Outcome State Fault Refusal) : Host.Outcome State Fault Refusal :=
  match r with
  | .next s => .next (afterInstr s)
  | .fault f => .fault f
  | .refused f => .refused f

/-- Fetches, decodes and executes the instruction at `pc` (R168, R291, R510); where the FENCE.I after an `mfdc` write is due,
no other instruction (R723, D32; log 16). -/
def executeNext (s : State) : Host.Outcome State Fault Refusal :=
  match fetch s with
  | .fault addr s => .next (fetchFault s addr)
  | .code c s =>
    match decodeCode c with
    | none => .next (illegalCode s c)
    | some i => if fenceIDue s i then .refused .mfdcFence else finishStep (exec i s)

/-- One step of the hart. -/
def hartStep (s : State) : Host.Outcome State Fault Refusal :=
  match turn (atBoundary s) with
  | .over s => .next s
  | .execute s => executeNext s

/-- One step: the next host event, or a step of the hart when the event is `run` or none is left (log 23). -/
def step (s : State) : Host.Outcome State Fault Refusal :=
  match s.inputs with
  | [] => hartStep s
  | .run :: rest => hartStep { s with inputs := rest }
  | e :: rest => hostEvent e { s with inputs := rest, stepNo := s.stepNo + 1 }

/-- `s` with an instruction placed where the next step fetches: its low `nbits` bits are `w`, the others zero. -/
def State.withFetchWord (s : State) (nbits w : Nat) : State := placeCode s (tableBytes nbits w)

end Sys2Proof.Machine
end

