-- ==== Sys2Proof/Safety.lean ====
section
/-! DEFINITION. What a safe run is, and the shapes in which statements say what an instruction does: the invariant of
every reachable state, outcomes that go on, an instruction that writes a register, one that traps. -/

namespace Sys2Proof.Machine

/-! ## Outcomes -/

/-- The step goes on. -/
def Goes (r : Result) : Prop := ∃ t, r = .next t

/-- The step goes on, to a state of which `P` holds. -/
def GoesTo (r : Result) (P : State → Prop) : Prop := ∃ t, r = .next t ∧ P t

/-! ## The invariant -/

/-- The stored CSRs hold only values their registers can hold: hardwired bits of R42, R44, R45, R47, R106, R110, R116,
R117, R120 and bit 0 of dpc. -/
structure CsrsLegal (r : Csrs) : Prop where
  mstatus : r.mstatus = 0x1800 ||| (r.mstatus &&& 0x88)
  mie : r.mie = r.mie &&& 0x40000888
  mtvec : r.mtvec = r.mtvec &&& 0xFFFFFFFD
  mepc : r.mepc.getLsbD 0 = false
  dpc : r.dpc.getLsbD 0 = false
  micect : r.micect.extractLsb' 27 5 ≤ 26#5
  miccmect : r.miccmect.extractLsb' 27 5 ≤ 26#5
  mdccmect : r.mdccmect.extractLsb' 27 5 ≤ 26#5
  mgpmc : r.mgpmc = r.mgpmc &&& 1
  mcgc : r.mcgc = r.mcgc &&& 0x1FF
  mfdc : r.mfdc = r.mfdc &&& 0x000705FD
  meivt : r.meivt = r.meivt &&& 0xFFFFFC00

/-- The registers of a state are legal: the CSRs, the event selectors (R56), and a pc whose bit 0 is 0 (R33). -/
structure RegistersLegal (s : State) : Prop where
  csrs : CsrsLegal s.csr
  events : ∀ n, s.counters.event.get n ≤ 50#32
  pc : s.pc.getLsbD 0 = false

/-- The memory and the check bits are in canonical form. -/
def MemoryLegal (s : State) : Prop := Memory.wf s.mem = true ∧ rising s.ecc = true

/-- At most 255 bus transactions are outstanding (R207). -/
def BusLegal (s : State) : Prop := s.responses.length ≤ 255

/-- A state that a safe run can be in. -/
def Safe (s : State) : Prop := RegistersLegal s ∧ MemoryLegal s ∧ BusLegal s

/-! ## What an instruction does -/

/-- From `s` an instruction retired, wrote `v` to `rd` (nothing if `rd` is x0), went on at `next`, and changed nothing
else: no other register, no CSR, no byte, only `minstret` and the event counters. -/
structure WroteReg (s t : State) (rd : Reg) (v next : Word) : Prop where
  target : rd ≠ 0 → reg t rd = v
  others : ∀ r, r ≠ rd → reg t r = reg s r
  zero : reg t 0 = 0
  pc : t.pc = next
  retired : t.counters.minstret = s.counters.minstret + 1
  memory : ∀ b, dataByte t b = dataByte s b
  frame : t = { s with
    regs := t.regs, pc := t.pc
    counters := { s.counters with minstret := t.counters.minstret, hpm := t.counters.hpm } }

/-- From `s` an instruction retired, wrote no register and went on at `next`; `u` is `s` with its other effects. -/
structure Retires (s u t : State) (next : Word) : Prop where
  registers : ∀ r, reg t r = reg s r
  pc : t.pc = next
  retired : t.counters.minstret = s.counters.minstret + 1
  frame : t = { u with
    pc := t.pc, counters := { s.counters with minstret := t.counters.minstret, hpm := t.counters.hpm } }

/-- From `s` a trap with this cause and value was entered at `target` (R520): pc, cause, value and interrupt enable
saved, no register, no byte and no other CSR changed, nothing retired. -/
structure Trapped (s t : State) (cause value target : Word) : Prop where
  pc : t.pc = target
  mepc : t.csr.mepc = s.pc
  mcause : t.csr.mcause = cause
  mtval : t.csr.mtval = value
  mpie : t.csr.mstatus.getLsbD 7 = s.csr.mstatus.getLsbD 3
  mie : t.csr.mstatus.getLsbD 3 = false
  mpp : t.csr.mstatus &&& 0xFFFFFF77 = 0x1800
  registers : ∀ r, reg t r = reg s r
  memory : ∀ b, dataByte t b = dataByte s b
  frame : t = { s with
    pc := t.pc
    csr := { s.csr with
      mepc := t.csr.mepc, mcause := t.csr.mcause, mtval := t.csr.mtval, mstatus := t.csr.mstatus }
    counters := { s.counters with hpm := t.counters.hpm } }

/-- `t` is `s` but for what a data access may change: the bus's fields, check bits and their counters, the waiting PIC
stores and, with a late priority order, the priority CSRs (R582); and what other agents do between its pieces
(R184, R210). -/
def AccessFrame (s t : State) : Prop :=
  t = { s with
    mem := t.mem, ecc := t.ecc, stale := t.stale, unfenced := t.unfenced, unfencedEcc := t.unfencedEcc
    wb := t.wb, responses := t.responses
    lines := { s.lines with ext := t.lines.ext }
    devReq := t.devReq, deviceTrace := t.deviceTrace, mdseacLocked := t.mdseacLocked, dbusErr := t.dbusErr
    picQueue := t.picQueue, inputs := t.inputs, dmaResponse := t.dmaResponse
    csr := { s.csr with
      mdseac := t.csr.mdseac, miccmect := t.csr.miccmect, mdccmect := t.csr.mdccmect
      ithresh := t.csr.ithresh, iclid := t.csr.iclid, icur := t.csr.icur, priDoubt := t.csr.priDoubt } }

/-- Memory is in `t` as the hart saw it in `s`: SoC memory through the write buffer, unless some word has an error mark; every other
byte in memory itself (R186, R204). -/
def SameMemory (s t : State) : Prop :=
  ((∀ w, cellGet s.ecc w ≠ some .uncorrectable) →
    ∀ b < 2 ^ 32, busKind s.cfg (BitVec.ofNat 32 b) = .memory → dataByte t b = dataByte s b) ∧
  ∀ b < 2 ^ 32, busKind s.cfg (BitVec.ofNat 32 b) ≠ .memory → memByte t b = memByte s b

/-- Every byte of SoC memory is as the hart's own loads saw it before, buffered stores performed, unless the SoC reports an
error with some word (R204, R206). -/
def StoresPerformed (s t : State) : Prop :=
  (∀ w, cellGet s.ecc w ≠ some .uncorrectable) →
    ∀ b < 2 ^ 32, busKind s.cfg (BitVec.ofNat 32 b) = .memory → memByte t b = dataByte s b

/-- No byte outside SoC memory has changed in memory: no store of the bus reaches it (R186). -/
def OtherMemoryKept (s t : State) : Prop :=
  ∀ b < 2 ^ 32, busKind s.cfg (BitVec.ofNat 32 b) ≠ .memory → memByte t b = memByte s b

/-- From `s`, what a FENCE has done by `t`: nothing buffered or outstanding, the buffered stores performed and no other byte of
memory changed, the PIC's stores in effect, and `mrac` in effect for data (R206, R207, R721, R722). -/
structure Fenced (s t : State) : Prop where
  buffer : t.wb = []
  answered : t.responses = []
  performed : StoresPerformed s t
  other : OtherMemoryKept s t
  picQueue : t.picQueue = []
  pic : t.pic = picNewest s
  mrac : mracNow t = s.csr.mrac

/-- From `s`, what a FENCE.I has done by `t` for the fetch side: every byte is fetched as memory holds it, `mrac` and `mfdc` are in
effect, and no line of the I-cache is valid (R191, R440, R722, R723). -/
structure FetchFenced (s t : State) : Prop where
  bytes : ∀ b, fetchByte t b = memByte t b
  mrac : mracFetchNow t = s.csr.mrac
  mfdc : mfdcNow t = s.csr.mfdc
  tags : ∀ p, writtenTags t p = []
  filled : t.icache.filled = []

/-- The buffered stores behind the last transaction with side effects. -/
def youngerStores (wb : List BusStore) : List BusStore := (wb.rtakeWhile fun st => !st.sideEffect).dropWhile (·.joined)

/-- The words of an access that it finds correctable (R221). -/
def correctedWords (s : State) (ws : List Nat) : List Nat := ws.filter fun w => checkWord s w == .corrected

/-- The check states with those words sound, all others as they are. -/
def soundAt (ws : List Nat) (ecc : List (Nat × EccState)) : List (Nat × EccState) :=
  ws.foldl (fun e w => cellSet e w .good) ecc

/-- An error counter register `n` errors later: the 27-bit count wraps, the threshold stays (R106). -/
def countErrors (n : Nat) (v : Word) : Word := v.extractLsb' 27 5 ++ BitVec.ofNat 27 ((v.extractLsb' 0 27).toNat + n)

/-- `t` is `s` but for what a fetch may change: a corrected ICCM word, the I-cache, their error counters, and what
devices have seen. -/
def FetchFrame (s t : State) : Prop :=
  t = { s with
    ecc := t.ecc, icache := t.icache, deviceTrace := t.deviceTrace
    csr := { s.csr with micect := t.csr.micect, miccmect := t.csr.miccmect } }

/-- Where every exception goes: `mtvec[31:2] << 2` (R521). -/
def exceptionTarget (s : State) : Word := s.csr.mtvec.extractLsb' 2 30 ++ 0#2

/-! ## The load and store forms -/

/-- What a load instruction loads: how many bytes, whether sign-extended, from where, into what, and the instruction's
own length. -/
structure LoadForm where
  rd : Reg
  size : Nat
  signed : Bool
  addr : Word
  length : Word
  deriving DecidableEq, Repr

/-- The loads: LB, LH, LW, LBU, LHU, C.LW, C.LWSP (R350 to R355, R402, R421). -/
def loadForm (s : State) : Instr → Option LoadForm
  | .lb rd rs1 off => some ⟨rd, 1, true, effAddr s rs1 (sextImm off), 4⟩
  | .lh rd rs1 off => some ⟨rd, 2, true, effAddr s rs1 (sextImm off), 4⟩
  | .lw rd rs1 off => some ⟨rd, 4, true, effAddr s rs1 (sextImm off), 4⟩
  | .lbu rd rs1 off => some ⟨rd, 1, false, effAddr s rs1 (sextImm off), 4⟩
  | .lhu rd rs1 off => some ⟨rd, 2, false, effAddr s rs1 (sextImm off), 4⟩
  | .cLw rd rs1 uimm => some ⟨wideReg rd, 4, true, effAddr s (wideReg rs1) (zextImm uimm), 2⟩
  | .cLwsp rd uimm => some ⟨rd, 4, true, effAddr s 2 (zextImm uimm), 2⟩
  | _ => none

/-- What a store instruction stores: the low `size` bytes of `value` at `addr`. -/
structure StoreForm where
  size : Nat
  value : Word
  addr : Word
  length : Word
  deriving DecidableEq, Repr

/-- The stores: SB, SH, SW, C.SW, C.SWSP (R356 to R358, R403, R427). -/
def storeForm (s : State) : Instr → Option StoreForm
  | .sb rs2 rs1 off => some ⟨1, reg s rs2, effAddr s rs1 (sextImm off), 4⟩
  | .sh rs2 rs1 off => some ⟨2, reg s rs2, effAddr s rs1 (sextImm off), 4⟩
  | .sw rs2 rs1 off => some ⟨4, reg s rs2, effAddr s rs1 (sextImm off), 4⟩
  | .cSw rs2 rs1 uimm => some ⟨4, reg s (wideReg rs2), effAddr s (wideReg rs1) (zextImm uimm), 2⟩
  | .cSwsp rs2 uimm => some ⟨4, reg s rs2, effAddr s 2 (zextImm uimm), 2⟩
  | _ => none

/-- The last byte address of an access. -/
def lastByte (a : Word) (n : Nat) : Word := a + BitVec.ofNat 32 (n - 1)

/-- The number that `n` bytes at `a` make, lowest address least significant (R161). -/
def littleEndianValue (f : Nat → Byte) (a : Nat) : Nat → Nat
  | 0 => 0
  | n + 1 => littleEndianValue f a n + (f (a + n)).toNat * 256 ^ n

/-- The register value a load makes of the bytes: sign- or zero-extended from their width (R351 to R355). -/
def loadedValue (f : Nat → Byte) (l : LoadForm) : Word :=
  let v := BitVec.ofNat (8 * l.size) (littleEndianValue f l.addr.toNat l.size)
  if l.signed then v.signExtend 32 else v.setWidth 32

/-- The access lies wholly in the DCCM (R164, R178). -/
def WhollyInDccm (s : State) (a : Word) (n : Nat) : Prop :=
  region a = s.cfg.dccmRegion ∧ region (lastByte a n) = s.cfg.dccmRegion ∧
    inDccm s.cfg a = true ∧ inDccm s.cfg (lastByte a n) = true

/-- The access is an aligned word wholly in the PIC range, and not in the DCCM (R164, R180). -/
def PicWord (s : State) (a : Word) (n : Nat) : Prop :=
  n = 4 ∧ a.toNat % 4 = 0 ∧ region a = s.cfg.picRegion ∧ region (lastByte a n) = s.cfg.picRegion ∧
    inPic s.cfg a = true ∧ inPic s.cfg (lastByte a n) = true ∧ inDccm s.cfg a = false

/-- The access goes to the system bus: one region, without DCCM or PIC, allowed by the data windows, and aligned if it
has side effects (R177 to R182). -/
def BusAccess (s : State) (a : Word) (n : Nat) : Prop :=
  region a = region (lastByte a n) ∧ dataLocalRegion s.cfg a = false ∧
    (sideEffectBit s.cfg (mracNow s) a = true → a.toNat % n = 0) ∧
    windowsAllow s.cfg.dataWindows a = true ∧ windowsAllow s.cfg.dataWindows (lastByte a n) = true

end Sys2Proof.Machine
end

