-- ==== Sys2Proof/Certificates/Slice0/Obligations.lean ====
section
/-! DEFINITION. The statements for the provers. Each docstring says what the statement formalises. -/

namespace Sys2Proof.Machine

/-! ## Terms the statements use -/

/-- The parcels of R268 and of the D and F rows of R264 and R266, by quadrant and funct3: reserved 16-bit encodings. -/
abbrev ReservedRow (h : BitVec 16) (op : BitVec 2) (f3 : BitVec 3) : Prop :=
  (op = 0 ∧ f3 = 0 ∧ h.extractLsb' 5 8 = 0) ∨
  (op = 0 ∧ (f3 = 1 ∨ f3 = 3 ∨ f3 = 4 ∨ f3 = 5 ∨ f3 = 7)) ∨
  (op = 1 ∧ f3 = 3 ∧ h.getLsbD 12 = false ∧ h.extractLsb' 2 5 = 0) ∨
  (op = 1 ∧ f3 = 4 ∧ h.extractLsb' 10 2 ≠ 2 ∧ h.getLsbD 12 = true) ∨
  (op = 2 ∧ f3 = 0 ∧ h.getLsbD 12 = true) ∨
  (op = 2 ∧ f3 = 2 ∧ h.extractLsb' 7 5 = 0) ∨
  h = 0x8002 ∨
  (op = 2 ∧ (f3 = 1 ∨ f3 = 3 ∨ f3 = 5 ∨ f3 = 7))

/-- A reserved 16-bit encoding. -/
abbrev ReservedParcel (h : BitVec 16) : Prop := ReservedRow h (h.extractLsb' 0 2) (h.extractLsb' 13 3)

/-- The byte `k` places after the pc. -/
def pcPlus (s : State) (k : Nat) : Word := s.pc + BitVec.ofNat 32 k

/-- The instruction at the pc stands in the ICCM, in sound words, with no older value still to be fetched. -/
def CodeInIccm (s : State) (c : Code) : Prop :=
  s.pc.getLsbD 0 = false ∧
  c.bytes = (List.range c.size).map (fun k => memByte s (pcPlus s k).toNat) ∧
  takeCode c.bytes = some (c, []) ∧
  ∀ k < c.size, iccmRegion s.cfg (pcPlus s k) = true ∧ inIccm s.cfg (pcPlus s k) = true ∧
    checkWord s ((pcPlus s k).toNat / 4) = .sound ∧ staleValues s (pcPlus s k).toNat = []

/-- The instruction at the pc stands in the ICCM, as for `CodeInIccm`, in words that are sound or have a correctable error. -/
def CodeInCheckedIccm (s : State) (c : Code) : Prop :=
  s.pc.getLsbD 0 = false ∧
  c.bytes = (List.range c.size).map (fun k => memByte s (pcPlus s k).toNat) ∧
  takeCode c.bytes = some (c, []) ∧
  ∀ k < c.size, iccmRegion s.cfg (pcPlus s k) = true ∧ inIccm s.cfg (pcPlus s k) = true ∧
    (checkWord s ((pcPlus s k).toNat / 4) = .sound ∨ checkWord s ((pcPlus s k).toNat / 4) = .corrected) ∧
    staleValues s (pcPlus s k).toNat = []

/-- The instruction at the pc stands in SoC memory: outside the ICCM's region, allowed by the instruction windows, in words the
SoC answers without an error, with no older value still to be fetched; and no debugger has written the I-cache. -/
def CodeInSocMemory (s : State) (c : Code) : Prop :=
  s.pc.getLsbD 0 = false ∧
  c.bytes = (List.range c.size).map (fun k => memByte s (pcPlus s k).toNat) ∧
  takeCode c.bytes = some (c, []) ∧
  (∀ k < c.size, iccmRegion s.cfg (pcPlus s k) = false ∧ windowsAllow s.cfg.instWindows (pcPlus s k) = true ∧
    busKind s.cfg (pcPlus s k) = .memory ∧ readFails s (pcPlus s k) = false ∧ staleValues s (pcPlus s k).toNat = []) ∧
  inIccm s.cfg s.pc = false ∧ s.icache.tags = [] ∧ s.icache.data = []

/-- A parcel of SoC memory that the instruction windows allow, in words the SoC answers without an error. -/
abbrev SocParcel (s : State) (p : Word) : Prop :=
  p.getLsbD 0 = false ∧ iccmRegion s.cfg p = false ∧ windowsAllow s.cfg.instWindows p = true ∧
  busKind s.cfg p = .memory ∧ busKind s.cfg (p + 1) = .memory ∧ readFails s p = false ∧ readFails s (p + 1) = false

/-- The fetch of the parcel at `p` is an instruction access fault, by the rows of R173: in the ICCM's region, outside the ICCM or
in a word with an uncorrectable error; elsewhere, outside the instruction windows, or answered with an error, when no line of
the I-cache serves it (R169 to R173). -/
def ParcelFaults (s : State) (p : Word) : Prop :=
  if iccmRegion s.cfg p then inIccm s.cfg p = false ∨ checkWord s (p.toNat / 4) = .failed
  else windowsAllow s.cfg.instWindows p = false ∨
    ((readFails s p = true ∨ readFails s (p + 1) = true) ∧
      (s.cfg.icacheEnable = false ∨ cacheableBit (mracFetchNow s) p = false ∨
        (s.icache.tags = [] ∧ s.icache.filled = [])))

/-- Every entry of the I-cache that could give the parcel at `p` has an error its check reports: of each valid line the debugger
wrote in the set, the tag or the chunk; and the chunk of every way whose data the debugger wrote (R172, R220). -/
def ICacheSpoilt (s : State) (p : Word) : Prop :=
  (∀ t ∈ writtenTags s p, tagErrs s.cfg t.2 = true ∨ halfErrs s.cfg (lineEntry s p t.1) (halfOf p) = true) ∧
  ∀ way e, overwrittenData s p way = some e → halfErrs s.cfg e (halfOf p) = true

/-- Whether a fetch of the parcel at `p` looks at the lines the debugger wrote and finds an entry to check there: a tag of its set
with an error, or the line hit (R172, R190, R686; that it may not look is log 22's free choice). -/
def icacheErrorSeen (s : State) (p : Word) : Bool :=
  s.cfg.icacheEnable && cacheableBit (mracFetchNow s) p && Config.icacheHits s.stepNo p.toNat &&
    (((writtenTags s p).any fun t => tagErrs s.cfg t.2) || (hitWay s p).isSome)

/-- The register a three-bit field names is x8 plus the field (R262). -/
def x8 (r : CReg) : Reg := BitVec.ofNat 5 (8 + r.toNat)

/-- From `s` a CSR instruction retired, wrote `old` to `rd`, and left the stored CSRs as `csrs`; the values `mrac` and
`mfdc` held may still act (R722, R723). Nothing else changed. -/
structure WroteCsr (s t : State) (rd : Reg) (old : Word) (csrs : Csrs) : Prop where
  target : rd ≠ 0 → reg t rd = old
  others : ∀ r, r ≠ rd → reg t r = reg s r
  zero : reg t 0 = 0
  csr : t.csr = csrs
  pc : t.pc = s.pc + 4
  retired : t.counters.minstret = s.counters.minstret + 1
  memory : ∀ b, dataByte t b = dataByte s b
  frame : t = { s with
    regs := t.regs, pc := t.pc, csr := csrs
    counters := { s.counters with minstret := t.counters.minstret, hpm := t.counters.hpm }
    mracData := t.mracData, mracFetch := t.mracFetch, mfdcOld := t.mfdcOld }

/-- A CSR that stores what is written to it, made legal: its number, how it reads, and what a write leaves. -/
structure PlainCsr where
  number : BitVec 12
  read : Csrs → Word
  write : Csrs → Word → Csrs

/-- An error counter's threshold is at most 26 (R106). -/
def atMost26 (v : Word) : Word := BitVec.ofNat 5 (min (v.toNat / 2 ^ 27) 26) ++ v.extractLsb' 0 27

/-- The plain CSRs and what a write keeps (R42, R44 to R49, R101, R106, R110, R116, R117, R120). -/
def plainCsrs : List PlainCsr :=
  [⟨0x300, (·.mstatus), fun r v => { r with mstatus := 0x1800 ||| (v &&& 0x88) }⟩,
   ⟨0x304, (·.mie), fun r v => { r with mie := v &&& 0x40000888 }⟩,
   ⟨0x305, (·.mtvec), fun r v => { r with mtvec := v &&& 0xFFFFFFFD }⟩,
   ⟨0x340, (·.mscratch), fun r v => { r with mscratch := v }⟩,
   ⟨0x341, (·.mepc), fun r v => { r with mepc := v &&& 0xFFFFFFFE }⟩,
   ⟨0x342, (·.mcause), fun r v => { r with mcause := v }⟩,
   ⟨0x343, (·.mtval), fun r v => { r with mtval := v }⟩,
   ⟨0x7C0, (·.mrac), fun r v => { r with mrac := v }⟩,
   ⟨0x7D0, (·.mgpmc), fun r v => { r with mgpmc := v &&& 1 }⟩] ++
  [⟨0x7F0, (·.micect), fun r v => { r with micect := atMost26 v }⟩,
   ⟨0x7F1, (·.miccmect), fun r v => { r with miccmect := atMost26 v }⟩,
   ⟨0x7F2, (·.mdccmect), fun r v => { r with mdccmect := atMost26 v }⟩,
   ⟨0x7F8, (·.mcgc), fun r v => { r with mcgc := v &&& 0x1FF }⟩,
   ⟨0x7F9, (·.mfdc), fun r v => { r with mfdc := v &&& 0x000705FD }⟩,
   ⟨0xBC8, (·.meivt), fun r v => { r with meivt := v &&& 0xFFFFFC00 }⟩]

/-- A Zicsr instruction: its destination, its CSR, whether it writes, and what it writes given the old value
(R446 to R451). -/
structure CsrForm where
  rd : Reg
  csr : BitVec 12
  writes : Bool
  value : Word → Word

/-- The six Zicsr instructions (R446 to R451). -/
def csrForm (s : State) : Instr → Option CsrForm
  | .csrrw rd csr rs1 => some ⟨rd, csr, true, fun _ => reg s rs1⟩
  | .csrrs rd csr rs1 => some ⟨rd, csr, rs1 != 0, fun old => old ||| reg s rs1⟩
  | .csrrc rd csr rs1 => some ⟨rd, csr, rs1 != 0, fun old => old &&& ~~~(reg s rs1)⟩
  | .csrrwi rd csr uimm => some ⟨rd, csr, true, fun _ => BitVec.ofNat 32 uimm.toNat⟩
  | .csrrsi rd csr uimm => some ⟨rd, csr, uimm != 0, fun old => old ||| BitVec.ofNat 32 uimm.toNat⟩
  | .csrrci rd csr uimm => some ⟨rd, csr, uimm != 0, fun old => old &&& ~~~(BitVec.ofNat 32 uimm.toNat)⟩
  | _ => none

/-- The numbers of the CSRs that exist, the table of R39. -/
abbrev CsrExists (n : Nat) : Prop :=
  n ∈ [0x300, 0x301, 0x304, 0x305, 0x340, 0x341, 0x342, 0x343, 0x344] ∨
  (0x323 ≤ n ∧ n ≤ 0x33F) ∨ (0x7B0 ≤ n ∧ n ≤ 0x7B3) ∨
  n ∈ [0x7C0, 0x7C2, 0x7C4, 0x7C6, 0x7C8, 0x7C9, 0x7CA, 0x7CB, 0x7D0, 0x7F0, 0x7F1, 0x7F2, 0x7F8, 0x7F9] ∨
  n ∈ [0xB00, 0xB80, 0xB02, 0xB82] ∨ (0xB03 ≤ n ∧ n ≤ 0xB1F) ∨ (0xB83 ≤ n ∧ n ≤ 0xB9F) ∨
  n ∈ [0xBC0, 0xBC8, 0xBC9, 0xBCA, 0xBCB, 0xBCC, 0xF11, 0xF12, 0xF13, 0xF14, 0xFC0, 0xFC8]

/-- Nothing of another agent can fall between the pieces of the access: it is aligned, or no such agent is about to act
(R184, R210). -/
def Undisturbed (s : State) (a : Word) (n : Nat) : Prop := a.toNat % n = 0 ∨ agentNext s = false

/-- The SoC answers the store with an error whatever its memory holds: nothing is at one of its bytes, or a ROM that rejects
writes (R183, R214). -/
abbrev SocRejects (s : State) (st : BusStore) : Prop :=
  ∃ b ∈ accessBytes st.addr st.size, busKind s.cfg b = .error ∨ busKind s.cfg b = .rom true

/-- The priority with which source `n` takes part, as the evaluation sees its request (R584, log 44). -/
def candidate (p : PicRegs) (n : Nat) : BitVec 4 :=
  if p.staged.getLsbD n && p.inten.getLsbD n then p.ipl.get (BitVec.ofNat 8 n) else 0

/-- A running hart that takes no trap at a boundary pauses, or executes the next instruction. -/
def goesOn (u : State) : Result := if u.pauseCount = 0 then executeNext u else .next (pauseTurn u)

/-- The offsets of the PIC range at which no register stands, `n` being the word's number in its page (R600, R601). -/
abbrev unusedPicWord (c : Build) (o n : Nat) : Prop :=
  (o < 0x1000 ∧ (n = 0 ∨ c.picTotalInt < n)) ∨
  (0x1000 ≤ o ∧ o < 0x2000 ∧ c.picTotalInt / 32 < n) ∨
  (0x2000 ≤ o ∧ o < 0x3000 ∧ (n = 0 ∨ c.picTotalInt < n)) ∨
  (0x3004 ≤ o ∧ o < 0x4000) ∨
  (0x4000 ≤ o ∧ o < 0x6000 ∧ (n = 0 ∨ c.picTotalInt < n ∨ c.gatewayConfigurable.getLsbD n = false)) ∨
  0x6000 ≤ o

/-- The offsets of the PIC range at which no register stands. -/
abbrev unusedPicOffset (c : Build) (o : Nat) : Prop := unusedPicWord c o (o % 0x1000 / 4)

end Sys2Proof.Machine

open Sys2Proof Sys2Proof.Machine

/-! ## Encoding -/

/-- Decoding an encoded well-formed instruction gives it back, whatever bytes follow (R242 to R244, R260 to R263). -/
def Obligations.DecodingUndoesEncoding : Prop :=
  ∀ (i : Instr) (rest : List Byte), i.wellFormed = true → decode (encode i ++ rest) = .ok (i, rest)

/-- A decoded instruction is well formed and its encoding is the code it was read from: no bit of a code is ignored
and no two codes mean the same instruction (R290, R292). -/
def Obligations.EncodingUndoesDecoding : Prop :=
  ∀ (c : Code) (i : Instr), decodeCode c = some i → i.wellFormed = true ∧ i.code = c

/-- Words that the spec spells out decode to the instructions it says they are: the examples of R301, R312, R311, R446,
R451, R471, R474, and the illegal parcel of R268. -/
def Obligations.SpecWordsDecode : Prop :=
  decodeCode (.word 0x123452B7) = some (.lui 5 0x12345) ∧
  decodeCode (.word 0x007302B3) = some (.add 5 6 7) ∧
  decodeCode (.word 0x40435293) = some (.srai 5 6 4) ∧
  decodeCode (.word 0x340312F3) = some (.csrrw 5 0x340 6) ∧
  decodeCode (.word 0x300472F3) = some (.csrrci 5 0x300 8) ∧
  decodeCode (.word 0x30200073) = some .mret ∧
  decodeCode (.word 0x10500073) = some .wfi ∧
  decodeCode (.half 0x0000) = none

/-- A 16-bit parcel is illegal exactly when the list of reserved parcels has it, the rows for floating point
included (R264, R266, R268). -/
def Obligations.ReservedParcelsAreIllegal : Prop :=
  ∀ h : BitVec 16, longParcel h = false → (decodeCode (.half h) = none ↔ ReservedParcel h)

/-! ## The step -/

/-- When the code fetched at the pc decodes to an instruction, the step is its meaning in the state the fetch leaves, followed by
the single-step check; but where a FENCE.I is due, right after an `mfdc` write, another instruction is refused, the spec's
decision D32 (log 16). The fetch answers the bytes at the pc, and changes nothing else, when they stand in the ICCM; it answers
them in SoC memory too, cached or not, where devices and the I-cache may notice (R168 to R171, R190, R723). -/
def Obligations.StepRunsTheDecodedInstruction : Prop :=
  ∀ (s u : State) (c : Code) (i : Instr), s.inputs = [] → turn (atBoundary s) = .execute u → decodeCode c = some i →
    let isFenceI := ∃ imm rs1 rd, i = .fenceI imm rs1 rd
    let runs := fun v : State => i.wellFormed = true ∧
      (v.pc ∉ v.fencesDue ∨ isFenceI → step s = finishStep (exec i v)) ∧
      (v.pc ∈ v.fencesDue → ¬isFenceI → step s = .refused .mfdcFence)
    (∀ v, fetch u = .code c v → runs v) ∧
    (CodeInIccm u c → runs u) ∧
    (CodeInSocMemory u c → ∃ v, v = { u with icache := v.icache, deviceTrace := v.deviceTrace } ∧ runs v)

/-- A code that is no instruction takes exception 2 with the code's bits in `mtval`, the decision D5
(R291, R502, R523). -/
def Obligations.IllegalCodesTrap : Prop :=
  ∀ (s u v : State) (c : Code), s.inputs = [] → turn (atBoundary s) = .execute u → fetch u = .code c v →
    decodeCode c = none → v.stepping = false →
    GoesTo (step s) fun t => Trapped v t 2 c.bits (exceptionTarget v)

/-- A parcel that faults is an instruction access fault whose `mtval` is the parcel's address: in the ICCM's region, one outside
the ICCM or in a word with an uncorrectable error; elsewhere, one no instruction window allows, or one that is unmapped or
answered with an error. The second parcel counts only when the first belongs to a 32-bit instruction, which faults as well when it
runs over the end of the ICCM; that it does where the ICCM ends at its region's end is log 48's reading
(R168 to R173, R503, R523). -/
def Obligations.FetchOutsideIccmTraps : Prop :=
  ∀ s u : State, s.inputs = [] → turn (atBoundary s) = .execute u → u.stepping = false →
    (ParcelFaults u u.pc → GoesTo (step s) fun t => ∃ v, FetchFrame u v ∧
      (iccmRegion u.cfg u.pc = true → v = u) ∧ Trapped v t 1 u.pc (exceptionTarget u)) ∧
    (iccmRegion u.cfg u.pc = true → inIccm u.cfg u.pc = true → checkWord u (u.pc.toNat / 4) = .sound →
      longParcel (parcelAt (fetchByte u) u.pc) = true → u.pc.getLsbD 0 = false → inIccm u.cfg (u.pc + 2) = false →
      GoesTo (step s) fun t => Trapped u t 1 (u.pc + 2) (exceptionTarget u)) ∧
    ∀ (v : State) (h : BitVec 16), fetchParcel u u.pc = .parcel h v → longParcel h = true →
      ParcelFaults v (u.pc + 2) → GoesTo (step s) fun t => ∃ w, FetchFrame v w ∧
        Trapped w t 1 (u.pc + 2) (exceptionTarget u)

/-- The boundary at which a step begins, before the hart does anything of its own: it keeps the general registers, the PAUSE count,
`minstret`, the event selectors, the counters of exact events, and every machine-mode CSR but `mdseac`, which an answer to an
earlier access may set; the hart's view of SoC memory, buffered stores included, unless some word has an error mark; and every
other byte of memory with its check bits. The pc stays, but where the MPC's run request ends a debug halt: it is `dpc` then.
Without an MPC's halt request `dpc` and `dcsr` stay as well. The state in which an instruction then executes is that one: only what is
put off has moved on. That it is at the boundaries that buffered stores are sent and accesses answered is the model's choice
(log 7), and so is when the MPC's requests are served (logs 15, 24) (R200, R201, R204, R209, R214, R215, R641, R649, R656 to R658, R673). -/
def Obligations.BoundaryKeepsTheHart : Prop :=
  ∀ s : State,
    let u := atBoundary s
    u.regs = s.regs ∧ u.pauseCount = s.pauseCount ∧ u.cfg = s.cfg ∧ u.inputs = s.inputs ∧
    (u.pc = if s.activity = .dbHalt ∧ u.activity = .running then s.csr.dpc else s.pc) ∧
    u.csr = { s.csr with mdseac := u.csr.mdseac, dpc := u.csr.dpc, dcsr := u.csr.dcsr } ∧
    ((boundary s).seen.mpcHaltReq = false → u.csr.dpc = s.csr.dpc ∧ u.csr.dcsr = s.csr.dcsr) ∧
    u.counters.minstret = s.counters.minstret ∧ u.counters.event = s.counters.event ∧
    (∀ n, inexactEvent (s.counters.event.get n).toNat = false → u.counters.hpm.get n = s.counters.hpm.get n) ∧
    SameMemory s u ∧
    (∀ w < 2 ^ 30, busKind s.cfg (BitVec.ofNat 32 (4 * w)) ≠ .memory → cellGet u.ecc w = cellGet s.ecc w) ∧
    ∀ v, turn u = .execute v → u.activity = .running ∧ u.pauseCount = 0 ∧ v = { u with waits := v.waits }

/-- A correctable error met by a fetch. In the ICCM the instruction executed is the one memory holds, every correctable word of it is
written back sound and counted once in `miccmect`, and nothing else changes. In the I-cache, where every entry that could give a
parcel of SoC memory has an error, the parcel fetched is memory's, as the fetch side sees it; the error is counted in `micect` once, and no
line that the debugger had written in the set is valid then; a fetch that does not look at such an entry, which is log 22's free choice, may count
nothing. A detected error that is injected from outside counts one in `micect` and leaves no valid line in its set, the
other sets' as they were; that such an event stands for the error, and that the parity or ECC code is not looked at, is log 22
(R106, R172, R190, R220, R221). -/
def Obligations.CorrectableFetchErrors : Prop :=
  (∀ (s u : State) (c : Code) (i : Instr), s.inputs = [] → turn (atBoundary s) = .execute u → CodeInCheckedIccm u c →
    decodeCode c = some i → u.pc ∉ u.fencesDue →
    let bad := correctedWords u (wordsOf u.pc.toNat c.size)
    step s = finishStep (exec i
      { u with ecc := soundAt bad u.ecc, csr := { u.csr with miccmect := countErrors bad.length u.csr.miccmect } })) ∧
  (∀ (s : State) (p : Word), SocParcel s p → s.cfg.icacheKb ∈ [16, 32, 64, 128, 256] → ICacheSpoilt s p →
    ∃ v, fetchParcel s p = .parcel (parcelAt (fetchByte s) p) v ∧ FetchFrame s v ∧ v.csr.miccmect = s.csr.miccmect ∧
      let counted := v.csr.micect = countErrors 1 s.csr.micect ∧ writtenTags v p = []
      if icacheErrorSeen s p then counted else v.csr.micect = s.csr.micect ∨ counted) ∧
  (∀ (s : State) (set : Nat) (rest : List HostEvent), s.inputs = .icacheError set :: rest → s.cfg.icacheEnable = true →
    GoesTo (step s) fun t =>
      t = { s with
        inputs := rest, stepNo := s.stepNo + 1, icache := t.icache
        csr := { s.csr with micect := countErrors 1 s.csr.micect } } ∧
      (set < 65536 → ∀ way < 4, (tagEntry t (65536 * way + set)).word.getLsbD 0 = false) ∧
      ∀ way other, other ≠ set → other < 65536 → filledAt t other way = filledAt s other way ∧
        cellGet t.icache.tags (65536 * way + other) = cellGet s.icache.tags (65536 * way + other))

/-! ## Invariants -/

/-- Every step, of the hart or of the host, keeps the hardwired bits of the CSRs, the event selectors at most 50, and
bit 0 of the pc zero. That bit 0 of dpc is zero as well is the model's choice (log 4) (R33, R42, R44, R45, R47, R56, R106,
R110, R116, R117, R120). -/
def Obligations.StepKeepsRegistersLegal : Prop :=
  ∀ s t : State, RegistersLegal s → step s = .next t → RegistersLegal t

/-- Every step keeps memory and check bits in canonical form, which is the model's own (log 5), and at most 255 bus
transactions outstanding (R207). -/
def Obligations.StepKeepsMemoryLegal : Prop :=
  ∀ s t : State, MemoryLegal s → BusLegal s → step s = .next t → MemoryLegal t ∧ BusLegal t

/-- The state after reset is safe; so is the state in which any legal build comes out of reset, whatever its memory image.
The values of the registers without a reset value in the spec (log 2), bit 0 of dpc (log 4) and the canonical form of memory
(log 5) are the model's choices (R33, R42, R62, R207). -/
def Obligations.ResetIsSafe : Prop :=
  Safe State.reset ∧ ∀ (c : Build) (t : State), boot c = .next t → Safe t

/-! ## Integer instructions -/

/-- ADD, SUB, SLL, SLT, SLTU, XOR, SRL, SRA, OR, AND complete from every state: the result in rd (nothing if rd is x0),
pc + 4, and nothing else changed (R300, R312 to R322). -/
def Obligations.RegisterArithmetic : Prop :=
  ∀ (s : State) (rd rs1 rs2 : Reg),
    let a := reg s rs1
    let b := reg s rs2
    let gives := fun (i : Instr) (v : Word) => GoesTo (exec i s) fun t => WroteReg s t rd v (s.pc + 4)
    gives (.add rd rs1 rs2) (BitVec.ofNat 32 (a.toNat + b.toNat)) ∧
    gives (.sub rd rs1 rs2) (BitVec.ofInt 32 (a.toInt - b.toInt)) ∧
    gives (.sll rd rs1 rs2) (BitVec.ofNat 32 (a.toNat * 2 ^ (b.toNat % 32))) ∧
    gives (.slt rd rs1 rs2) (if a.toInt < b.toInt then 1 else 0) ∧
    gives (.sltu rd rs1 rs2) (if a.toNat < b.toNat then 1 else 0) ∧
    gives (.xor rd rs1 rs2) (a ^^^ b) ∧
    gives (.srl rd rs1 rs2) (BitVec.ofNat 32 (a.toNat / 2 ^ (b.toNat % 32))) ∧
    gives (.sra rd rs1 rs2) (BitVec.ofInt 32 (a.toInt / 2 ^ (b.toNat % 32))) ∧
    gives (.or rd rs1 rs2) (a ||| b) ∧
    gives (.and rd rs1 rs2) (a &&& b)

/-- ADDI, SLTI, SLTIU, XORI, ORI, ANDI, SLLI, SRLI, SRAI complete from every state, the immediate sign-extended; so do LUI and
AUIPC, the immediate above 12 zeros, and WFI, which writes nothing (R300 to R311, R474). -/
def Obligations.ImmediateArithmetic : Prop :=
  ∀ (s : State) (rd rs1 : Reg) (imm : BitVec 12) (shamt : BitVec 5) (upper : BitVec 20),
    let a := reg s rs1
    let b := BitVec.ofInt 32 imm.toInt
    let gives := fun (i : Instr) (v : Word) => GoesTo (exec i s) fun t => WroteReg s t rd v (s.pc + 4)
    gives (.addi rd rs1 imm) (BitVec.ofInt 32 (a.toInt + imm.toInt)) ∧
    gives (.slti rd rs1 imm) (if a.toInt < imm.toInt then 1 else 0) ∧
    gives (.sltiu rd rs1 imm) (if a.toNat < b.toNat then 1 else 0) ∧
    gives (.xori rd rs1 imm) (a ^^^ b) ∧
    gives (.ori rd rs1 imm) (a ||| b) ∧
    gives (.andi rd rs1 imm) (a &&& b) ∧
    gives (.slli rd rs1 shamt) (BitVec.ofNat 32 (a.toNat * 2 ^ shamt.toNat)) ∧
    gives (.srli rd rs1 shamt) (BitVec.ofNat 32 (a.toNat / 2 ^ shamt.toNat)) ∧
    gives (.srai rd rs1 shamt) (BitVec.ofInt 32 (a.toInt / 2 ^ shamt.toNat)) ∧
    gives (.lui rd upper) (BitVec.ofNat 32 (upper.toNat * 4096)) ∧
    gives (.auipc rd upper) (BitVec.ofNat 32 (s.pc.toNat + upper.toNat * 4096)) ∧
    GoesTo (exec .wfi s) fun t => WroteReg s t 0 0 (s.pc + 4)

/-- The C forms with full register fields, C.NOP, C.ADDI, C.LI, C.LUI, C.ADDI16SP, C.SLLI, C.MV, C.ADD, complete from
every state with pc + 2 (R400, R404, R405, R407 to R409, R420, R423, R426). -/
def Obligations.CompressedArithmetic : Prop :=
  ∀ (s : State) (rd rs2 : Reg) (imm : BitVec 6) (wide : BitVec 10) (shamt : BitVec 5),
    let a := reg s rd
    let gives := fun (i : Instr) (r : Reg) (v : Word) =>
      GoesTo (exec i s) fun t => WroteReg s t r v (s.pc + 2)
    gives (.cNop imm) 0 0 ∧
    gives (.cAddi rd imm) rd (BitVec.ofInt 32 (a.toInt + imm.toInt)) ∧
    gives (.cLi rd imm) rd (BitVec.ofInt 32 imm.toInt) ∧
    gives (.cLui rd imm) rd (BitVec.ofInt 32 (imm.toInt * 4096)) ∧
    gives (.cAddi16sp wide) 2 (BitVec.ofInt 32 ((reg s 2).toInt + wide.toInt)) ∧
    gives (.cSlli rd shamt) rd (BitVec.ofNat 32 (a.toNat * 2 ^ shamt.toNat)) ∧
    gives (.cMv rd rs2) rd (reg s rs2) ∧
    gives (.cAdd rd rs2) rd (BitVec.ofNat 32 (a.toNat + (reg s rs2).toNat))

/-- The C forms with three-bit register fields, C.ADDI4SPN, C.SRLI, C.SRAI, C.ANDI, C.SUB, C.XOR, C.OR, C.AND,
complete from every state on x8 to x15 with pc + 2 (R262, R400, R401, R410 to R416). -/
def Obligations.CompressedNarrowArithmetic : Prop :=
  ∀ (s : State) (rd rs2 : CReg) (imm : BitVec 6) (uimm : BitVec 10) (shamt : BitVec 5),
    let a := reg s (x8 rd)
    let b := reg s (x8 rs2)
    let gives := fun (i : Instr) (v : Word) => GoesTo (exec i s) fun t => WroteReg s t (x8 rd) v (s.pc + 2)
    gives (.cAddi4spn rd uimm) (BitVec.ofNat 32 ((reg s 2).toNat + uimm.toNat)) ∧
    gives (.cSrli rd shamt) (BitVec.ofNat 32 (a.toNat / 2 ^ shamt.toNat)) ∧
    gives (.cSrai rd shamt) (BitVec.ofInt 32 (a.toInt / 2 ^ shamt.toNat)) ∧
    gives (.cAndi rd imm) (a &&& BitVec.ofInt 32 imm.toInt) ∧
    gives (.cSub rd rs2) (BitVec.ofInt 32 (a.toInt - b.toInt)) ∧
    gives (.cXor rd rs2) (a ^^^ b) ∧
    gives (.cOr rd rs2) (a ||| b) ∧
    gives (.cAnd rd rs2) (a &&& b)

/-! ## Multiplication and division -/

/-- MUL, MULH, MULHSU, MULHU complete from every state: low or high half of the exact product (R380 to R384). -/
def Obligations.Multiplication : Prop :=
  ∀ (s : State) (rd rs1 rs2 : Reg),
    let a := reg s rs1
    let b := reg s rs2
    let gives := fun (i : Instr) (v : Int) =>
      GoesTo (exec i s) fun t => WroteReg s t rd (BitVec.ofInt 32 v) (s.pc + 4)
    gives (.mul rd rs1 rs2) (a.toInt * b.toInt) ∧
    gives (.mulh rd rs1 rs2) (a.toInt * b.toInt / 2 ^ 32) ∧
    gives (.mulhsu rd rs1 rs2) (a.toInt * (b.toNat : Int) / 2 ^ 32) ∧
    gives (.mulhu rd rs1 rs2) ((a.toNat : Int) * (b.toNat : Int) / 2 ^ 32)

/-- DIV, DIVU, REM, REMU complete from every state: quotients toward zero, remainders with the dividend's sign, and the
fixed results for a zero divisor and for the overflowing signed division (R380, R385 to R389). -/
def Obligations.Division : Prop :=
  ∀ (s : State) (rd rs1 rs2 : Reg),
    let a := reg s rs1
    let b := reg s rs2
    let overflow := a = 0x80000000 ∧ b = 0xFFFFFFFF
    let gives := fun (i : Instr) (v : Word) => GoesTo (exec i s) fun t => WroteReg s t rd v (s.pc + 4)
    (b = 0 → gives (.div rd rs1 rs2) 0xFFFFFFFF ∧ gives (.divu rd rs1 rs2) 0xFFFFFFFF ∧
      gives (.rem rd rs1 rs2) a ∧ gives (.remu rd rs1 rs2) a) ∧
    (overflow → gives (.div rd rs1 rs2) 0x80000000 ∧ gives (.rem rd rs1 rs2) 0) ∧
    (b ≠ 0 → ¬overflow → gives (.div rd rs1 rs2) (BitVec.ofInt 32 (a.toInt.tdiv b.toInt)) ∧
      gives (.rem rd rs1 rs2) (BitVec.ofInt 32 (a.toInt - b.toInt * a.toInt.tdiv b.toInt))) ∧
    (b ≠ 0 → gives (.divu rd rs1 rs2) (BitVec.ofNat 32 (a.toNat / b.toNat)) ∧
      gives (.remu rd rs1 rs2) (BitVec.ofNat 32 (a.toNat % b.toNat)))

/-! ## Control transfer -/

/-- JAL, JALR, C.J, C.JAL, C.JR, C.JALR complete from every state: the link is the next address, a register target
takes the old register and loses bit 0 (R330 to R332, R406, R417, R422, R424). -/
def Obligations.Jumps : Prop :=
  ∀ (s : State) (rd rs1 : Reg) (far : BitVec 21) (off : BitVec 12),
    let gives := fun (i : Instr) (r : Reg) (len next : Word) =>
      GoesTo (exec i s) fun t => WroteReg s t r (s.pc + len) next
    let even := fun n : Nat => BitVec.ofNat 32 (n - n % 2)
    gives (.jal rd far) rd 4 (BitVec.ofInt 32 (s.pc.toNat + far.toInt)) ∧
    gives (.jalr rd rs1 off) rd 4 (even (BitVec.ofInt 32 ((reg s rs1).toNat + off.toInt)).toNat) ∧
    gives (.cJ off) 0 2 (BitVec.ofInt 32 (s.pc.toNat + off.toInt)) ∧
    gives (.cJal off) 1 2 (BitVec.ofInt 32 (s.pc.toNat + off.toInt)) ∧
    gives (.cJr rs1) 0 2 (even (reg s rs1).toNat) ∧
    gives (.cJalr rs1) 1 2 (even (reg s rs1).toNat)

/-- BEQ, BNE, BLT, BGE, BLTU, BGEU, C.BEQZ, C.BNEZ complete from every state, writing no register: the target if the
comparison holds, else the next instruction (R330, R333 to R338, R418, R419). -/
def Obligations.Branches : Prop :=
  ∀ (s : State) (rs1 rs2 : Reg) (r : CReg) (off : BitVec 13) (near : BitVec 9),
    let a := reg s rs1
    let b := reg s rs2
    let target := BitVec.ofInt 32 (s.pc.toNat + off.toInt)
    let short := BitVec.ofInt 32 (s.pc.toNat + near.toInt)
    let goes := fun (i : Instr) (next : Word) => GoesTo (exec i s) fun t => WroteReg s t 0 0 next
    goes (.beq rs1 rs2 off) (if a = b then target else s.pc + 4) ∧
    goes (.bne rs1 rs2 off) (if a = b then s.pc + 4 else target) ∧
    goes (.blt rs1 rs2 off) (if a.toInt < b.toInt then target else s.pc + 4) ∧
    goes (.bge rs1 rs2 off) (if b.toInt ≤ a.toInt then target else s.pc + 4) ∧
    goes (.bltu rs1 rs2 off) (if a.toNat < b.toNat then target else s.pc + 4) ∧
    goes (.bgeu rs1 rs2 off) (if b.toNat ≤ a.toNat then target else s.pc + 4) ∧
    goes (.cBeqz r near) (if reg s (x8 r) = 0 then short else s.pc + 2) ∧
    goes (.cBnez r near) (if reg s (x8 r) = 0 then s.pc + 2 else short)

/-! ## Loads and stores -/

/-- LB, LH, LW, LBU, LHU, C.LW and C.LWSP complete on DCCM addresses, aligned or not, whose words are sound. Undisturbed,
the value is the little-endian bytes, extended, and nothing but rd changes; between the pieces of a misaligned load other
agents may act, and some value results (R161, R175, R184, R185, R210, R350 to R355, R402, R421). -/
def Obligations.DccmLoads : Prop :=
  ∀ (s : State) (i : Instr) (l : LoadForm), loadForm s i = some l → WhollyInDccm s l.addr l.size →
    (∀ w ∈ wordsOf l.addr.toNat l.size, checkWord s w = .sound) →
    (Undisturbed s l.addr l.size →
      GoesTo (exec i s) fun t => WroteReg s t l.rd (loadedValue (memByte s) l) (s.pc + l.length)) ∧
    GoesTo (exec i s) fun t => ∃ (u : State) (v : Word),
      AccessFrame s u ∧ WroteReg u t l.rd v (s.pc + l.length)

/-- A DCCM load whose words have errors. An uncorrectable one, or an uninitialised word that reports one, is exception 5
with the effective address. Otherwise an undisturbed load, within one word or over two, completes with what the checked
bytes give, and every correctable word of it is written back and counted once (R185, R188, R221 to R223). -/
def Obligations.DccmLoadErrors : Prop :=
  ∀ (s : State) (i : Instr) (l : LoadForm), loadForm s i = some l → WhollyInDccm s l.addr l.size →
    let words := wordsOf l.addr.toNat l.size
    (anyFailed s words = true → GoesTo (exec i s) fun t => Trapped s t 5 l.addr (exceptionTarget s)) ∧
    (anyFailed s words = false → Undisturbed s l.addr l.size →
      let bad := correctedWords s words
      let u := { s with
        ecc := soundAt bad s.ecc, csr := { s.csr with mdccmect := countErrors bad.length s.csr.mdccmect } }
      GoesTo (exec i s) fun t =>
        WroteReg u t l.rd (loadedValue (checkedByte s (memByte s)) l) (s.pc + l.length))

/-- SB, SH, SW, C.SW and C.SWSP complete on DCCM addresses when an aligned word is stored or no word they read fails; else they
take exception 7 with the effective address, and write nothing. Undisturbed, exactly the stored bytes change, little-endian; but a word that is read, modified and written while it has an
error nobody checks keeps its spoilt bytes under fresh check bits, which is log 6's reading. The check bits: an aligned word is
sound afterwards, whatever it was, and nothing is counted; of the words that are read and written each correctable one is corrected,
sound afterwards, and counted once; an uninitialised one that reports no error stays so, log 6's reading too; those of every other word stay
(R161, R184, R185, R188, R210, R221 to R223, R350, R356 to R358, R403, R427, R523). -/
def Obligations.DccmStores : Prop :=
  ∀ (s : State) (i : Instr) (d : StoreForm), storeForm s i = some d → WhollyInDccm s d.addr d.size →
    let whole := wholeWord d.addr d.size
    let words := wordsOf d.addr.toNat d.size
    let writes := whole = true ∨ anyFailed s words = false
    let renewed := words.filter fun w => whole || checkWord s w == .corrected || checkWord s w == .spoilt
    let corrected := if whole then [] else correctedWords s words
    (¬writes → GoesTo (exec i s) fun t => Trapped s t 7 d.addr (exceptionTarget s)) ∧
    (writes → Undisturbed s d.addr d.size →
      GoesTo (exec i s) fun t =>
        (∀ b, memByte t b =
          if d.addr.toNat ≤ b ∧ b < d.addr.toNat + d.size then
            BitVec.ofNat 8 (d.value.toNat / 256 ^ (b - d.addr.toNat))
          else if whole = false ∧ b / 4 ∈ words ∧ checkWord s (b / 4) = .spoilt then
            Config.corruptedByte s.stepNo b
          else memByte s b) ∧
        (∀ r, reg t r = reg s r) ∧
        t.pc = s.pc + d.length ∧ t.counters.minstret = s.counters.minstret + 1 ∧
        t = { s with
          mem := t.mem, ecc := soundAt renewed s.ecc, unfenced := t.unfenced, unfencedEcc := t.unfencedEcc, pc := t.pc
          csr := { s.csr with mdccmect := countErrors corrected.length s.csr.mdccmect }
          counters := { s.counters with minstret := t.counters.minstret, hpm := t.counters.hpm } }) ∧
    (writes → GoesTo (exec i s) fun t => ∃ u : State, AccessFrame s u ∧ Retires u u t (s.pc + d.length))

/-- A load from the bus whose bytes are all in the write buffer, in idempotent stores, gets them from there: no
transaction, nothing but rd changes (R204 case 1). -/
def Obligations.BusLoadsForward : Prop :=
  ∀ (s : State) (i : Instr) (l : LoadForm), loadForm s i = some l → BusAccess s l.addr l.size →
    sideEffectBit s.cfg (mracNow s) l.addr = false →
    (∀ k < l.size, ∃ st, bufferedStore s.wb (l.addr.toNat + k) = some st ∧ st.sideEffect = false) →
    GoesTo (exec i s) fun t => WroteReg s t l.rd (loadedValue (dataByte s) l) (s.pc + l.length)

/-- An undisturbed load from SoC memory, with no error in the double-words it reads, completes with the bytes as the hart sees them,
those of buffered stores included. If it has side effects, or the buffer holds it in part, the buffered stores are performed
before it and nothing is buffered after it. Else, if `mfdc.sepd` makes it wait for side-effect stores (log 38), it passes the stores
behind the last of them, which stay buffered, and memory and buffer together read as before; else both stay as they are. An idempotent one with nothing buffered and room on the bus leaves a transaction outstanding for each of its pieces, one when it
is aligned, or none while loads block. How a misaligned one is cut is the model's choice (log 41)
(R184, R186, R187, R203, R204, R206, R207, R208, R213). -/
def Obligations.BusLoadsFromMemory : Prop :=
  ∀ (s : State) (i : Instr) (l : LoadForm), loadForm s i = some l → BusAccess s l.addr l.size →
    Undisturbed s l.addr l.size →
    (∀ b : Word, b.toNat / 8 = l.addr.toNat / 8 ∨ b.toNat / 8 = (lastByte l.addr l.size).toNat / 8 →
      busKind s.cfg b = .memory ∧ readFails s b = false) →
    let sideEffect := sideEffectBit s.cfg (mracNow s) l.addr
    let value := loadedValue (dataByte s) l
    let overlaps := overlapsBuffer s.wb l.addr.toNat l.size
    let emptied := sideEffect = true ∨ (forwards s.wb l.addr.toNat l.size = false ∧ overlaps = true)
    let waits := sideEffect = false ∧ overlaps = false ∧ sideEffectStoresBlock s = true ∧ s.wb.any (·.sideEffect) = true
    (GoesTo (exec i s) fun t => ∃ u : State, AccessFrame s u ∧
      (emptied → u.wb = [] ∧ StoresPerformed s u ∧ OtherMemoryKept s u) ∧
      (waits → u.wb = youngerStores s.wb ∧ SameMemory s u) ∧
      (¬emptied → ¬waits → u.wb = s.wb ∧ ∀ b, memByte u b = memByte s b) ∧
      WroteReg u t l.rd value (s.pc + l.length)) ∧
    (sideEffect = false → s.wb = [] → s.responses.length < 253 →
      GoesTo (exec i s) fun t => ∃ u : State,
        u = { s with responses := u.responses, deviceTrace := u.deviceTrace } ∧
        (if blockingLoad s false then u.responses = s.responses
          else if l.addr.toNat % l.size = 0 then u.responses = s.responses ++ [⟨l.addr, l.size, true, false, false⟩]
          else u.responses = s.responses ++ (cutAccess false l.addr.toNat l.size).map fun p =>
            ⟨l.addr + BitVec.ofNat 32 p.1, p.2, true, false, true⟩) ∧
        WroteReg u t l.rd value (s.pc + l.length))

/-- Every load from the bus either completes, writing rd and changing no other register, or, only if it blocks, takes
exception 5 with the effective address; a side-effect load leaves the write buffer empty; beside that only what an access may change
changes, and, undisturbed, memory stays as the hart sees it. An undisturbed one of which the SoC answers
a byte with an error, with nothing buffered and room on the bus, takes that exception if it blocks; else it retires with any value
in rd and leaves an outstanding load that will report the error. Which transactions a misaligned one makes is log 41's choice. At
an address of an ICCM in a region of its own the side-effect bit is ignored, as R102 says and R176 does not, so that the load does
not block there unless `mfdc.ldnbd` makes it: log 45's reading (R102, R203, R204, R213, R506). -/
def Obligations.BusLoadsCompleteOrTrap : Prop :=
  ∀ (s : State) (i : Instr) (l : LoadForm), loadForm s i = some l → BusAccess s l.addr l.size →
    let blocking := blockingLoad s (sideEffectBit s.cfg (mracNow s) l.addr)
    let drained := fun u : State => sideEffectBit s.cfg (mracNow s) l.addr = true → u.wb = []
    ∃ u t : State, exec i s = .next t ∧ AccessFrame s u ∧ (Undisturbed s l.addr l.size → SameMemory s u) ∧ drained u ∧
      ((∃ v, WroteReg u t l.rd v (s.pc + l.length)) ∨
        (blocking = true ∧ Trapped u t 5 l.addr (exceptionTarget s))) ∧
      (Undisturbed s l.addr l.size → s.wb = [] → s.responses.length < 253 →
        (∃ k < l.size, readFails s (l.addr + BitVec.ofNat 32 k) = true) →
        if blocking then u = { s with deviceTrace := u.deviceTrace } ∧ Trapped u t 5 l.addr (exceptionTarget s)
        else ∃ v new, WroteReg u t l.rd v (s.pc + l.length) ∧
          u = { s with responses := s.responses ++ new, deviceTrace := u.deviceTrace } ∧
          (∀ r ∈ new, r.isLoad = true) ∧ (∃ r ∈ new, r.isError = true) ∧
          (l.addr.toNat % l.size = 0 → new = [⟨l.addr, l.size, true, true, false⟩]))

/-- SB, SH, SW, C.SW and C.SWSP complete on the bus: the store, or the pieces of a misaligned one (log 41), joins the write
buffer, coalesced only when idempotent, allowed by `mfdc` and on AXI4 (log 7); the hart's own loads see exactly its bytes, memory itself does
not change yet. At an address of an ICCM in a region of its own the side-effect bit is ignored, as R102 says and R176 does not,
so that a misaligned store completes there and takes no exception 6: log 45's reading
(R102, R184, R186, R187, R201, R204, R350, R356 to R358, R403, R427). -/
def Obligations.BusStores : Prop :=
  ∀ (s : State) (i : Instr) (d : StoreForm), storeForm s i = some d → BusAccess s d.addr d.size →
    let se := sideEffectBit s.cfg (mracNow s) d.addr
    GoesTo (exec i s) fun t => ∃ js : List BusStore,
      js.map (fun st => { st with joined := false }) = storePieces (storesBytes s) d.addr d.size d.value se ∧
      (d.addr.toNat % d.size = 0 → ∃ b, js = [⟨d.addr, d.size, d.value, se, false, b⟩]) ∧
      (∀ st ∈ js, st.joined = true →
        st.sideEffect = false ∧ (mfdcNow s).getLsbD 2 = false ∧ s.cfg.busType = .axi4) ∧
      Retires s { s with wb := s.wb ++ js } t (s.pc + d.length) ∧
      (∀ b, memByte t b = memByte s b) ∧
      ∀ b, dataByte t b =
        if d.addr.toNat ≤ b ∧ b < d.addr.toNat + d.size then
          BitVec.ofNat 8 (d.value.toNat / 256 ^ (b - d.addr.toNat))
        else dataByte s b

/-- LW, C.LW, C.LWSP and SW, C.SW, C.SWSP complete on aligned words of the PIC range, reading or issuing a register
access at the offset in the block and changing no byte of memory (R180, R600, R602). -/
def Obligations.PicAccesses : Prop :=
  (∀ (s : State) (i : Instr) (l : LoadForm), loadForm s i = some l → PicWord s l.addr l.size →
    GoesTo (exec i s) fun t =>
      WroteReg s t l.rd (loadPic s (l.addr.toNat - picBase s.cfg)) (s.pc + l.length)) ∧
  (∀ (s : State) (i : Instr) (d : StoreForm), storeForm s i = some d → PicWord s d.addr d.size →
    GoesTo (exec i s) fun t =>
      Retires s (issuePicStore s (d.addr.toNat - picBase s.cfg) d.value) t (s.pc + d.length) ∧
      ∀ b, memByte t b = memByte s b)

/-- Every load and store form traps as the table of R189 says: region cross or misaligned side effect (4, 6) before
everything else; then, in a region with DCCM or PIC, an access not wholly in either, or in the PIC range but no aligned
word (5, 7); elsewhere an access no data window allows (5, 7). `mtval` is the effective address. At an address of an ICCM in a region
of its own the side-effect bit is ignored, as R102 says and R176 does not, so that a misaligned access there is no 4 or 6, and one no
data window allows is 5 or 7 even so: log 45's reading (R102, R175, R177 to R182, R505 to R508, R523). -/
def Obligations.AccessChecksTrap : Prop :=
  ∀ (s : State) (i : Instr) (a : Word) (n : Nat) (load : Bool),
    ((∃ l, loadForm s i = some l ∧ l.addr = a ∧ l.size = n ∧ load = true) ∨
      (∃ d, storeForm s i = some d ∧ d.addr = a ∧ d.size = n ∧ load = false)) →
    let traps := fun code : Word => GoesTo (exec i s) fun t => Trapped s t code a (exceptionTarget s)
    let last := lastByte a n
    let se := sideEffectBit s.cfg (mracNow s) a
    let inOne := (inDccm s.cfg a = true ∧ inDccm s.cfg last = true) ∨
      (inPic s.cfg a = true ∧ inPic s.cfg last = true ∧ n = 4 ∧ a.toNat % 4 = 0)
    (region a ≠ region last → traps (if load then 4 else 6)) ∧
    (region a = region last → dataLocalRegion s.cfg a = false → se = true → a.toNat % n ≠ 0 →
      traps (if load then 4 else 6)) ∧
    (region a = region last → dataLocalRegion s.cfg a = true → ¬inOne → traps (if load then 5 else 7)) ∧
    (region a = region last → dataLocalRegion s.cfg a = false → (se = true → a.toNat % n = 0) →
      ¬(windowsAllow s.cfg.dataWindows a = true ∧ windowsAllow s.cfg.dataWindows last = true) →
      traps (if load then 5 else 7))

/-! ## Traps, fences, return -/

/-- ECALL always takes exception 11; that `mtval` is 0 and what the entry saves are the decisions D4, D5
(R371, R509, R520, R523). -/
def Obligations.EcallTraps : Prop :=
  ∀ s : State, GoesTo (exec .ecall s) fun t => Trapped s t 11 0 (exceptionTarget s)

/-- EBREAK and C.EBREAK take exception 3 with their own address in `mtval`, or enter Debug Mode when `dcsr.ebreakm` is
1: the bus drained, the buffered stores performed and no other byte changed, `dpc` the address, cause 1 and the breakpoint indication raised, and no machine-mode CSR but `mdseac`
(an error of the drain) and no register changed. In a single step, which R645 ranks above a breakpoint, the cause is 4. The
model's choices: that bit 15 of `dcsr` is ebreakm (log 4), that the debugger holds the hart then (log 24), that the instruction
does not retire, and that a stepped one raises no indication (log 36) (R372, R425, R476, R504, R523, R645, R649, R656,
R663). -/
def Obligations.EbreakTrapsOrHalts : Prop :=
  ∀ (s : State) (i : Instr), i = .ebreak ∨ i = .cEbreak →
    (s.csr.dcsr.getLsbD 15 = false →
      GoesTo (exec i s) fun t => Trapped s t 3 s.pc (exceptionTarget s)) ∧
    (s.csr.dcsr.getLsbD 15 = true →
      GoesTo (exec i s) fun t =>
        t.activity = .dbHalt ∧ t.dbgHaltState = true ∧ t.wb = [] ∧ t.responses = [] ∧
        StoresPerformed s t ∧ OtherMemoryKept s t ∧
        (if s.stepping then t.csr.dcsr.extractLsb' 6 3 = 4#3 ∧ t.brkptStatus = s.brkptStatus
          else t.csr.dcsr.extractLsb' 6 3 = 1#3 ∧ t.brkptStatus = true) ∧
        t.pc = s.pc ∧ (∀ r, reg t r = reg s r) ∧
        t.counters.minstret = s.counters.minstret ∧
        t.csr = { s.csr with dpc := s.pc, dcsr := t.csr.dcsr, mdseac := t.csr.mdseac })

/-- MRET: MIE takes MPIE, MPIE becomes 1, MPP stays 3, the pc becomes `mepc`; it retires, and nothing else changes; the
layout is the decision D4 (R471, R525). -/
def Obligations.MretReturns : Prop :=
  ∀ s : State, GoesTo (exec .mret s) fun t =>
    t.csr.mstatus.getLsbD 3 = s.csr.mstatus.getLsbD 7 ∧ t.csr.mstatus.getLsbD 7 = true ∧
    t.csr.mstatus &&& 0xFFFFFF77 = 0x1800 ∧
    Retires s { s with csr := { s.csr with mstatus := t.csr.mstatus } } t s.csr.mepc ∧
    ∀ b, dataByte t b = dataByte s b

/-- FENCE, whatever its arguments, completes with the write buffer empty, every transaction answered, every PIC store in
effect and `mrac` in effect for data; it writes no register. SoC memory without error marks holds what the hart's own loads saw before it: the buffered
stores have been performed, in program order; no other byte of memory has changed. Every error of an outstanding transaction or of a buffered store the
SoC rejects is reported before it completes: with `mdseac` unlocked it locks it and requests an NMI, a store's if only stores
failed and a load's if only outstanding loads did, with an address of one that failed; with `mdseac` locked it leaves capture and
request alone. That any byte of a split or coalesced transaction may be captured is log 8
(R201, R202, R204, R206, R207, R214, R215, R370, R721, R722). -/
def Obligations.FenceDrains : Prop :=
  ∀ (s : State) (fm pred succ : BitVec 4) (rs1 rd : Reg), GoesTo (exec (.fence fm pred succ rs1 rd) s) fun t =>
    Fenced s t ∧ t.pc = s.pc + 4 ∧ (∀ r, reg t r = reg s r) ∧ t.counters.minstret = s.counters.minstret + 1 ∧
    t.csr = { s.csr with mdseac := t.csr.mdseac } ∧
    let failed := ∃ r ∈ s.responses, r.isError = true
    (s.mdseacLocked = true → t.mdseacLocked = true ∧ t.csr = s.csr ∧ t.dbusErr = s.dbusErr) ∧
    (s.wb = [] → ¬failed → t.mdseacLocked = s.mdseacLocked ∧ t.csr = s.csr ∧ t.dbusErr = s.dbusErr) ∧
    (s.mdseacLocked = false → failed ∨ (∃ st ∈ s.wb, SocRejects s st) →
      t.mdseacLocked = true ∧ t.dbusErr.isSome = true ∧
      ((∀ r ∈ s.responses, r.isLoad = true → r.isError = false) → t.dbusErr = some .store)) ∧
    (s.mdseacLocked = false → s.wb = [] → failed →
      ((∀ r ∈ s.responses, r.isError = true → r.isLoad = true) → t.dbusErr = some .load) ∧
      ((∀ r ∈ s.responses, 0 < r.size) →
        ∃ r ∈ s.responses, r.isError = true ∧ ∃ k < r.size, t.csr.mdseac = r.addr + BitVec.ofNat 32 k))

/-- FENCE.I does what FENCE does, the buffered stores performed, no other byte of memory changed, and the PIC stores in effect, and the fetch side then sees
every byte as memory holds it, with the `mrac` and `mfdc` of now and no I-cache line held: a parcel fetched from SoC memory, and
another after it, is what memory holds, whether their lines are cached and whatever a debugger wrote to the I-cache before. The
fence is no longer due after an `mfdc`
write, and the next instruction may be one (log 16) (R191, R206, R207, R440, R721, R722, R723). -/
def Obligations.FenceISynchronises : Prop :=
  ∀ (s : State) (imm : BitVec 12) (rs1 rd : Reg), GoesTo (exec (.fenceI imm rs1 rd) s) fun t =>
    Fenced s t ∧ FetchFenced s t ∧
    (∀ p q, SocParcel t p → SocParcel t q → t.cfg.icacheKb ∈ [16, 32, 64, 128, 256] →
      ∃ u v, fetchParcel t p = .parcel (parcelAt (memByte t) p) u ∧
        fetchParcel u q = .parcel (parcelAt (memByte t) q) v) ∧
    t.pc ∈ t.fenced ∧
    t.fencesDue = s.fencesDue.erase s.pc ∧ t.pc = s.pc + 4 ∧ (∀ r, reg t r = reg s r) ∧
    t.counters.minstret = s.counters.minstret + 1 ∧ t.csr = { s.csr with mdseac := t.csr.mdseac }

/-- A write of `dmst` in Debug Mode, by the debugger or by an instruction of a single step: a 1 in `fence` does what FENCE does, a
1 in `fence_i` what FENCE.I does, FENCE included; a 0 does nothing, and without `fence_i` the fetch side stays as it is; it reads 0.
No register changes but `rd`, and no CSR but `mdseac` (an error of the drain). That a debugger writes CSRs by a command, and that a
single step is Debug Mode, is log 24 (R61, R103, R191, R206, R370, R440). -/
def Obligations.DmstFences : Prop :=
  ∀ (s : State) (v : Word),
    let leaves := fun u t : State =>
      t.regs = u.regs ∧ t.pc = u.pc ∧ t.counters = u.counters ∧ t.csr = { u.csr with mdseac := t.csr.mdseac } ∧
      t.activity = u.activity ∧ t.stepping = u.stepping ∧
      (v.getLsbD 0 = false → v.getLsbD 1 = false → t = u) ∧
      (v.getLsbD 0 = true ∨ v.getLsbD 1 = true → Fenced u t) ∧
      (v.getLsbD 0 = true → FetchFenced u t) ∧
      (v.getLsbD 0 = false → t.icache = u.icache ∧ t.mracFetch = u.mracFetch ∧ t.mfdcOld = u.mfdcOld)
    (∀ rest : List HostEvent, s.activity = .dbHalt → s.dbgHaltState = true →
      (s.inputs = .debugWriteCsr 0x7C4 v :: rest →
        GoesTo (step s) (leaves { s with inputs := rest, stepNo := s.stepNo + 1 })) ∧
      (s.inputs = .debugReadCsr 0x7C4 :: rest →
        step s = .next { s with inputs := rest, stepNo := s.stepNo + 1, dbgData := 0 })) ∧
    ∀ (i : Instr) (f : CsrForm), csrForm s i = some f → f.csr = 0x7C4 → debugMode s = true →
      (f.writes = true → f.value 0 = v → GoesTo (exec i s) fun t => ∃ u, WroteReg s u f.rd 0 (s.pc + 4) ∧ leaves u t) ∧
      (f.writes = false → GoesTo (exec i s) fun t => WroteReg s t f.rd 0 (s.pc + 4))

/-! ## CSRs -/

/-- The six Zicsr instructions complete on every CSR the access check allows: rd takes the old value, of a counter the one
before the instruction's own contribution (log 12), other registers keep theirs, pc + 4 (R445 to R452, R672). -/
def Obligations.CsrInstructionsComplete : Prop :=
  ∀ (s : State) (i : Instr) (f : CsrForm) (c : Csr), csrForm s i = some f →
    csrCheck s f.csr f.writes = .allowed c →
    GoesTo (exec i s) fun t =>
      (f.rd ≠ 0 → reg t f.rd = csrRead (beforeStep s) c) ∧ (∀ r, r ≠ f.rd → reg t r = reg s r) ∧ reg t 0 = 0 ∧
      t.pc = s.pc + 4

/-- A write to a plain CSR stores the value made legal and changes nothing else; without a write every CSR keeps its
value. A write of `mfdc` needs a FENCE.I immediately before it, and one immediately after it is then due; without the one
before it is refused, the spec's decision D32 (log 16) (R38, R42, R44 to R49, R101, R106, R110, R116, R117, R120, R445 to R451, R723). -/
def Obligations.PlainCsrsStoreLegalValues : Prop :=
  ∀ (s : State) (i : Instr) (f : CsrForm) (e : PlainCsr), csrForm s i = some f → e ∈ plainCsrs →
    f.csr = e.number →
    let feature := f.csr = 0x7F9 ∧ f.writes = true ∧ s.activity ≠ .dbHalt
    let u := if feature then
      { s with fenced := s.fenced.erase s.pc, fencesDue := (s.pc + 4) :: s.fencesDue.erase (s.pc + 4) } else s
    if feature ∧ s.pc ∉ s.fenced then exec i s = .refused .mfdcFence
    else GoesTo (exec i s) fun t =>
      WroteCsr u t f.rd (e.read s.csr) (if f.writes then e.write s.csr (f.value (e.read s.csr)) else s.csr)

/-- `misa` reads 0x40001104 and ignores writes; the identification registers read their constants (R43, R51). -/
def Obligations.ConstantCsrs : Prop :=
  ∀ (s : State) (i : Instr) (f : CsrForm), csrForm s i = some f →
    let reads := fun v : Word => GoesTo (exec i s) fun t => WroteReg s t f.rd v (s.pc + 4)
    (f.csr = 0x301 → reads 0x40001104) ∧
    (f.writes = false → (f.csr = 0xF11 → reads 0x45) ∧ (f.csr = 0xF12 → reads 0xB) ∧
      (f.csr = 0xF13 → reads 1) ∧ (f.csr = 0xF14 → reads 0))

/-- `mip` shows the three sources and no other bit, and ignores writes: a correctable-error counter at its threshold
(bit 30; a level, decision D29), an external request above both thresholds (bit 11), `timer_int` as the hart sees it (bit 7)
(R50, R107, R540 to R542, R590). -/
def Obligations.MipShowsItsSources : Prop :=
  ∀ s : State,
    let reached := fun v : Word => (v.extractLsb' 0 27).getLsbD (v.extractLsb' 27 5).toNat
    let m := csrRead s .mip
    m.getLsbD 30 = (reached s.csr.micect || reached s.csr.miccmect || reached s.csr.mdccmect) ∧
    m.getLsbD 11 = decide (max s.csr.ithresh.toNat s.csr.icur.toNat <
      (picWinner s.cfg (picNow s 5)).1.toNat) ∧
    m.getLsbD 7 = s.seen.timerInt ∧
    (∀ k, k ≠ 7 → k ≠ 11 → k ≠ 30 → m.getLsbD k = false) ∧
    ∀ (i : Instr) (f : CsrForm), csrForm s i = some f → f.csr = 0x344 →
      GoesTo (exec i s) fun t => WroteReg s t f.rd m (s.pc + 4)

/-- A CSR instruction that writes half a counter leaves the written value there, not the value plus its own contribution; the
other half keeps what it was, with the instruction itself counted in `minstret` and at most once in an event counter, so that a
carry of its own count reaches the half that is not written: R672 has the counter incremented before the write, where R445 lets
nothing come between read and write, and log 52 follows R672; the
hardwired counters and selectors stay 0; a selector keeps at most 50 (R52 to R57, R445, R454, R672). -/
def Obligations.CounterWrites : Prop :=
  ∀ (s : State) (i : Instr) (f : CsrForm) (n : BitVec 5), csrForm s i = some f → f.writes = true →
    let goes := fun P : State → Prop => GoesTo (exec i s) P
    let old := fun c : Csr => f.value (csrRead (beforeStep s) c)
    let is := fun first : Nat => f.csr = BitVec.ofNat 12 (first + n.toNat)
    let high := fun v : BitVec 64 => v.extractLsb' 32 32
    let low := fun v : BitVec 64 => v.extractLsb' 0 32
    (f.csr = 0xB00 → goes fun t => mcycleNow t = high (mcycleNow s) ++ old .mcycle) ∧
    (f.csr = 0xB80 → goes fun t => mcycleNow t = old .mcycleh ++ low (mcycleNow s)) ∧
    (f.csr = 0xB02 → goes fun t => t.counters.minstret = high (s.counters.minstret + 1) ++ old .minstret) ∧
    (f.csr = 0xB82 → goes fun t => t.counters.minstret = old .minstreth ++ low (s.counters.minstret + 1)) ∧
    (3 ≤ n.toNat → n.toNat ≤ 6 →
      let own := s.counters.hpm.get (bankIndex n)
      (is 0xB00 → goes fun t => ∃ d ≤ 1#64,
        t.counters.hpm.get (bankIndex n) = high (own + d) ++ old (.mhpmcounter n)) ∧
      (is 0xB80 → goes fun t => ∃ d ≤ 1#64,
        t.counters.hpm.get (bankIndex n) = old (.mhpmcounterh n) ++ low (own + d)) ∧
      (is 0x320 → goes fun t =>
        csrRead t (.mhpmevent n) = BitVec.ofNat 32 (min (old (.mhpmevent n)).toNat 50))) ∧
    (7 ≤ n.toNat → is 0xB00 ∨ is 0xB80 ∨ is 0x320 → goes fun t => WroteReg s t f.rd 0 (s.pc + 4))

/-- A Zicsr instruction takes exception 2, with its own bits in `mtval`, when its CSR does not exist, that is, when its
number is outside the table of R39 and no trigger CSR's; when it writes a read-only one; and when the CSR is for Debug Mode
and the hart is not in it. An access to a trigger CSR is refused, whichever Zicsr instruction makes it: the spec's decision
D16 (R39 to R41, R60, R452, R502, R523). -/
def Obligations.IllegalCsrAccessesTrap : Prop :=
  ∀ (s : State) (i : Instr) (f : CsrForm), csrForm s i = some f →
    let traps := GoesTo (exec i s) fun t => Trapped s t 2 i.code.bits (exceptionTarget s)
    (¬CsrExists f.csr.toNat → ¬(0x7A0 ≤ f.csr.toNat ∧ f.csr.toNat ≤ 0x7A3) → traps) ∧
    (f.csr ∈ [0xF11, 0xF12, 0xF13, 0xF14, 0xFC0, 0xFC8] → f.writes = true → traps) ∧
    (f.csr ∈ [0x7B0, 0x7B1, 0x7B2, 0x7B3, 0x7C4, 0x7C8, 0x7C9, 0x7CA, 0x7CB] → debugMode s = false → traps) ∧
    (f.csr ∈ [0x7A0, 0x7A1, 0x7A2, 0x7A3] → exec i s = .refused .triggerCsr)

/-- Writing 1 to `mpmc.halt` outside Debug Mode halts the hart with the bus drained, its buffered stores performed, the CSR
instruction retired and `rd` 0, no CSR changed but `mdseac` (an error of the drain); in Debug Mode, or writing 0, or not
writing, it does nothing but write `rd` and retire. R644 does not state when the halt takes effect: that it does with the
instruction itself is the spec's decision D14, which log 15 follows. While the hart sees a halt request of the MPC, which goes
first, it does not enter pmu/fw-halt: at the next boundary, if it still sees that request and no run request, it is in db-halt
instead, the model's choice (log 15) (R108, R642, R644, R645, R649, R663). -/
def Obligations.FirmwareHalts : Prop :=
  ∀ (s : State) (i : Instr) (f : CsrForm), csrForm s i = some f → f.csr = 0x7C6 →
    GoesTo (exec i s) fun t =>
      if f.writes = true ∧ (f.value 0).getLsbD 0 = true ∧ debugMode s = false then
        (if s.seen.mpcHaltReq = true then
          t.activity = s.activity ∧
          ((boundary t).seen.mpcHaltReq = true → (boundary t).seen.mpcRunReq = false →
            (atBoundary t).activity = .dbHalt ∧ (atBoundary t).csr.dpc = t.pc)
        else t.activity = .pmuFwHalt ∧ cpuHaltStatus t = true) ∧ t.wb = [] ∧ t.responses = [] ∧
        (f.rd ≠ 0 → reg t f.rd = 0) ∧ (∀ r, r ≠ f.rd → reg t r = reg s r) ∧ t.pc = s.pc + 4 ∧
        t.counters.minstret = s.counters.minstret + 1 ∧ t.csr = { s.csr with mdseac := t.csr.mdseac } ∧
        StoresPerformed s t ∧ OtherMemoryKept s t
      else WroteReg s t f.rd 0 (s.pc + 4)

/-- The claim: any write to `meicpct` captures the winner's ID and priority, which `meicidpl` then reads in the order in
effect, and changes nothing else; it reads 0. Which priority CSRs read as anything until written is a field of the
model's own (log 17) (R122, R123, R581, R593). -/
def Obligations.ClaimCapturesTheWinner : Prop :=
  ∀ (s : State) (i : Instr) (f : CsrForm), csrForm s i = some f → f.csr = 0xBCA →
    let w := picWinner s.cfg (picNow s 2)
    GoesTo (exec i s) fun t =>
      WroteCsr s t f.rd 0
        (if f.writes then { s.csr with claimid := w.2, iclid := w.1, priDoubt := t.csr.priDoubt } else s.csr) ∧
      (f.writes = true → csrRead t .meicidpl = (w.1 ^^^ orderMask (picNow s 4).priord).setWidth 32)

/-- The priority CSRs read back the low four bits written, in either priority order; `meihap` shows the vector base and
the claim ID (R120, R121, R123 to R125, R581). -/
def Obligations.PriorityCsrsReadBack : Prop :=
  ∀ (s : State) (i : Instr) (f : CsrForm), csrForm s i = some f → f.writes = true →
    let new := fun c : Csr => (f.value (csrRead s c)).toNat
    let reads := fun (c : Csr) (v : Nat) => GoesTo (exec i s) fun t => csrRead t c = BitVec.ofNat 32 v
    (f.csr = 0xBC9 → reads .meipt (new .meipt % 16)) ∧
    (f.csr = 0xBCB → reads .meicidpl (new .meicidpl % 16)) ∧
    (f.csr = 0xBCC → reads .meicurpl (new .meicurpl % 16)) ∧
    (f.csr = 0xBC8 → reads .meihap (new .meivt / 1024 * 1024 + s.csr.claimid.toNat * 4))

/-! ## Interrupts and NMIs -/

/-- Which interrupt is taken when several are pending and enabled: external, then correctable error, then timer; none
while `mstatus.MIE` is 0, while the hart does not run (db-halt, pmu/fw-halt), or in a single step unless `dcsr.stepie` lets it
through, whose place and meaning are the model's (logs 4, 24) (R530, R531, R665). -/
def Obligations.InterruptPriority : Prop :=
  ∀ s : State,
    let ext := s.csr.mie.getLsbD 11 && externalPending s 0
    let err := s.csr.mie.getLsbD 30 && correctablePending s
    let tim := s.csr.mie.getLsbD 7 && s.seen.timerInt
    let held := s.stepping = true ∧ s.csr.dcsr.getLsbD 11 = false
    ((s.csr.mstatus.getLsbD 3 = false ∨ s.activity ≠ .running ∨ held) → takeableInterrupt s = none) ∧
    (s.csr.mstatus.getLsbD 3 = true → s.activity = .running → ¬held →
      takeableInterrupt s = if ext then some 11 else if err then some 30 else if tim then some 7 else none)

/-- At a boundary where an interrupt is takeable and waits no longer the step enters the trap: cause 0x80000000 with the code,
`mtval` 0, the base of `mtvec`, or base plus four times the code in Vectored mode; the pc saved is that of the next
instruction; PAUSE ends. While it waits, as R530 lets it, the hart goes on and the wait gets shorter, so that it is finite
(logs 11, 43). That a hart that pauses goes on pausing then is the model's choice (log 14) (R520 to R523, R530, R652). -/
def Obligations.InterruptIsTaken : Prop :=
  ∀ (s u : State) (code : Word), s.inputs = [] → atBoundary s = u → u.activity = .running →
    u.seen.cpuHaltReq = false → u.nmiPending = false → u.dbusErr = none → takeableInterrupt u = some code →
    let delay := u.waits.interrupt.getD (Config.interruptDelay u.stepNo)
    let waiting := fun w : Option Nat =>
      { u with waits := { u.waits with pmuHalt := none, nmi := none, interrupt := w } }
    (delay = 0 → GoesTo (step s) fun t =>
      Trapped { waiting none with pauseCount := 0 } t (0x80000000 ||| code) 0
        (if u.csr.mtvec.getLsbD 0 then exceptionTarget u + 4 * code else exceptionTarget u)) ∧
    ∀ n, delay = n + 1 → step s = goesOn (waiting (some n))

/-- At a boundary with an NMI request that waits no longer the step enters the trap at `nmi_vec` whatever the mode of `mtvec`,
with the cause of the request it clears: 0 for the pin, 0xF0000000 for a store error, 0xF0000001 for a load error; it needs
no interrupt enable, and an interrupt does not come before it. While it waits, as R552 lets it, the hart goes on and the wait
gets shorter (logs 10, 43). In a single step it waits for the end of the step, and no interrupt comes before it there either
(log 10). That an NMI ends PAUSE, and that a hart that pauses goes on pausing while it waits, is the model's
choice (log 14) (R500, R521, R523, R531, R550 to R552). -/
def Obligations.NmiIsTaken : Prop :=
  ∀ (s u : State), s.inputs = [] → atBoundary s = u → u.activity = .running → u.seen.cpuHaltReq = false →
    let delay := u.waits.nmi.getD (Config.nmiDelay u.stepNo)
    let waiting := fun w : Option Nat => { u with waits := { u.waits with pmuHalt := none, nmi := w } }
    let vector := u.pins.nmiVec ++ 0#1
    let pin := { waiting none with nmiPending := false, pauseCount := 0 }
    let bus := { waiting none with dbusErr := none, pauseCount := 0 }
    let enters := fun P : State → Prop =>
      (delay = 0 → GoesTo (step s) P) ∧ ∀ n, delay = n + 1 → step s = goesOn (waiting (some n))
    (u.stepping = false →
      (u.nmiPending = true → u.dbusErr = none → enters fun t => Trapped pin t 0 0 vector) ∧
      (u.nmiPending = false → u.dbusErr = some .store → enters fun t => Trapped bus t 0xF0000000 0 vector) ∧
      (u.nmiPending = false → u.dbusErr = some .load → enters fun t => Trapped bus t 0xF0000001 0 vector) ∧
      (u.nmiPending = true → ∀ e, u.dbusErr = some e → enters fun t =>
        Trapped pin t 0 0 vector ∨ Trapped bus t e.cause 0 vector)) ∧
    (u.stepping = true → u.nmiPending = true ∨ u.dbusErr.isSome = true → step s = goesOn (waiting none))

/-! ## The PIC -/

/-- The winner: the highest priority among the sources that take part, and the smallest ID that has it; ID 0 when that
priority is 0, which R585 derives from R573 and R580 (R584, R585). -/
def Obligations.WinnerIsHighestThenLowest : Prop :=
  ∀ (c : Build) (p : PicRegs), c.picTotalInt ≤ 255 →
    let w := picWinner c p
    (∀ n, 1 ≤ n → n ≤ c.picTotalInt → candidate p n ≤ w.1) ∧
    (w.1 = 0 → w.2 = 0) ∧
    (w.1 ≠ 0 → 1 ≤ w.2.toNat ∧ w.2.toNat ≤ c.picTotalInt ∧ candidate p w.2.toNat = w.1 ∧
      ∀ n, 1 ≤ n → n < w.2.toNat → candidate p n < w.1)

/-- What a gateway passes on: the sampled level of a source without a configurable gateway; else the level against the
polarity, or the pending bit when edge-triggered (R575, R576, R583). -/
def Obligations.GatewayRequests : Prop :=
  ∀ (c : Build) (p : PicRegs) (n : Nat), c.picTotalInt ≤ 255 →
    (validSource c n = false → (requests c p).getLsbD n = false) ∧
    (validSource c n = true → c.gatewayConfigurable.getLsbD n = false →
      (requests c p).getLsbD n = p.prev.getLsbD n) ∧
    (validSource c n = true → c.gatewayConfigurable.getLsbD n = true →
      (requests c p).getLsbD n =
        if p.gwType.getLsbD n then p.ip.getLsbD n else (p.prev.getLsbD n ^^ p.gwPol.getLsbD n))

/-- The hart reads back what it stored to a PIC register, before any fence: priority, enable, order and gateway
configuration keep their defined bits; the clear register reads 0. Each bit of `meipX` is its source's request, as the PIC acts
on its registers now. The edge latch: a sample in which the input of an edge-triggered source becomes active sets its pending
bit, any other keeps it, while no store to the gateway waits for a fence; a store to `meigwclrS`, whatever its value, and a
fence clear that bit and no other (R577, R602 to R608). -/
def Obligations.PicRegistersReadBack : Prop :=
  ∀ (s : State) (n : Nat) (v : Word), s.cfg.picTotalInt ≤ 255 → validSource s.cfg n = true →
    loadPic (issuePicStore s (4 * n) v) (4 * n) = v &&& 0xF ∧
    loadPic (issuePicStore s (0x2000 + 4 * n) v) (0x2000 + 4 * n) = v &&& 1 ∧
    loadPic (issuePicStore s 0x3000 v) 0x3000 = v &&& 1 ∧
    loadPic (issuePicStore s (0x5000 + 4 * n) v) (0x5000 + 4 * n) = 0 ∧
    (loadPic s (0x1000 + 4 * (n / 32))).getLsbD (n % 32) = (requests s.cfg (picNow s 3)).getLsbD n ∧
    (s.cfg.gatewayConfigurable.getLsbD n = true →
      loadPic (issuePicStore s (0x4000 + 4 * n) v) (0x4000 + 4 * n) = v &&& 3 ∧
      (∀ levels : BitVec 256, s.pic.gwType.getLsbD n = true → (gatewayStores s.picQueue).getLsbD n = false →
        (takeSample s levels).pic.ip.getLsbD n =
          (s.pic.ip.getLsbD n ||
            ((levels.getLsbD n ^^ s.pic.gwPol.getLsbD n) && !(s.pic.prev.getLsbD n ^^ s.pic.gwPol.getLsbD n)))) ∧
      (s.picQueue = [] →
        let t := settlePic (issuePicStore s (0x5000 + 4 * n) v)
        t.pic.ip.getLsbD n = false ∧ ∀ m, m ≠ n → t.pic.ip.getLsbD m = s.pic.ip.getLsbD m))

/-- Unused addresses of the PIC range, every reserved row of R600, every register of a source above `Smax` and the
gateway registers of a source without a configurable gateway: no exception, loads give 0, stores are dropped
(R601; from 0x8000 on the decision D31). -/
def Obligations.UnusedPicAddresses : Prop :=
  (∀ (s : State) (i : Instr) (l : LoadForm), loadForm s i = some l → PicWord s l.addr l.size →
    unusedPicOffset s.cfg (l.addr.toNat - picBase s.cfg) →
    GoesTo (exec i s) fun t => WroteReg s t l.rd 0 (s.pc + l.length)) ∧
  (∀ (s : State) (i : Instr) (d : StoreForm), storeForm s i = some d → PicWord s d.addr d.size →
    unusedPicOffset s.cfg (d.addr.toNat - picBase s.cfg) →
    GoesTo (exec i s) fun t =>
      Retires s { s with picQueue := t.picQueue } t (s.pc + d.length) ∧ picNewest t = picNewest s)

/-! ## The bus, memory and reset -/

/-- The error capture: while `mdseac` is locked nothing is recorded; else the first moment with an error locks it,
captures an address of a failing access, and requests a load-error NMI if a load failed, a store-error NMI otherwise. That
any address of a split access may be captured is the model's choice (log 8). A write to `mdeau` unlocks the capture and
does nothing else (R105, R215). -/
def Obligations.BusErrorCapture : Prop :=
  (∀ (s : State) (batch : List BusResponse), (∀ r ∈ batch, 0 < r.size) →
    (s.mdseacLocked = true → reportAnswers s batch = s) ∧
    ((∀ r ∈ batch, r.isError = false) → reportAnswers s batch = s) ∧
    (s.mdseacLocked = false → (∃ r ∈ batch, r.isError = true) →
      let t := reportAnswers s batch
      t.mdseacLocked = true ∧
      t.dbusErr = some (if batch.any (fun r => r.isError && r.isLoad) then .load else .store) ∧
      (∃ r ∈ batch, r.isError = true ∧ r.isLoad = batch.any (fun r => r.isError && r.isLoad) ∧
        ∃ k < r.size, t.csr.mdseac = r.addr + BitVec.ofNat 32 k) ∧
      t = { s with
        mdseacLocked := true, dbusErr := t.dbusErr, csr := { s.csr with mdseac := t.csr.mdseac } })) ∧
  (∀ (s : State) (i : Instr) (f : CsrForm), csrForm s i = some f → f.csr = 0xBC0 →
    GoesTo (exec i s) fun t =>
      WroteReg { s with mdseacLocked := s.mdseacLocked && !f.writes } t f.rd 0 (s.pc + 4))

/-- A DMA write of an aligned word or double-word in ICCM or DCCM is read back by DMA, and makes its words sound; it touches
no other byte and no register of the hart. A DMA access elsewhere, or a write that is no aligned word or double-word, gets an
error response and changes nothing. A DMA read of up to 8 bytes, log 31's bound, that meets an uncorrectable error gets an error response and changes
nothing, beside a correctable one too, which is log 31's choice; else it gives the checked bytes, little-endian, and every correctable word is written back sound
and counted once in the counter of its memory (R106, R192, R193, R221, R222). -/
def Obligations.DmaReadsAndWrites : Prop :=
  (∀ (s : State) (a : Word) (n : Nat) (v : BitVec 64), n = 4 ∨ n = 8 → a.toNat % n = 0 →
    (ccmOf s.cfg a n).isSome = true →
    let t := dmaWrite s a n v
    t.dmaResponse = .written ∧
    (dmaRead t a n).dmaResponse = .data (if n = 4 then (v.extractLsb' 0 32).setWidth 64 else v) ∧
    (∀ w ∈ wordsOf a.toNat n, checkWord t w = .sound) ∧
    (∀ b, b < a.toNat ∨ a.toNat + n ≤ b → memByte t b = memByte s b) ∧
    t = { s with mem := t.mem, ecc := t.ecc, stale := t.stale, dmaResponse := t.dmaResponse }) ∧
  (∀ (s : State) (a : Word) (n : Nat) (v : BitVec 64),
    (ccmOf s.cfg a n = none →
      dmaRead s a n = { s with dmaResponse := .error } ∧ dmaWrite s a n v = { s with dmaResponse := .error }) ∧
    (¬(n = 4 ∧ a.toNat % 4 = 0) → ¬(n = 8 ∧ a.toNat % 8 = 0) →
      dmaWrite s a n v = { s with dmaResponse := .error })) ∧
  (∀ (s : State) (a : Word) (n : Nat) (m : Ccm), 1 ≤ n → n ≤ 8 → ccmOf s.cfg a n = some m →
    let words := wordsOf a.toNat n
    let bad := correctedWords s words
    (anyFailed s words = true → dmaRead s a n = { s with dmaResponse := .error }) ∧
    (anyFailed s words = false →
      dmaRead s a n = { s with
        dmaResponse := .data (BitVec.ofNat 64 (littleEndianValue (checkedByte s (memByte s)) a.toNat n))
        ecc := soundAt bad s.ecc
        csr := { s.csr with
          miccmect := if m = .iccm then countErrors bad.length s.csr.miccmect else s.csr.miccmect
          mdccmect := if m = .dccm then countErrors bad.length s.csr.mdccmect else s.csr.mdccmect } }))

/-- What reset leaves: the general registers zero, the pc at the reset vector, the values R63 and R703 give the CSRs, those of
the PIC, its priority CSRs, the claim ID and the I-cache's diagnostic registers among them; every PIC register and pending bit zero, no
valid line in the I-cache, nothing pending, buffered or outstanding; the hart runs unless the MPC holds it. That bits 15 and 2 of
`dcsr` are ebreakm and step is presumed (log 4) (R62, R63, R120 to R125, R610, R659, R700, R703). -/
def Obligations.ResetValues : Prop :=
  ∀ c : Build,
    let s := State.resetWith c
    (∀ r, reg s r = 0) ∧ s.pc = c.rstVec ++ 0#1 ∧ s.csr.mstatus = 0x1800 ∧ s.csr.mie = 0 ∧ s.csr.mcause = 0 ∧
    s.csr.mrac = 0 ∧ s.csr.mdseac = 0 ∧ s.csr.mgpmc = 1 ∧ s.csr.mcgc = 0 ∧
    s.csr.micect = 0 ∧ s.csr.miccmect = 0 ∧ s.csr.mdccmect = 0 ∧
    s.csr.mfdc = (if c.busType = .axi4 then 0x00070040 else 0x00070000) ∧
    (∀ k ∈ [Csr.mip, .meivt, .meipt, .meicidpl, .meicurpl, .meihap, .dicawics, .dicad0, .dicad1], csrRead s k = 0) ∧
    s.csr.claimid = 0 ∧ s.csr.dcsr.getLsbD 15 = false ∧ s.csr.dcsr.getLsbD 2 = false ∧
    s.pic.priord = false ∧ (∀ n, s.pic.ipl.get n = 0) ∧ s.pic.inten = 0 ∧ s.pic.gwType = 0 ∧ s.pic.gwPol = 0 ∧
    s.pic.ip = 0 ∧ s.picQueue = [] ∧ (∀ k, (tagEntry s k).word.getLsbD 0 = false) ∧
    (s.activity = .running ↔ c.mpcResetRunReq = true) ∧ s.nmiPending = false ∧ s.dbusErr = none ∧
    s.mdseacLocked = false ∧ s.pauseCount = 0 ∧ s.wb = [] ∧ s.responses = []

/-- A reset of a hart with no store that a FENCE has not made sure of keeps every byte of memory and its check bits, and puts
registers and pc at their reset values. That ICCM and DCCM keep theirs, which R704 calls arbitrary, and that R705 lets no
other byte change, is the model's choice (log 30) (R62, R700, R704, R705). -/
def Obligations.ResetKeepsMemory : Prop :=
  ∀ (s : State) (rest : List HostEvent) (held : Bool), s.inputs = .reset held :: rest →
    s.wb = [] → s.responses = [] → s.unfenced = [] → s.unfencedEcc = [] →
    GoesTo (step s) fun t =>
      (∀ b, memByte t b = memByte s b) ∧ t.ecc = s.ecc ∧ (∀ r, reg t r = 0) ∧
      t.pc = s.cfg.rstVec ++ 0#1 ∧ t.mdseacLocked = false ∧ t.csr.mstatus = 0x1800

/-! ## Halting, pausing, counting -/

/-- A hart in Debug Mode, not asked to run, executes nothing: registers, pc, and retired count stay; so does a hart in
pmu/fw-halt that nothing wakes and nobody halts for debug (R641, R650, R655). -/
def Obligations.HaltedHartsRunNothing : Prop :=
  ∀ s : State, s.inputs = [] → (boundary s).seen.mpcRunReq = false →
    (s.activity = .dbHalt ∨
      (s.activity = .pmuFwHalt ∧ (boundary s).seen.mpcHaltReq = false ∧ wakes (atBoundary s) = false)) →
    GoesTo (step s) fun t =>
      t.activity = s.activity ∧ t.regs = s.regs ∧ t.pc = s.pc ∧
      t.counters.minstret = s.counters.minstret ∧ t.csr = { s.csr with mdseac := t.csr.mdseac }

/-- A write of `mcpc` loads the count; it reads 0. While the count is not 0, no instruction executes: from one step to the next the
registers, `minstret` and the pc stay, but for a pc that an MPC's run request takes from `dpc`, and the count falls, so that it
reaches 0 at the latest after as many steps; that a step may take more than one cycle is log 12. R652 does not say which pending interrupt
ends PAUSE, and quotes a skid: that one which is not takeable may leave the hart pausing, and that no instruction executes
after the write, is the model's choice (log 14) (R109, R652). -/
def Obligations.PauseHoldsTheHart : Prop :=
  (∀ (s : State) (i : Instr) (f : CsrForm), csrForm s i = some f → f.csr = 0x7C2 →
    GoesTo (exec i s) fun t =>
      WroteReg { s with pauseCount := if f.writes then f.value 0 else s.pauseCount } t f.rd 0 (s.pc + 4)) ∧
  (∀ s u : State, s.inputs = [] → atBoundary s = u → u.activity = .running → u.seen.cpuHaltReq = false →
    u.nmiPending = false → u.dbusErr = none → takeableInterrupt u = none → s.pauseCount ≠ 0 →
    GoesTo (step s) fun t =>
      t.pauseCount.toNat < s.pauseCount.toNat ∧ t.regs = s.regs ∧ t.pc = (if s.activity = .dbHalt then s.csr.dpc else s.pc) ∧
      t.counters.minstret = s.counters.minstret ∧
      u.pauseCount = s.pauseCount ∧ t = { u with pauseCount := t.pauseCount, waits := t.waits })

/-- A debugger's resume from a halt of its own, not held by the MPC, goes on at `dpc`; the breakpoint indication falls unless
the resume is a single step, which is no exit from Debug Mode (log 24); a resume without such a halt is ignored. That bit 2 of
`dcsr` is step is presumed (log 4) (R655, R657, R660, R661, R663, R665). -/
def Obligations.DebugResume : Prop :=
  ∀ (s : State) (rest : List HostEvent), s.inputs = .debugResume :: rest → s.activity = .dbHalt →
    (s.dbgHaltState = true → s.mpcHaltState = false → GoesTo (step s) fun t =>
      t.activity = .running ∧ t.pc = s.csr.dpc ∧ t.stepping = s.csr.dcsr.getLsbD 2 ∧ t.dbgHaltState = false ∧
      t.brkptStatus = (s.brkptStatus && s.csr.dcsr.getLsbD 2) ∧ debugModeStatus t = s.csr.dcsr.getLsbD 2 ∧
      t.regs = s.regs ∧ t.csr = s.csr) ∧
    (s.dbgHaltState = false →
      step s = .next { s with inputs := rest, stepNo := s.stepNo + 1 })

/-- The event counters count exactly the exact events of the instructions named here, once each, while `mgpmc.enable` is
1, and nothing while it is 0; event 15 counts the integer instructions, NOP and WFI among them
(R54, R110, R300, R400, R404, R474, R673). -/
def Obligations.ExactEventsAreCounted : Prop :=
  ∀ (s : State) (n : BitVec 2) (rd rs1 rs2 : Reg) (off : BitVec 13) (imm : BitVec 12) (f : BitVec 4) (u : BitVec 20)
    (ci : BitVec 6),
    let counts := fun (i : Instr) (own : List Word) => GoesTo (exec i s) fun t =>
      t.counters.hpm.get n = s.counters.hpm.get n +
        (if s.csr.mgpmc.getLsbD 0 = true ∧ s.counters.event.get n ∈ own then 1 else 0)
    let exact : List Word := [0, 4, 5, 6, 9, 10, 11, 12, 21, 22, 23]
    (s.counters.event.get n ∈ 15 :: exact →
      counts (.lui rd u) [4, 6, 15] ∧ counts (.addi rd rs1 imm) [4, 6, 15] ∧ counts (.add rd rs1 rs2) [4, 6, 15] ∧
      counts .wfi [4, 6, 15] ∧ counts (.cNop ci) [4, 5, 15] ∧ counts (.cLi rd ci) [4, 5, 15] ∧
      counts (.cAdd rd rs2) [4, 5, 15]) ∧
    (s.counters.event.get n ∈ exact →
      counts (.mul rd rs1 rs2) [4, 6, 9] ∧
      counts (.div rd rs1 rs2) [4, 6, 10] ∧ counts (.beq rs1 rs2 off) [4, 6] ∧
      counts (.fence f f f rs1 rd) [4, 6, 21] ∧ counts (.fenceI imm rs1 rd) [4, 6, 22] ∧
      counts .mret [4, 6, 23])

/-- What a debugger writes to an I-cache data entry through `dicago` it reads back through `dicago`, the check bits as
far as they exist. A read of `dicago` shows an entry of a line the hardware has filled, unless the debugger has changed it: the words
fetched, with their even parity in a parity build, or the tag, valid. That a read of `dicago` copies the entry, and that a filled
line stays until another takes its place, is the reading of log 22 (R113 to R115, R190, R682, R683, R685). -/
def Obligations.ICacheEntriesReadBack : Prop :=
  (∀ (s : State) (line : Nat) (rd : Reg), debugMode s = true →
    let w := s.csr.dicawics
    filledAt s (setOf s.cfg w) (w.extractLsb' 20 2).toNat = some line →
    GoesTo (exec (.csrrs rd 0x7CB 0) s) fun t =>
      (dicawicsTags w = false → cellGet s.icache.data (dataKey s.cfg w) = none →
        let v := assemble (busFetchByte s) (line * 64 + (w &&& indexMask s.cfg).toNat % 64) 4
        csrRead t .dicad0 = v ∧
        (s.cfg.icacheEcc = false →
          csrRead t .dicad1 = (BitVec.ofBool (parityOf (v >>> 16) 16) ++ BitVec.ofBool (parityOf v 16)).setWidth 32)) ∧
      (dicawicsTags w = true → cellGet s.icache.tags (tagKey s.cfg w) = none → line < 2 ^ 26 →
        s.cfg.icacheKb ∈ [16, 32, 64, 128, 256] →
        (csrRead t .dicad0).getLsbD 0 = true ∧
        ((csrRead t .dicad0).extractLsb' 12 20).toNat = line * 64 / wayBytes s.cfg)) ∧
  ∀ s : State, debugMode s = true → dicawicsTags s.csr.dicawics = false →
    ∀ (rs1 : Reg) (d q : Word), (reg s rs1).getLsbD 0 = true →
    GoesTo (exec (.csrrw 0 0x7CB rs1) s) fun t =>
      csrRead (csrReadEffect { t with csr := { t.csr with dicad0 := d, dicad1 := q } } .dicago) .dicad0 =
        csrRead s .dicad0 ∧
      csrRead (csrReadEffect { t with csr := { t.csr with dicad0 := d, dicad1 := q } } .dicago) .dicad1 =
        csrRead s .dicad1 &&& checkMask s.cfg
end

