-- ==== Sys2Proof/Laws/Bank.lean ====
section
/-! SUPPORT. Read after write for the register banks. -/

namespace Sys2Proof

@[simp] theorem Pair.sel_both {α : Type} (x : α) (b : Bool) : (Pair.both x).sel b = x := by
  cases b <;> rfl

theorem Pair.sel_modify {α : Type} (p : Pair α) (b c : Bool) (f : α → α) :
    (p.modify b f).sel c = if c = b then f (p.sel c) else p.sel c := by
  cases b <;> cases c <;> rfl

@[simp] theorem Bank4.get_fill {α : Type} (x : α) (i : BitVec 2) : (Bank4.fill x).get i = x := by
  simp [Bank4.fill, Bank4.get]

@[simp] theorem Bank32.get_fill {α : Type} (x : α) (i : BitVec 5) : (Bank32.fill x).get i = x := by
  simp [Bank32.fill, Bank32.get, Bank4.fill]

@[simp] theorem Bank256.get_fill {α : Type} (x : α) (i : BitVec 8) : (Bank256.fill x).get i = x := by
  simp [Bank256.fill, Bank256.get]

theorem bits2_eq (i j : BitVec 2) :
    j = i ↔ j.getLsbD 1 = i.getLsbD 1 ∧ j.getLsbD 0 = i.getLsbD 0 := by
  decide +revert

theorem bits5_eq (i j : BitVec 5) :
    j = i ↔ j.getLsbD 4 = i.getLsbD 4 ∧ j.getLsbD 3 = i.getLsbD 3 ∧ j.getLsbD 2 = i.getLsbD 2 ∧
      j.getLsbD 1 = i.getLsbD 1 ∧ j.getLsbD 0 = i.getLsbD 0 := by
  refine ⟨fun h => by simp [h], fun ⟨h4, h3, h2, h1, h0⟩ => BitVec.eq_of_getLsbD_eq fun n hn => ?_⟩
  interval_cases n <;> assumption

theorem bits8_eq (i j : BitVec 8) :
    j = i ↔ j.getLsbD 7 = i.getLsbD 7 ∧ j.getLsbD 6 = i.getLsbD 6 ∧ j.getLsbD 5 = i.getLsbD 5 ∧
      j.extractLsb' 0 5 = i.extractLsb' 0 5 := by
  refine ⟨fun h => by simp [h], fun ⟨h7, h6, h5, h⟩ => BitVec.eq_of_getLsbD_eq fun n hn => ?_⟩
  have hb : ∀ k, k < 5 → j.getLsbD k = i.getLsbD k := fun k hk => by
    simpa [hk, BitVec.getLsbD_extractLsb'] using congrArg (BitVec.getLsbD · k) h
  interval_cases n <;> first | assumption | exact hb _ (by omega)

theorem Bank4.get_set {α : Type} (b : Bank4 α) (i j : BitVec 2) (v : α) :
    (b.set i v).get j = if j = i then v else b.get j := by
  by_cases h1 : j.getLsbD 1 = i.getLsbD 1 <;> by_cases h0 : j.getLsbD 0 = i.getLsbD 0 <;>
    simp only [Bank4.get, Bank4.set, Pair.sel_modify, bits2_eq i j, h1, h0, if_true, if_false, and_true,
      and_false]

theorem Bank32.get_set {α : Type} (b : Bank32 α) (i j : BitVec 5) (v : α) :
    (b.set i v).get j = if j = i then v else b.get j := by
  by_cases h4 : j.getLsbD 4 = i.getLsbD 4 <;> by_cases h3 : j.getLsbD 3 = i.getLsbD 3 <;>
    by_cases h2 : j.getLsbD 2 = i.getLsbD 2 <;> by_cases h1 : j.getLsbD 1 = i.getLsbD 1 <;>
    by_cases h0 : j.getLsbD 0 = i.getLsbD 0 <;>
    simp only [Bank32.get, Bank32.set, Pair.sel_modify, bits5_eq i j, h4, h3, h2, h1, h0, if_true, if_false,
      and_true, and_false]

theorem Bank256.get_set {α : Type} (b : Bank256 α) (i j : BitVec 8) (v : α) :
    (b.set i v).get j = if j = i then v else b.get j := by
  by_cases h7 : j.getLsbD 7 = i.getLsbD 7 <;> by_cases h6 : j.getLsbD 6 = i.getLsbD 6 <;>
    by_cases h5 : j.getLsbD 5 = i.getLsbD 5 <;>
    simp only [Bank256.get, Bank256.set, Pair.sel_modify, bits8_eq i j, Bank32.get_set, h7, h6, h5, if_true,
      if_false, true_and, false_and]

end Sys2Proof
end

