-- ==== Sys2Proof/Laws/Memory.lean ====
section
/-! SUPPORT. Memory: read after write, and the canonical form that every memory operation keeps. -/

namespace Sys2Proof.Machine

/-! ## Cells -/

/-- A write changes the value at its key and no other. -/
theorem cellGet_cellSet {β : Type} (l : List (Nat × β)) (a b : Nat) (v : β) :
    cellGet (cellSet l a v) b = if b = a then some v else cellGet l b := by
  induction l with
  | nil => simp only [cellSet, cellGet, eq_comm]
  | cons e rest ih =>
    obtain ⟨k, w⟩ := e
    simp only [cellSet]
    split_ifs with h1 h2 <;> simp only [cellGet, ih] <;> split_ifs <;> first | rfl | omega

theorem rising_cons {β : Type} {k : Nat} {v : β} {l : List (Nat × β)} :
    rising ((k, v) :: l) = true ↔ (∀ e ∈ l.head?, k < e.1) ∧ rising l = true := by
  cases l with
  | nil => simp [rising]
  | cons e rest => simp [rising]

theorem head_cellSet {β : Type} {l : List (Nat × β)} {a k : Nat} {v : β} (ha : k < a)
    (hl : ∀ e ∈ l.head?, k < e.1) : ∀ e ∈ (cellSet l a v).head?, k < e.1 := by
  cases l with
  | nil => simpa [cellSet] using ha
  | cons e rest =>
    simp only [cellSet]
    split_ifs <;> simp_all

/-- A write keeps the keys rising. -/
theorem rising_cellSet {β : Type} (l : List (Nat × β)) (a : Nat) (v : β) (h : rising l = true) :
    rising (cellSet l a v) = true := by
  induction l with
  | nil => rfl
  | cons e rest ih =>
    obtain ⟨k, w⟩ := e
    have hk := rising_cons.1 h
    simp only [cellSet]
    split_ifs with h1 h2
    · exact rising_cons.2 ⟨by simpa using h1, h⟩
    · exact rising_cons.2 ⟨by simpa [h2] using hk.1, hk.2⟩
    · exact rising_cons.2 ⟨head_cellSet (by omega) hk.1, ih hk.2⟩

/-- The keys rise when each is below every later one. -/
theorem rising_iff {β : Type} (l : List (Nat × β)) : rising l = true ↔ l.Pairwise fun x y => x.1 < y.1 := by
  induction l with
  | nil => simp [rising]
  | cons e rest ih =>
    obtain ⟨k, v⟩ := e
    rw [rising_cons, List.pairwise_cons, ih]
    refine ⟨fun ⟨h, hp⟩ => ⟨fun x hx => ?_, hp⟩, fun ⟨h, hp⟩ => ⟨fun x hx => h x (List.mem_of_mem_head? hx), hp⟩⟩
    cases rest with
    | nil => cases hx
    | cons y ys =>
      rcases List.mem_cons.1 hx with rfl | hx
      · exact h _ rfl
      · exact lt_trans (h y rfl) ((List.pairwise_cons.1 hp).1 x hx)

/-- Putting or removing a value keeps the keys rising. -/
theorem rising_cellPut {β : Type} (l : List (Nat × β)) (a : Nat) (o : Option β) (h : rising l = true) :
    rising (cellPut l a o) = true := by
  cases o with
  | some v => exact rising_cellSet l a v h
  | none => exact (rising_iff _).2 (((rising_iff _).1 h).filter _)

/-- Building up a list by steps that keep the keys rising keeps them rising. -/
theorem rising_foldl {α β : Type} {f : List (Nat × β) → α → List (Nat × β)}
    (hf : ∀ l e, rising l = true → rising (f l e) = true) (es : List α) (l : List (Nat × β))
    (h : rising l = true) : rising (es.foldl f l) = true := by
  induction es generalizing l with
  | nil => exact h
  | cons e es ih => exact ih _ (hf l e h)

/-- The initial image is in canonical form. -/
theorem rising_imageMem (c : Build) : rising (imageMem c) = true :=
  rising_foldl (fun l e h => rising_cellSet l e.1 e.2 h) c.image [] rfl

/-- So are the check bits it fixes. -/
theorem rising_imageEcc (c : Build) : rising (imageEcc c) = true := by
  refine rising_foldl (fun l e h => ?_) (imageMem c) [] rfl
  split
  · exact rising_cellSet _ _ _ h
  · exact h

/-! ## Bytes -/

@[simp] theorem memByte_writeByte (s : State) (a b : Nat) (v : Byte) :
    memByte (writeByte s a v) b = if b = a then v else memByte s b := by
  simp only [memByte, writeByte, cellGet_cellSet]
  split_ifs <;> rfl

@[simp] theorem memByte_writeFetchableByte (s : State) (a b : Nat) (v : Byte) :
    memByte (writeFetchableByte s a v) b = if b = a then v else memByte s b := by
  simp only [memByte, writeFetchableByte, cellGet_cellSet]
  split_ifs <;> rfl

@[simp] theorem memByte_storeByte (s : State) (a b : Nat) (v : Byte) :
    memByte (storeByte s a v) b = if b = a then v else memByte s b := memByte_writeByte s a b v

@[simp] theorem memByte_storeFetchableByte (s : State) (a b : Nat) (v : Byte) :
    memByte (storeFetchableByte s a v) b = if b = a then v else memByte s b := memByte_writeFetchableByte s a b v

theorem wf_writeByte (s : State) (a : Nat) (v : Byte) (h : Memory.wf s.mem = true) :
    Memory.wf (writeByte s a v).mem = true := rising_cellSet _ _ _ h

theorem wf_writeFetchableByte (s : State) (a : Nat) (v : Byte) (h : Memory.wf s.mem = true) :
    Memory.wf (writeFetchableByte s a v).mem = true := rising_cellSet _ _ _ h

/-- Reset memory is in canonical form, in every build. -/
theorem wf_reset (c : Build) : Memory.wf (State.resetWith c).mem = true := rising_imageMem c

/-! ## Values of several bytes -/

/-- What each byte write keeps, the write of a whole value keeps. -/
theorem writeBytes_induct {P : State → Prop} {w : State → Nat → Byte → State}
    (hw : ∀ s a b, P s → P (w s a b)) (s : State) (a n : Nat) (v : Word) (h : P s) :
    P (writeBytes w s a n v) := by
  unfold writeBytes
  induction List.range n generalizing s with
  | nil => exact h
  | cons k ks ih => exact ih _ (hw _ _ _ h)

theorem writeBytes_succ (w : State → Nat → Byte → State) (s : State) (a n : Nat) (v : Word) :
    writeBytes w s a (n + 1) v = w (writeBytes w s a n v) (a + n) (byteOf v n) := by
  simp [writeBytes, List.range_succ]

/-- After a value is written, its bytes read as written and all others as before. -/
theorem memByte_writeBytes {w : State → Nat → Byte → State}
    (hw : ∀ s a b v, memByte (w s a v) b = if b = a then v else memByte s b)
    (s : State) (a n : Nat) (v : Word) (b : Nat) :
    memByte (writeBytes w s a n v) b =
      if a ≤ b ∧ b < a + n then byteOf v (b - a) else memByte s b := by
  induction n with
  | zero => simp [writeBytes]
  | succ n ih =>
    rw [writeBytes_succ, hw, ih]
    split_ifs with h1 h2 h3 <;> first | rfl | omega | skip
    rw [h1, Nat.add_sub_cancel_left]

/-- The write of a value changes the listed bytes only. -/
theorem writeBytes_writeByte (s : State) (a n : Nat) (v : Word) :
    writeBytes writeByte s a n v = { s with mem := (writeBytes writeByte s a n v).mem } :=
  writeBytes_induct (P := fun t => t = { s with mem := t.mem })
    (fun t a b h => by rw [h]; rfl) s a n v rfl

/-- The store of a value changes the listed bytes only, and the record of what a reset may undo. -/
theorem writeBytes_storeByte (s : State) (a n : Nat) (v : Word) :
    writeBytes storeByte s a n v =
      { s with mem := (writeBytes storeByte s a n v).mem, unfenced := (writeBytes storeByte s a n v).unfenced } :=
  writeBytes_induct (P := fun t => t = { s with mem := t.mem, unfenced := t.unfenced })
    (fun t a b h => by rw [h]; rfl) s a n v rfl

/-- The write of a value to fetchable memory changes bytes and the older values of R191 only. -/
theorem writeBytes_writeFetchableByte (s : State) (a n : Nat) (v : Word) :
    writeBytes writeFetchableByte s a n v =
      { s with
        mem := (writeBytes writeFetchableByte s a n v).mem
        stale := (writeBytes writeFetchableByte s a n v).stale } :=
  writeBytes_induct (P := fun t => t = { s with mem := t.mem, stale := t.stale })
    (fun t a b h => by rw [h]; rfl) s a n v rfl

theorem wf_writeBytes {w : State → Nat → Byte → State}
    (hw : ∀ s a b, Memory.wf s.mem = true → Memory.wf (w s a b).mem = true)
    (s : State) (a n : Nat) (v : Word) (h : Memory.wf s.mem = true) :
    Memory.wf (writeBytes w s a n v).mem = true :=
  writeBytes_induct (P := fun t => Memory.wf t.mem = true) hw s a n v h

/-- Byte `k` of the value of four bytes is byte `k` (R161). -/
theorem byteOf_assemble_word (f : Nat → Byte) (a k : Nat) (hk : k < 4) :
    byteOf (assemble f a 4) k = f (a + k) := by
  refine BitVec.eq_of_getLsbD_eq fun n hn => ?_
  simp only [byteOf, assemble, BitVec.getLsbD_extractLsb', BitVec.getLsbD_append]
  interval_cases k <;> simp [hn] <;> (repeat' split) <;>
    first | omega | rfl | (rw [← BitVec.getLsbD_eq_getElem]; congr 1; omega)

/-! ## ECC words -/

/-- A write back touches the check bits and the correctable-error counters only (R221). -/
theorem writeBackWord_frame (m : Ccm) (s : State) (w : Nat) :
    writeBackWord m s w =
      { s with
        ecc := (writeBackWord m s w).ecc
        csr := { s.csr with
          miccmect := (writeBackWord m s w).csr.miccmect
          mdccmect := (writeBackWord m s w).csr.mdccmect } } := by
  unfold writeBackWord
  split <;> [cases m <;> rfl; rfl]

/-- Counting an error keeps the threshold (R106). -/
theorem bumpCount_threshold (v : Word) : (bumpCount v).extractLsb' 27 5 = v.extractLsb' 27 5 := by
  refine BitVec.eq_of_getLsbD_eq fun n hn => ?_
  have h27 : ¬ 27 + n < 27 := by omega
  have h := BitVec.getLsbD_append (x := v.extractLsb' 27 5) (y := v.extractLsb' 0 27 + 1) (i := 27 + n)
  simp only [h27, if_false, Nat.add_sub_cancel_left] at h
  simp only [BitVec.getLsbD_extractLsb', hn, decide_true, Bool.true_and] at h ⊢
  exact h

/-- Every word operation keeps the check-bit list rising. -/
theorem rising_setEcc (s : State) (w : Nat) (e : EccState) (h : rising s.ecc = true) :
    rising (setEcc s w e).ecc = true := rising_cellSet _ _ _ h

theorem rising_writeBackWord (m : Ccm) (s : State) (w : Nat) (h : rising s.ecc = true) :
    rising (writeBackWord m s w).ecc = true := by
  unfold writeBackWord
  split
  · cases m <;> exact rising_cellSet _ _ _ h
  · exact h

/-- Words whose check is sound are not written back. -/
theorem writeBackWord_sound (m : Ccm) (s : State) (w : Nat) (h : checkWord s w = .sound) :
    writeBackWord m s w = s := by
  simp [writeBackWord, h]

end Sys2Proof.Machine
end

