-- ==== Sys2Proof/Laws/State.lean ====
section
/-! SUPPORT. One lemma per field for every named update of the state, so that no proof unfolds an update. -/

namespace Sys2Proof.Machine

/-! ## Writing a byte -/

@[simp] theorem writeByte_regs (s : State) (a : Nat) (b : Byte) :
    (writeByte s a b).regs = s.regs := rfl
@[simp] theorem writeByte_pc (s : State) (a : Nat) (b : Byte) :
    (writeByte s a b).pc = s.pc := rfl
@[simp] theorem writeByte_csr (s : State) (a : Nat) (b : Byte) :
    (writeByte s a b).csr = s.csr := rfl
@[simp] theorem writeByte_counters (s : State) (a : Nat) (b : Byte) :
    (writeByte s a b).counters = s.counters := rfl
@[simp] theorem writeByte_pic (s : State) (a : Nat) (b : Byte) :
    (writeByte s a b).pic = s.pic := rfl
@[simp] theorem writeByte_picQueue (s : State) (a : Nat) (b : Byte) :
    (writeByte s a b).picQueue = s.picQueue := rfl
@[simp] theorem writeByte_mem (s : State) (a : Nat) (b : Byte) :
    (writeByte s a b).mem = cellSet s.mem a b := rfl
@[simp] theorem writeByte_ecc (s : State) (a : Nat) (b : Byte) :
    (writeByte s a b).ecc = s.ecc := rfl
@[simp] theorem writeByte_stale (s : State) (a : Nat) (b : Byte) :
    (writeByte s a b).stale = s.stale := rfl
@[simp] theorem writeByte_unfenced (s : State) (a : Nat) (b : Byte) :
    (writeByte s a b).unfenced = s.unfenced := rfl
@[simp] theorem writeByte_unfencedEcc (s : State) (a : Nat) (b : Byte) :
    (writeByte s a b).unfencedEcc = s.unfencedEcc := rfl
@[simp] theorem writeByte_wb (s : State) (a : Nat) (b : Byte) :
    (writeByte s a b).wb = s.wb := rfl
@[simp] theorem writeByte_responses (s : State) (a : Nat) (b : Byte) :
    (writeByte s a b).responses = s.responses := rfl
@[simp] theorem writeByte_mracData (s : State) (a : Nat) (b : Byte) :
    (writeByte s a b).mracData = s.mracData := rfl
@[simp] theorem writeByte_mracFetch (s : State) (a : Nat) (b : Byte) :
    (writeByte s a b).mracFetch = s.mracFetch := rfl
@[simp] theorem writeByte_mfdcOld (s : State) (a : Nat) (b : Byte) :
    (writeByte s a b).mfdcOld = s.mfdcOld := rfl
@[simp] theorem writeByte_fenced (s : State) (a : Nat) (b : Byte) :
    (writeByte s a b).fenced = s.fenced := rfl
@[simp] theorem writeByte_fencesDue (s : State) (a : Nat) (b : Byte) :
    (writeByte s a b).fencesDue = s.fencesDue := rfl
@[simp] theorem writeByte_icache (s : State) (a : Nat) (b : Byte) :
    (writeByte s a b).icache = s.icache := rfl
@[simp] theorem writeByte_activity (s : State) (a : Nat) (b : Byte) :
    (writeByte s a b).activity = s.activity := rfl
@[simp] theorem writeByte_stepping (s : State) (a : Nat) (b : Byte) :
    (writeByte s a b).stepping = s.stepping := rfl
@[simp] theorem writeByte_dbgHaltState (s : State) (a : Nat) (b : Byte) :
    (writeByte s a b).dbgHaltState = s.dbgHaltState := rfl
@[simp] theorem writeByte_mpcHaltState (s : State) (a : Nat) (b : Byte) :
    (writeByte s a b).mpcHaltState = s.mpcHaltState := rfl
@[simp] theorem writeByte_brkptStatus (s : State) (a : Nat) (b : Byte) :
    (writeByte s a b).brkptStatus = s.brkptStatus := rfl
@[simp] theorem writeByte_nmiPending (s : State) (a : Nat) (b : Byte) :
    (writeByte s a b).nmiPending = s.nmiPending := rfl
@[simp] theorem writeByte_dbusErr (s : State) (a : Nat) (b : Byte) :
    (writeByte s a b).dbusErr = s.dbusErr := rfl
@[simp] theorem writeByte_mdseacLocked (s : State) (a : Nat) (b : Byte) :
    (writeByte s a b).mdseacLocked = s.mdseacLocked := rfl
@[simp] theorem writeByte_pauseCount (s : State) (a : Nat) (b : Byte) :
    (writeByte s a b).pauseCount = s.pauseCount := rfl
@[simp] theorem writeByte_waits (s : State) (a : Nat) (b : Byte) :
    (writeByte s a b).waits = s.waits := rfl
@[simp] theorem writeByte_pins (s : State) (a : Nat) (b : Byte) :
    (writeByte s a b).pins = s.pins := rfl
@[simp] theorem writeByte_seen (s : State) (a : Nat) (b : Byte) :
    (writeByte s a b).seen = s.seen := rfl
@[simp] theorem writeByte_lines (s : State) (a : Nat) (b : Byte) :
    (writeByte s a b).lines = s.lines := rfl
@[simp] theorem writeByte_devReq (s : State) (a : Nat) (b : Byte) :
    (writeByte s a b).devReq = s.devReq := rfl
@[simp] theorem writeByte_deviceTrace (s : State) (a : Nat) (b : Byte) :
    (writeByte s a b).deviceTrace = s.deviceTrace := rfl
@[simp] theorem writeByte_dmaResponse (s : State) (a : Nat) (b : Byte) :
    (writeByte s a b).dmaResponse = s.dmaResponse := rfl
@[simp] theorem writeByte_dbgData (s : State) (a : Nat) (b : Byte) :
    (writeByte s a b).dbgData = s.dbgData := rfl
@[simp] theorem writeByte_cfg (s : State) (a : Nat) (b : Byte) :
    (writeByte s a b).cfg = s.cfg := rfl
@[simp] theorem writeByte_inputs (s : State) (a : Nat) (b : Byte) :
    (writeByte s a b).inputs = s.inputs := rfl
@[simp] theorem writeByte_stepNo (s : State) (a : Nat) (b : Byte) :
    (writeByte s a b).stepNo = s.stepNo := rfl

/-! ## Writing a byte that can be fetched -/

@[simp] theorem writeFetchableByte_regs (s : State) (a : Nat) (b : Byte) :
    (writeFetchableByte s a b).regs = s.regs := rfl
@[simp] theorem writeFetchableByte_pc (s : State) (a : Nat) (b : Byte) :
    (writeFetchableByte s a b).pc = s.pc := rfl
@[simp] theorem writeFetchableByte_csr (s : State) (a : Nat) (b : Byte) :
    (writeFetchableByte s a b).csr = s.csr := rfl
@[simp] theorem writeFetchableByte_counters (s : State) (a : Nat) (b : Byte) :
    (writeFetchableByte s a b).counters = s.counters := rfl
@[simp] theorem writeFetchableByte_pic (s : State) (a : Nat) (b : Byte) :
    (writeFetchableByte s a b).pic = s.pic := rfl
@[simp] theorem writeFetchableByte_picQueue (s : State) (a : Nat) (b : Byte) :
    (writeFetchableByte s a b).picQueue = s.picQueue := rfl
@[simp] theorem writeFetchableByte_mem (s : State) (a : Nat) (b : Byte) :
    (writeFetchableByte s a b).mem = cellSet s.mem a b := rfl
@[simp] theorem writeFetchableByte_ecc (s : State) (a : Nat) (b : Byte) :
    (writeFetchableByte s a b).ecc = s.ecc := rfl
@[simp] theorem writeFetchableByte_stale (s : State) (a : Nat) (b : Byte) :
    (writeFetchableByte s a b).stale = (a, cellGet s.mem a) :: s.stale := rfl
@[simp] theorem writeFetchableByte_unfenced (s : State) (a : Nat) (b : Byte) :
    (writeFetchableByte s a b).unfenced = s.unfenced := rfl
@[simp] theorem writeFetchableByte_unfencedEcc (s : State) (a : Nat) (b : Byte) :
    (writeFetchableByte s a b).unfencedEcc = s.unfencedEcc := rfl
@[simp] theorem writeFetchableByte_wb (s : State) (a : Nat) (b : Byte) :
    (writeFetchableByte s a b).wb = s.wb := rfl
@[simp] theorem writeFetchableByte_responses (s : State) (a : Nat) (b : Byte) :
    (writeFetchableByte s a b).responses = s.responses := rfl
@[simp] theorem writeFetchableByte_mracData (s : State) (a : Nat) (b : Byte) :
    (writeFetchableByte s a b).mracData = s.mracData := rfl
@[simp] theorem writeFetchableByte_mracFetch (s : State) (a : Nat) (b : Byte) :
    (writeFetchableByte s a b).mracFetch = s.mracFetch := rfl
@[simp] theorem writeFetchableByte_mfdcOld (s : State) (a : Nat) (b : Byte) :
    (writeFetchableByte s a b).mfdcOld = s.mfdcOld := rfl
@[simp] theorem writeFetchableByte_fenced (s : State) (a : Nat) (b : Byte) :
    (writeFetchableByte s a b).fenced = s.fenced := rfl
@[simp] theorem writeFetchableByte_fencesDue (s : State) (a : Nat) (b : Byte) :
    (writeFetchableByte s a b).fencesDue = s.fencesDue := rfl
@[simp] theorem writeFetchableByte_icache (s : State) (a : Nat) (b : Byte) :
    (writeFetchableByte s a b).icache = s.icache := rfl
@[simp] theorem writeFetchableByte_activity (s : State) (a : Nat) (b : Byte) :
    (writeFetchableByte s a b).activity = s.activity := rfl
@[simp] theorem writeFetchableByte_stepping (s : State) (a : Nat) (b : Byte) :
    (writeFetchableByte s a b).stepping = s.stepping := rfl
@[simp] theorem writeFetchableByte_dbgHaltState (s : State) (a : Nat) (b : Byte) :
    (writeFetchableByte s a b).dbgHaltState = s.dbgHaltState := rfl
@[simp] theorem writeFetchableByte_mpcHaltState (s : State) (a : Nat) (b : Byte) :
    (writeFetchableByte s a b).mpcHaltState = s.mpcHaltState := rfl
@[simp] theorem writeFetchableByte_brkptStatus (s : State) (a : Nat) (b : Byte) :
    (writeFetchableByte s a b).brkptStatus = s.brkptStatus := rfl
@[simp] theorem writeFetchableByte_nmiPending (s : State) (a : Nat) (b : Byte) :
    (writeFetchableByte s a b).nmiPending = s.nmiPending := rfl
@[simp] theorem writeFetchableByte_dbusErr (s : State) (a : Nat) (b : Byte) :
    (writeFetchableByte s a b).dbusErr = s.dbusErr := rfl
@[simp] theorem writeFetchableByte_mdseacLocked (s : State) (a : Nat) (b : Byte) :
    (writeFetchableByte s a b).mdseacLocked = s.mdseacLocked := rfl
@[simp] theorem writeFetchableByte_pauseCount (s : State) (a : Nat) (b : Byte) :
    (writeFetchableByte s a b).pauseCount = s.pauseCount := rfl
@[simp] theorem writeFetchableByte_waits (s : State) (a : Nat) (b : Byte) :
    (writeFetchableByte s a b).waits = s.waits := rfl
@[simp] theorem writeFetchableByte_pins (s : State) (a : Nat) (b : Byte) :
    (writeFetchableByte s a b).pins = s.pins := rfl
@[simp] theorem writeFetchableByte_seen (s : State) (a : Nat) (b : Byte) :
    (writeFetchableByte s a b).seen = s.seen := rfl
@[simp] theorem writeFetchableByte_lines (s : State) (a : Nat) (b : Byte) :
    (writeFetchableByte s a b).lines = s.lines := rfl
@[simp] theorem writeFetchableByte_devReq (s : State) (a : Nat) (b : Byte) :
    (writeFetchableByte s a b).devReq = s.devReq := rfl
@[simp] theorem writeFetchableByte_deviceTrace (s : State) (a : Nat) (b : Byte) :
    (writeFetchableByte s a b).deviceTrace = s.deviceTrace := rfl
@[simp] theorem writeFetchableByte_dmaResponse (s : State) (a : Nat) (b : Byte) :
    (writeFetchableByte s a b).dmaResponse = s.dmaResponse := rfl
@[simp] theorem writeFetchableByte_dbgData (s : State) (a : Nat) (b : Byte) :
    (writeFetchableByte s a b).dbgData = s.dbgData := rfl
@[simp] theorem writeFetchableByte_cfg (s : State) (a : Nat) (b : Byte) :
    (writeFetchableByte s a b).cfg = s.cfg := rfl
@[simp] theorem writeFetchableByte_inputs (s : State) (a : Nat) (b : Byte) :
    (writeFetchableByte s a b).inputs = s.inputs := rfl
@[simp] theorem writeFetchableByte_stepNo (s : State) (a : Nat) (b : Byte) :
    (writeFetchableByte s a b).stepNo = s.stepNo := rfl

/-! ## Storing a byte -/

@[simp] theorem storeByte_regs (s : State) (a : Nat) (b : Byte) :
    (storeByte s a b).regs = s.regs := rfl
@[simp] theorem storeByte_pc (s : State) (a : Nat) (b : Byte) :
    (storeByte s a b).pc = s.pc := rfl
@[simp] theorem storeByte_csr (s : State) (a : Nat) (b : Byte) :
    (storeByte s a b).csr = s.csr := rfl
@[simp] theorem storeByte_counters (s : State) (a : Nat) (b : Byte) :
    (storeByte s a b).counters = s.counters := rfl
@[simp] theorem storeByte_pic (s : State) (a : Nat) (b : Byte) :
    (storeByte s a b).pic = s.pic := rfl
@[simp] theorem storeByte_picQueue (s : State) (a : Nat) (b : Byte) :
    (storeByte s a b).picQueue = s.picQueue := rfl
@[simp] theorem storeByte_mem (s : State) (a : Nat) (b : Byte) :
    (storeByte s a b).mem = cellSet s.mem a b := rfl
@[simp] theorem storeByte_ecc (s : State) (a : Nat) (b : Byte) :
    (storeByte s a b).ecc = s.ecc := rfl
@[simp] theorem storeByte_stale (s : State) (a : Nat) (b : Byte) :
    (storeByte s a b).stale = s.stale := rfl
@[simp] theorem storeByte_unfenced (s : State) (a : Nat) (b : Byte) :
    (storeByte s a b).unfenced = (a, cellGet s.mem a) :: s.unfenced := rfl
@[simp] theorem storeByte_unfencedEcc (s : State) (a : Nat) (b : Byte) :
    (storeByte s a b).unfencedEcc = s.unfencedEcc := rfl
@[simp] theorem storeByte_wb (s : State) (a : Nat) (b : Byte) :
    (storeByte s a b).wb = s.wb := rfl
@[simp] theorem storeByte_responses (s : State) (a : Nat) (b : Byte) :
    (storeByte s a b).responses = s.responses := rfl
@[simp] theorem storeByte_mracData (s : State) (a : Nat) (b : Byte) :
    (storeByte s a b).mracData = s.mracData := rfl
@[simp] theorem storeByte_mracFetch (s : State) (a : Nat) (b : Byte) :
    (storeByte s a b).mracFetch = s.mracFetch := rfl
@[simp] theorem storeByte_mfdcOld (s : State) (a : Nat) (b : Byte) :
    (storeByte s a b).mfdcOld = s.mfdcOld := rfl
@[simp] theorem storeByte_fenced (s : State) (a : Nat) (b : Byte) :
    (storeByte s a b).fenced = s.fenced := rfl
@[simp] theorem storeByte_fencesDue (s : State) (a : Nat) (b : Byte) :
    (storeByte s a b).fencesDue = s.fencesDue := rfl
@[simp] theorem storeByte_icache (s : State) (a : Nat) (b : Byte) :
    (storeByte s a b).icache = s.icache := rfl
@[simp] theorem storeByte_activity (s : State) (a : Nat) (b : Byte) :
    (storeByte s a b).activity = s.activity := rfl
@[simp] theorem storeByte_stepping (s : State) (a : Nat) (b : Byte) :
    (storeByte s a b).stepping = s.stepping := rfl
@[simp] theorem storeByte_dbgHaltState (s : State) (a : Nat) (b : Byte) :
    (storeByte s a b).dbgHaltState = s.dbgHaltState := rfl
@[simp] theorem storeByte_mpcHaltState (s : State) (a : Nat) (b : Byte) :
    (storeByte s a b).mpcHaltState = s.mpcHaltState := rfl
@[simp] theorem storeByte_brkptStatus (s : State) (a : Nat) (b : Byte) :
    (storeByte s a b).brkptStatus = s.brkptStatus := rfl
@[simp] theorem storeByte_nmiPending (s : State) (a : Nat) (b : Byte) :
    (storeByte s a b).nmiPending = s.nmiPending := rfl
@[simp] theorem storeByte_dbusErr (s : State) (a : Nat) (b : Byte) :
    (storeByte s a b).dbusErr = s.dbusErr := rfl
@[simp] theorem storeByte_mdseacLocked (s : State) (a : Nat) (b : Byte) :
    (storeByte s a b).mdseacLocked = s.mdseacLocked := rfl
@[simp] theorem storeByte_pauseCount (s : State) (a : Nat) (b : Byte) :
    (storeByte s a b).pauseCount = s.pauseCount := rfl
@[simp] theorem storeByte_waits (s : State) (a : Nat) (b : Byte) :
    (storeByte s a b).waits = s.waits := rfl
@[simp] theorem storeByte_pins (s : State) (a : Nat) (b : Byte) :
    (storeByte s a b).pins = s.pins := rfl
@[simp] theorem storeByte_seen (s : State) (a : Nat) (b : Byte) :
    (storeByte s a b).seen = s.seen := rfl
@[simp] theorem storeByte_lines (s : State) (a : Nat) (b : Byte) :
    (storeByte s a b).lines = s.lines := rfl
@[simp] theorem storeByte_devReq (s : State) (a : Nat) (b : Byte) :
    (storeByte s a b).devReq = s.devReq := rfl
@[simp] theorem storeByte_deviceTrace (s : State) (a : Nat) (b : Byte) :
    (storeByte s a b).deviceTrace = s.deviceTrace := rfl
@[simp] theorem storeByte_dmaResponse (s : State) (a : Nat) (b : Byte) :
    (storeByte s a b).dmaResponse = s.dmaResponse := rfl
@[simp] theorem storeByte_dbgData (s : State) (a : Nat) (b : Byte) :
    (storeByte s a b).dbgData = s.dbgData := rfl
@[simp] theorem storeByte_cfg (s : State) (a : Nat) (b : Byte) :
    (storeByte s a b).cfg = s.cfg := rfl
@[simp] theorem storeByte_inputs (s : State) (a : Nat) (b : Byte) :
    (storeByte s a b).inputs = s.inputs := rfl
@[simp] theorem storeByte_stepNo (s : State) (a : Nat) (b : Byte) :
    (storeByte s a b).stepNo = s.stepNo := rfl

/-! ## Storing a byte that can be fetched -/

@[simp] theorem storeFetchableByte_regs (s : State) (a : Nat) (b : Byte) :
    (storeFetchableByte s a b).regs = s.regs := rfl
@[simp] theorem storeFetchableByte_pc (s : State) (a : Nat) (b : Byte) :
    (storeFetchableByte s a b).pc = s.pc := rfl
@[simp] theorem storeFetchableByte_csr (s : State) (a : Nat) (b : Byte) :
    (storeFetchableByte s a b).csr = s.csr := rfl
@[simp] theorem storeFetchableByte_counters (s : State) (a : Nat) (b : Byte) :
    (storeFetchableByte s a b).counters = s.counters := rfl
@[simp] theorem storeFetchableByte_pic (s : State) (a : Nat) (b : Byte) :
    (storeFetchableByte s a b).pic = s.pic := rfl
@[simp] theorem storeFetchableByte_picQueue (s : State) (a : Nat) (b : Byte) :
    (storeFetchableByte s a b).picQueue = s.picQueue := rfl
@[simp] theorem storeFetchableByte_mem (s : State) (a : Nat) (b : Byte) :
    (storeFetchableByte s a b).mem = cellSet s.mem a b := rfl
@[simp] theorem storeFetchableByte_ecc (s : State) (a : Nat) (b : Byte) :
    (storeFetchableByte s a b).ecc = s.ecc := rfl
@[simp] theorem storeFetchableByte_stale (s : State) (a : Nat) (b : Byte) :
    (storeFetchableByte s a b).stale = (a, cellGet s.mem a) :: s.stale := rfl
@[simp] theorem storeFetchableByte_unfenced (s : State) (a : Nat) (b : Byte) :
    (storeFetchableByte s a b).unfenced = (a, cellGet s.mem a) :: s.unfenced := rfl
@[simp] theorem storeFetchableByte_unfencedEcc (s : State) (a : Nat) (b : Byte) :
    (storeFetchableByte s a b).unfencedEcc = s.unfencedEcc := rfl
@[simp] theorem storeFetchableByte_wb (s : State) (a : Nat) (b : Byte) :
    (storeFetchableByte s a b).wb = s.wb := rfl
@[simp] theorem storeFetchableByte_responses (s : State) (a : Nat) (b : Byte) :
    (storeFetchableByte s a b).responses = s.responses := rfl
@[simp] theorem storeFetchableByte_mracData (s : State) (a : Nat) (b : Byte) :
    (storeFetchableByte s a b).mracData = s.mracData := rfl
@[simp] theorem storeFetchableByte_mracFetch (s : State) (a : Nat) (b : Byte) :
    (storeFetchableByte s a b).mracFetch = s.mracFetch := rfl
@[simp] theorem storeFetchableByte_mfdcOld (s : State) (a : Nat) (b : Byte) :
    (storeFetchableByte s a b).mfdcOld = s.mfdcOld := rfl
@[simp] theorem storeFetchableByte_fenced (s : State) (a : Nat) (b : Byte) :
    (storeFetchableByte s a b).fenced = s.fenced := rfl
@[simp] theorem storeFetchableByte_fencesDue (s : State) (a : Nat) (b : Byte) :
    (storeFetchableByte s a b).fencesDue = s.fencesDue := rfl
@[simp] theorem storeFetchableByte_icache (s : State) (a : Nat) (b : Byte) :
    (storeFetchableByte s a b).icache = s.icache := rfl
@[simp] theorem storeFetchableByte_activity (s : State) (a : Nat) (b : Byte) :
    (storeFetchableByte s a b).activity = s.activity := rfl
@[simp] theorem storeFetchableByte_stepping (s : State) (a : Nat) (b : Byte) :
    (storeFetchableByte s a b).stepping = s.stepping := rfl
@[simp] theorem storeFetchableByte_dbgHaltState (s : State) (a : Nat) (b : Byte) :
    (storeFetchableByte s a b).dbgHaltState = s.dbgHaltState := rfl
@[simp] theorem storeFetchableByte_mpcHaltState (s : State) (a : Nat) (b : Byte) :
    (storeFetchableByte s a b).mpcHaltState = s.mpcHaltState := rfl
@[simp] theorem storeFetchableByte_brkptStatus (s : State) (a : Nat) (b : Byte) :
    (storeFetchableByte s a b).brkptStatus = s.brkptStatus := rfl
@[simp] theorem storeFetchableByte_nmiPending (s : State) (a : Nat) (b : Byte) :
    (storeFetchableByte s a b).nmiPending = s.nmiPending := rfl
@[simp] theorem storeFetchableByte_dbusErr (s : State) (a : Nat) (b : Byte) :
    (storeFetchableByte s a b).dbusErr = s.dbusErr := rfl
@[simp] theorem storeFetchableByte_mdseacLocked (s : State) (a : Nat) (b : Byte) :
    (storeFetchableByte s a b).mdseacLocked = s.mdseacLocked := rfl
@[simp] theorem storeFetchableByte_pauseCount (s : State) (a : Nat) (b : Byte) :
    (storeFetchableByte s a b).pauseCount = s.pauseCount := rfl
@[simp] theorem storeFetchableByte_waits (s : State) (a : Nat) (b : Byte) :
    (storeFetchableByte s a b).waits = s.waits := rfl
@[simp] theorem storeFetchableByte_pins (s : State) (a : Nat) (b : Byte) :
    (storeFetchableByte s a b).pins = s.pins := rfl
@[simp] theorem storeFetchableByte_seen (s : State) (a : Nat) (b : Byte) :
    (storeFetchableByte s a b).seen = s.seen := rfl
@[simp] theorem storeFetchableByte_lines (s : State) (a : Nat) (b : Byte) :
    (storeFetchableByte s a b).lines = s.lines := rfl
@[simp] theorem storeFetchableByte_devReq (s : State) (a : Nat) (b : Byte) :
    (storeFetchableByte s a b).devReq = s.devReq := rfl
@[simp] theorem storeFetchableByte_deviceTrace (s : State) (a : Nat) (b : Byte) :
    (storeFetchableByte s a b).deviceTrace = s.deviceTrace := rfl
@[simp] theorem storeFetchableByte_dmaResponse (s : State) (a : Nat) (b : Byte) :
    (storeFetchableByte s a b).dmaResponse = s.dmaResponse := rfl
@[simp] theorem storeFetchableByte_dbgData (s : State) (a : Nat) (b : Byte) :
    (storeFetchableByte s a b).dbgData = s.dbgData := rfl
@[simp] theorem storeFetchableByte_cfg (s : State) (a : Nat) (b : Byte) :
    (storeFetchableByte s a b).cfg = s.cfg := rfl
@[simp] theorem storeFetchableByte_inputs (s : State) (a : Nat) (b : Byte) :
    (storeFetchableByte s a b).inputs = s.inputs := rfl
@[simp] theorem storeFetchableByte_stepNo (s : State) (a : Nat) (b : Byte) :
    (storeFetchableByte s a b).stepNo = s.stepNo := rfl

/-! ## Marking check bits -/

@[simp] theorem setEcc_regs (s : State) (w : Nat) (e : EccState) :
    (setEcc s w e).regs = s.regs := rfl
@[simp] theorem setEcc_pc (s : State) (w : Nat) (e : EccState) :
    (setEcc s w e).pc = s.pc := rfl
@[simp] theorem setEcc_csr (s : State) (w : Nat) (e : EccState) :
    (setEcc s w e).csr = s.csr := rfl
@[simp] theorem setEcc_counters (s : State) (w : Nat) (e : EccState) :
    (setEcc s w e).counters = s.counters := rfl
@[simp] theorem setEcc_pic (s : State) (w : Nat) (e : EccState) :
    (setEcc s w e).pic = s.pic := rfl
@[simp] theorem setEcc_picQueue (s : State) (w : Nat) (e : EccState) :
    (setEcc s w e).picQueue = s.picQueue := rfl
@[simp] theorem setEcc_mem (s : State) (w : Nat) (e : EccState) :
    (setEcc s w e).mem = s.mem := rfl
@[simp] theorem setEcc_ecc (s : State) (w : Nat) (e : EccState) :
    (setEcc s w e).ecc = cellSet s.ecc w e := rfl
@[simp] theorem setEcc_stale (s : State) (w : Nat) (e : EccState) :
    (setEcc s w e).stale = s.stale := rfl
@[simp] theorem setEcc_unfenced (s : State) (w : Nat) (e : EccState) :
    (setEcc s w e).unfenced = s.unfenced := rfl
@[simp] theorem setEcc_unfencedEcc (s : State) (w : Nat) (e : EccState) :
    (setEcc s w e).unfencedEcc = s.unfencedEcc := rfl
@[simp] theorem setEcc_wb (s : State) (w : Nat) (e : EccState) :
    (setEcc s w e).wb = s.wb := rfl
@[simp] theorem setEcc_responses (s : State) (w : Nat) (e : EccState) :
    (setEcc s w e).responses = s.responses := rfl
@[simp] theorem setEcc_mracData (s : State) (w : Nat) (e : EccState) :
    (setEcc s w e).mracData = s.mracData := rfl
@[simp] theorem setEcc_mracFetch (s : State) (w : Nat) (e : EccState) :
    (setEcc s w e).mracFetch = s.mracFetch := rfl
@[simp] theorem setEcc_mfdcOld (s : State) (w : Nat) (e : EccState) :
    (setEcc s w e).mfdcOld = s.mfdcOld := rfl
@[simp] theorem setEcc_fenced (s : State) (w : Nat) (e : EccState) :
    (setEcc s w e).fenced = s.fenced := rfl
@[simp] theorem setEcc_fencesDue (s : State) (w : Nat) (e : EccState) :
    (setEcc s w e).fencesDue = s.fencesDue := rfl
@[simp] theorem setEcc_icache (s : State) (w : Nat) (e : EccState) :
    (setEcc s w e).icache = s.icache := rfl
@[simp] theorem setEcc_activity (s : State) (w : Nat) (e : EccState) :
    (setEcc s w e).activity = s.activity := rfl
@[simp] theorem setEcc_stepping (s : State) (w : Nat) (e : EccState) :
    (setEcc s w e).stepping = s.stepping := rfl
@[simp] theorem setEcc_dbgHaltState (s : State) (w : Nat) (e : EccState) :
    (setEcc s w e).dbgHaltState = s.dbgHaltState := rfl
@[simp] theorem setEcc_mpcHaltState (s : State) (w : Nat) (e : EccState) :
    (setEcc s w e).mpcHaltState = s.mpcHaltState := rfl
@[simp] theorem setEcc_brkptStatus (s : State) (w : Nat) (e : EccState) :
    (setEcc s w e).brkptStatus = s.brkptStatus := rfl
@[simp] theorem setEcc_nmiPending (s : State) (w : Nat) (e : EccState) :
    (setEcc s w e).nmiPending = s.nmiPending := rfl
@[simp] theorem setEcc_dbusErr (s : State) (w : Nat) (e : EccState) :
    (setEcc s w e).dbusErr = s.dbusErr := rfl
@[simp] theorem setEcc_mdseacLocked (s : State) (w : Nat) (e : EccState) :
    (setEcc s w e).mdseacLocked = s.mdseacLocked := rfl
@[simp] theorem setEcc_pauseCount (s : State) (w : Nat) (e : EccState) :
    (setEcc s w e).pauseCount = s.pauseCount := rfl
@[simp] theorem setEcc_waits (s : State) (w : Nat) (e : EccState) :
    (setEcc s w e).waits = s.waits := rfl
@[simp] theorem setEcc_pins (s : State) (w : Nat) (e : EccState) :
    (setEcc s w e).pins = s.pins := rfl
@[simp] theorem setEcc_seen (s : State) (w : Nat) (e : EccState) :
    (setEcc s w e).seen = s.seen := rfl
@[simp] theorem setEcc_lines (s : State) (w : Nat) (e : EccState) :
    (setEcc s w e).lines = s.lines := rfl
@[simp] theorem setEcc_devReq (s : State) (w : Nat) (e : EccState) :
    (setEcc s w e).devReq = s.devReq := rfl
@[simp] theorem setEcc_deviceTrace (s : State) (w : Nat) (e : EccState) :
    (setEcc s w e).deviceTrace = s.deviceTrace := rfl
@[simp] theorem setEcc_dmaResponse (s : State) (w : Nat) (e : EccState) :
    (setEcc s w e).dmaResponse = s.dmaResponse := rfl
@[simp] theorem setEcc_dbgData (s : State) (w : Nat) (e : EccState) :
    (setEcc s w e).dbgData = s.dbgData := rfl
@[simp] theorem setEcc_cfg (s : State) (w : Nat) (e : EccState) :
    (setEcc s w e).cfg = s.cfg := rfl
@[simp] theorem setEcc_inputs (s : State) (w : Nat) (e : EccState) :
    (setEcc s w e).inputs = s.inputs := rfl
@[simp] theorem setEcc_stepNo (s : State) (w : Nat) (e : EccState) :
    (setEcc s w e).stepNo = s.stepNo := rfl

/-! ## Marking check bits by a store -/

@[simp] theorem storeEcc_regs (s : State) (w : Nat) (e : EccState) :
    (storeEcc s w e).regs = s.regs := rfl
@[simp] theorem storeEcc_pc (s : State) (w : Nat) (e : EccState) :
    (storeEcc s w e).pc = s.pc := rfl
@[simp] theorem storeEcc_csr (s : State) (w : Nat) (e : EccState) :
    (storeEcc s w e).csr = s.csr := rfl
@[simp] theorem storeEcc_counters (s : State) (w : Nat) (e : EccState) :
    (storeEcc s w e).counters = s.counters := rfl
@[simp] theorem storeEcc_pic (s : State) (w : Nat) (e : EccState) :
    (storeEcc s w e).pic = s.pic := rfl
@[simp] theorem storeEcc_picQueue (s : State) (w : Nat) (e : EccState) :
    (storeEcc s w e).picQueue = s.picQueue := rfl
@[simp] theorem storeEcc_mem (s : State) (w : Nat) (e : EccState) :
    (storeEcc s w e).mem = s.mem := rfl
@[simp] theorem storeEcc_ecc (s : State) (w : Nat) (e : EccState) :
    (storeEcc s w e).ecc = cellSet s.ecc w e := rfl
@[simp] theorem storeEcc_stale (s : State) (w : Nat) (e : EccState) :
    (storeEcc s w e).stale = s.stale := rfl
@[simp] theorem storeEcc_unfenced (s : State) (w : Nat) (e : EccState) :
    (storeEcc s w e).unfenced = s.unfenced := rfl
@[simp] theorem storeEcc_unfencedEcc (s : State) (w : Nat) (e : EccState) :
    (storeEcc s w e).unfencedEcc = (w, cellGet s.ecc w) :: s.unfencedEcc := rfl
@[simp] theorem storeEcc_wb (s : State) (w : Nat) (e : EccState) :
    (storeEcc s w e).wb = s.wb := rfl
@[simp] theorem storeEcc_responses (s : State) (w : Nat) (e : EccState) :
    (storeEcc s w e).responses = s.responses := rfl
@[simp] theorem storeEcc_mracData (s : State) (w : Nat) (e : EccState) :
    (storeEcc s w e).mracData = s.mracData := rfl
@[simp] theorem storeEcc_mracFetch (s : State) (w : Nat) (e : EccState) :
    (storeEcc s w e).mracFetch = s.mracFetch := rfl
@[simp] theorem storeEcc_mfdcOld (s : State) (w : Nat) (e : EccState) :
    (storeEcc s w e).mfdcOld = s.mfdcOld := rfl
@[simp] theorem storeEcc_fenced (s : State) (w : Nat) (e : EccState) :
    (storeEcc s w e).fenced = s.fenced := rfl
@[simp] theorem storeEcc_fencesDue (s : State) (w : Nat) (e : EccState) :
    (storeEcc s w e).fencesDue = s.fencesDue := rfl
@[simp] theorem storeEcc_icache (s : State) (w : Nat) (e : EccState) :
    (storeEcc s w e).icache = s.icache := rfl
@[simp] theorem storeEcc_activity (s : State) (w : Nat) (e : EccState) :
    (storeEcc s w e).activity = s.activity := rfl
@[simp] theorem storeEcc_stepping (s : State) (w : Nat) (e : EccState) :
    (storeEcc s w e).stepping = s.stepping := rfl
@[simp] theorem storeEcc_dbgHaltState (s : State) (w : Nat) (e : EccState) :
    (storeEcc s w e).dbgHaltState = s.dbgHaltState := rfl
@[simp] theorem storeEcc_mpcHaltState (s : State) (w : Nat) (e : EccState) :
    (storeEcc s w e).mpcHaltState = s.mpcHaltState := rfl
@[simp] theorem storeEcc_brkptStatus (s : State) (w : Nat) (e : EccState) :
    (storeEcc s w e).brkptStatus = s.brkptStatus := rfl
@[simp] theorem storeEcc_nmiPending (s : State) (w : Nat) (e : EccState) :
    (storeEcc s w e).nmiPending = s.nmiPending := rfl
@[simp] theorem storeEcc_dbusErr (s : State) (w : Nat) (e : EccState) :
    (storeEcc s w e).dbusErr = s.dbusErr := rfl
@[simp] theorem storeEcc_mdseacLocked (s : State) (w : Nat) (e : EccState) :
    (storeEcc s w e).mdseacLocked = s.mdseacLocked := rfl
@[simp] theorem storeEcc_pauseCount (s : State) (w : Nat) (e : EccState) :
    (storeEcc s w e).pauseCount = s.pauseCount := rfl
@[simp] theorem storeEcc_waits (s : State) (w : Nat) (e : EccState) :
    (storeEcc s w e).waits = s.waits := rfl
@[simp] theorem storeEcc_pins (s : State) (w : Nat) (e : EccState) :
    (storeEcc s w e).pins = s.pins := rfl
@[simp] theorem storeEcc_seen (s : State) (w : Nat) (e : EccState) :
    (storeEcc s w e).seen = s.seen := rfl
@[simp] theorem storeEcc_lines (s : State) (w : Nat) (e : EccState) :
    (storeEcc s w e).lines = s.lines := rfl
@[simp] theorem storeEcc_devReq (s : State) (w : Nat) (e : EccState) :
    (storeEcc s w e).devReq = s.devReq := rfl
@[simp] theorem storeEcc_deviceTrace (s : State) (w : Nat) (e : EccState) :
    (storeEcc s w e).deviceTrace = s.deviceTrace := rfl
@[simp] theorem storeEcc_dmaResponse (s : State) (w : Nat) (e : EccState) :
    (storeEcc s w e).dmaResponse = s.dmaResponse := rfl
@[simp] theorem storeEcc_dbgData (s : State) (w : Nat) (e : EccState) :
    (storeEcc s w e).dbgData = s.dbgData := rfl
@[simp] theorem storeEcc_cfg (s : State) (w : Nat) (e : EccState) :
    (storeEcc s w e).cfg = s.cfg := rfl
@[simp] theorem storeEcc_inputs (s : State) (w : Nat) (e : EccState) :
    (storeEcc s w e).inputs = s.inputs := rfl
@[simp] theorem storeEcc_stepNo (s : State) (w : Nat) (e : EccState) :
    (storeEcc s w e).stepNo = s.stepNo := rfl

/-! ## Sending a transaction -/

@[simp] theorem sendTransaction_regs (s : State) (r : BusResponse) :
    (sendTransaction s r).regs = s.regs := rfl
@[simp] theorem sendTransaction_pc (s : State) (r : BusResponse) :
    (sendTransaction s r).pc = s.pc := rfl
@[simp] theorem sendTransaction_csr (s : State) (r : BusResponse) :
    (sendTransaction s r).csr = s.csr := rfl
@[simp] theorem sendTransaction_counters (s : State) (r : BusResponse) :
    (sendTransaction s r).counters = s.counters := rfl
@[simp] theorem sendTransaction_pic (s : State) (r : BusResponse) :
    (sendTransaction s r).pic = s.pic := rfl
@[simp] theorem sendTransaction_picQueue (s : State) (r : BusResponse) :
    (sendTransaction s r).picQueue = s.picQueue := rfl
@[simp] theorem sendTransaction_mem (s : State) (r : BusResponse) :
    (sendTransaction s r).mem = s.mem := rfl
@[simp] theorem sendTransaction_ecc (s : State) (r : BusResponse) :
    (sendTransaction s r).ecc = s.ecc := rfl
@[simp] theorem sendTransaction_stale (s : State) (r : BusResponse) :
    (sendTransaction s r).stale = s.stale := rfl
@[simp] theorem sendTransaction_unfenced (s : State) (r : BusResponse) :
    (sendTransaction s r).unfenced = s.unfenced := rfl
@[simp] theorem sendTransaction_unfencedEcc (s : State) (r : BusResponse) :
    (sendTransaction s r).unfencedEcc = s.unfencedEcc := rfl
@[simp] theorem sendTransaction_wb (s : State) (r : BusResponse) :
    (sendTransaction s r).wb = s.wb := rfl
@[simp] theorem sendTransaction_responses (s : State) (r : BusResponse) :
    (sendTransaction s r).responses = s.responses ++ [r] := rfl
@[simp] theorem sendTransaction_mracData (s : State) (r : BusResponse) :
    (sendTransaction s r).mracData = s.mracData := rfl
@[simp] theorem sendTransaction_mracFetch (s : State) (r : BusResponse) :
    (sendTransaction s r).mracFetch = s.mracFetch := rfl
@[simp] theorem sendTransaction_mfdcOld (s : State) (r : BusResponse) :
    (sendTransaction s r).mfdcOld = s.mfdcOld := rfl
@[simp] theorem sendTransaction_fenced (s : State) (r : BusResponse) :
    (sendTransaction s r).fenced = s.fenced := rfl
@[simp] theorem sendTransaction_fencesDue (s : State) (r : BusResponse) :
    (sendTransaction s r).fencesDue = s.fencesDue := rfl
@[simp] theorem sendTransaction_icache (s : State) (r : BusResponse) :
    (sendTransaction s r).icache = s.icache := rfl
@[simp] theorem sendTransaction_activity (s : State) (r : BusResponse) :
    (sendTransaction s r).activity = s.activity := rfl
@[simp] theorem sendTransaction_stepping (s : State) (r : BusResponse) :
    (sendTransaction s r).stepping = s.stepping := rfl
@[simp] theorem sendTransaction_dbgHaltState (s : State) (r : BusResponse) :
    (sendTransaction s r).dbgHaltState = s.dbgHaltState := rfl
@[simp] theorem sendTransaction_mpcHaltState (s : State) (r : BusResponse) :
    (sendTransaction s r).mpcHaltState = s.mpcHaltState := rfl
@[simp] theorem sendTransaction_brkptStatus (s : State) (r : BusResponse) :
    (sendTransaction s r).brkptStatus = s.brkptStatus := rfl
@[simp] theorem sendTransaction_nmiPending (s : State) (r : BusResponse) :
    (sendTransaction s r).nmiPending = s.nmiPending := rfl
@[simp] theorem sendTransaction_dbusErr (s : State) (r : BusResponse) :
    (sendTransaction s r).dbusErr = s.dbusErr := rfl
@[simp] theorem sendTransaction_mdseacLocked (s : State) (r : BusResponse) :
    (sendTransaction s r).mdseacLocked = s.mdseacLocked := rfl
@[simp] theorem sendTransaction_pauseCount (s : State) (r : BusResponse) :
    (sendTransaction s r).pauseCount = s.pauseCount := rfl
@[simp] theorem sendTransaction_waits (s : State) (r : BusResponse) :
    (sendTransaction s r).waits = s.waits := rfl
@[simp] theorem sendTransaction_pins (s : State) (r : BusResponse) :
    (sendTransaction s r).pins = s.pins := rfl
@[simp] theorem sendTransaction_seen (s : State) (r : BusResponse) :
    (sendTransaction s r).seen = s.seen := rfl
@[simp] theorem sendTransaction_lines (s : State) (r : BusResponse) :
    (sendTransaction s r).lines = s.lines := rfl
@[simp] theorem sendTransaction_devReq (s : State) (r : BusResponse) :
    (sendTransaction s r).devReq = s.devReq := rfl
@[simp] theorem sendTransaction_deviceTrace (s : State) (r : BusResponse) :
    (sendTransaction s r).deviceTrace = s.deviceTrace := rfl
@[simp] theorem sendTransaction_dmaResponse (s : State) (r : BusResponse) :
    (sendTransaction s r).dmaResponse = s.dmaResponse := rfl
@[simp] theorem sendTransaction_dbgData (s : State) (r : BusResponse) :
    (sendTransaction s r).dbgData = s.dbgData := rfl
@[simp] theorem sendTransaction_cfg (s : State) (r : BusResponse) :
    (sendTransaction s r).cfg = s.cfg := rfl
@[simp] theorem sendTransaction_inputs (s : State) (r : BusResponse) :
    (sendTransaction s r).inputs = s.inputs := rfl
@[simp] theorem sendTransaction_stepNo (s : State) (r : BusResponse) :
    (sendTransaction s r).stepNo = s.stepNo := rfl

/-! ## Buffering a store -/

@[simp] theorem bufferStore_regs (s : State) (k : Nat) (st : BusStore) :
    (bufferStore s k st).regs = s.regs := rfl
@[simp] theorem bufferStore_pc (s : State) (k : Nat) (st : BusStore) :
    (bufferStore s k st).pc = s.pc := rfl
@[simp] theorem bufferStore_csr (s : State) (k : Nat) (st : BusStore) :
    (bufferStore s k st).csr = s.csr := rfl
@[simp] theorem bufferStore_counters (s : State) (k : Nat) (st : BusStore) :
    (bufferStore s k st).counters = s.counters := rfl
@[simp] theorem bufferStore_pic (s : State) (k : Nat) (st : BusStore) :
    (bufferStore s k st).pic = s.pic := rfl
@[simp] theorem bufferStore_picQueue (s : State) (k : Nat) (st : BusStore) :
    (bufferStore s k st).picQueue = s.picQueue := rfl
@[simp] theorem bufferStore_mem (s : State) (k : Nat) (st : BusStore) :
    (bufferStore s k st).mem = s.mem := rfl
@[simp] theorem bufferStore_ecc (s : State) (k : Nat) (st : BusStore) :
    (bufferStore s k st).ecc = s.ecc := rfl
@[simp] theorem bufferStore_stale (s : State) (k : Nat) (st : BusStore) :
    (bufferStore s k st).stale = s.stale := rfl
@[simp] theorem bufferStore_unfenced (s : State) (k : Nat) (st : BusStore) :
    (bufferStore s k st).unfenced = s.unfenced := rfl
@[simp] theorem bufferStore_unfencedEcc (s : State) (k : Nat) (st : BusStore) :
    (bufferStore s k st).unfencedEcc = s.unfencedEcc := rfl
@[simp] theorem bufferStore_wb (s : State) (k : Nat) (st : BusStore) :
    (bufferStore s k st).wb = s.wb ++ [{ st with joined := coalesced s k st }] := rfl
@[simp] theorem bufferStore_responses (s : State) (k : Nat) (st : BusStore) :
    (bufferStore s k st).responses = s.responses := rfl
@[simp] theorem bufferStore_mracData (s : State) (k : Nat) (st : BusStore) :
    (bufferStore s k st).mracData = s.mracData := rfl
@[simp] theorem bufferStore_mracFetch (s : State) (k : Nat) (st : BusStore) :
    (bufferStore s k st).mracFetch = s.mracFetch := rfl
@[simp] theorem bufferStore_mfdcOld (s : State) (k : Nat) (st : BusStore) :
    (bufferStore s k st).mfdcOld = s.mfdcOld := rfl
@[simp] theorem bufferStore_fenced (s : State) (k : Nat) (st : BusStore) :
    (bufferStore s k st).fenced = s.fenced := rfl
@[simp] theorem bufferStore_fencesDue (s : State) (k : Nat) (st : BusStore) :
    (bufferStore s k st).fencesDue = s.fencesDue := rfl
@[simp] theorem bufferStore_icache (s : State) (k : Nat) (st : BusStore) :
    (bufferStore s k st).icache = s.icache := rfl
@[simp] theorem bufferStore_activity (s : State) (k : Nat) (st : BusStore) :
    (bufferStore s k st).activity = s.activity := rfl
@[simp] theorem bufferStore_stepping (s : State) (k : Nat) (st : BusStore) :
    (bufferStore s k st).stepping = s.stepping := rfl
@[simp] theorem bufferStore_dbgHaltState (s : State) (k : Nat) (st : BusStore) :
    (bufferStore s k st).dbgHaltState = s.dbgHaltState := rfl
@[simp] theorem bufferStore_mpcHaltState (s : State) (k : Nat) (st : BusStore) :
    (bufferStore s k st).mpcHaltState = s.mpcHaltState := rfl
@[simp] theorem bufferStore_brkptStatus (s : State) (k : Nat) (st : BusStore) :
    (bufferStore s k st).brkptStatus = s.brkptStatus := rfl
@[simp] theorem bufferStore_nmiPending (s : State) (k : Nat) (st : BusStore) :
    (bufferStore s k st).nmiPending = s.nmiPending := rfl
@[simp] theorem bufferStore_dbusErr (s : State) (k : Nat) (st : BusStore) :
    (bufferStore s k st).dbusErr = s.dbusErr := rfl
@[simp] theorem bufferStore_mdseacLocked (s : State) (k : Nat) (st : BusStore) :
    (bufferStore s k st).mdseacLocked = s.mdseacLocked := rfl
@[simp] theorem bufferStore_pauseCount (s : State) (k : Nat) (st : BusStore) :
    (bufferStore s k st).pauseCount = s.pauseCount := rfl
@[simp] theorem bufferStore_waits (s : State) (k : Nat) (st : BusStore) :
    (bufferStore s k st).waits = s.waits := rfl
@[simp] theorem bufferStore_pins (s : State) (k : Nat) (st : BusStore) :
    (bufferStore s k st).pins = s.pins := rfl
@[simp] theorem bufferStore_seen (s : State) (k : Nat) (st : BusStore) :
    (bufferStore s k st).seen = s.seen := rfl
@[simp] theorem bufferStore_lines (s : State) (k : Nat) (st : BusStore) :
    (bufferStore s k st).lines = s.lines := rfl
@[simp] theorem bufferStore_devReq (s : State) (k : Nat) (st : BusStore) :
    (bufferStore s k st).devReq = s.devReq := rfl
@[simp] theorem bufferStore_deviceTrace (s : State) (k : Nat) (st : BusStore) :
    (bufferStore s k st).deviceTrace = s.deviceTrace := rfl
@[simp] theorem bufferStore_dmaResponse (s : State) (k : Nat) (st : BusStore) :
    (bufferStore s k st).dmaResponse = s.dmaResponse := rfl
@[simp] theorem bufferStore_dbgData (s : State) (k : Nat) (st : BusStore) :
    (bufferStore s k st).dbgData = s.dbgData := rfl
@[simp] theorem bufferStore_cfg (s : State) (k : Nat) (st : BusStore) :
    (bufferStore s k st).cfg = s.cfg := rfl
@[simp] theorem bufferStore_inputs (s : State) (k : Nat) (st : BusStore) :
    (bufferStore s k st).inputs = s.inputs := rfl
@[simp] theorem bufferStore_stepNo (s : State) (k : Nat) (st : BusStore) :
    (bufferStore s k st).stepNo = s.stepNo := rfl

/-! ## Settling the PIC -/

@[simp] theorem settlePic_regs (s : State) :
    (settlePic s).regs = s.regs := rfl
@[simp] theorem settlePic_pc (s : State) :
    (settlePic s).pc = s.pc := rfl
@[simp] theorem settlePic_csr (s : State) :
    (settlePic s).csr = s.csr := rfl
@[simp] theorem settlePic_counters (s : State) :
    (settlePic s).counters = s.counters := rfl
@[simp] theorem settlePic_pic (s : State) :
    (settlePic s).pic = picNewest s := rfl
@[simp] theorem settlePic_picQueue (s : State) :
    (settlePic s).picQueue = [] := rfl
@[simp] theorem settlePic_mem (s : State) :
    (settlePic s).mem = s.mem := rfl
@[simp] theorem settlePic_ecc (s : State) :
    (settlePic s).ecc = s.ecc := rfl
@[simp] theorem settlePic_stale (s : State) :
    (settlePic s).stale = s.stale := rfl
@[simp] theorem settlePic_unfenced (s : State) :
    (settlePic s).unfenced = s.unfenced := rfl
@[simp] theorem settlePic_unfencedEcc (s : State) :
    (settlePic s).unfencedEcc = s.unfencedEcc := rfl
@[simp] theorem settlePic_wb (s : State) :
    (settlePic s).wb = s.wb := rfl
@[simp] theorem settlePic_responses (s : State) :
    (settlePic s).responses = s.responses := rfl
@[simp] theorem settlePic_mracData (s : State) :
    (settlePic s).mracData = s.mracData := rfl
@[simp] theorem settlePic_mracFetch (s : State) :
    (settlePic s).mracFetch = s.mracFetch := rfl
@[simp] theorem settlePic_mfdcOld (s : State) :
    (settlePic s).mfdcOld = s.mfdcOld := rfl
@[simp] theorem settlePic_fenced (s : State) :
    (settlePic s).fenced = s.fenced := rfl
@[simp] theorem settlePic_fencesDue (s : State) :
    (settlePic s).fencesDue = s.fencesDue := rfl
@[simp] theorem settlePic_icache (s : State) :
    (settlePic s).icache = s.icache := rfl
@[simp] theorem settlePic_activity (s : State) :
    (settlePic s).activity = s.activity := rfl
@[simp] theorem settlePic_stepping (s : State) :
    (settlePic s).stepping = s.stepping := rfl
@[simp] theorem settlePic_dbgHaltState (s : State) :
    (settlePic s).dbgHaltState = s.dbgHaltState := rfl
@[simp] theorem settlePic_mpcHaltState (s : State) :
    (settlePic s).mpcHaltState = s.mpcHaltState := rfl
@[simp] theorem settlePic_brkptStatus (s : State) :
    (settlePic s).brkptStatus = s.brkptStatus := rfl
@[simp] theorem settlePic_nmiPending (s : State) :
    (settlePic s).nmiPending = s.nmiPending := rfl
@[simp] theorem settlePic_dbusErr (s : State) :
    (settlePic s).dbusErr = s.dbusErr := rfl
@[simp] theorem settlePic_mdseacLocked (s : State) :
    (settlePic s).mdseacLocked = s.mdseacLocked := rfl
@[simp] theorem settlePic_pauseCount (s : State) :
    (settlePic s).pauseCount = s.pauseCount := rfl
@[simp] theorem settlePic_waits (s : State) :
    (settlePic s).waits = s.waits := rfl
@[simp] theorem settlePic_pins (s : State) :
    (settlePic s).pins = s.pins := rfl
@[simp] theorem settlePic_seen (s : State) :
    (settlePic s).seen = s.seen := rfl
@[simp] theorem settlePic_lines (s : State) :
    (settlePic s).lines = s.lines := rfl
@[simp] theorem settlePic_devReq (s : State) :
    (settlePic s).devReq = s.devReq := rfl
@[simp] theorem settlePic_deviceTrace (s : State) :
    (settlePic s).deviceTrace = s.deviceTrace := rfl
@[simp] theorem settlePic_dmaResponse (s : State) :
    (settlePic s).dmaResponse = s.dmaResponse := rfl
@[simp] theorem settlePic_dbgData (s : State) :
    (settlePic s).dbgData = s.dbgData := rfl
@[simp] theorem settlePic_cfg (s : State) :
    (settlePic s).cfg = s.cfg := rfl
@[simp] theorem settlePic_inputs (s : State) :
    (settlePic s).inputs = s.inputs := rfl
@[simp] theorem settlePic_stepNo (s : State) :
    (settlePic s).stepNo = s.stepNo := rfl

/-! ## A FENCE.I completes -/

@[simp] theorem recordFenceI_regs (s : State) :
    (recordFenceI s).regs = s.regs := rfl
@[simp] theorem recordFenceI_pc (s : State) :
    (recordFenceI s).pc = s.pc := rfl
@[simp] theorem recordFenceI_csr (s : State) :
    (recordFenceI s).csr = s.csr := rfl
@[simp] theorem recordFenceI_counters (s : State) :
    (recordFenceI s).counters = s.counters := rfl
@[simp] theorem recordFenceI_pic (s : State) :
    (recordFenceI s).pic = s.pic := rfl
@[simp] theorem recordFenceI_picQueue (s : State) :
    (recordFenceI s).picQueue = s.picQueue := rfl
@[simp] theorem recordFenceI_mem (s : State) :
    (recordFenceI s).mem = s.mem := rfl
@[simp] theorem recordFenceI_ecc (s : State) :
    (recordFenceI s).ecc = s.ecc := rfl
@[simp] theorem recordFenceI_stale (s : State) :
    (recordFenceI s).stale = s.stale := rfl
@[simp] theorem recordFenceI_unfenced (s : State) :
    (recordFenceI s).unfenced = s.unfenced := rfl
@[simp] theorem recordFenceI_unfencedEcc (s : State) :
    (recordFenceI s).unfencedEcc = s.unfencedEcc := rfl
@[simp] theorem recordFenceI_wb (s : State) :
    (recordFenceI s).wb = s.wb := rfl
@[simp] theorem recordFenceI_responses (s : State) :
    (recordFenceI s).responses = s.responses := rfl
@[simp] theorem recordFenceI_mracData (s : State) :
    (recordFenceI s).mracData = s.mracData := rfl
@[simp] theorem recordFenceI_mracFetch (s : State) :
    (recordFenceI s).mracFetch = s.mracFetch := rfl
@[simp] theorem recordFenceI_mfdcOld (s : State) :
    (recordFenceI s).mfdcOld = s.mfdcOld := rfl
@[simp] theorem recordFenceI_fenced (s : State) :
    (recordFenceI s).fenced = (s.pc + 4) :: s.fenced.erase (s.pc + 4) := rfl
@[simp] theorem recordFenceI_fencesDue (s : State) :
    (recordFenceI s).fencesDue = s.fencesDue.erase s.pc := rfl
@[simp] theorem recordFenceI_icache (s : State) :
    (recordFenceI s).icache = s.icache := rfl
@[simp] theorem recordFenceI_activity (s : State) :
    (recordFenceI s).activity = s.activity := rfl
@[simp] theorem recordFenceI_stepping (s : State) :
    (recordFenceI s).stepping = s.stepping := rfl
@[simp] theorem recordFenceI_dbgHaltState (s : State) :
    (recordFenceI s).dbgHaltState = s.dbgHaltState := rfl
@[simp] theorem recordFenceI_mpcHaltState (s : State) :
    (recordFenceI s).mpcHaltState = s.mpcHaltState := rfl
@[simp] theorem recordFenceI_brkptStatus (s : State) :
    (recordFenceI s).brkptStatus = s.brkptStatus := rfl
@[simp] theorem recordFenceI_nmiPending (s : State) :
    (recordFenceI s).nmiPending = s.nmiPending := rfl
@[simp] theorem recordFenceI_dbusErr (s : State) :
    (recordFenceI s).dbusErr = s.dbusErr := rfl
@[simp] theorem recordFenceI_mdseacLocked (s : State) :
    (recordFenceI s).mdseacLocked = s.mdseacLocked := rfl
@[simp] theorem recordFenceI_pauseCount (s : State) :
    (recordFenceI s).pauseCount = s.pauseCount := rfl
@[simp] theorem recordFenceI_waits (s : State) :
    (recordFenceI s).waits = s.waits := rfl
@[simp] theorem recordFenceI_pins (s : State) :
    (recordFenceI s).pins = s.pins := rfl
@[simp] theorem recordFenceI_seen (s : State) :
    (recordFenceI s).seen = s.seen := rfl
@[simp] theorem recordFenceI_lines (s : State) :
    (recordFenceI s).lines = s.lines := rfl
@[simp] theorem recordFenceI_devReq (s : State) :
    (recordFenceI s).devReq = s.devReq := rfl
@[simp] theorem recordFenceI_deviceTrace (s : State) :
    (recordFenceI s).deviceTrace = s.deviceTrace := rfl
@[simp] theorem recordFenceI_dmaResponse (s : State) :
    (recordFenceI s).dmaResponse = s.dmaResponse := rfl
@[simp] theorem recordFenceI_dbgData (s : State) :
    (recordFenceI s).dbgData = s.dbgData := rfl
@[simp] theorem recordFenceI_cfg (s : State) :
    (recordFenceI s).cfg = s.cfg := rfl
@[simp] theorem recordFenceI_inputs (s : State) :
    (recordFenceI s).inputs = s.inputs := rfl
@[simp] theorem recordFenceI_stepNo (s : State) :
    (recordFenceI s).stepNo = s.stepNo := rfl

/-! ## A write of mfdc completes -/

@[simp] theorem recordMfdcWrite_regs (s : State) :
    (recordMfdcWrite s).regs = s.regs := by
  unfold recordMfdcWrite; split <;> rfl
@[simp] theorem recordMfdcWrite_pc (s : State) :
    (recordMfdcWrite s).pc = s.pc := by
  unfold recordMfdcWrite; split <;> rfl
@[simp] theorem recordMfdcWrite_csr (s : State) :
    (recordMfdcWrite s).csr = s.csr := by
  unfold recordMfdcWrite; split <;> rfl
@[simp] theorem recordMfdcWrite_counters (s : State) :
    (recordMfdcWrite s).counters = s.counters := by
  unfold recordMfdcWrite; split <;> rfl
@[simp] theorem recordMfdcWrite_pic (s : State) :
    (recordMfdcWrite s).pic = s.pic := by
  unfold recordMfdcWrite; split <;> rfl
@[simp] theorem recordMfdcWrite_picQueue (s : State) :
    (recordMfdcWrite s).picQueue = s.picQueue := by
  unfold recordMfdcWrite; split <;> rfl
@[simp] theorem recordMfdcWrite_mem (s : State) :
    (recordMfdcWrite s).mem = s.mem := by
  unfold recordMfdcWrite; split <;> rfl
@[simp] theorem recordMfdcWrite_ecc (s : State) :
    (recordMfdcWrite s).ecc = s.ecc := by
  unfold recordMfdcWrite; split <;> rfl
@[simp] theorem recordMfdcWrite_stale (s : State) :
    (recordMfdcWrite s).stale = s.stale := by
  unfold recordMfdcWrite; split <;> rfl
@[simp] theorem recordMfdcWrite_unfenced (s : State) :
    (recordMfdcWrite s).unfenced = s.unfenced := by
  unfold recordMfdcWrite; split <;> rfl
@[simp] theorem recordMfdcWrite_unfencedEcc (s : State) :
    (recordMfdcWrite s).unfencedEcc = s.unfencedEcc := by
  unfold recordMfdcWrite; split <;> rfl
@[simp] theorem recordMfdcWrite_wb (s : State) :
    (recordMfdcWrite s).wb = s.wb := by
  unfold recordMfdcWrite; split <;> rfl
@[simp] theorem recordMfdcWrite_responses (s : State) :
    (recordMfdcWrite s).responses = s.responses := by
  unfold recordMfdcWrite; split <;> rfl
@[simp] theorem recordMfdcWrite_mracData (s : State) :
    (recordMfdcWrite s).mracData = s.mracData := by
  unfold recordMfdcWrite; split <;> rfl
@[simp] theorem recordMfdcWrite_mracFetch (s : State) :
    (recordMfdcWrite s).mracFetch = s.mracFetch := by
  unfold recordMfdcWrite; split <;> rfl
@[simp] theorem recordMfdcWrite_mfdcOld (s : State) :
    (recordMfdcWrite s).mfdcOld = s.mfdcOld := by
  unfold recordMfdcWrite; split <;> rfl
@[simp] theorem recordMfdcWrite_icache (s : State) :
    (recordMfdcWrite s).icache = s.icache := by
  unfold recordMfdcWrite; split <;> rfl
@[simp] theorem recordMfdcWrite_activity (s : State) :
    (recordMfdcWrite s).activity = s.activity := by
  unfold recordMfdcWrite; split <;> rfl
@[simp] theorem recordMfdcWrite_stepping (s : State) :
    (recordMfdcWrite s).stepping = s.stepping := by
  unfold recordMfdcWrite; split <;> rfl
@[simp] theorem recordMfdcWrite_dbgHaltState (s : State) :
    (recordMfdcWrite s).dbgHaltState = s.dbgHaltState := by
  unfold recordMfdcWrite; split <;> rfl
@[simp] theorem recordMfdcWrite_mpcHaltState (s : State) :
    (recordMfdcWrite s).mpcHaltState = s.mpcHaltState := by
  unfold recordMfdcWrite; split <;> rfl
@[simp] theorem recordMfdcWrite_brkptStatus (s : State) :
    (recordMfdcWrite s).brkptStatus = s.brkptStatus := by
  unfold recordMfdcWrite; split <;> rfl
@[simp] theorem recordMfdcWrite_nmiPending (s : State) :
    (recordMfdcWrite s).nmiPending = s.nmiPending := by
  unfold recordMfdcWrite; split <;> rfl
@[simp] theorem recordMfdcWrite_dbusErr (s : State) :
    (recordMfdcWrite s).dbusErr = s.dbusErr := by
  unfold recordMfdcWrite; split <;> rfl
@[simp] theorem recordMfdcWrite_mdseacLocked (s : State) :
    (recordMfdcWrite s).mdseacLocked = s.mdseacLocked := by
  unfold recordMfdcWrite; split <;> rfl
@[simp] theorem recordMfdcWrite_pauseCount (s : State) :
    (recordMfdcWrite s).pauseCount = s.pauseCount := by
  unfold recordMfdcWrite; split <;> rfl
@[simp] theorem recordMfdcWrite_waits (s : State) :
    (recordMfdcWrite s).waits = s.waits := by
  unfold recordMfdcWrite; split <;> rfl
@[simp] theorem recordMfdcWrite_pins (s : State) :
    (recordMfdcWrite s).pins = s.pins := by
  unfold recordMfdcWrite; split <;> rfl
@[simp] theorem recordMfdcWrite_seen (s : State) :
    (recordMfdcWrite s).seen = s.seen := by
  unfold recordMfdcWrite; split <;> rfl
@[simp] theorem recordMfdcWrite_lines (s : State) :
    (recordMfdcWrite s).lines = s.lines := by
  unfold recordMfdcWrite; split <;> rfl
@[simp] theorem recordMfdcWrite_devReq (s : State) :
    (recordMfdcWrite s).devReq = s.devReq := by
  unfold recordMfdcWrite; split <;> rfl
@[simp] theorem recordMfdcWrite_deviceTrace (s : State) :
    (recordMfdcWrite s).deviceTrace = s.deviceTrace := by
  unfold recordMfdcWrite; split <;> rfl
@[simp] theorem recordMfdcWrite_dmaResponse (s : State) :
    (recordMfdcWrite s).dmaResponse = s.dmaResponse := by
  unfold recordMfdcWrite; split <;> rfl
@[simp] theorem recordMfdcWrite_dbgData (s : State) :
    (recordMfdcWrite s).dbgData = s.dbgData := by
  unfold recordMfdcWrite; split <;> rfl
@[simp] theorem recordMfdcWrite_cfg (s : State) :
    (recordMfdcWrite s).cfg = s.cfg := by
  unfold recordMfdcWrite; split <;> rfl
@[simp] theorem recordMfdcWrite_inputs (s : State) :
    (recordMfdcWrite s).inputs = s.inputs := by
  unfold recordMfdcWrite; split <;> rfl
@[simp] theorem recordMfdcWrite_stepNo (s : State) :
    (recordMfdcWrite s).stepNo = s.stepNo := by
  unfold recordMfdcWrite; split <;> rfl

/-! ## Entering a trap -/

@[simp] theorem enterTrap_regs (s : State) (c v t : Word) :
    (enterTrap s c v t).regs = s.regs := rfl
@[simp] theorem enterTrap_pc (s : State) (c v t : Word) :
    (enterTrap s c v t).pc = t := rfl
@[simp] theorem enterTrap_counters (s : State) (c v t : Word) :
    (enterTrap s c v t).counters = s.counters := rfl
@[simp] theorem enterTrap_pic (s : State) (c v t : Word) :
    (enterTrap s c v t).pic = s.pic := rfl
@[simp] theorem enterTrap_picQueue (s : State) (c v t : Word) :
    (enterTrap s c v t).picQueue = s.picQueue := rfl
@[simp] theorem enterTrap_mem (s : State) (c v t : Word) :
    (enterTrap s c v t).mem = s.mem := rfl
@[simp] theorem enterTrap_ecc (s : State) (c v t : Word) :
    (enterTrap s c v t).ecc = s.ecc := rfl
@[simp] theorem enterTrap_stale (s : State) (c v t : Word) :
    (enterTrap s c v t).stale = s.stale := rfl
@[simp] theorem enterTrap_unfenced (s : State) (c v t : Word) :
    (enterTrap s c v t).unfenced = s.unfenced := rfl
@[simp] theorem enterTrap_unfencedEcc (s : State) (c v t : Word) :
    (enterTrap s c v t).unfencedEcc = s.unfencedEcc := rfl
@[simp] theorem enterTrap_wb (s : State) (c v t : Word) :
    (enterTrap s c v t).wb = s.wb := rfl
@[simp] theorem enterTrap_responses (s : State) (c v t : Word) :
    (enterTrap s c v t).responses = s.responses := rfl
@[simp] theorem enterTrap_mracData (s : State) (c v t : Word) :
    (enterTrap s c v t).mracData = s.mracData := rfl
@[simp] theorem enterTrap_mracFetch (s : State) (c v t : Word) :
    (enterTrap s c v t).mracFetch = s.mracFetch := rfl
@[simp] theorem enterTrap_mfdcOld (s : State) (c v t : Word) :
    (enterTrap s c v t).mfdcOld = s.mfdcOld := rfl
@[simp] theorem enterTrap_fenced (s : State) (c v t : Word) :
    (enterTrap s c v t).fenced = s.fenced := rfl
@[simp] theorem enterTrap_fencesDue (s : State) (c v t : Word) :
    (enterTrap s c v t).fencesDue = s.fencesDue := rfl
@[simp] theorem enterTrap_icache (s : State) (c v t : Word) :
    (enterTrap s c v t).icache = s.icache := rfl
@[simp] theorem enterTrap_activity (s : State) (c v t : Word) :
    (enterTrap s c v t).activity = s.activity := rfl
@[simp] theorem enterTrap_stepping (s : State) (c v t : Word) :
    (enterTrap s c v t).stepping = s.stepping := rfl
@[simp] theorem enterTrap_dbgHaltState (s : State) (c v t : Word) :
    (enterTrap s c v t).dbgHaltState = s.dbgHaltState := rfl
@[simp] theorem enterTrap_mpcHaltState (s : State) (c v t : Word) :
    (enterTrap s c v t).mpcHaltState = s.mpcHaltState := rfl
@[simp] theorem enterTrap_brkptStatus (s : State) (c v t : Word) :
    (enterTrap s c v t).brkptStatus = s.brkptStatus := rfl
@[simp] theorem enterTrap_nmiPending (s : State) (c v t : Word) :
    (enterTrap s c v t).nmiPending = s.nmiPending := rfl
@[simp] theorem enterTrap_dbusErr (s : State) (c v t : Word) :
    (enterTrap s c v t).dbusErr = s.dbusErr := rfl
@[simp] theorem enterTrap_mdseacLocked (s : State) (c v t : Word) :
    (enterTrap s c v t).mdseacLocked = s.mdseacLocked := rfl
@[simp] theorem enterTrap_pauseCount (s : State) (c v t : Word) :
    (enterTrap s c v t).pauseCount = s.pauseCount := rfl
@[simp] theorem enterTrap_waits (s : State) (c v t : Word) :
    (enterTrap s c v t).waits = s.waits := rfl
@[simp] theorem enterTrap_pins (s : State) (c v t : Word) :
    (enterTrap s c v t).pins = s.pins := rfl
@[simp] theorem enterTrap_seen (s : State) (c v t : Word) :
    (enterTrap s c v t).seen = s.seen := rfl
@[simp] theorem enterTrap_lines (s : State) (c v t : Word) :
    (enterTrap s c v t).lines = s.lines := rfl
@[simp] theorem enterTrap_devReq (s : State) (c v t : Word) :
    (enterTrap s c v t).devReq = s.devReq := rfl
@[simp] theorem enterTrap_deviceTrace (s : State) (c v t : Word) :
    (enterTrap s c v t).deviceTrace = s.deviceTrace := rfl
@[simp] theorem enterTrap_dmaResponse (s : State) (c v t : Word) :
    (enterTrap s c v t).dmaResponse = s.dmaResponse := rfl
@[simp] theorem enterTrap_dbgData (s : State) (c v t : Word) :
    (enterTrap s c v t).dbgData = s.dbgData := rfl
@[simp] theorem enterTrap_cfg (s : State) (c v t : Word) :
    (enterTrap s c v t).cfg = s.cfg := rfl
@[simp] theorem enterTrap_inputs (s : State) (c v t : Word) :
    (enterTrap s c v t).inputs = s.inputs := rfl
@[simp] theorem enterTrap_stepNo (s : State) (c v t : Word) :
    (enterTrap s c v t).stepNo = s.stepNo := rfl
@[simp] theorem enterTrap_csr (s : State) (c v t : Word) :
    (enterTrap s c v t).csr =
      { s.csr with mepc := s.pc, mcause := c, mtval := v, mstatus := trapStatus s.csr.mstatus } := rfl

/-! ## Returning from a trap -/

@[simp] theorem returnFromTrap_regs (s : State) :
    (returnFromTrap s).regs = s.regs := rfl
@[simp] theorem returnFromTrap_pc (s : State) :
    (returnFromTrap s).pc = s.csr.mepc := rfl
@[simp] theorem returnFromTrap_csr (s : State) :
    (returnFromTrap s).csr = { s.csr with mstatus := returnStatus s.csr.mstatus } := rfl
@[simp] theorem returnFromTrap_counters (s : State) :
    (returnFromTrap s).counters = s.counters := rfl
@[simp] theorem returnFromTrap_pic (s : State) :
    (returnFromTrap s).pic = s.pic := rfl
@[simp] theorem returnFromTrap_picQueue (s : State) :
    (returnFromTrap s).picQueue = s.picQueue := rfl
@[simp] theorem returnFromTrap_mem (s : State) :
    (returnFromTrap s).mem = s.mem := rfl
@[simp] theorem returnFromTrap_ecc (s : State) :
    (returnFromTrap s).ecc = s.ecc := rfl
@[simp] theorem returnFromTrap_stale (s : State) :
    (returnFromTrap s).stale = s.stale := rfl
@[simp] theorem returnFromTrap_unfenced (s : State) :
    (returnFromTrap s).unfenced = s.unfenced := rfl
@[simp] theorem returnFromTrap_unfencedEcc (s : State) :
    (returnFromTrap s).unfencedEcc = s.unfencedEcc := rfl
@[simp] theorem returnFromTrap_wb (s : State) :
    (returnFromTrap s).wb = s.wb := rfl
@[simp] theorem returnFromTrap_responses (s : State) :
    (returnFromTrap s).responses = s.responses := rfl
@[simp] theorem returnFromTrap_mracData (s : State) :
    (returnFromTrap s).mracData = s.mracData := rfl
@[simp] theorem returnFromTrap_mracFetch (s : State) :
    (returnFromTrap s).mracFetch = s.mracFetch := rfl
@[simp] theorem returnFromTrap_mfdcOld (s : State) :
    (returnFromTrap s).mfdcOld = s.mfdcOld := rfl
@[simp] theorem returnFromTrap_fenced (s : State) :
    (returnFromTrap s).fenced = s.fenced := rfl
@[simp] theorem returnFromTrap_fencesDue (s : State) :
    (returnFromTrap s).fencesDue = s.fencesDue := rfl
@[simp] theorem returnFromTrap_icache (s : State) :
    (returnFromTrap s).icache = s.icache := rfl
@[simp] theorem returnFromTrap_activity (s : State) :
    (returnFromTrap s).activity = s.activity := rfl
@[simp] theorem returnFromTrap_stepping (s : State) :
    (returnFromTrap s).stepping = s.stepping := rfl
@[simp] theorem returnFromTrap_dbgHaltState (s : State) :
    (returnFromTrap s).dbgHaltState = s.dbgHaltState := rfl
@[simp] theorem returnFromTrap_mpcHaltState (s : State) :
    (returnFromTrap s).mpcHaltState = s.mpcHaltState := rfl
@[simp] theorem returnFromTrap_brkptStatus (s : State) :
    (returnFromTrap s).brkptStatus = s.brkptStatus := rfl
@[simp] theorem returnFromTrap_nmiPending (s : State) :
    (returnFromTrap s).nmiPending = s.nmiPending := rfl
@[simp] theorem returnFromTrap_dbusErr (s : State) :
    (returnFromTrap s).dbusErr = s.dbusErr := rfl
@[simp] theorem returnFromTrap_mdseacLocked (s : State) :
    (returnFromTrap s).mdseacLocked = s.mdseacLocked := rfl
@[simp] theorem returnFromTrap_pauseCount (s : State) :
    (returnFromTrap s).pauseCount = s.pauseCount := rfl
@[simp] theorem returnFromTrap_waits (s : State) :
    (returnFromTrap s).waits = s.waits := rfl
@[simp] theorem returnFromTrap_pins (s : State) :
    (returnFromTrap s).pins = s.pins := rfl
@[simp] theorem returnFromTrap_seen (s : State) :
    (returnFromTrap s).seen = s.seen := rfl
@[simp] theorem returnFromTrap_lines (s : State) :
    (returnFromTrap s).lines = s.lines := rfl
@[simp] theorem returnFromTrap_devReq (s : State) :
    (returnFromTrap s).devReq = s.devReq := rfl
@[simp] theorem returnFromTrap_deviceTrace (s : State) :
    (returnFromTrap s).deviceTrace = s.deviceTrace := rfl
@[simp] theorem returnFromTrap_dmaResponse (s : State) :
    (returnFromTrap s).dmaResponse = s.dmaResponse := rfl
@[simp] theorem returnFromTrap_dbgData (s : State) :
    (returnFromTrap s).dbgData = s.dbgData := rfl
@[simp] theorem returnFromTrap_cfg (s : State) :
    (returnFromTrap s).cfg = s.cfg := rfl
@[simp] theorem returnFromTrap_inputs (s : State) :
    (returnFromTrap s).inputs = s.inputs := rfl
@[simp] theorem returnFromTrap_stepNo (s : State) :
    (returnFromTrap s).stepNo = s.stepNo := rfl

/-! ## Writing a register -/

@[simp] theorem setReg_pc (s : State) (i : Reg) (v : Word) :
    (setReg s i v).pc = s.pc := by
  unfold setReg; split <;> rfl
@[simp] theorem setReg_csr (s : State) (i : Reg) (v : Word) :
    (setReg s i v).csr = s.csr := by
  unfold setReg; split <;> rfl
@[simp] theorem setReg_counters (s : State) (i : Reg) (v : Word) :
    (setReg s i v).counters = s.counters := by
  unfold setReg; split <;> rfl
@[simp] theorem setReg_pic (s : State) (i : Reg) (v : Word) :
    (setReg s i v).pic = s.pic := by
  unfold setReg; split <;> rfl
@[simp] theorem setReg_picQueue (s : State) (i : Reg) (v : Word) :
    (setReg s i v).picQueue = s.picQueue := by
  unfold setReg; split <;> rfl
@[simp] theorem setReg_mem (s : State) (i : Reg) (v : Word) :
    (setReg s i v).mem = s.mem := by
  unfold setReg; split <;> rfl
@[simp] theorem setReg_ecc (s : State) (i : Reg) (v : Word) :
    (setReg s i v).ecc = s.ecc := by
  unfold setReg; split <;> rfl
@[simp] theorem setReg_stale (s : State) (i : Reg) (v : Word) :
    (setReg s i v).stale = s.stale := by
  unfold setReg; split <;> rfl
@[simp] theorem setReg_unfenced (s : State) (i : Reg) (v : Word) :
    (setReg s i v).unfenced = s.unfenced := by
  unfold setReg; split <;> rfl
@[simp] theorem setReg_unfencedEcc (s : State) (i : Reg) (v : Word) :
    (setReg s i v).unfencedEcc = s.unfencedEcc := by
  unfold setReg; split <;> rfl
@[simp] theorem setReg_wb (s : State) (i : Reg) (v : Word) :
    (setReg s i v).wb = s.wb := by
  unfold setReg; split <;> rfl
@[simp] theorem setReg_responses (s : State) (i : Reg) (v : Word) :
    (setReg s i v).responses = s.responses := by
  unfold setReg; split <;> rfl
@[simp] theorem setReg_mracData (s : State) (i : Reg) (v : Word) :
    (setReg s i v).mracData = s.mracData := by
  unfold setReg; split <;> rfl
@[simp] theorem setReg_mracFetch (s : State) (i : Reg) (v : Word) :
    (setReg s i v).mracFetch = s.mracFetch := by
  unfold setReg; split <;> rfl
@[simp] theorem setReg_mfdcOld (s : State) (i : Reg) (v : Word) :
    (setReg s i v).mfdcOld = s.mfdcOld := by
  unfold setReg; split <;> rfl
@[simp] theorem setReg_fenced (s : State) (i : Reg) (v : Word) :
    (setReg s i v).fenced = s.fenced := by
  unfold setReg; split <;> rfl
@[simp] theorem setReg_fencesDue (s : State) (i : Reg) (v : Word) :
    (setReg s i v).fencesDue = s.fencesDue := by
  unfold setReg; split <;> rfl
@[simp] theorem setReg_icache (s : State) (i : Reg) (v : Word) :
    (setReg s i v).icache = s.icache := by
  unfold setReg; split <;> rfl
@[simp] theorem setReg_activity (s : State) (i : Reg) (v : Word) :
    (setReg s i v).activity = s.activity := by
  unfold setReg; split <;> rfl
@[simp] theorem setReg_stepping (s : State) (i : Reg) (v : Word) :
    (setReg s i v).stepping = s.stepping := by
  unfold setReg; split <;> rfl
@[simp] theorem setReg_dbgHaltState (s : State) (i : Reg) (v : Word) :
    (setReg s i v).dbgHaltState = s.dbgHaltState := by
  unfold setReg; split <;> rfl
@[simp] theorem setReg_mpcHaltState (s : State) (i : Reg) (v : Word) :
    (setReg s i v).mpcHaltState = s.mpcHaltState := by
  unfold setReg; split <;> rfl
@[simp] theorem setReg_brkptStatus (s : State) (i : Reg) (v : Word) :
    (setReg s i v).brkptStatus = s.brkptStatus := by
  unfold setReg; split <;> rfl
@[simp] theorem setReg_nmiPending (s : State) (i : Reg) (v : Word) :
    (setReg s i v).nmiPending = s.nmiPending := by
  unfold setReg; split <;> rfl
@[simp] theorem setReg_dbusErr (s : State) (i : Reg) (v : Word) :
    (setReg s i v).dbusErr = s.dbusErr := by
  unfold setReg; split <;> rfl
@[simp] theorem setReg_mdseacLocked (s : State) (i : Reg) (v : Word) :
    (setReg s i v).mdseacLocked = s.mdseacLocked := by
  unfold setReg; split <;> rfl
@[simp] theorem setReg_pauseCount (s : State) (i : Reg) (v : Word) :
    (setReg s i v).pauseCount = s.pauseCount := by
  unfold setReg; split <;> rfl
@[simp] theorem setReg_waits (s : State) (i : Reg) (v : Word) :
    (setReg s i v).waits = s.waits := by
  unfold setReg; split <;> rfl
@[simp] theorem setReg_pins (s : State) (i : Reg) (v : Word) :
    (setReg s i v).pins = s.pins := by
  unfold setReg; split <;> rfl
@[simp] theorem setReg_seen (s : State) (i : Reg) (v : Word) :
    (setReg s i v).seen = s.seen := by
  unfold setReg; split <;> rfl
@[simp] theorem setReg_lines (s : State) (i : Reg) (v : Word) :
    (setReg s i v).lines = s.lines := by
  unfold setReg; split <;> rfl
@[simp] theorem setReg_devReq (s : State) (i : Reg) (v : Word) :
    (setReg s i v).devReq = s.devReq := by
  unfold setReg; split <;> rfl
@[simp] theorem setReg_deviceTrace (s : State) (i : Reg) (v : Word) :
    (setReg s i v).deviceTrace = s.deviceTrace := by
  unfold setReg; split <;> rfl
@[simp] theorem setReg_dmaResponse (s : State) (i : Reg) (v : Word) :
    (setReg s i v).dmaResponse = s.dmaResponse := by
  unfold setReg; split <;> rfl
@[simp] theorem setReg_dbgData (s : State) (i : Reg) (v : Word) :
    (setReg s i v).dbgData = s.dbgData := by
  unfold setReg; split <;> rfl
@[simp] theorem setReg_cfg (s : State) (i : Reg) (v : Word) :
    (setReg s i v).cfg = s.cfg := by
  unfold setReg; split <;> rfl
@[simp] theorem setReg_inputs (s : State) (i : Reg) (v : Word) :
    (setReg s i v).inputs = s.inputs := by
  unfold setReg; split <;> rfl
@[simp] theorem setReg_stepNo (s : State) (i : Reg) (v : Word) :
    (setReg s i v).stepNo = s.stepNo := by
  unfold setReg; split <;> rfl

/-! ## Counting events -/

@[simp] theorem countEvents_regs (s : State) (f : Nat → Nat → Nat) :
    (countEvents s f).regs = s.regs := by
  unfold countEvents; split <;> rfl
@[simp] theorem countEvents_pc (s : State) (f : Nat → Nat → Nat) :
    (countEvents s f).pc = s.pc := by
  unfold countEvents; split <;> rfl
@[simp] theorem countEvents_csr (s : State) (f : Nat → Nat → Nat) :
    (countEvents s f).csr = s.csr := by
  unfold countEvents; split <;> rfl
@[simp] theorem countEvents_pic (s : State) (f : Nat → Nat → Nat) :
    (countEvents s f).pic = s.pic := by
  unfold countEvents; split <;> rfl
@[simp] theorem countEvents_picQueue (s : State) (f : Nat → Nat → Nat) :
    (countEvents s f).picQueue = s.picQueue := by
  unfold countEvents; split <;> rfl
@[simp] theorem countEvents_mem (s : State) (f : Nat → Nat → Nat) :
    (countEvents s f).mem = s.mem := by
  unfold countEvents; split <;> rfl
@[simp] theorem countEvents_ecc (s : State) (f : Nat → Nat → Nat) :
    (countEvents s f).ecc = s.ecc := by
  unfold countEvents; split <;> rfl
@[simp] theorem countEvents_stale (s : State) (f : Nat → Nat → Nat) :
    (countEvents s f).stale = s.stale := by
  unfold countEvents; split <;> rfl
@[simp] theorem countEvents_unfenced (s : State) (f : Nat → Nat → Nat) :
    (countEvents s f).unfenced = s.unfenced := by
  unfold countEvents; split <;> rfl
@[simp] theorem countEvents_unfencedEcc (s : State) (f : Nat → Nat → Nat) :
    (countEvents s f).unfencedEcc = s.unfencedEcc := by
  unfold countEvents; split <;> rfl
@[simp] theorem countEvents_wb (s : State) (f : Nat → Nat → Nat) :
    (countEvents s f).wb = s.wb := by
  unfold countEvents; split <;> rfl
@[simp] theorem countEvents_responses (s : State) (f : Nat → Nat → Nat) :
    (countEvents s f).responses = s.responses := by
  unfold countEvents; split <;> rfl
@[simp] theorem countEvents_mracData (s : State) (f : Nat → Nat → Nat) :
    (countEvents s f).mracData = s.mracData := by
  unfold countEvents; split <;> rfl
@[simp] theorem countEvents_mracFetch (s : State) (f : Nat → Nat → Nat) :
    (countEvents s f).mracFetch = s.mracFetch := by
  unfold countEvents; split <;> rfl
@[simp] theorem countEvents_mfdcOld (s : State) (f : Nat → Nat → Nat) :
    (countEvents s f).mfdcOld = s.mfdcOld := by
  unfold countEvents; split <;> rfl
@[simp] theorem countEvents_fenced (s : State) (f : Nat → Nat → Nat) :
    (countEvents s f).fenced = s.fenced := by
  unfold countEvents; split <;> rfl
@[simp] theorem countEvents_fencesDue (s : State) (f : Nat → Nat → Nat) :
    (countEvents s f).fencesDue = s.fencesDue := by
  unfold countEvents; split <;> rfl
@[simp] theorem countEvents_icache (s : State) (f : Nat → Nat → Nat) :
    (countEvents s f).icache = s.icache := by
  unfold countEvents; split <;> rfl
@[simp] theorem countEvents_activity (s : State) (f : Nat → Nat → Nat) :
    (countEvents s f).activity = s.activity := by
  unfold countEvents; split <;> rfl
@[simp] theorem countEvents_stepping (s : State) (f : Nat → Nat → Nat) :
    (countEvents s f).stepping = s.stepping := by
  unfold countEvents; split <;> rfl
@[simp] theorem countEvents_dbgHaltState (s : State) (f : Nat → Nat → Nat) :
    (countEvents s f).dbgHaltState = s.dbgHaltState := by
  unfold countEvents; split <;> rfl
@[simp] theorem countEvents_mpcHaltState (s : State) (f : Nat → Nat → Nat) :
    (countEvents s f).mpcHaltState = s.mpcHaltState := by
  unfold countEvents; split <;> rfl
@[simp] theorem countEvents_brkptStatus (s : State) (f : Nat → Nat → Nat) :
    (countEvents s f).brkptStatus = s.brkptStatus := by
  unfold countEvents; split <;> rfl
@[simp] theorem countEvents_nmiPending (s : State) (f : Nat → Nat → Nat) :
    (countEvents s f).nmiPending = s.nmiPending := by
  unfold countEvents; split <;> rfl
@[simp] theorem countEvents_dbusErr (s : State) (f : Nat → Nat → Nat) :
    (countEvents s f).dbusErr = s.dbusErr := by
  unfold countEvents; split <;> rfl
@[simp] theorem countEvents_mdseacLocked (s : State) (f : Nat → Nat → Nat) :
    (countEvents s f).mdseacLocked = s.mdseacLocked := by
  unfold countEvents; split <;> rfl
@[simp] theorem countEvents_pauseCount (s : State) (f : Nat → Nat → Nat) :
    (countEvents s f).pauseCount = s.pauseCount := by
  unfold countEvents; split <;> rfl
@[simp] theorem countEvents_waits (s : State) (f : Nat → Nat → Nat) :
    (countEvents s f).waits = s.waits := by
  unfold countEvents; split <;> rfl
@[simp] theorem countEvents_pins (s : State) (f : Nat → Nat → Nat) :
    (countEvents s f).pins = s.pins := by
  unfold countEvents; split <;> rfl
@[simp] theorem countEvents_seen (s : State) (f : Nat → Nat → Nat) :
    (countEvents s f).seen = s.seen := by
  unfold countEvents; split <;> rfl
@[simp] theorem countEvents_lines (s : State) (f : Nat → Nat → Nat) :
    (countEvents s f).lines = s.lines := by
  unfold countEvents; split <;> rfl
@[simp] theorem countEvents_devReq (s : State) (f : Nat → Nat → Nat) :
    (countEvents s f).devReq = s.devReq := by
  unfold countEvents; split <;> rfl
@[simp] theorem countEvents_deviceTrace (s : State) (f : Nat → Nat → Nat) :
    (countEvents s f).deviceTrace = s.deviceTrace := by
  unfold countEvents; split <;> rfl
@[simp] theorem countEvents_dmaResponse (s : State) (f : Nat → Nat → Nat) :
    (countEvents s f).dmaResponse = s.dmaResponse := by
  unfold countEvents; split <;> rfl
@[simp] theorem countEvents_dbgData (s : State) (f : Nat → Nat → Nat) :
    (countEvents s f).dbgData = s.dbgData := by
  unfold countEvents; split <;> rfl
@[simp] theorem countEvents_cfg (s : State) (f : Nat → Nat → Nat) :
    (countEvents s f).cfg = s.cfg := by
  unfold countEvents; split <;> rfl
@[simp] theorem countEvents_inputs (s : State) (f : Nat → Nat → Nat) :
    (countEvents s f).inputs = s.inputs := by
  unfold countEvents; split <;> rfl
@[simp] theorem countEvents_stepNo (s : State) (f : Nat → Nat → Nat) :
    (countEvents s f).stepNo = s.stepNo := by
  unfold countEvents; split <;> rfl
theorem countEvents_counters (s : State) (f : Nat → Nat → Nat) :
    (countEvents s f).counters = { s.counters with hpm := (countEvents s f).counters.hpm } := by
  unfold countEvents; split <;> rfl

/-! ## Retiring -/

@[simp] theorem retire_regs (s : State) (r : Retired) (n : Word) :
    (retire s r n).regs = s.regs := by
  simp [retire]
@[simp] theorem retire_pc (s : State) (r : Retired) (n : Word) :
    (retire s r n).pc = n := by
  simp [retire]
@[simp] theorem retire_csr (s : State) (r : Retired) (n : Word) :
    (retire s r n).csr = s.csr := by
  simp [retire]
@[simp] theorem retire_pic (s : State) (r : Retired) (n : Word) :
    (retire s r n).pic = s.pic := by
  simp [retire]
@[simp] theorem retire_picQueue (s : State) (r : Retired) (n : Word) :
    (retire s r n).picQueue = s.picQueue := by
  simp [retire]
@[simp] theorem retire_mem (s : State) (r : Retired) (n : Word) :
    (retire s r n).mem = s.mem := by
  simp [retire]
@[simp] theorem retire_ecc (s : State) (r : Retired) (n : Word) :
    (retire s r n).ecc = s.ecc := by
  simp [retire]
@[simp] theorem retire_stale (s : State) (r : Retired) (n : Word) :
    (retire s r n).stale = s.stale := by
  simp [retire]
@[simp] theorem retire_unfenced (s : State) (r : Retired) (n : Word) :
    (retire s r n).unfenced = s.unfenced := by
  simp [retire]
@[simp] theorem retire_unfencedEcc (s : State) (r : Retired) (n : Word) :
    (retire s r n).unfencedEcc = s.unfencedEcc := by
  simp [retire]
@[simp] theorem retire_wb (s : State) (r : Retired) (n : Word) :
    (retire s r n).wb = s.wb := by
  simp [retire]
@[simp] theorem retire_responses (s : State) (r : Retired) (n : Word) :
    (retire s r n).responses = s.responses := by
  simp [retire]
@[simp] theorem retire_mracData (s : State) (r : Retired) (n : Word) :
    (retire s r n).mracData = s.mracData := by
  simp [retire]
@[simp] theorem retire_mracFetch (s : State) (r : Retired) (n : Word) :
    (retire s r n).mracFetch = s.mracFetch := by
  simp [retire]
@[simp] theorem retire_mfdcOld (s : State) (r : Retired) (n : Word) :
    (retire s r n).mfdcOld = s.mfdcOld := by
  simp [retire]
@[simp] theorem retire_fenced (s : State) (r : Retired) (n : Word) :
    (retire s r n).fenced = s.fenced := by
  simp [retire]
@[simp] theorem retire_fencesDue (s : State) (r : Retired) (n : Word) :
    (retire s r n).fencesDue = s.fencesDue := by
  simp [retire]
@[simp] theorem retire_icache (s : State) (r : Retired) (n : Word) :
    (retire s r n).icache = s.icache := by
  simp [retire]
@[simp] theorem retire_activity (s : State) (r : Retired) (n : Word) :
    (retire s r n).activity = s.activity := by
  simp [retire]
@[simp] theorem retire_stepping (s : State) (r : Retired) (n : Word) :
    (retire s r n).stepping = s.stepping := by
  simp [retire]
@[simp] theorem retire_dbgHaltState (s : State) (r : Retired) (n : Word) :
    (retire s r n).dbgHaltState = s.dbgHaltState := by
  simp [retire]
@[simp] theorem retire_mpcHaltState (s : State) (r : Retired) (n : Word) :
    (retire s r n).mpcHaltState = s.mpcHaltState := by
  simp [retire]
@[simp] theorem retire_brkptStatus (s : State) (r : Retired) (n : Word) :
    (retire s r n).brkptStatus = s.brkptStatus := by
  simp [retire]
@[simp] theorem retire_nmiPending (s : State) (r : Retired) (n : Word) :
    (retire s r n).nmiPending = s.nmiPending := by
  simp [retire]
@[simp] theorem retire_dbusErr (s : State) (r : Retired) (n : Word) :
    (retire s r n).dbusErr = s.dbusErr := by
  simp [retire]
@[simp] theorem retire_mdseacLocked (s : State) (r : Retired) (n : Word) :
    (retire s r n).mdseacLocked = s.mdseacLocked := by
  simp [retire]
@[simp] theorem retire_pauseCount (s : State) (r : Retired) (n : Word) :
    (retire s r n).pauseCount = s.pauseCount := by
  simp [retire]
@[simp] theorem retire_waits (s : State) (r : Retired) (n : Word) :
    (retire s r n).waits = s.waits := by
  simp [retire]
@[simp] theorem retire_pins (s : State) (r : Retired) (n : Word) :
    (retire s r n).pins = s.pins := by
  simp [retire]
@[simp] theorem retire_seen (s : State) (r : Retired) (n : Word) :
    (retire s r n).seen = s.seen := by
  simp [retire]
@[simp] theorem retire_lines (s : State) (r : Retired) (n : Word) :
    (retire s r n).lines = s.lines := by
  simp [retire]
@[simp] theorem retire_devReq (s : State) (r : Retired) (n : Word) :
    (retire s r n).devReq = s.devReq := by
  simp [retire]
@[simp] theorem retire_deviceTrace (s : State) (r : Retired) (n : Word) :
    (retire s r n).deviceTrace = s.deviceTrace := by
  simp [retire]
@[simp] theorem retire_dmaResponse (s : State) (r : Retired) (n : Word) :
    (retire s r n).dmaResponse = s.dmaResponse := by
  simp [retire]
@[simp] theorem retire_dbgData (s : State) (r : Retired) (n : Word) :
    (retire s r n).dbgData = s.dbgData := by
  simp [retire]
@[simp] theorem retire_cfg (s : State) (r : Retired) (n : Word) :
    (retire s r n).cfg = s.cfg := by
  simp [retire]
@[simp] theorem retire_inputs (s : State) (r : Retired) (n : Word) :
    (retire s r n).inputs = s.inputs := by
  simp [retire]
@[simp] theorem retire_stepNo (s : State) (r : Retired) (n : Word) :
    (retire s r n).stepNo = s.stepNo := by
  simp [retire]
theorem retire_counters (s : State) (r : Retired) (n : Word) :
    (retire s r n).counters =
      { s.counters with
        minstret := s.counters.minstret + 1
        hpm := (countEvents s fun _ e => retiredEvents s.stepNo r e).counters.hpm } := by
  simp only [retire]
  rw [countEvents_counters]

/-! ## Taking an exception -/

@[simp] theorem takeException_regs (s : State) (c v : Word) :
    (takeException s c v).regs = s.regs := by
  simp [takeException]
@[simp] theorem takeException_pc (s : State) (c v : Word) :
    (takeException s c v).pc = trapBase s := by
  simp [takeException]
@[simp] theorem takeException_csr (s : State) (c v : Word) :
    (takeException s c v).csr = (enterTrap s c v (trapBase s)).csr := by
  simp [takeException]
@[simp] theorem takeException_pic (s : State) (c v : Word) :
    (takeException s c v).pic = s.pic := by
  simp [takeException]
@[simp] theorem takeException_picQueue (s : State) (c v : Word) :
    (takeException s c v).picQueue = s.picQueue := by
  simp [takeException]
@[simp] theorem takeException_mem (s : State) (c v : Word) :
    (takeException s c v).mem = s.mem := by
  simp [takeException]
@[simp] theorem takeException_ecc (s : State) (c v : Word) :
    (takeException s c v).ecc = s.ecc := by
  simp [takeException]
@[simp] theorem takeException_stale (s : State) (c v : Word) :
    (takeException s c v).stale = s.stale := by
  simp [takeException]
@[simp] theorem takeException_unfenced (s : State) (c v : Word) :
    (takeException s c v).unfenced = s.unfenced := by
  simp [takeException]
@[simp] theorem takeException_unfencedEcc (s : State) (c v : Word) :
    (takeException s c v).unfencedEcc = s.unfencedEcc := by
  simp [takeException]
@[simp] theorem takeException_wb (s : State) (c v : Word) :
    (takeException s c v).wb = s.wb := by
  simp [takeException]
@[simp] theorem takeException_responses (s : State) (c v : Word) :
    (takeException s c v).responses = s.responses := by
  simp [takeException]
@[simp] theorem takeException_mracData (s : State) (c v : Word) :
    (takeException s c v).mracData = s.mracData := by
  simp [takeException]
@[simp] theorem takeException_mracFetch (s : State) (c v : Word) :
    (takeException s c v).mracFetch = s.mracFetch := by
  simp [takeException]
@[simp] theorem takeException_mfdcOld (s : State) (c v : Word) :
    (takeException s c v).mfdcOld = s.mfdcOld := by
  simp [takeException]
@[simp] theorem takeException_fenced (s : State) (c v : Word) :
    (takeException s c v).fenced = s.fenced := by
  simp [takeException]
@[simp] theorem takeException_fencesDue (s : State) (c v : Word) :
    (takeException s c v).fencesDue = s.fencesDue := by
  simp [takeException]
@[simp] theorem takeException_icache (s : State) (c v : Word) :
    (takeException s c v).icache = s.icache := by
  simp [takeException]
@[simp] theorem takeException_activity (s : State) (c v : Word) :
    (takeException s c v).activity = s.activity := by
  simp [takeException]
@[simp] theorem takeException_stepping (s : State) (c v : Word) :
    (takeException s c v).stepping = s.stepping := by
  simp [takeException]
@[simp] theorem takeException_dbgHaltState (s : State) (c v : Word) :
    (takeException s c v).dbgHaltState = s.dbgHaltState := by
  simp [takeException]
@[simp] theorem takeException_mpcHaltState (s : State) (c v : Word) :
    (takeException s c v).mpcHaltState = s.mpcHaltState := by
  simp [takeException]
@[simp] theorem takeException_brkptStatus (s : State) (c v : Word) :
    (takeException s c v).brkptStatus = s.brkptStatus := by
  simp [takeException]
@[simp] theorem takeException_nmiPending (s : State) (c v : Word) :
    (takeException s c v).nmiPending = s.nmiPending := by
  simp [takeException]
@[simp] theorem takeException_dbusErr (s : State) (c v : Word) :
    (takeException s c v).dbusErr = s.dbusErr := by
  simp [takeException]
@[simp] theorem takeException_mdseacLocked (s : State) (c v : Word) :
    (takeException s c v).mdseacLocked = s.mdseacLocked := by
  simp [takeException]
@[simp] theorem takeException_pauseCount (s : State) (c v : Word) :
    (takeException s c v).pauseCount = s.pauseCount := by
  simp [takeException]
@[simp] theorem takeException_waits (s : State) (c v : Word) :
    (takeException s c v).waits = s.waits := by
  simp [takeException]
@[simp] theorem takeException_pins (s : State) (c v : Word) :
    (takeException s c v).pins = s.pins := by
  simp [takeException]
@[simp] theorem takeException_seen (s : State) (c v : Word) :
    (takeException s c v).seen = s.seen := by
  simp [takeException]
@[simp] theorem takeException_lines (s : State) (c v : Word) :
    (takeException s c v).lines = s.lines := by
  simp [takeException]
@[simp] theorem takeException_devReq (s : State) (c v : Word) :
    (takeException s c v).devReq = s.devReq := by
  simp [takeException]
@[simp] theorem takeException_deviceTrace (s : State) (c v : Word) :
    (takeException s c v).deviceTrace = s.deviceTrace := by
  simp [takeException]
@[simp] theorem takeException_dmaResponse (s : State) (c v : Word) :
    (takeException s c v).dmaResponse = s.dmaResponse := by
  simp [takeException]
@[simp] theorem takeException_dbgData (s : State) (c v : Word) :
    (takeException s c v).dbgData = s.dbgData := by
  simp [takeException]
@[simp] theorem takeException_cfg (s : State) (c v : Word) :
    (takeException s c v).cfg = s.cfg := by
  simp [takeException]
@[simp] theorem takeException_inputs (s : State) (c v : Word) :
    (takeException s c v).inputs = s.inputs := by
  simp [takeException]
@[simp] theorem takeException_stepNo (s : State) (c v : Word) :
    (takeException s c v).stepNo = s.stepNo := by
  simp [takeException]
theorem takeException_counters (s : State) (c v : Word) :
    (takeException s c v).counters = { s.counters with hpm := (takeException s c v).counters.hpm } := by
  rw [takeException, countEvents_counters]; rfl

end Sys2Proof.Machine
end

