-- ==== Sys2Proof/Laws/Bus.lean ====
section
/-! SUPPORT. What the D-bus operations can do: the fields they touch, the invariants they keep, and what a drain
leaves. -/

namespace Sys2Proof.Machine

/-- `t` is `s` but for what the bus and the SoC may change: memory and its check bits, the older values of R191 and
R705, the buffer and the transactions, the devices, and the error capture. -/
def BusFrame (s t : State) : Prop :=
  t = { s with
    mem := t.mem, ecc := t.ecc, stale := t.stale, unfenced := t.unfenced, unfencedEcc := t.unfencedEcc
    wb := t.wb, responses := t.responses
    lines := { s.lines with ext := t.lines.ext }
    devReq := t.devReq, deviceTrace := t.deviceTrace, mdseacLocked := t.mdseacLocked, dbusErr := t.dbusErr
    csr := { s.csr with mdseac := t.csr.mdseac } }

theorem BusFrame.refl (s : State) : BusFrame s s := rfl

theorem BusFrame.trans {s t u : State} (h₁ : BusFrame s t) (h₂ : BusFrame t u) : BusFrame s u := by
  unfold BusFrame at *
  rw [h₁] at h₂
  exact h₂

/-- The canonical forms of the memory and the check bits, as one property of a state. -/
def Canonical (s : State) : Prop := Memory.wf s.mem = true ∧ rising s.ecc = true

/-! ## Stores performed by the SoC -/

theorem busWriteByte_frame (whole : Bool) (s : State) (a : Nat) (b : Byte) :
    BusFrame s (busWriteByte whole s a b) := by
  unfold busWriteByte
  split
  · split <;> rfl
  · rfl
  · rfl
  · rfl
  · rfl

theorem busWriteByte_canonical (whole : Bool) (s : State) (a : Nat) (b : Byte) (h : Canonical s) :
    Canonical (busWriteByte whole s a b) := by
  unfold busWriteByte
  split
  · split
    · exact h
    · exact ⟨rising_cellSet _ _ _ h.1, h.2⟩
  all_goals exact h

theorem healWord_frame (s : State) (a : Word) : BusFrame s (healWord s a) := by
  unfold healWord
  split
  · split <;> rfl
  all_goals rfl

theorem healWord_canonical (s : State) (a : Word) (h : Canonical s) : Canonical (healWord s a) := by
  unfold healWord
  split
  · split
    · exact ⟨h.1, rising_setEcc _ _ _ h.2⟩
    · exact h
  all_goals exact h

theorem traceDevice_frame (s : State) (d : DeviceAccess) :
    traceDevice s d = { s with deviceTrace := (traceDevice s d).deviceTrace } := by
  unfold traceDevice
  split <;> rfl

theorem writeDevReq_frame (s : State) (st : BusStore) :
    writeDevReq s st = { s with
      devReq := (writeDevReq s st).devReq, lines := { s.lines with ext := (writeDevReq s st).lines.ext } } := by
  unfold writeDevReq
  split
  · split <;> rfl
  all_goals rfl

/-- What devices and the test register see changes nothing else. -/
theorem showStore_frame (s : State) (st : BusStore) :
    showStore s st = { s with
      deviceTrace := (showStore s st).deviceTrace, devReq := (showStore s st).devReq
      lines := { s.lines with ext := (showStore s st).lines.ext } } := by
  unfold showStore
  rw [writeDevReq_frame, traceDevice_frame]

theorem performStore_frame (s : State) (st : BusStore) : BusFrame s (performStore s st) := by
  have h1 : BusFrame s (writeBytes (busWriteByte (wholeWord st.addr st.size)) s st.addr.toNat st.size st.data) :=
    writeBytes_induct (P := BusFrame s) (fun t a b h => h.trans (busWriteByte_frame _ t a b)) s _ _ _ rfl
  unfold performStore
  simp only
  refine h1.trans ?_
  split
  · refine (healWord_frame _ st.addr).trans ?_
    rw [showStore_frame]; rfl
  · rw [showStore_frame]; rfl

theorem performStore_canonical (s : State) (st : BusStore) (h : Canonical s) :
    Canonical (performStore s st) := by
  have h1 : Canonical
      (writeBytes (busWriteByte (wholeWord st.addr st.size)) s st.addr.toNat st.size st.data) :=
    writeBytes_induct (P := Canonical) (fun t a b h => busWriteByte_canonical _ t a b h) s _ _ _ h
  unfold performStore
  simp only
  rw [showStore_frame]
  split
  · exact healWord_canonical _ _ h1
  · exact h1

/-- A performed store answers nothing and buffers nothing. -/
theorem performStore_queues (s : State) (st : BusStore) :
    (performStore s st).wb = s.wb ∧ (performStore s st).responses = s.responses := by
  have h1 : ∀ t, (t.wb = s.wb ∧ t.responses = s.responses) → ∀ a b,
      ((busWriteByte (wholeWord st.addr st.size) t a b).wb = s.wb ∧
        (busWriteByte (wholeWord st.addr st.size) t a b).responses = s.responses) := by
    intro t h a b
    unfold busWriteByte
    split
    · split <;> exact h
    all_goals exact h
  have h2 := writeBytes_induct (P := fun t => t.wb = s.wb ∧ t.responses = s.responses)
    (fun t a b h => h1 t h a b) s st.addr.toNat st.size st.data ⟨rfl, rfl⟩
  unfold performStore
  simp only
  rw [showStore_frame]
  split
  · unfold healWord
    split
    · split <;> exact h2
    all_goals exact h2
  · exact h2

/-! ## Transactions of stores -/

theorem performGroup_frame (s : State) (g : List BusStore) : BusFrame s (performGroup s g).1 := by
  induction g generalizing s with
  | nil => rfl
  | cons st rest ih => exact (performStore_frame s st).trans (ih _)

theorem performGroup_canonical (s : State) (g : List BusStore) (h : Canonical s) :
    Canonical (performGroup s g).1 := by
  induction g generalizing s with
  | nil => exact h
  | cons st rest ih => exact ih _ (performStore_canonical s st h)

/-- A performed transaction answers nothing and buffers nothing. -/
theorem performGroup_queues (s : State) (g : List BusStore) :
    (performGroup s g).1.wb = s.wb ∧ (performGroup s g).1.responses = s.responses := by
  induction g generalizing s with
  | nil => exact ⟨rfl, rfl⟩
  | cons st rest ih =>
    have h := performStore_queues s st
    exact ⟨(ih _).1.trans h.1, (ih _).2.trans h.2⟩

/-! ## Answers -/

/-- A report changes the error capture only (R215). -/
theorem reportAnswers_frame (s : State) (batch : List BusResponse) :
    reportAnswers s batch =
      { s with
        mdseacLocked := (reportAnswers s batch).mdseacLocked
        dbusErr := (reportAnswers s batch).dbusErr
        csr := { s.csr with mdseac := (reportAnswers s batch).csr.mdseac } } := by
  unfold reportAnswers
  split
  · rfl
  · split <;> rfl

theorem reportAnswers_busFrame (s : State) (batch : List BusResponse) : BusFrame s (reportAnswers s batch) := by
  unfold BusFrame
  rw [reportAnswers_frame]

/-- While `mdseac` is locked a report changes nothing (R215). -/
theorem reportAnswers_locked (s : State) (batch : List BusResponse) (h : s.mdseacLocked = true) :
    reportAnswers s batch = s := by
  unfold reportAnswers
  split
  · rfl
  · simp [h]

theorem answer_frame (s : State) (n : Nat) : BusFrame s (answer s n) :=
  BusFrame.trans (t := { s with responses := s.responses.drop n }) rfl (reportAnswers_busFrame _ _)

/-- The oldest `n` answers leave the list. -/
@[simp] theorem answer_responses (s : State) (n : Nat) : (answer s n).responses = s.responses.drop n := by
  unfold answer
  rw [reportAnswers_frame]

@[simp] theorem answer_mem (s : State) (n : Nat) : (answer s n).mem = s.mem := by
  unfold answer
  rw [reportAnswers_frame]

@[simp] theorem answer_ecc (s : State) (n : Nat) : (answer s n).ecc = s.ecc := by
  unfold answer
  rw [reportAnswers_frame]

@[simp] theorem answer_wb (s : State) (n : Nat) : (answer s n).wb = s.wb := by
  unfold answer
  rw [reportAnswers_frame]

/-- Answering everything empties the list and changes nothing but the error capture (R207, R215). -/
theorem answerAll_frame (s : State) :
    answerAll s =
      { s with
        responses := []
        mdseacLocked := (answerAll s).mdseacLocked
        dbusErr := (answerAll s).dbusErr
        csr := { s.csr with mdseac := (answerAll s).csr.mdseac } } := by
  have hfold : ∀ (batch : List BusResponse) (t : State),
      t = { s with
        responses := [], mdseacLocked := t.mdseacLocked, dbusErr := t.dbusErr
        csr := { s.csr with mdseac := t.csr.mdseac } } →
      batch.foldl (fun s r => reportAnswers s [r]) t =
        { s with
          responses := []
          mdseacLocked := (batch.foldl (fun s r => reportAnswers s [r]) t).mdseacLocked
          dbusErr := (batch.foldl (fun s r => reportAnswers s [r]) t).dbusErr
          csr := { s.csr with mdseac := (batch.foldl (fun s r => reportAnswers s [r]) t).csr.mdseac } } := by
    intro batch
    induction batch with
    | nil => intro t h; exact h
    | cons r rest ih =>
      intro t h
      simp only [List.foldl_cons]
      refine ih _ ?_
      rw [reportAnswers_frame, h]
  unfold answerAll
  simp only
  split
  · split
    · rw [reportAnswers_frame]
    · exact hfold _ _ rfl
  · rfl

theorem answerAll_busFrame (s : State) : BusFrame s (answerAll s) := by
  unfold BusFrame
  rw [answerAll_frame]

@[simp] theorem answerAll_responses (s : State) : (answerAll s).responses = [] := by
  rw [answerAll_frame]

@[simp] theorem answerAll_wb (s : State) : (answerAll s).wb = s.wb := by
  rw [answerAll_frame]

@[simp] theorem answerAll_mem (s : State) : (answerAll s).mem = s.mem := by
  rw [answerAll_frame]

@[simp] theorem answerAll_ecc (s : State) : (answerAll s).ecc = s.ecc := by
  rw [answerAll_frame]

theorem waitForRoom_frame (s : State) : BusFrame s (waitForRoom s) := by
  unfold waitForRoom
  split
  · rfl
  · exact answer_frame _ _

@[simp] theorem waitForRoom_wb (s : State) : (waitForRoom s).wb = s.wb := by
  unfold waitForRoom; split <;> simp

@[simp] theorem waitForRoom_mem (s : State) : (waitForRoom s).mem = s.mem := by
  unfold waitForRoom; split <;> simp

@[simp] theorem waitForRoom_ecc (s : State) : (waitForRoom s).ecc = s.ecc := by
  unfold waitForRoom; split <;> simp

/-- After the wait there is room for one more transaction (R207). -/
theorem waitForRoom_room (s : State) : (waitForRoom s).responses.length ≤ 254 := by
  unfold waitForRoom
  split
  · omega
  · simp; omega

/-! ## The write buffer -/

theorem sendStore_frame (s : State) : BusFrame s (sendStore s) := by
  unfold sendStore
  split
  · rfl
  · rename_i st rest _
    have h1 : ∀ w, BusFrame s (waitForRoom { s with wb := w }) := fun w =>
      BusFrame.trans (t := { s with wb := w }) rfl (waitForRoom_frame _)
    have h2 := fun w g => (h1 w).trans (performGroup_frame _ g)
    have h3 : ∀ w g r, BusFrame s (sendTransaction (performGroup (waitForRoom { s with wb := w }) g).1 r) :=
      fun w g r => (h2 w g).trans rfl
    simp only
    split
    · exact (h3 _ _ _).trans (answerAll_busFrame _)
    · exact h3 _ _ _

/-- The oldest store leaves the buffer, and with it those coalesced into its transaction (R187, R201, R202). -/
theorem sendStore_wb (s : State) : (sendStore s).wb = s.wb.tail.dropWhile (·.joined) := by
  unfold sendStore
  split
  · simp [*]
  · simp only
    split <;> simp [performGroup_queues, *]

theorem sendStore_canonical (s : State) (h : Canonical s) : Canonical (sendStore s) := by
  unfold sendStore
  split
  · exact h
  · simp only
    have hw : ∀ rest, Canonical (waitForRoom { s with wb := rest }) := fun rest => by
      simpa [Canonical] using h
    have hg := fun rest g => performGroup_canonical _ g (hw rest)
    split
    · simpa [Canonical] using hg _ _
    · exact hg _ _

/-- At most 255 transactions are outstanding after one more is sent (R207). -/
theorem sendStore_responses (s : State) (h : s.responses.length ≤ 255) :
    (sendStore s).responses.length ≤ 255 := by
  unfold sendStore
  split
  · exact h
  · rename_i st rest _
    simp only
    split
    · simp
    · have := waitForRoom_room { s with wb := rest.dropWhile (·.joined) }
      simp [performGroup_queues]; omega

theorem sendStores_frame (n : Nat) (s : State) : BusFrame s (sendStores n s) := by
  induction n generalizing s with
  | zero => rfl
  | succ n ih => exact (sendStore_frame s).trans (ih _)

/-- Each transaction takes at least one store out of the buffer. -/
theorem sendStores_wb (n : Nat) (s : State) : (sendStores n s).wb.length ≤ s.wb.length - n := by
  induction n generalizing s with
  | zero => exact le_rfl
  | succ n ih =>
    have h1 := ih (sendStore s)
    have h2 := (List.dropWhile_sublist (p := fun x : BusStore => x.joined) (l := s.wb.tail)).length_le
    rw [← sendStore_wb, List.length_tail] at h2
    rw [sendStores]
    omega

/-- Emptying the buffer empties it. -/
theorem emptyBuffer_wb (s : State) : (emptyBuffer s).wb = [] := by
  have h := sendStores_wb s.wb.length s
  rw [Nat.sub_self, Nat.le_zero] at h
  exact List.eq_nil_of_length_eq_zero h

theorem sendStores_canonical (n : Nat) (s : State) (h : Canonical s) : Canonical (sendStores n s) := by
  induction n generalizing s with
  | zero => exact h
  | succ n ih => exact ih _ (sendStore_canonical s h)

theorem sendStores_responses (n : Nat) (s : State) (h : s.responses.length ≤ 255) :
    (sendStores n s).responses.length ≤ 255 := by
  induction n generalizing s with
  | zero => exact h
  | succ n ih => exact ih _ (sendStore_responses s h)

/-- What `n` transactions keep, those sent until no side-effect store is left keep as well. -/
theorem sendSideEffects_induct {P : State → Prop} (h : ∀ s, P s → P (sendStore s)) (n : Nat) (s : State) (hs : P s) :
    P (sendSideEffects n s) := by
  induction n generalizing s with
  | zero => exact hs
  | succ n ih =>
    unfold sendSideEffects
    split
    · exact ih _ (h s hs)
    · exact hs

theorem awaitSideEffects_induct {P : State → Prop} (h : ∀ s, P s → P (sendStore s)) (s : State) (hs : P s) :
    P (awaitSideEffects s) := by
  unfold awaitSideEffects
  split
  · exact sendSideEffects_induct h _ s hs
  · exact hs

theorem awaitSideEffects_frame (s : State) : BusFrame s (awaitSideEffects s) :=
  awaitSideEffects_induct (P := BusFrame s) (fun t h => h.trans (sendStore_frame t)) s (.refl s)

/-- With `n` stores in the buffer, or fewer, none with side effects is left after `n` transactions. -/
theorem sendSideEffects_wb (n : Nat) (s : State) (h : s.wb.length ≤ n) :
    (sendSideEffects n s).wb.any (·.sideEffect) = false := by
  induction n generalizing s with
  | zero => rw [sendSideEffects, List.length_eq_zero_iff.mp (Nat.le_zero.mp h)]; rfl
  | succ n ih =>
    unfold sendSideEffects
    split
    · refine ih _ ?_
      have := sendStores_wb 1 s
      simp only [sendStores] at this
      omega
    · rename_i hn
      exact Bool.eq_false_iff.mpr hn

/-- While `mfdc.sepd` asks for it no side-effect store is left (R116, R203). -/
theorem awaitSideEffects_wb (s : State) (h : sideEffectStoresBlock s = true) :
    (awaitSideEffects s).wb.any (·.sideEffect) = false := by
  unfold awaitSideEffects
  rw [if_pos h]
  exact sendSideEffects_wb _ s le_rfl

/-- With nothing to wait for, nothing happens. -/
theorem awaitSideEffects_idle {s : State} (h : sideEffectStoresBlock s = false ∨ s.wb.any (·.sideEffect) = false) :
    awaitSideEffects s = s := by
  unfold awaitSideEffects
  split
  · rename_i hb
    have hn : s.wb.any (·.sideEffect) = false := h.resolve_left (by rw [hb]; decide)
    cases hw : s.wb.length with
    | zero => rfl
    | succ n => rw [sendSideEffects, hn]; rfl
  · rfl

/-- Draining: the buffer is empty, every transaction answered, no store can be undone, nothing else but the bus's
fields changed (R206, R705). -/
theorem drainBus_spec (s : State) :
    BusFrame s (drainBus s) ∧ (drainBus s).wb = [] ∧ (drainBus s).responses = [] ∧
      (drainBus s).unfenced = [] ∧ (drainBus s).unfencedEcc = [] := by
  have h := (sendStores_frame s.wb.length s).trans (answerAll_busFrame (emptyBuffer s))
  exact ⟨h.trans rfl, by simp [drainBus, emptyBuffer_wb], by simp [drainBus], rfl, rfl⟩

theorem drainBus_canonical (s : State) (h : Canonical s) : Canonical (drainBus s) := by
  have := sendStores_canonical s.wb.length s h
  simpa [drainBus, emptyBuffer, Canonical] using this

/-- With nothing buffered and nothing outstanding, a drain only forgets what a reset could undo. -/
theorem drainBus_idle (s : State) (hw : s.wb = []) (hr : s.responses = []) :
    drainBus s = { s with unfenced := [], unfencedEcc := [] } := by
  obtain ⟨⟩ := s
  simp only at hw hr
  subst hw hr
  rfl

/-! ## What goes on at a boundary -/

theorem sendSome_frame (s : State) : BusFrame s (sendSome s) := by
  unfold sendSome
  split
  · rfl
  · exact sendStores_frame _ _

theorem sendSome_canonical (s : State) (h : Canonical s) : Canonical (sendSome s) := by
  unfold sendSome
  split
  · exact h
  · exact sendStores_canonical _ _ h

theorem sendSome_responses (s : State) (h : s.responses.length ≤ 255) :
    (sendSome s).responses.length ≤ 255 := by
  unfold sendSome
  split
  · exact h
  · exact sendStores_responses _ _ h

theorem answerSome_frame (s : State) : BusFrame s (answerSome s) := by
  unfold answerSome
  split
  · rfl
  · exact answer_frame _ _

theorem answerSome_canonical (s : State) (h : Canonical s) : Canonical (answerSome s) := by
  unfold answerSome
  split
  · exact h
  · simpa [Canonical] using h

theorem answerSome_responses (s : State) (h : s.responses.length ≤ 255) :
    (answerSome s).responses.length ≤ 255 := by
  unfold answerSome
  split
  · exact h
  · simp; omega

/-! ## Loads -/

/-- The state an access leaves. -/
def Access.state : Access → State
  | .done _ s => s
  | .raises _ s => s
  | .lost s => s

/-- A read fails when a byte it asks for does (R212). -/
theorem readErrs_asked {s : State} {asked : List Word} (seen : List Word) (h : ∃ b ∈ asked, readFails s b = true) :
    readErrs s asked seen = true := by
  unfold readErrs
  rw [List.any_eq_true.mpr h, Bool.true_or]

/-- A read of which no byte asked for or seen fails does not fail (R187, R212). -/
theorem readErrs_sound {s : State} {asked seen : List Word} (ha : ∀ b ∈ asked, readFails s b = false)
    (hs : ∀ b ∈ seen, readFails s b = false) : readErrs s asked seen = false := by
  have h : ∀ l : List Word, (∀ b ∈ l, readFails s b = false) → l.any (readFails s) = false := fun l hl => by
    rw [List.any_eq_false]
    intro b hb
    rw [hl b hb]
    simp
  unfold readErrs
  rw [h asked ha, h seen hs, Bool.false_and, Bool.false_or]

/-- When a read asks for all it sees, as with side effects, it fails exactly when one of its bytes does (R187). -/
theorem readErrs_exact (s : State) (l : List Word) : readErrs s l l = l.any (readFails s) := by
  unfold readErrs
  cases l.any (readFails s) <;> rfl

/-- A load transaction touches the bus's fields only, keeps memory, check bits and buffer, and the bound of R207. -/
theorem loadTransaction_spec (s : State) (r : BusRead) (blocking : Bool) :
    let t := (loadTransaction s r blocking).state
    BusFrame s t ∧ t.mem = s.mem ∧ t.ecc = s.ecc ∧ t.wb = s.wb ∧ t.responses.length ≤ 255 := by
  have hroom := waitForRoom_room s
  have hd : ∀ d : DeviceAccess, BusFrame s (traceDevice (waitForRoom s) d) := fun d =>
    (waitForRoom_frame s).trans (by rw [traceDevice_frame]; rfl)
  have hs : ∀ d : DeviceAccess,
      (traceDevice (waitForRoom s) d).mem = s.mem ∧ (traceDevice (waitForRoom s) d).ecc = s.ecc ∧
        (traceDevice (waitForRoom s) d).wb = s.wb ∧
        (traceDevice (waitForRoom s) d).responses = (waitForRoom s).responses := fun d => by
    rw [traceDevice_frame]; simp
  unfold loadTransaction
  simp only
  split
  · split <;> exact ⟨hd _, (hs _).1, (hs _).2.1, (hs _).2.2.1, by rw [Access.state, (hs _).2.2.2]; omega⟩
  · split <;>
      exact ⟨(hd _).trans rfl, (hs _).1, (hs _).2.1, (hs _).2.2.1, by
        rw [Access.state, sendTransaction_responses, (hs _).2.2.2, List.length_append]; simp; omega⟩

end Sys2Proof.Machine
end

