-- ==== Sys2Proof/Laws/Ops.lean ====
section
/-! SUPPORT. What the shared operations answer: registers, retiring, the ends of the instruction families, traps,
fences. A proof cites these and unfolds no operation. -/

namespace Sys2Proof.Machine

/-! ## Registers -/

/-- A register reads as last written; x0 reads zero (R31). -/
theorem reg_setReg (s : State) (i j : Reg) (v : Word) :
    reg (setReg s i v) j = if j = i ∧ i ≠ 0 then v else reg s j := by
  unfold reg setReg
  by_cases hi : i = 0
  · simp [hi]
  · rw [if_neg hi]
    by_cases hj : j = 0
    · have : ¬ j = i := fun h => hi (h.symm.trans hj)
      simp [hj]
      exact fun h => absurd h.symm hi
    · simp only [hj, if_false, Bank32.get_set, ne_eq, hi, not_false_eq_true, and_true]

@[simp] theorem reg_zero (s : State) : reg s 0 = 0 := rfl

/-- The registers depend on the register file only. -/
theorem reg_congr {s t : State} (h : t.regs = s.regs) (i : Reg) : reg t i = reg s i := by
  unfold reg
  rw [h]

/-- The bytes the hart's loads see depend on the buffer and the memory only. -/
theorem dataByte_congr {s t : State} (hw : t.wb = s.wb) (hm : t.mem = s.mem) (b : Nat) :
    dataByte t b = dataByte s b := by
  unfold dataByte memByte
  rw [hw, hm]

@[simp] theorem reg_retire (s : State) (r : Retired) (n : Word) (i : Reg) : reg (retire s r n) i = reg s i :=
  reg_congr (by simp) i

@[simp] theorem reg_enterTrap (s : State) (c v t : Word) (i : Reg) : reg (enterTrap s c v t) i = reg s i := rfl

@[simp] theorem reg_takeException (s : State) (c v : Word) (i : Reg) :
    reg (takeException s c v) i = reg s i := reg_congr (by simp) i

@[simp] theorem reg_countEvents (s : State) (f : Nat → Nat → Nat) (i : Reg) :
    reg (countEvents s f) i = reg s i := reg_congr (by simp) i

/-! ## Frames -/

/-- Setting a register changes the register file only. -/
theorem setReg_frame (s : State) (i : Reg) (v : Word) : setReg s i v = { s with regs := (setReg s i v).regs } := by
  unfold setReg
  split <;> rfl

/-- Counting events changes the event counters only. -/
theorem countEvents_frame (s : State) (f : Nat → Nat → Nat) :
    countEvents s f =
      { s with counters := { s.counters with hpm := (countEvents s f).counters.hpm } } := by
  unfold countEvents
  split <;> rfl

/-- Retiring moves the pc, counts the instruction and its events, and changes nothing else (R34, R53). -/
theorem retire_frame (s : State) (r : Retired) (n : Word) :
    retire s r n =
      { s with
        pc := n
        counters := { s.counters with
          minstret := s.counters.minstret + 1, hpm := (retire s r n).counters.hpm } } := by
  unfold retire
  simp only
  rw [countEvents_frame]

/-! ## The ends of the instruction families -/

/-- Writing a register and retiring is all a computational instruction does. -/
theorem wroteReg_retire_setReg (s : State) (rd : Reg) (v next : Word) (r : Retired) :
    WroteReg s (retire (setReg s rd v) r next) rd v next where
  target h := by rw [reg_retire, reg_setReg, if_pos ⟨rfl, h⟩]
  others i h := by rw [reg_retire, reg_setReg, if_neg (fun c => h c.1)]
  zero := rfl
  pc := by simp
  retired := by simp [retire_counters]
  memory b := dataByte_congr (by simp) (by simp) b
  frame := by
    rw [retire_frame, setReg_frame]

/-- An integer instruction completes: `v` in `rd`, the next instruction after it. -/
theorem finishAlu_spec (s : State) (short : Bool) (rd : Reg) (v : Word) :
    GoesTo (finishAlu s short rd v) fun t => WroteReg s t rd v (s.pc + ilen short) :=
  ⟨_, rfl, wroteReg_retire_setReg _ _ _ _ _⟩

/-- A multiplication or division completes. -/
theorem finishMulDiv_spec (s : State) (cls : InstrClass) (rd : Reg) (v : Word) :
    GoesTo (finishMulDiv s cls rd v) fun t => WroteReg s t rd v (s.pc + 4) :=
  ⟨_, rfl, wroteReg_retire_setReg _ _ _ _ _⟩

/-- A jump completes: the link in `rd`, the target next. -/
theorem finishJump_spec (s : State) (short : Bool) (rd : Reg) (target : Word) :
    GoesTo (finishJump s short rd target) fun t => WroteReg s t rd (s.pc + ilen short) target :=
  ⟨_, rfl, wroteReg_retire_setReg _ _ _ _ _⟩

/-- A branch completes: no register, the target or the next instruction. -/
theorem finishBranch_spec (s : State) (short taken : Bool) (target : Word) :
    GoesTo (finishBranch s short taken target) fun t =>
      WroteReg s t 0 0 (if taken then target else s.pc + ilen short) :=
  ⟨_, rfl, wroteReg_retire_setReg s 0 0 _ _⟩

/-- A load that answers a value completes from the state the access left. -/
theorem finishLoad_done {s u : State} {k : LoadKind} {a v : Word} (h : memLoad s a k.size = .done v u)
    (short : Bool) (rd : Reg) :
    GoesTo (finishLoad s short k rd a) fun t => WroteReg u t rd (k.extend v) (u.pc + ilen short) := by
  refine ⟨retire (setReg u rd (k.extend v)) ⟨short, .load, a.toNat % k.size != 0⟩ (u.pc + ilen short), ?_,
    wroteReg_retire_setReg _ _ _ _ _⟩
  unfold finishLoad
  rw [h]
  rfl

/-- A load whose error comes later completes with any value (R213). -/
theorem finishLoad_lost {s u : State} {k : LoadKind} {a : Word} (h : memLoad s a k.size = .lost u)
    (short : Bool) (rd : Reg) :
    GoesTo (finishLoad s short k rd a) fun t =>
      WroteReg u t rd (Config.failedLoad u.stepNo) (u.pc + ilen short) := by
  refine ⟨retire (setReg u rd (Config.failedLoad u.stepNo)) ⟨short, .load, a.toNat % k.size != 0⟩
    (u.pc + ilen short), ?_, wroteReg_retire_setReg _ _ _ _ _⟩
  unfold finishLoad
  rw [h]
  rfl

/-- A load that raises traps from the state the access left. -/
theorem finishLoad_raises {s u : State} {k : LoadKind} {a code : Word}
    (h : memLoad s a k.size = .raises code u) (short : Bool) (rd : Reg) :
    finishLoad s short k rd a = .next (takeException u code a) := by
  unfold finishLoad
  rw [h]

/-- A store that is performed retires from the state the access left. -/
theorem finishStore_done {s u : State} {n : Nat} {v a w : Word} (h : memStore s a n v = .done w u)
    (short : Bool) :
    GoesTo (finishStore s short n v a) fun t => Retires u u t (u.pc + ilen short) := by
  refine ⟨retire u ⟨short, .store, a.toNat % n != 0⟩ (u.pc + ilen short), ?_, ?_, ?_, ?_, ?_⟩
  · unfold finishStore; rw [h]; rfl
  · simp
  · simp
  · simp [retire_counters]
  · rw [retire_frame]

/-- A store that raises traps from the state the access left. -/
theorem finishStore_raises {s u : State} {n : Nat} {v a code : Word} (h : memStore s a n v = .raises code u)
    (short : Bool) : finishStore s short n v a = .next (takeException u code a) := by
  unfold finishStore
  rw [h]

/-! ## Traps -/

theorem trapStatus_bits (m : Word) :
    (trapStatus m).getLsbD 7 = m.getLsbD 3 ∧ (trapStatus m).getLsbD 3 = false ∧
      trapStatus m &&& 0xFFFFFF77 = 0x1800 := by
  unfold trapStatus
  cases m.getLsbD 3 <;> decide

theorem returnStatus_bits (m : Word) :
    (returnStatus m).getLsbD 3 = m.getLsbD 7 ∧ (returnStatus m).getLsbD 7 = true ∧
      returnStatus m &&& 0xFFFFFF77 = 0x1800 := by
  unfold returnStatus
  cases m.getLsbD 7 <;> decide

/-- Entering a trap is the whole of R520. -/
theorem enterTrap_spec (s : State) (c v target : Word) : Trapped s (enterTrap s c v target) c v target where
  pc := rfl
  mepc := rfl
  mcause := rfl
  mtval := rfl
  mpie := (trapStatus_bits _).1
  mie := (trapStatus_bits _).2.1
  mpp := (trapStatus_bits _).2.2
  registers _ := rfl
  memory _ := rfl
  frame := rfl

/-- Counting events after a trap leaves it a trap. -/
theorem Trapped.countEvents {s t : State} {c v target : Word} (h : Trapped s t c v target)
    (f : Nat → Nat → Nat) : Trapped s (countEvents t f) c v target where
  pc := by simp [h.pc]
  mepc := by simp [h.mepc]
  mcause := by simp [h.mcause]
  mtval := by simp [h.mtval]
  mpie := by rw [countEvents_csr, h.mpie]
  mie := by rw [countEvents_csr, h.mie]
  mpp := by simp only [countEvents_csr, h.mpp]
  registers r := (reg_countEvents _ _ r).trans (h.registers r)
  memory b := (dataByte_congr (by simp) (by simp) b).trans (h.memory b)
  frame := by
    rw [countEvents_frame]
    exact congrArg (fun u : State => { u with counters := { u.counters with
      hpm := (Machine.countEvents t f).counters.hpm } }) h.frame

theorem trapBase_eq (s : State) : trapBase s = exceptionTarget s := by
  unfold trapBase exceptionTarget
  refine BitVec.eq_of_getLsbD_eq fun n hn => ?_
  rw [BitVec.getLsbD_append]
  interval_cases n <;> simp

/-- Taking an exception is a trap to the base of `mtvec` (R520, R521). -/
theorem takeException_spec (s : State) (c v : Word) :
    Trapped s (takeException s c v) c v (exceptionTarget s) := by
  rw [← trapBase_eq]
  exact (enterTrap_spec s c v (trapBase s)).countEvents _

/-! ## Fences -/

/-- What FENCE does besides retiring: nothing is buffered or outstanding, no store can be undone, no PIC store is
waiting, `mrac` is in effect; the rest is the bus's work (R206, R705, R721, R722). -/
theorem fenceData_spec (s : State) :
    (fenceData s).wb = [] ∧ (fenceData s).responses = [] ∧ (fenceData s).picQueue = [] ∧
      (fenceData s).mracData = [] ∧
      fenceData s =
        { s with
          mem := (drainBus s).mem, ecc := (drainBus s).ecc, stale := (drainBus s).stale
          unfenced := [], unfencedEcc := [], wb := [], responses := []
          lines := { s.lines with ext := (drainBus s).lines.ext }
          devReq := (drainBus s).devReq, deviceTrace := (drainBus s).deviceTrace
          mdseacLocked := (drainBus s).mdseacLocked, dbusErr := (drainBus s).dbusErr
          csr := { s.csr with mdseac := (drainBus s).csr.mdseac }
          pic := picNewest (drainBus s), picQueue := [], mracData := [] } := by
  obtain ⟨hf, hw, hr, hu, he⟩ := drainBus_spec s
  refine ⟨hw, hr, rfl, rfl, ?_⟩
  rw [BusFrame, hw, hr, hu, he] at hf
  exact congrArg (fun u : State => { u with
    pic := picNewest (drainBus s), picQueue := [], mracData := [] }) hf

/-- A drain leaves the PIC and its waiting stores alone: a fence leaves the registers with every store applied. -/
theorem picNewest_drainBus (s : State) : picNewest (drainBus s) = picNewest s := by
  rw [(drainBus_spec s).1]
  rfl

end Sys2Proof.Machine
end

