-- ==== Sys2Proof/Laws/Access.lean ====
section
/-! SUPPORT. What a data access can do: its class, the fields it touches, what it keeps, the value it loads. -/

namespace Sys2Proof.Machine

/-! ## Classes (R175, R189) -/

theorem classify_dccm {s : State} {a : Word} {n : Nat} (h : WhollyInDccm s a n) (m : Word) :
    classify s.cfg m a n = .dccm := by
  obtain ⟨h1, h2, h3, h4⟩ := h
  simp [classify, lastByte, dataLocalRegion] at *
  simp [h1, h2, h3, h4]

theorem classify_pic {s : State} {a : Word} {n : Nat} (h : PicWord s a n) (m : Word) :
    classify s.cfg m a n = .pic := by
  obtain ⟨rfl, h1, h2, h3, h4, h5, h6⟩ := h
  have ha : a.extractLsb' 0 2 = 0#2 := by
    apply BitVec.eq_of_toNat_eq
    simp [BitVec.extractLsb'_toNat, h1]
  simp [classify, lastByte, dataLocalRegion, wholeWord] at *
  simp [h2, h3, h4, h5, h6, ha]

theorem classify_bus {s : State} {a : Word} {n : Nat} (h : BusAccess s a n) :
    classify s.cfg (mracNow s) a n = .bus (sideEffectBit s.cfg (mracNow s) a) := by
  obtain ⟨h1, h2, h3, h4, h5⟩ := h
  simp only [classify, lastByte] at *
  rw [if_neg (by simpa using h1), if_neg (by simp [h2])]
  cases hs : sideEffectBit s.cfg (mracNow s) a
  · simp [h4, h5]
  · simp [h3 hs, h4, h5]

/-! ## Frames -/

theorem AccessFrame.refl (s : State) : AccessFrame s s := rfl

theorem AccessFrame.trans {s t u : State} (h₁ : AccessFrame s t) (h₂ : AccessFrame t u) : AccessFrame s u := by
  unfold AccessFrame at *
  rw [h₁] at h₂
  exact h₂

theorem BusFrame.access {s t : State} (h : BusFrame s t) : AccessFrame s t := by
  unfold BusFrame at h
  unfold AccessFrame
  rw [h]

theorem AccessFrame.regs {s t : State} (h : AccessFrame s t) : t.regs = s.regs := by rw [h]
theorem AccessFrame.pc {s t : State} (h : AccessFrame s t) : t.pc = s.pc := by rw [h]
theorem AccessFrame.cfg {s t : State} (h : AccessFrame s t) : t.cfg = s.cfg := by rw [h]
theorem AccessFrame.counters {s t : State} (h : AccessFrame s t) : t.counters = s.counters := by rw [h]

/-- What an access keeps: the canonical forms, the bound of R207, and the thresholds of R106. -/
structure AccessKeeps (s t : State) : Prop where
  frame : AccessFrame s t
  canonical : Canonical s → Canonical t
  room : s.responses.length ≤ 255 → t.responses.length ≤ 255
  miccmect : t.csr.miccmect.extractLsb' 27 5 = s.csr.miccmect.extractLsb' 27 5
  mdccmect : t.csr.mdccmect.extractLsb' 27 5 = s.csr.mdccmect.extractLsb' 27 5

theorem AccessKeeps.refl (s : State) : AccessKeeps s s := ⟨rfl, id, id, rfl, rfl⟩

theorem AccessKeeps.trans {s t u : State} (h₁ : AccessKeeps s t) (h₂ : AccessKeeps t u) : AccessKeeps s u :=
  ⟨h₁.frame.trans h₂.frame, h₂.canonical ∘ h₁.canonical, h₂.room ∘ h₁.room, h₂.miccmect.trans h₁.miccmect,
    h₂.mdccmect.trans h₁.mdccmect⟩

theorem writeBackWord_keeps (m : Ccm) (s : State) (w : Nat) : AccessKeeps s (writeBackWord m s w) := by
  refine ⟨?_, fun h => ?_, fun h => ?_, ?_, ?_⟩
  · unfold AccessFrame; rw [writeBackWord_frame]
  · refine ⟨?_, rising_writeBackWord m s w h.2⟩
    rw [writeBackWord_frame]; exact h.1
  · rw [writeBackWord_frame]; exact h
  all_goals
    unfold writeBackWord
    split
    · cases m <;> simp [setEcc, countCorrected, bumpCount_threshold]
    · rfl

theorem writeBack_keeps (m : Ccm) (s : State) (ws : List Nat) : AccessKeeps s (writeBack m s ws) := by
  unfold writeBack
  induction ws generalizing s with
  | nil => exact .refl s
  | cons w ws ih => exact (writeBackWord_keeps m s w).trans (ih _)

/-- A write back changes the check bits and the correctable-error counters only. -/
theorem writeBack_frame (m : Ccm) (s : State) (ws : List Nat) :
    writeBack m s ws =
      { s with
        ecc := (writeBack m s ws).ecc
        csr := { s.csr with
          miccmect := (writeBack m s ws).csr.miccmect, mdccmect := (writeBack m s ws).csr.mdccmect } } := by
  have h : ∀ (ws : List Nat) (t : State),
      t = { s with ecc := t.ecc, csr := { s.csr with miccmect := t.csr.miccmect, mdccmect := t.csr.mdccmect } } →
      writeBack m t ws = { s with
        ecc := (writeBack m t ws).ecc
        csr := { s.csr with
          miccmect := (writeBack m t ws).csr.miccmect, mdccmect := (writeBack m t ws).csr.mdccmect } } := by
    intro ws
    induction ws with
    | nil => intro t h; exact h
    | cons w ws ih =>
      intro t h
      refine ih (writeBackWord m t w) ?_
      have hf := writeBackWord_frame m t w
      rw [h] at hf
      rw [h]
      exact hf
  exact h ws s rfl

/-- The write back of a closely-coupled memory leaves the other memory's counter alone. -/
theorem writeBack_dccm_miccmect (s : State) (ws : List Nat) :
    (writeBack .dccm s ws).csr.miccmect = s.csr.miccmect := by
  unfold writeBack
  induction ws generalizing s with
  | nil => rfl
  | cons w ws ih =>
    refine (ih _).trans ?_
    unfold writeBackWord
    split <;> rfl

/-- When every word is sound, nothing is written back. -/
theorem writeBack_sound (m : Ccm) (s : State) (ws : List Nat) (h : ∀ w ∈ ws, checkWord s w = .sound) :
    writeBack m s ws = s := by
  unfold writeBack
  induction ws with
  | nil => rfl
  | cons w ws ih =>
    simp only [List.foldl_cons]
    rw [writeBackWord_sound m s w (h w (by simp))]
    exact ih fun v hv => h v (by simp [hv])

theorem anyFailed_sound {s : State} {ws : List Nat} (h : ∀ w ∈ ws, checkWord s w = .sound) :
    anyFailed s ws = false := by
  simp only [anyFailed, List.any_eq_false]
  intro w hw
  simp [h w hw]

/-- What each byte write keeps, the write of a value keeps. -/
theorem writeBytes_keeps {w : State → Nat → Byte → State} (hw : ∀ s a b, AccessKeeps s (w s a b))
    (s : State) (a n : Nat) (v : Word) : AccessKeeps s (writeBytes w s a n v) :=
  writeBytes_induct (P := AccessKeeps s) (fun t a b h => h.trans (hw t a b)) s a n v (.refl s)

theorem writeByte_keeps (s : State) (a : Nat) (b : Byte) : AccessKeeps s (writeByte s a b) :=
  ⟨rfl, fun h => ⟨rising_cellSet _ _ _ h.1, h.2⟩, id, rfl, rfl⟩

theorem writeFetchableByte_keeps (s : State) (a : Nat) (b : Byte) : AccessKeeps s (writeFetchableByte s a b) :=
  ⟨rfl, fun h => ⟨rising_cellSet _ _ _ h.1, h.2⟩, id, rfl, rfl⟩

theorem storeByte_keeps (s : State) (a : Nat) (b : Byte) : AccessKeeps s (storeByte s a b) :=
  ⟨rfl, fun h => ⟨rising_cellSet _ _ _ h.1, h.2⟩, id, rfl, rfl⟩

theorem setEcc_keeps (s : State) (w : Nat) (e : EccState) : AccessKeeps s (setEcc s w e) :=
  ⟨rfl, fun h => ⟨h.1, rising_setEcc _ _ _ h.2⟩, id, rfl, rfl⟩

theorem storeEcc_keeps (s : State) (w : Nat) (e : EccState) : AccessKeeps s (storeEcc s w e) :=
  ⟨rfl, fun h => ⟨h.1, rising_setEcc _ _ _ h.2⟩, id, rfl, rfl⟩

/-- Steps that each keep what an access keeps, keep it together. -/
theorem foldl_keeps {α : Type} {f : State → α → State} (hf : ∀ s x, AccessKeeps s (f s x)) (xs : List α)
    (s : State) : AccessKeeps s (xs.foldl f s) := by
  induction xs generalizing s with
  | nil => exact .refl s
  | cons x xs ih => exact (hf s x).trans (ih _)

/-! ## Other agents (R192, R193, R210) -/

theorem dmaRead_keeps (s : State) (a : Word) (n : Nat) : AccessKeeps s (dmaRead s a n) := by
  unfold dmaRead
  split
  · exact ⟨rfl, id, id, rfl, rfl⟩
  · simp only
    split
    · exact ⟨rfl, id, id, rfl, rfl⟩
    · exact (writeBack_keeps _ s _).trans ⟨rfl, id, id, rfl, rfl⟩

theorem dmaWriteWord_keeps (m : Ccm) (s : State) (a : Nat) (v : Word) : AccessKeeps s (dmaWriteWord m s a v) := by
  cases m
  · exact (writeBytes_keeps writeFetchableByte_keeps s a 4 v).trans (setEcc_keeps _ _ _)
  · exact (writeBytes_keeps writeByte_keeps s a 4 v).trans (setEcc_keeps _ _ _)

theorem dmaWrite_keeps (s : State) (a : Word) (n : Nat) (v : BitVec 64) : AccessKeeps s (dmaWrite s a n v) := by
  have hr : ∀ (t : State) (x : DmaResponse), AccessKeeps t { t with dmaResponse := x } := fun t x =>
    ⟨rfl, id, id, rfl, rfl⟩
  unfold dmaWrite
  split
  · exact hr _ _
  · split
    · exact (dmaWriteWord_keeps _ s _ _).trans (hr _ _)
    · split
      · exact ((dmaWriteWord_keeps _ s _ _).trans (dmaWriteWord_keeps _ _ _ _)).trans (hr _ _)
      · exact hr _ _

theorem otherMasterWrite_keeps (s : State) (a : Word) (b : Byte) : AccessKeeps s (otherMasterWrite s a b) := by
  unfold otherMasterWrite
  split
  · split
    · exact .refl s
    · exact writeFetchableByte_keeps _ _ _
  all_goals exact .refl s

/-- An access of another agent keeps what an access of the hart keeps. -/
theorem agentAccess_keeps {e : HostEvent} {f : State → State} (h : agentAccess e = some f) (s : State) :
    AccessKeeps s (f s) := by
  cases e <;> simp only [agentAccess, Option.some.injEq, reduceCtorEq] at h <;> subst h
  · exact dmaRead_keeps s _ _
  · exact dmaWrite_keeps s _ _ _
  · exact otherMasterWrite_keeps s _ _

theorem runAgents_keeps (l : List HostEvent) (n : Nat) (s : State) : AccessKeeps s (runAgents l n s) := by
  induction l generalizing n s with
  | nil => exact .refl s
  | cons e rest ih =>
    unfold runAgents
    split
    · exact .refl s
    · rename_i f hf
      split
      · exact .refl s
      · exact ((⟨rfl, id, id, rfl, rfl⟩ : AccessKeeps s { s with inputs := rest }).trans
          (agentAccess_keeps hf _)).trans (ih _ _)

theorem actBetween_keeps (s : State) (k : Nat) : AccessKeeps s (actBetween s k) := by
  unfold actBetween
  split
  · exact .refl s
  · exact runAgents_keeps _ _ _

/-- With no access of another agent waiting, nothing happens between the pieces of an access. -/
theorem actBetween_idle {s : State} (h : agentNext s = false) (k : Nat) : actBetween s k = s := by
  unfold actBetween
  split
  · rfl
  · unfold agentNext at h
    cases hi : s.inputs with
    | nil => rfl
    | cons e rest =>
      rw [hi] at h
      have he : agentAccess e = none := by simpa using h
      simp [runAgents, he]

/-- Before the first piece nothing happens. -/
@[simp] theorem actBetween_zero (s : State) : actBetween s 0 = s := rfl

/-! ## Loads and stores -/

theorem dccmLoadPieces_keeps (a k : Nat) (v : Word) (s : State) (ps : List (Nat × Nat)) :
    AccessKeeps s (dccmLoadPieces a k v s ps).state := by
  induction ps generalizing k v s with
  | nil => exact .refl s
  | cons p ps ih => exact ((actBetween_keeps s k).trans (writeBack_keeps _ _ _)).trans (ih _ _ _)

theorem dccmLoad_keeps (s : State) (a n : Nat) : AccessKeeps s (dccmLoad s a n).state := by
  unfold dccmLoad
  split
  · exact .refl s
  · exact dccmLoadPieces_keeps _ _ _ _ _

theorem loadTransaction_keeps (s : State) (r : BusRead) (b : Bool) :
    AccessKeeps s (loadTransaction s r b).state := by
  obtain ⟨hf, hm, he, -, hr⟩ := loadTransaction_spec s r b
  exact ⟨hf.access, fun h => ⟨by rw [hm]; exact h.1, by rw [he]; exact h.2⟩, fun _ => hr, by rw [hf], by rw [hf]⟩

/-- The list parts at its last side-effect store. -/
theorem last_sideEffect {l : List BusStore} (h : l.any (·.sideEffect) = true) :
    ∃ front x back, l = front ++ x :: back ∧ x.sideEffect = true ∧ back.any (·.sideEffect) = false := by
  induction l with
  | nil => simp at h
  | cons st rest ih =>
    cases hr : rest.any (·.sideEffect) with
    | true =>
      obtain ⟨front, x, back, rfl, hx, hb⟩ := ih hr
      exact ⟨st :: front, x, back, rfl, hx, hb⟩
    | false => exact ⟨[], st, rest, rfl, by simpa [hr] using h, hr⟩

theorem youngerStores_append {front back : List BusStore} {x : BusStore} (hx : x.sideEffect = true)
    (hb : back.any (·.sideEffect) = false) : youngerStores (front ++ x :: back) = back.dropWhile (·.joined) := by
  have h : ∀ st ∈ back, (!st.sideEffect) = true := by simpa using hb
  unfold youngerStores List.rtakeWhile
  rw [List.reverse_append, List.reverse_cons, List.append_assoc, List.takeWhile_append_of_pos (by simpa using h)]
  simp [hx]

/-- Waiting for the side-effect stores leaves the younger stores in the buffer (R202, R204). -/
theorem sendSideEffects_younger (n : Nat) (s : State) (hn : s.wb.length ≤ n) (h : s.wb.any (·.sideEffect) = true) :
    (sendSideEffects n s).wb = youngerStores s.wb := by
  induction n generalizing s with
  | zero => rw [List.length_eq_zero_iff.mp (Nat.le_zero.mp hn)] at h; simp at h
  | succ n ih =>
    have hl := sendStores_wb 1 s
    simp only [sendStores] at hl
    have hw := sendStore_wb s
    rw [sendSideEffects, if_pos h]
    have hy : (sendStore s).wb = youngerStores s.wb ∧ (sendStore s).wb.any (·.sideEffect) = false ∨
        (sendStore s).wb.any (·.sideEffect) = true ∧ youngerStores (sendStore s).wb = youngerStores s.wb := by
      obtain ⟨front, x, back, he, hx, hb⟩ := last_sideEffect h
      have hd : (back.dropWhile (·.joined)).any (·.sideEffect) = false :=
        List.any_eq_false.mpr fun y hy => List.any_eq_false.mp hb y (List.dropWhile_sublist _ |>.subset hy)
      rw [hw, he, youngerStores_append hx hb]
      cases front with
      | nil => exact .inl ⟨rfl, hd⟩
      | cons st front =>
        rw [List.cons_append, List.tail_cons, List.dropWhile_append]
        split
        · rw [List.dropWhile_cons]
          split
          · exact .inl ⟨rfl, hd⟩
          · exact .inr ⟨by simp [hx], youngerStores_append (front := []) hx hb⟩
        · exact .inr ⟨by simp [hx], youngerStores_append hx hb⟩
    rcases hy with ⟨h1, h2⟩ | ⟨h1, h2⟩
    · cases n with
      | zero => exact h1
      | succ n => rw [sendSideEffects, h2]; exact h1
    · rw [ih _ (by omega) h1, h2]
theorem emptyBuffer_keeps (s : State) : AccessKeeps s (emptyBuffer s) := by
  have hf := sendStores_frame s.wb.length s
  exact ⟨hf.access, sendStores_canonical _ s, sendStores_responses _ s, by rw [emptyBuffer, hf], by rw [emptyBuffer, hf]⟩

theorem awaitSideEffects_keeps (s : State) : AccessKeeps s (awaitSideEffects s) := by
  have hf := awaitSideEffects_frame s
  exact ⟨hf.access, awaitSideEffects_induct sendStore_canonical s, awaitSideEffects_induct sendStore_responses s,
    by rw [hf], by rw [hf]⟩

theorem busLoadPieces_keeps (a : Word) (part blocking : Bool) (k : Nat) (v : Word) (lost : Bool) (s : State)
    (ps : List (Nat × Nat)) : AccessKeeps s (busLoadPieces a part blocking k v lost s ps).state := by
  induction ps generalizing k v lost s with
  | nil => unfold busLoadPieces; split <;> exact .refl s
  | cons p ps ih =>
    have h := (actBetween_keeps s k).trans
      (loadTransaction_keeps (actBetween s k) ⟨a + BitVec.ofNat 32 p.1, p.2, false, part⟩ blocking)
    unfold busLoadPieces
    split <;> rename_i heq <;> rw [heq] at h
    · exact h
    · exact h.trans (ih _ _ _ _)
    · exact h.trans (ih _ _ _ _)

theorem busLoad_keeps (s : State) (a : Word) (n : Nat) (b : Bool) : AccessKeeps s (busLoad s a n b).state := by
  unfold busLoad
  split
  · exact (emptyBuffer_keeps s).trans (loadTransaction_keeps _ _ _)
  · split
    · exact .refl s
    · split
      · exact (emptyBuffer_keeps s).trans (busLoadPieces_keeps _ _ _ _ _ _ _ _)
      · exact (awaitSideEffects_keeps s).trans (busLoadPieces_keeps _ _ _ _ _ _ _ _)

/-- A load leaves a state that differs from the old one as `AccessKeeps` says, whatever its outcome. -/
theorem memLoad_keeps (s : State) (a : Word) (n : Nat) : AccessKeeps s (memLoad s a n).state := by
  unfold memLoad
  split
  · exact .refl s
  · exact .refl s
  · exact dccmLoad_keeps _ _ _
  · exact .refl s
  · exact busLoad_keeps _ _ _ _

theorem mergeWord_keeps (s : State) (w : Nat) : AccessKeeps s (mergeWord s w) := by
  unfold mergeWord
  split
  · exact writeBackWord_keeps _ _ _
  · exact (foldl_keeps (fun t k => writeByte_keeps t _ _) _ s).trans (storeEcc_keeps _ _ _)
  all_goals exact .refl s

theorem dccmStorePieces_keeps (a : Nat) (v : Word) (k : Nat) (s : State) (ps : List (Nat × Nat)) :
    AccessKeeps s (dccmStorePieces a v k s ps) := by
  induction ps generalizing k s with
  | nil => exact .refl s
  | cons p ps ih =>
    exact (((actBetween_keeps s k).trans (foldl_keeps mergeWord_keeps _ _)).trans
      (writeBytes_keeps storeByte_keeps _ _ _ _)).trans (ih _ _)

theorem dccmStore_keeps (s : State) (a : Word) (n : Nat) (v : Word) : AccessKeeps s (dccmStore s a n v).state := by
  unfold dccmStore
  split
  · exact (writeBytes_keeps storeByte_keeps s a.toNat n v).trans (storeEcc_keeps _ _ _)
  · split
    · exact .refl s
    · exact dccmStorePieces_keeps _ _ _ _ _

theorem issuePicStore_frame (s : State) (o : Nat) (v : Word) :
    issuePicStore s o v =
      { s with
        picQueue := (issuePicStore s o v).picQueue
        csr := { s.csr with
          ithresh := (issuePicStore s o v).csr.ithresh
          iclid := (issuePicStore s o v).csr.iclid
          icur := (issuePicStore s o v).csr.icur
          priDoubt := (issuePicStore s o v).csr.priDoubt } } := by
  unfold issuePicStore issueOrder
  split
  · split
    · rfl
    · split <;> rfl
  · rfl

theorem issuePicStore_keeps (s : State) (o : Nat) (v : Word) : AccessKeeps s (issuePicStore s o v) := by
  have h := issuePicStore_frame s o v
  refine ⟨?_, fun c => ?_, fun c => ?_, ?_, ?_⟩
  · unfold AccessFrame; rw [h]
  · rw [h]; exact c
  · rw [h]; exact c
  · rw [h]
  · rw [h]

/-- Buffering stores changes the write buffer only (R201). -/
theorem bufferStores_frame (k : Nat) (s : State) (l : List BusStore) :
    bufferStores k s l = { s with wb := (bufferStores k s l).wb } := by
  induction l generalizing k s with
  | nil => rfl
  | cons st rest ih =>
    have h := ih (k + 1) (bufferStore s k st)
    rw [bufferStores]
    generalize bufferStores (k + 1) (bufferStore s k st) rest = t at h ⊢
    rw [h]
    rfl

/-- A store to the bus adds its pieces to the write buffer, each coalesced with what is before it or not, and does
nothing else (R184, R187, R201). -/
theorem bufferStores_wb (k : Nat) (s : State) (l : List BusStore) :
    ∃ js : List BusStore, (bufferStores k s l).wb = s.wb ++ js ∧
      js.map (fun st => { st with joined := false }) = l.map fun st => { st with joined := false } := by
  induction l generalizing k s with
  | nil => exact ⟨[], by simp [bufferStores], rfl⟩
  | cons st rest ih =>
    obtain ⟨js, h1, h2⟩ := ih (k + 1) (bufferStore s k st)
    refine ⟨{ st with joined := coalesced s k st } :: js, ?_, ?_⟩
    · rw [bufferStores, h1]; simp
    · simp [h2]

theorem busStore_keeps (s : State) (a : Word) (n : Nat) (v : Word) (b : Bool) :
    AccessKeeps s (busStore s a n v b) := by
  unfold busStore
  rw [bufferStores_frame]
  exact ⟨rfl, id, id, rfl, rfl⟩

/-- A store leaves a state that differs from the old one as `AccessKeeps` says, whatever its outcome. -/
theorem memStore_keeps (s : State) (a : Word) (n : Nat) (v : Word) : AccessKeeps s (memStore s a n v).state := by
  unfold memStore
  split <;> try rw [Access.state]
  · exact .refl s
  · exact .refl s
  · exact dccmStore_keeps s a n v
  · exact issuePicStore_keeps s (a.toNat - picBase s.cfg) v
  · exact busStore_keeps s a n v _

/-- A memory access changes no register and not the pc. -/
theorem memLoad_done_regs {s t : State} {a v : Word} {n : Nat} (h : memLoad s a n = .done v t) :
    t.regs = s.regs ∧ t.pc = s.pc := by
  have := memLoad_keeps s a n
  rw [h] at this
  exact ⟨this.frame.regs, this.frame.pc⟩

/-- As `memLoad_done_regs`, for stores. -/
theorem memStore_done_regs {s t : State} {a v w : Word} {n : Nat} (h : memStore s a n v = .done w t) :
    t.regs = s.regs ∧ t.pc = s.pc := by
  have := memStore_keeps s a n v
  rw [h] at this
  exact ⟨this.frame.regs, this.frame.pc⟩

/-! ## Values -/

theorem toNat_append8 {n : Nat} (x : BitVec n) (y : BitVec 8) : (x ++ y).toNat = x.toNat * 256 + y.toNat := by
  rw [BitVec.toNat_append, ← Nat.shiftLeft_add_eq_or_of_lt y.isLt, Nat.shiftLeft_eq]

theorem littleEndianValue_lt (f : Nat → Byte) (a n : Nat) : littleEndianValue f a n < 256 ^ n := by
  induction n with
  | zero => simp [littleEndianValue]
  | succ n ih =>
    have h := (f (a + n)).isLt
    have : (f (a + n)).toNat * 256 ^ n ≤ 255 * 256 ^ n := Nat.mul_le_mul_right _ (by omega)
    rw [littleEndianValue, pow_succ]
    omega

/-- The assembled value is the little-endian number of the bytes (R161). -/
theorem assemble_eq (f : Nat → Byte) (a n : Nat) (hn : n = 1 ∨ n = 2 ∨ n = 4) :
    assemble f a n = BitVec.ofNat 32 (littleEndianValue f a n) := by
  apply BitVec.eq_of_toNat_eq
  rcases hn with rfl | rfl | rfl
  · simp [assemble, littleEndianValue]
  · have h : (assemble f a 2).toNat = (f (a + 1) ++ f a).toNat % 2 ^ 32 := BitVec.toNat_setWidth ..
    have hl := littleEndianValue_lt f a 2
    rw [h, toNat_append8, BitVec.toNat_ofNat]
    simp only [littleEndianValue, Nat.add_zero]
    omega
  · have h : (assemble f a 4).toNat = (f (a + 3) ++ f (a + 2) ++ f (a + 1) ++ f a).toNat := rfl
    rw [h, toNat_append8, toNat_append8, toNat_append8, BitVec.toNat_ofNat,
      Nat.mod_eq_of_lt (show _ < 2 ^ 32 from littleEndianValue_lt f a 4)]
    simp only [littleEndianValue, Nat.add_zero]
    omega

/-- A load's register value, from the assembled bytes (R351 to R355). -/
theorem extend_assemble (f : Nat → Byte) (a : Nat) (k : LoadKind) :
    k.extend (assemble f a k.size) =
      match k with
      | .signed8 => (BitVec.ofNat 8 (littleEndianValue f a 1)).signExtend 32
      | .signed16 => (BitVec.ofNat 16 (littleEndianValue f a 2)).signExtend 32
      | .word => BitVec.ofNat 32 (littleEndianValue f a 4)
      | .unsigned8 => (BitVec.ofNat 8 (littleEndianValue f a 1)).setWidth 32
      | .unsigned16 => (BitVec.ofNat 16 (littleEndianValue f a 2)).setWidth 32 := by
  have h8 : ∀ x : Nat, (BitVec.ofNat 32 x).extractLsb' 0 8 = BitVec.ofNat 8 x := fun x => by
    apply BitVec.eq_of_toNat_eq
    simp [BitVec.extractLsb'_toNat]
  have h16 : ∀ x : Nat, (BitVec.ofNat 32 x).extractLsb' 0 16 = BitVec.ofNat 16 x := fun x => by
    apply BitVec.eq_of_toNat_eq
    simp [BitVec.extractLsb'_toNat]
  cases k <;> simp only [LoadKind.extend, LoadKind.size] <;>
    rw [assemble_eq _ _ _ (by decide)] <;> simp only [h8, h16]

end Sys2Proof.Machine
end

