-- ==== Sys2Proof/Laws/Checks.lean ====
section
/-! SUPPORT. What an access leaves of check bits and error counters, and a store smaller than a word of its bytes (R185, R221). -/

namespace Sys2Proof.Machine

/-! ## Counting -/

/-- No error counted leaves the counter as it is. -/
theorem countErrors_zero (v : Word) : countErrors 0 v = v := by
  refine BitVec.eq_of_getLsbD_eq fun n hn => ?_
  rw [countErrors, BitVec.getLsbD_append]
  split <;> rename_i h
  · rw [Nat.add_zero, BitVec.ofNat_toNat]
    simp [h]
  · simp only [BitVec.getLsbD_extractLsb']
    rw [show 27 + (n - 27) = n by omega]
    simp; omega

/-- One more error is counted (R106). -/
theorem bumpCount_countErrors (n : Nat) (v : Word) : bumpCount (countErrors n v) = countErrors (n + 1) v := by
  have hh : (countErrors n v).extractLsb' 27 5 = v.extractLsb' 27 5 := by
    refine BitVec.eq_of_getLsbD_eq fun k hk => ?_
    rw [BitVec.getLsbD_extractLsb', countErrors, BitVec.getLsbD_append, if_neg (by omega)]
    simp [hk]
  have hl : (countErrors n v).extractLsb' 0 27 = BitVec.ofNat 27 ((v.extractLsb' 0 27).toNat + n) := by
    refine BitVec.eq_of_getLsbD_eq fun k hk => ?_
    rw [BitVec.getLsbD_extractLsb', countErrors, BitVec.getLsbD_append, if_pos (by omega)]
    simp [hk]
  unfold bumpCount
  rw [hl, hh, countErrors, ← Nat.add_assoc, BitVec.ofNat_add _ 1]
  rfl

/-! ## Check bits -/

/-- Words made sound one after the other. -/
theorem soundAt_append (l₁ l₂ : List Nat) (ecc : List (Nat × EccState)) :
    soundAt (l₁ ++ l₂) ecc = soundAt l₂ (soundAt l₁ ecc) := by
  unfold soundAt
  rw [List.foldl_append]

/-- The check state of a word after some were made sound. -/
theorem cellGet_soundAt (l : List Nat) (ecc : List (Nat × EccState)) (w : Nat) :
    cellGet (soundAt l ecc) w = if w ∈ l then some .good else cellGet ecc w := by
  unfold soundAt
  induction l generalizing ecc with
  | nil => rfl
  | cons x l ih =>
    simp only [List.foldl_cons, ih, cellGet_cellSet, List.mem_cons]
    split_ifs <;> simp_all

/-- What an access meets depends on the word's check bits and on `mfdc`. -/
theorem checkWord_congr {s t : State} (hn : t.stepNo = s.stepNo) (hm : t.csr.mfdc = s.csr.mfdc) (ho : t.mfdcOld = s.mfdcOld)
    {w : Nat} (he : cellGet t.ecc w = cellGet s.ecc w) : checkWord t w = checkWord s w := by
  unfold checkWord eccChecked mfdcNow
  rw [he, hn, hm, ho]

/-- A word with sound check bits is sound. -/
theorem checkWord_good {s : State} {w : Nat} (h : cellGet s.ecc w = some .good) : checkWord s w = .sound := by
  unfold checkWord
  rw [h]

/-- The counter of a memory's corrected errors, `n` errors later (R106). -/
def countMemory (m : Ccm) (n : Nat) (r : Csrs) : Csrs :=
  { r with
    miccmect := if m = .iccm then countErrors n r.miccmect else r.miccmect
    mdccmect := if m = .dccm then countErrors n r.mdccmect else r.mdccmect }

/-- No error counted leaves the counters as they are. -/
theorem countMemory_zero (m : Ccm) (r : Csrs) : countMemory m 0 r = r := by
  unfold countMemory
  simp [countErrors_zero]

/-- One more error of the memory is counted. -/
theorem countMemory_succ (m : Ccm) (n : Nat) (s : State) (r : Csrs) (h : s.csr = countMemory m n r) :
    (countCorrected s m).csr = countMemory m (n + 1) r := by
  cases m <;> simp [countCorrected, h, countMemory, bumpCount_countErrors]

/-- The write back of an access, said once: every word found correctable is sound after it and counted once, and nothing else
changes (R106, R221). -/
theorem writeBack_eq (m : Ccm) (s : State) (ws : List Nat) (hd : ws.Nodup) :
    writeBack m s ws = { s with
      ecc := soundAt (correctedWords s ws) s.ecc, csr := countMemory m (correctedWords s ws).length s.csr } := by
  induction ws using List.reverseRecOn with
  | nil => simp [writeBack, correctedWords, soundAt, countMemory_zero]
  | append_singleton ws w ih =>
    have hd' := List.nodup_append.mp hd
    have ih := ih hd'.1
    unfold writeBack at ih ⊢
    rw [List.foldl_append, ih]
    generalize hu : ({ s with
      ecc := soundAt (correctedWords s ws) s.ecc, csr := countMemory m (correctedWords s ws).length s.csr } : State) = u
    have hw : w ∉ correctedWords s ws := fun h => hd'.2.2 w (List.mem_filter.mp h).1 w (by simp) rfl
    have hc : checkWord u w = checkWord s w := by
      refine checkWord_congr (by rw [← hu]) (by rw [← hu]; rfl) (by rw [← hu]) ?_
      rw [← hu]
      simp [cellGet_soundAt, hw]
    have hsplit : correctedWords s (ws ++ [w]) = correctedWords s ws ++ if checkWord s w = .corrected then [w] else [] := by
      simp only [correctedWords, List.filter_append, List.filter_cons, List.filter_nil, beq_iff_eq]
    simp only [List.foldl_cons, List.foldl_nil, hsplit, writeBackWord, hc]
    cases hk : checkWord s w <;> simp only [reduceCtorEq, if_true, if_false, List.append_nil] <;> try exact hu.symm
    have h1 := countMemory_succ m (correctedWords s ws).length u s.csr (by rw [← hu])
    have h2 : ∀ v : State, setEcc v w .good = { v with ecc := cellSet v.ecc w .good } := fun _ => rfl
    have h3 : countCorrected u m = { u with csr := (countCorrected u m).csr } := by cases m <;> rfl
    rw [h2, h3, h1, ← hu, soundAt_append, List.length_append]
    rfl

/-- No word is met twice. -/
theorem wordsOf_nodup (a n : Nat) : (wordsOf a n).Nodup :=
  (List.nodup_range).map fun _ _ h => Nat.add_left_cancel h


/-! ## A store smaller than a word (R185, R221; log 6) -/

/-- The words that have fresh check bits once a store has read them, changed them and written them back. -/
def renewedWords (s : State) (ws : List Nat) : List Nat :=
  ws.filter fun w => checkWord s w == .corrected || checkWord s w == .spoilt

/-- A store under way: from `s` the words `done` have been read and those that need it renewed, and the bytes from `a` up to
`off` written with those of `v`. -/
structure Merged (s : State) (a : Nat) (v : Word) (done : List Nat) (off : Nat) (t : State) : Prop where
  distinct : done.Nodup
  written : ∀ b, a ≤ b → b < a + off → b / 4 ∈ done
  byte : ∀ b, memByte t b =
    if a ≤ b ∧ b < a + off then byteOf v (b - a)
    else if b / 4 ∈ done ∧ checkWord s (b / 4) = .spoilt then Config.corruptedByte s.stepNo b
    else memByte s b
  frame : t = { s with
    mem := t.mem, ecc := soundAt (renewedWords s done) s.ecc, unfenced := t.unfenced, unfencedEcc := t.unfencedEcc
    csr := countMemory .dccm (correctedWords s done).length s.csr }

/-- What the store finds in a word: as before, but sound when the word has been renewed. -/
theorem Merged.check {s t : State} {a off : Nat} {v : Word} {done : List Nat} (h : Merged s a v done off t) (w : Nat) :
    checkWord t w = if w ∈ renewedWords s done then .sound else checkWord s w := by
  split <;> rename_i hw
  · apply checkWord_good
    rw [h.frame]
    simp [cellGet_soundAt, hw]
  · refine checkWord_congr (by rw [h.frame]) (by rw [h.frame]; rfl) (by rw [h.frame]) ?_
    rw [h.frame]
    simp [cellGet_soundAt, hw]

/-- The four bytes of a word spoilt. -/
theorem spoil_spec (step : Nat) (t : State) (w : Nat) :
    let u := (List.range 4).foldl (fun t k => writeByte t (4 * w + k) (Config.corruptedByte step (4 * w + k))) t
    u = { t with mem := u.mem } ∧ ∀ b, memByte u b = if b / 4 = w then Config.corruptedByte step b else memByte t b := by
  refine ⟨rfl, fun b => ?_⟩
  show memByte (writeByte (writeByte (writeByte (writeByte t _ _) _ _) _ _) _ _) b = _
  simp only [memByte_writeByte]
  by_cases hb : b / 4 = w
  · rw [if_pos hb]
    have hb4 : b = 4 * w + b % 4 := by omega
    have : b % 4 < 4 := Nat.mod_lt _ (by decide)
    split_ifs <;> first | omega | (congr 1; omega)
  · rw [if_neg hb]
    split_ifs <;> first | rfl | omega

/-- The read of a correctable word corrects and counts it. -/
theorem mergeWord_corrected {t : State} {w : Nat} (h : checkWord t w = .corrected) :
    mergeWord t w = { t with ecc := cellSet t.ecc w .good, csr := (countCorrected t .dccm).csr } := by
  simp only [mergeWord, writeBackWord, h]
  rfl

/-- The read of a word spoilt by an error nobody checks makes the spoilt bytes its data (log 6). -/
theorem mergeWord_spoilt {t : State} {w : Nat} (h : checkWord t w = .spoilt) :
    mergeWord t w = { t with
      mem := (mergeWord t w).mem, ecc := cellSet t.ecc w .good, unfencedEcc := (mergeWord t w).unfencedEcc } ∧
    ∀ b, memByte (mergeWord t w) b = if b / 4 = w then Config.corruptedByte t.stepNo b else memByte t b := by
  obtain ⟨h1, h2⟩ := spoil_spec t.stepNo t w
  simp only [mergeWord, h]
  refine ⟨?_, h2⟩
  rw [h1]
  rfl

/-- The read of any other word changes nothing. -/
theorem mergeWord_other {t : State} {w : Nat} (h1 : checkWord t w ≠ .corrected) (h2 : checkWord t w ≠ .spoilt) :
    mergeWord t w = t := by
  unfold mergeWord
  split <;> first | rfl | contradiction

/-- One more word read: what is left to show is the word's own bytes, check bits and count. -/
theorem Merged.next {s t u : State} {a off : Nat} {v : Word} {done : List Nat} (h : Merged s a v done off t) {w : Nat}
    (hw : w ∉ done) (hm : ∀ b, memByte u b =
      if b / 4 = w ∧ checkWord s w = .spoilt then Config.corruptedByte s.stepNo b else memByte t b)
    (hu : u = { t with
      mem := u.mem, ecc := soundAt (renewedWords s [w]) t.ecc, unfencedEcc := u.unfencedEcc
      csr := countMemory .dccm (correctedWords s (done ++ [w])).length s.csr }) :
    Merged s a v (done ++ [w]) off u where
  distinct := List.nodup_append.mpr ⟨h.distinct, by simp, fun x hx y hy => by simp at hy; subst hy; rintro rfl; exact hw hx⟩
  written b h1 h2 := List.mem_append_left _ (h.written b h1 h2)
  byte b := by
    rw [hm, h.byte]
    by_cases hb : b / 4 = w
    · have hno : ¬(a ≤ b ∧ b < a + off) := fun hh => hw (hb ▸ h.written b hh.1 hh.2)
      simp [hb, hw, hno]
    · simp [hb]
  frame := by
    have e : soundAt (renewedWords s (done ++ [w])) s.ecc = soundAt (renewedWords s [w]) t.ecc := by
      rw [renewedWords, List.filter_append, soundAt_append, h.frame]
      rfl
    rw [e, hu]
    have hf := h.frame
    generalize soundAt (renewedWords s [w]) t.ecc = x
    rw [hf]

/-- One more word is read, and renewed if it has to be. -/
theorem Merged.word {s t : State} {a off : Nat} {v : Word} {done : List Nat} (h : Merged s a v done off t) {w : Nat}
    (hw : w ∉ done) : Merged s a v (done ++ [w]) off (mergeWord t w) := by
  have hc : checkWord t w = checkWord s w := by
    rw [h.check, if_neg]
    exact fun hm => hw (List.mem_filter.mp hm).1
  have hk : correctedWords s (done ++ [w]) = correctedWords s done ++ if checkWord s w = .corrected then [w] else [] := by
    simp only [correctedWords, List.filter_append, List.filter_cons, List.filter_nil, beq_iff_eq]
  have hcsr : t.csr = countMemory .dccm (correctedWords s done).length s.csr := by rw [h.frame]
  by_cases h1 : checkWord s w = .corrected
  · have hr : renewedWords s [w] = [w] := by simp [renewedWords, h1]
    have hm := mergeWord_corrected (hc.trans h1)
    have hcs := countMemory_succ .dccm _ t s.csr hcsr
    refine h.next hw (fun b => ?_) ?_
    · rw [hm]; simp [h1, memByte]
    · rw [hr, hk, if_pos h1, List.length_append]
      rw [hcs] at hm
      rw [hm]
      rfl
  by_cases h2 : checkWord s w = .spoilt
  · have hr : renewedWords s [w] = [w] := by simp [renewedWords, h2]
    obtain ⟨hm, hb⟩ := mergeWord_spoilt (hc.trans h2)
    refine h.next hw (fun b => ?_) ?_
    · rw [hb, show t.stepNo = s.stepNo by rw [h.frame]]; simp [h2]
    · rw [hr, hk, if_neg h1, List.append_nil, ← hcsr]
      exact hm
  · have hr : renewedWords s [w] = [] := by simp [renewedWords, h1, h2]
    rw [mergeWord_other (hc ▸ h1) (hc ▸ h2)]
    refine h.next hw (fun b => by simp [h2]) ?_
    rw [hr, hk, if_neg h1, List.append_nil, ← hcsr]
    rfl

/-- A word that has been read is not changed by another read. -/
theorem Merged.again {s t : State} {a off : Nat} {v : Word} {done : List Nat} (h : Merged s a v done off t) {w : Nat}
    (hw : w ∈ done) : mergeWord t w = t := by
  have hc := h.check w
  unfold mergeWord
  split at hc <;> rename_i hm
  · rw [hc]
  · have : ¬(checkWord s w = .corrected ∨ checkWord s w = .spoilt) := by
      intro hh
      exact hm (List.mem_filter.mpr ⟨hw, by simpa using hh⟩)
    rw [hc]
    cases hcw : checkWord s w <;> first | rfl | exact absurd hcw (by simp_all)

/-- The bytes of one piece are written. -/
theorem Merged.piece {s t : State} {a off : Nat} {v : Word} {done : List Nat} (h : Merged s a v done off t) (n : Nat)
    (hd : ∀ b, a + off ≤ b → b < a + off + n → b / 4 ∈ done) :
    Merged s a v done (off + n) (writeBytes storeByte t (a + off) n (v >>> (8 * off))) := by
  refine ⟨h.distinct, fun b h1 h2 => ?_, fun b => ?_, ?_⟩
  · by_cases hb : b < a + off
    · exact h.written b h1 hb
    · exact hd b (by omega) (by omega)
  · rw [memByte_writeBytes memByte_storeByte, h.byte]
    have hs : ∀ k, byteOf (v >>> (8 * off)) k = byteOf v (off + k) := fun k => by
      refine BitVec.eq_of_getLsbD_eq fun i hi => ?_
      simp only [byteOf, BitVec.getLsbD_extractLsb', hi, decide_true, Bool.true_and, BitVec.getLsbD_ushiftRight]
      congr 1
      omega
    split_ifs <;> first | rfl | omega | skip
    rw [hs]
    congr 1
    omega
  · rw [writeBytes_storeByte]
    generalize writeBytes storeByte t (a + off) n (v >>> (8 * off)) = u
    have := h.frame
    show { t with mem := u.mem, unfenced := u.unfenced } = _
    rw [this]

/-- Before the first piece nothing has happened. -/
theorem Merged.start (s : State) (a : Nat) (v : Word) : Merged s a v [] 0 s :=
  ⟨List.nodup_nil, fun b h1 h2 => by omega, fun b => by simp, by
    simp [renewedWords, correctedWords, soundAt, countMemory_zero]⟩

/-- The words of one access, in the order read: those met before are not read again. -/
theorem Merged.words {s t : State} {a off : Nat} {v : Word} {done : List Nat} (h : Merged s a v done off t) (ws : List Nat) :
    Merged s a v (ws.foldl (fun l w => if w ∈ l then l else l ++ [w]) done) off (ws.foldl mergeWord t) := by
  induction ws generalizing t done with
  | nil => exact h
  | cons w ws ih =>
    simp only [List.foldl_cons]
    split <;> rename_i hw
    · rw [h.again hw]; exact ih h
    · exact ih (h.word hw)

/-- A word or less, within one word. -/
theorem wordsOf_one {a n : Nat} (h0 : 1 ≤ n) (h : a % 4 + n ≤ 4) : wordsOf a n = [a / 4] := by
  unfold wordsOf
  rw [show (a + n - 1) / 4 - a / 4 + 1 = 1 by omega]
  rfl

/-- A word or less, over two words. -/
theorem wordsOf_two {a n : Nat} (h0 : n ≤ 4) (h : 4 < a % 4 + n) : wordsOf a n = [a / 4, a / 4 + 1] := by
  unfold wordsOf
  rw [show (a + n - 1) / 4 - a / 4 + 1 = 2 by omega]
  rfl

/-- A store smaller than a word, or split, that no other agent disturbs, said once (R184, R185, R221). -/
theorem dccmStorePieces_merged (s : State) (a n : Nat) (v : Word) (hn : n = 1 ∨ n = 2 ∨ n = 4)
    (hq : a % n = 0 ∨ agentNext s = false) :
    Merged s a v (wordsOf a n) n (dccmStorePieces a v 0 s (cutAccess false a n)) := by
  have go : ∀ (k off size : Nat) (t : State) (done : List Nat), (k = 0 ∨ agentNext s = false) → Merged s a v done off t →
      Merged s a v ((wordsOf (a + off) size).foldl (fun l w => if w ∈ l then l else l ++ [w]) done) (off + size)
        (writeBytes storeByte ((wordsOf (a + off) size).foldl mergeWord (actBetween t k)) (a + off) size (v >>> (8 * off))) := by
    intro k off size t done hk h
    have hi : actBetween t k = t := by
      rcases hk with rfl | hk
      · rfl
      · refine actBetween_idle ?_ k
        rw [h.frame]; exact hk
    rw [hi]
    refine (h.words _).piece size fun b h1 h2 => ?_
    have hm : b / 4 ∈ wordsOf (a + off) size := by
      simp only [wordsOf, List.mem_map, List.mem_range]
      exact ⟨b / 4 - (a + off) / 4, by omega, by omega⟩
    have mono : ∀ (ws l : List Nat) (x : Nat), x ∈ l ∨ x ∈ ws → x ∈ ws.foldl (fun l w => if w ∈ l then l else l ++ [w]) l := by
      intro ws
      induction ws with
      | nil => intro l x hx; simpa using hx
      | cons w ws ih =>
        intro l x hx
        refine ih _ x ?_
        dsimp only
        split <;> rename_i hw <;> rcases hx with hx | hx
        · exact .inl hx
        · rcases List.mem_cons.mp hx with rfl | hx
          · exact .inl hw
          · exact .inr hx
        · exact .inl (by simp [hx])
        · rcases List.mem_cons.mp hx with rfl | hx
          · exact .inl (by simp)
          · exact .inr hx
    exact mono _ _ _ (.inr hm)
  have g1 := fun size => go 0 0 size s [] (.inl rfl) (.start s a v)
  simp only [Nat.add_zero, Nat.mul_zero, BitVec.ushiftRight_zero, Nat.zero_add] at g1
  unfold cutAccess
  split <;> rename_i hal
  · have : wordsOf a n = [a / 4] := wordsOf_one (by omega) (by rcases hn with rfl | rfl | rfl <;> omega)
    have h := g1 n
    simp only [dccmStorePieces, Nat.add_zero, Nat.mul_zero, BitVec.ushiftRight_zero]
    rw [this] at h ⊢
    simpa using h
  replace hq := hq.resolve_left hal
  rcases hn with rfl | rfl | rfl
  · omega
  · have h2 := go 1 1 1 _ _ (.inr hq) (g1 1)
    simp only [Bool.false_eq_true, if_false, if_true, dccmStorePieces, Nat.add_zero, Nat.mul_zero, BitVec.ushiftRight_zero]
    by_cases h3 : a % 4 = 3
    · rw [wordsOf_two (by omega) (by omega)]
      rw [wordsOf_one (a := a) (by omega) (by omega), wordsOf_one (a := a + 1) (by omega) (by omega)] at h2 ⊢
      simpa [show (a + 1) / 4 = a / 4 + 1 by omega] using h2
    · rw [wordsOf_one (n := 2) (by omega) (by omega)]
      rw [wordsOf_one (a := a) (by omega) (by omega), wordsOf_one (a := a + 1) (by omega) (by omega)] at h2 ⊢
      simpa [show (a + 1) / 4 = a / 4 by omega] using h2
  · simp only [Bool.false_eq_true, if_false, show ¬(4 = 2) by decide]
    rw [wordsOf_two (n := 4) (by omega) (by omega)]
    split <;> rename_i he
    · have h2 := go 1 2 2 _ _ (.inr hq) (g1 2)
      simp only [dccmStorePieces, Nat.add_zero, Nat.mul_zero, BitVec.ushiftRight_zero]
      rw [wordsOf_one (a := a) (by omega) (by omega), wordsOf_one (a := a + 2) (by omega) (by omega)] at h2 ⊢
      simpa [show (a + 2) / 4 = a / 4 + 1 by omega] using h2
    · have h2 := go 2 3 1 _ _ (.inr hq) (go 1 1 2 _ _ (.inr hq) (g1 1))
      simp only [dccmStorePieces, Nat.add_zero, Nat.mul_zero, BitVec.ushiftRight_zero]
      rw [wordsOf_one (a := a) (by omega) (by omega), wordsOf_one (a := a + 1) (by omega) (by omega),
        wordsOf_one (a := a + 3) (by omega) (by omega)] at h2 ⊢
      rcases show a % 4 = 1 ∨ a % 4 = 3 by omega with h3 | h3
      · simpa [show (a + 1) / 4 = a / 4 by omega, show (a + 3) / 4 = a / 4 + 1 by omega] using h2
      · simpa [show (a + 1) / 4 = a / 4 + 1 by omega, show (a + 3) / 4 = a / 4 + 1 by omega] using h2

end Sys2Proof.Machine
end

