-- ==== Sys2Proof/Laws/Encoding.lean ====
section
/-! SUPPORT. Joining and splitting the fields of a code, and every immediate format there and back. -/

namespace Sys2Proof

/-- Splitting a joined word gives the fields back. -/
@[simp] theorem ofWord_toWord (f : Fields) : Fields.ofWord f.toWord = f := by
  cases f
  simp only [Fields.ofWord, Fields.toWord, Fields.mk.injEq]
  refine ⟨?_, ?_, ?_, ?_, ?_, ?_⟩ <;>
  · ext i hi
    simp only [BitVec.getElem_extractLsb', BitVec.getLsbD_append]
    (repeat' split) <;>
      first | omega | (congr 1; omega) | (rw [← BitVec.getLsbD_eq_getElem]; congr 1; omega)

/-- Joining a split word gives the word back: no bit is dropped. -/
@[simp] theorem toWord_ofWord (w : BitVec 32) : (Fields.ofWord w).toWord = w := by
  refine BitVec.eq_of_getLsbD_eq fun i hi => ?_
  simp only [Fields.ofWord, Fields.toWord, BitVec.getLsbD_append, BitVec.getLsbD_extractLsb']
  (repeat' split) <;> rw [decide_eq_true (by omega), Bool.true_and] <;> congr 1 <;> omega

/-- Splitting a joined parcel gives the fields back. -/
@[simp] theorem ofParcel_toParcel (f : Fields16) : Fields16.ofParcel f.toParcel = f := by
  cases f
  simp only [Fields16.ofParcel, Fields16.toParcel, Fields16.mk.injEq]
  refine ⟨?_, ?_, ?_, ?_, ?_⟩ <;>
  · ext i hi
    simp only [BitVec.getElem_extractLsb', BitVec.getLsbD_append]
    (repeat' split) <;>
      first | omega | (congr 1; omega) | (rw [← BitVec.getLsbD_eq_getElem]; congr 1; omega)

/-- Joining a split parcel gives the parcel back. -/
@[simp] theorem toParcel_ofParcel (h : BitVec 16) : (Fields16.ofParcel h).toParcel = h := by
  refine BitVec.eq_of_getLsbD_eq fun i hi => ?_
  simp only [Fields16.ofParcel, Fields16.toParcel, BitVec.getLsbD_append, BitVec.getLsbD_extractLsb']
  (repeat' split) <;> rw [decide_eq_true (by omega), Bool.true_and] <;> congr 1 <;> omega

/-! ## Immediates: from the operand to the fields and back

`hv` says that an operand's low bits are zero where the format drops them. -/

theorem low_bits {n : Nat} (v : BitVec n) (k i : Nat) (h : v.extractLsb' 0 k = 0#k) (hi : i < k) :
    v.getLsbD i = false := by
  have := congrArg (BitVec.getLsbD · i) h
  simpa [hi] using this

theorem immI_code (v : BitVec 12) (a b : BitVec 5) (f3 : BitVec 3) (op : BitVec 7) :
    (Fields.mk (v.extractLsb' 5 7) (v.extractLsb' 0 5) a f3 b op).immI = v := by
  refine BitVec.eq_of_getLsbD_eq fun i hi => ?_
  simp only [Fields.immI, BitVec.getLsbD_append, BitVec.getLsbD_extractLsb']
  interval_cases i <;> simp_all

theorem immS_code (v : BitVec 12) (a b : BitVec 5) (f3 : BitVec 3) (op : BitVec 7) :
    (Fields.mk (v.extractLsb' 5 7) a b f3 (v.extractLsb' 0 5) op).immS = v := by
  refine BitVec.eq_of_getLsbD_eq fun i hi => ?_
  simp only [Fields.immS, BitVec.getLsbD_append, BitVec.getLsbD_extractLsb']
  interval_cases i <;> simp_all

theorem immB_code (v : BitVec 13) (hv : v.extractLsb' 0 1 = 0#1) (a b : BitVec 5) (f3 : BitVec 3) (op : BitVec 7) :
    (Fields.mk (v.extractLsb' 12 1 ++ v.extractLsb' 5 6) a b f3
      (v.extractLsb' 1 4 ++ v.extractLsb' 11 1) op).immB = v := by
  have h0 := low_bits v 1 0 hv (by omega)
  refine BitVec.eq_of_getLsbD_eq fun i hi => ?_
  simp only [Fields.immB, BitVec.getLsbD_append, BitVec.getLsbD_extractLsb']
  interval_cases i <;> simp_all

theorem immU_code (v : BitVec 20) (a : BitVec 5) (op : BitVec 7) :
    (Fields.mk (v.extractLsb' 13 7) (v.extractLsb' 8 5) (v.extractLsb' 3 5)
      (v.extractLsb' 0 3) a op).immU = v := by
  refine BitVec.eq_of_getLsbD_eq fun i hi => ?_
  simp only [Fields.immU, BitVec.getLsbD_append, BitVec.getLsbD_extractLsb']
  interval_cases i <;> simp_all

theorem immJ_code (v : BitVec 21) (hv : v.extractLsb' 0 1 = 0#1) (a : BitVec 5) (op : BitVec 7) :
    (Fields.mk (v.extractLsb' 20 1 ++ v.extractLsb' 5 6) (v.extractLsb' 1 4 ++ v.extractLsb' 11 1)
      (v.extractLsb' 15 5) (v.extractLsb' 12 3) a op).immJ = v := by
  have h0 := low_bits v 1 0 hv (by omega)
  refine BitVec.eq_of_getLsbD_eq fun i hi => ?_
  simp only [Fields.immJ, BitVec.getLsbD_append, BitVec.getLsbD_extractLsb']
  interval_cases i <;> simp_all

theorem imm6_code (v : BitVec 6) (a : BitVec 5) (f3 : BitVec 3) (op : BitVec 2) :
    (Fields16.mk f3 (v.extractLsb' 5 1) a (v.extractLsb' 0 5) op).imm6 = v := by
  refine BitVec.eq_of_getLsbD_eq fun i hi => ?_
  simp only [Fields16.imm6, BitVec.getLsbD_append, BitVec.getLsbD_extractLsb']
  interval_cases i <;> simp_all

theorem immIw_code (v : BitVec 10) (hv : v.extractLsb' 0 2 = 0#2) (r : BitVec 3) (f3 : BitVec 3) (op : BitVec 2) :
    (Fields16.mk f3 (v.extractLsb' 5 1) (v.extractLsb' 4 1 ++ v.extractLsb' 6 4)
      (v.extractLsb' 2 1 ++ v.extractLsb' 3 1 ++ r) op).immIw = v := by
  have h0 := low_bits v 2 0 hv (by omega)
  have h1 := low_bits v 2 1 hv (by omega)
  refine BitVec.eq_of_getLsbD_eq fun i hi => ?_
  simp only [Fields16.immIw, BitVec.getLsbD_append, BitVec.getLsbD_extractLsb']
  interval_cases i <;> simp_all

theorem immLs_code (v : BitVec 7) (hv : v.extractLsb' 0 2 = 0#2) (p r : BitVec 3) (f3 : BitVec 3) (op : BitVec 2) :
    (Fields16.mk f3 (v.extractLsb' 5 1) (v.extractLsb' 3 2 ++ p)
      (v.extractLsb' 2 1 ++ v.extractLsb' 6 1 ++ r) op).immLs = v := by
  have h0 := low_bits v 2 0 hv (by omega)
  have h1 := low_bits v 2 1 hv (by omega)
  refine BitVec.eq_of_getLsbD_eq fun i hi => ?_
  simp only [Fields16.immLs, BitVec.getLsbD_append, BitVec.getLsbD_extractLsb']
  interval_cases i <;> simp_all

theorem immCj_code (v : BitVec 12) (hv : v.extractLsb' 0 1 = 0#1) (f3 : BitVec 3) (op : BitVec 2) :
    (Fields16.mk f3 (v.extractLsb' 11 1)
      (v.extractLsb' 4 1 ++ v.extractLsb' 8 2 ++ v.extractLsb' 10 1 ++ v.extractLsb' 6 1)
      (v.extractLsb' 7 1 ++ v.extractLsb' 1 3 ++ v.extractLsb' 5 1) op).immCj = v := by
  have h0 := low_bits v 1 0 hv (by omega)
  refine BitVec.eq_of_getLsbD_eq fun i hi => ?_
  simp only [Fields16.immCj, BitVec.getLsbD_append, BitVec.getLsbD_extractLsb']
  interval_cases i <;> simp_all

theorem imm16sp_code (v : BitVec 10) (hv : v.extractLsb' 0 4 = 0#4) (a : BitVec 5) (f3 : BitVec 3) (op : BitVec 2) :
    (Fields16.mk f3 (v.extractLsb' 9 1) a
      (v.extractLsb' 4 1 ++ v.extractLsb' 6 1 ++ v.extractLsb' 7 2 ++ v.extractLsb' 5 1) op).imm16sp = v := by
  have h0 := low_bits v 4 0 hv (by omega)
  have h1 := low_bits v 4 1 hv (by omega)
  have h2 := low_bits v 4 2 hv (by omega)
  have h3 := low_bits v 4 3 hv (by omega)
  refine BitVec.eq_of_getLsbD_eq fun i hi => ?_
  simp only [Fields16.imm16sp, BitVec.getLsbD_append, BitVec.getLsbD_extractLsb']
  interval_cases i <;> simp_all

theorem immCb_code (v : BitVec 9) (hv : v.extractLsb' 0 1 = 0#1) (p : BitVec 3) (f3 : BitVec 3) (op : BitVec 2) :
    (Fields16.mk f3 (v.extractLsb' 8 1) (v.extractLsb' 3 2 ++ p)
      (v.extractLsb' 6 2 ++ v.extractLsb' 1 2 ++ v.extractLsb' 5 1) op).immCb = v := by
  have h0 := low_bits v 1 0 hv (by omega)
  refine BitVec.eq_of_getLsbD_eq fun i hi => ?_
  simp only [Fields16.immCb, BitVec.getLsbD_append, BitVec.getLsbD_extractLsb']
  interval_cases i <;> simp_all

theorem immLwsp_code (v : BitVec 8) (hv : v.extractLsb' 0 2 = 0#2) (a : BitVec 5) (f3 : BitVec 3) (op : BitVec 2) :
    (Fields16.mk f3 (v.extractLsb' 5 1) a (v.extractLsb' 2 3 ++ v.extractLsb' 6 2) op).immLwsp = v := by
  have h0 := low_bits v 2 0 hv (by omega)
  have h1 := low_bits v 2 1 hv (by omega)
  refine BitVec.eq_of_getLsbD_eq fun i hi => ?_
  simp only [Fields16.immLwsp, BitVec.getLsbD_append, BitVec.getLsbD_extractLsb']
  interval_cases i <;> simp_all

theorem immSwsp_code (v : BitVec 8) (hv : v.extractLsb' 0 2 = 0#2) (a : BitVec 5) (f3 : BitVec 3) (op : BitVec 2) :
    (Fields16.mk f3 (v.extractLsb' 5 1) (v.extractLsb' 2 3 ++ v.extractLsb' 6 2) a op).immSwsp = v := by
  have h0 := low_bits v 2 0 hv (by omega)
  have h1 := low_bits v 2 1 hv (by omega)
  refine BitVec.eq_of_getLsbD_eq fun i hi => ?_
  simp only [Fields16.immSwsp, BitVec.getLsbD_append, BitVec.getLsbD_extractLsb']
  interval_cases i <;> simp_all

end Sys2Proof
end

