-- ==== Sys2Proof/Laws/Inputs.lean ====
section
/-! SUPPORT. What a synchroniser and a delay line do: a level that stands for two cycles is recognised, and no recognised level is
left out on its way (R574, R585, R692, R742). -/

namespace Sys2Proof.Machine

variable {w : Nat}

/-! ## The synchroniser -/

/-- What is certain of an input that has stood for two cycles is its level at the last boundary (R574, R692). -/
theorem certain_stood {i : Nat} (line : InputLine w) (long : Bool) (h : (line.stood long).getLsbD i = true) :
    (line.certain long).getLsbD i = line.last.getLsbD i := by
  have hi : i < w := by
    by_contra hc
    rw [BitVec.getLsbD_of_ge (line.stood long) i (by omega)] at h
    exact Bool.false_ne_true h
  unfold InputLine.certain
  split
  · rename_i he
    rw [he]
  · simp only [BitVec.getLsbD_or, BitVec.getLsbD_and, BitVec.getLsbD_not, h, hi]
    simp

/-- R574, R692: a level that has stood for two cycles is recognised, unless it was before: the first level the synchroniser
recognises at this boundary shows it, whatever the input does afterwards. -/
theorem recognises_stood {i : Nat} (line : InputLine w) (missed : Nat → BitVec w) (long : Bool) (level : BitVec w)
    (h : (line.stood long).getLsbD i = true) :
    line.passed.getLsbD i = line.last.getLsbD i ∨
      ∃ l rest, line.recognises missed long level = l :: rest ∧ l.getLsbD i = line.last.getLsbD i := by
  have hc := certain_stood line long h
  by_cases he : line.certain long = line.passed
  · exact .inl (he ▸ hc)
  · refine .inr ⟨line.certain long, recognised missed 0 (line.certain long) (line.taken ++ [level]), ?_, hc⟩
    simp [InputLine.recognises, he]

/-- An input that has stood at a level for long, and still does, leaves its synchroniser as it is. -/
@[simp] theorem sample_steady (missed : Nat → BitVec w) (long : Bool) (level : BitVec w) :
    (InputLine.steady level).sample missed long level = InputLine.steady level := by
  simp [InputLine.sample, InputLine.recognises, InputLine.certain, InputLine.steady, changesOf, recognised, DelayLine.idle]

/-- The view of an input that stands stays what it is. -/
@[simp] theorem follow_steady (missed : Nat → BitVec w) (long : Bool) (mask : BitVec w) (draw : Nat) (level : BitVec w) :
    (InputLine.steady level).follow missed long mask draw level level = (level, InputLine.steady level) := by
  unfold InputLine.follow
  rw [sample_steady]
  rfl

/-! ## The delay line -/

/-- Without a level on its way nothing changes. -/
@[simp] theorem advance_empty (wait : Option Nat) (seen mask : BitVec w) (draw : Nat) :
    DelayLine.advance ⟨[], wait⟩ seen mask draw = (seen, DelayLine.idle w) := rfl

/-- Looking ahead leaves as many levels on their way. -/
@[simp] theorem lookAhead_length (levels : List (BitVec w)) (mask seen : BitVec w) :
    (lookAhead mask seen levels).2.length = levels.length := by
  induction levels generalizing mask seen with
  | nil => rfl
  | cons l rest ih => simp [lookAhead, ih]

/-- A boundary brings every level nearer: the oldest arrives, or waits one boundary less (D20). -/
theorem advance_progress (d : DelayLine w) (seen mask : BitVec w) (draw : Nat) :
    d.queue = [] ∨ (d.advance seen mask draw).2.queue.length < d.queue.length ∨
      ∃ n, d.wait.getD draw = n + 1 ∧ (d.advance seen mask draw).2.wait = some n := by
  have hlen := lookAhead_length d.queue mask seen
  unfold DelayLine.advance
  dsimp only
  split
  · rename_i h
    rw [h] at hlen
    exact .inl (List.length_eq_zero_iff.mp hlen.symm)
  · rename_i x xs h
    rw [h] at hlen
    cases d.wait.getD draw with
    | zero => exact .inr (.inl (by simp [← hlen]))
    | succ n => exact .inr (.inr ⟨n, rfl, rfl⟩)

/-- The levels an input shows from `now` on, repetitions aside. -/
def inputPath (now : Bool) : List Bool → List Bool
  | [] => [now]
  | l :: rest => if l = now then inputPath now rest else now :: inputPath l rest

/-- One input's part of a list of levels. -/
abbrev bitsOf (i : Nat) (levels : List (BitVec w)) : List Bool := levels.map (·.getLsbD i)

/-- An input outside the mask is left alone. -/
theorem lookAhead_outside {i : Nat} (levels : List (BitVec w)) (mask seen : BitVec w) (hm : mask.getLsbD i = false) :
    (lookAhead mask seen levels).1.getLsbD i = seen.getLsbD i ∧
      bitsOf i (lookAhead mask seen levels).2 = bitsOf i levels := by
  by_cases hi : i < w
  · induction levels generalizing mask seen with
    | nil => exact ⟨rfl, rfl⟩
    | cons l rest ih =>
      have hm' : (mask &&& ~~~(mask &&& (l ^^^ seen))).getLsbD i = false := by simp [hm, -BitVec.getLsbD_eq_getElem]
      obtain ⟨h1, h2⟩ := ih _ (seen ^^^ (mask &&& (l ^^^ seen))) hm'
      simp only [bitsOf] at h2 ⊢
      simp only [lookAhead, List.map_cons, h1, h2, BitVec.getLsbD_xor, BitVec.getLsbD_and, BitVec.getLsbD_or,
        BitVec.getLsbD_not, hm, hi]
      simp
  · have e : ∀ x : BitVec w, x.getLsbD i = false := fun x => BitVec.getLsbD_of_ge x i (by omega)
    refine ⟨by rw [e, e], ?_⟩
    have : ∀ ls : List (BitVec w), bitsOf i ls = List.replicate ls.length false := fun ls => by
      simp only [bitsOf, e, List.map_const']
    rw [this, this, lookAhead_length]

/-- An input in the mask stays, with nothing to come, or shows its next change, and what is to come after it. -/
theorem lookAhead_inside {i : Nat} (hi : i < w) (levels : List (BitVec w)) (mask seen : BitVec w)
    (hm : mask.getLsbD i = true) :
    let r := lookAhead mask seen levels
    (r.1.getLsbD i = seen.getLsbD i ∧ (∀ b ∈ bitsOf i levels, b = seen.getLsbD i) ∧
        ∀ b ∈ bitsOf i r.2, b = seen.getLsbD i) ∨
      (r.1.getLsbD i = !seen.getLsbD i ∧
        inputPath (seen.getLsbD i) (bitsOf i levels) = seen.getLsbD i :: inputPath (!seen.getLsbD i) (bitsOf i r.2) ∧
        r.2.head?.map (·.getLsbD i) = some (!seen.getLsbD i)) := by
  induction levels generalizing mask seen with
  | nil => exact .inl ⟨rfl, by simp, by simp [lookAhead]⟩
  | cons l rest ih =>
    dsimp only
    by_cases hl : l.getLsbD i = seen.getLsbD i
    · have hm' : (mask &&& ~~~(mask &&& (l ^^^ seen))).getLsbD i = true := by
        simp only [BitVec.getLsbD_and, BitVec.getLsbD_not, BitVec.getLsbD_xor, hm, hl, hi]
        simp
      have hs : (seen ^^^ (mask &&& (l ^^^ seen))).getLsbD i = seen.getLsbD i := by
        simp only [BitVec.getLsbD_and, BitVec.getLsbD_xor, hm, hl]
        simp
      have h := ih _ (seen ^^^ (mask &&& (l ^^^ seen))) hm'
      dsimp only at h
      rw [hs] at h
      simp only [lookAhead, bitsOf, List.map_cons, List.mem_cons, List.head?_cons, Option.map_some, forall_eq_or_imp,
        BitVec.getLsbD_or, BitVec.getLsbD_and, BitVec.getLsbD_not, hm, hi, hl]
      rcases h with ⟨h1, h2, h3⟩ | ⟨h1, h2, h3⟩
      · exact .inl ⟨h1, ⟨trivial, h2⟩, by simpa using h1, h3⟩
      · refine .inr ⟨h1, ?_, by simpa using h1⟩
        simp only [bitsOf] at h2
        simp [inputPath, h1, h2]
    · have hl' : l.getLsbD i = !seen.getLsbD i := by
        cases h1 : l.getLsbD i <;> cases h2 : seen.getLsbD i <;> simp_all
      have hm' : (mask &&& ~~~(mask &&& (l ^^^ seen))).getLsbD i = false := by
        simp only [BitVec.getLsbD_and, BitVec.getLsbD_not, BitVec.getLsbD_xor, hm, hl', hi]
        simp
      have hs : (seen ^^^ (mask &&& (l ^^^ seen))).getLsbD i = !seen.getLsbD i := by
        simp only [BitVec.getLsbD_and, BitVec.getLsbD_xor, hm, hl']
        simp
      obtain ⟨h1, h2⟩ := lookAhead_outside rest _ (seen ^^^ (mask &&& (l ^^^ seen))) hm'
      rw [hs] at h1
      simp only [bitsOf] at h2
      refine .inr ?_
      simp only [lookAhead, bitsOf, List.map_cons, List.head?_cons, Option.map_some,
        BitVec.getLsbD_or, BitVec.getLsbD_and, BitVec.getLsbD_not, hm, hi, hl', h1, h2]
      simp [inputPath]

/-- A path of one level only. -/
theorem inputPath_const (now : Bool) (levels : List Bool) (h : ∀ b ∈ levels, b = now) : inputPath now levels = [now] := by
  induction levels with
  | nil => rfl
  | cons l rest ih =>
    simp only [List.mem_cons, forall_eq_or_imp] at h
    simp [inputPath, h.1, ih h.2]

/-- R574, R585, R692: a boundary shows an input the level it has, or the one next on its way: none is left out. -/
theorem advance_path {i : Nat} (hi : i < w) (d : DelayLine w) (seen mask : BitVec w) (draw : Nat) :
    let t := d.advance seen mask draw
    let before := inputPath (seen.getLsbD i) (bitsOf i d.queue)
    let after := inputPath (t.1.getLsbD i) (bitsOf i t.2.queue)
    before = after ∨ before = seen.getLsbD i :: after := by
  have key : ∀ x : BitVec w × List (BitVec w), x = lookAhead mask seen d.queue →
      (∀ l rest, x.2 = l :: rest →
        (inputPath (seen.getLsbD i) (bitsOf i d.queue) = inputPath (l.getLsbD i) (bitsOf i rest) ∨
          inputPath (seen.getLsbD i) (bitsOf i d.queue) = seen.getLsbD i :: inputPath (l.getLsbD i) (bitsOf i rest))) ∧
      (inputPath (seen.getLsbD i) (bitsOf i d.queue) = inputPath (x.1.getLsbD i) (bitsOf i x.2) ∨
        inputPath (seen.getLsbD i) (bitsOf i d.queue) = seen.getLsbD i :: inputPath (x.1.getLsbD i) (bitsOf i x.2)) := by
    rintro x rfl
    cases hm : mask.getLsbD i with
    | false =>
      obtain ⟨h1, h2⟩ := lookAhead_outside d.queue mask seen hm
      rw [h1, h2, ← h2]
      refine ⟨fun l rest hx => ?_, .inl rfl⟩
      rw [hx]
      simp only [bitsOf, List.map_cons, inputPath]
      split
      · rename_i he
        exact .inl (by rw [he])
      · exact .inr rfl
    | true =>
      rcases lookAhead_inside hi d.queue mask seen hm with ⟨h1, h2, h3⟩ | ⟨h1, h2, h3⟩
      · rw [h1, inputPath_const _ _ h2, inputPath_const _ _ h3]
        refine ⟨fun l rest hx => .inl ?_, .inl rfl⟩
        rw [hx] at h3
        simp only [bitsOf, List.map_cons, List.mem_cons, forall_eq_or_imp] at h3
        rw [h3.1, inputPath_const _ _ h3.2]
      · rw [h1, h2]
        refine ⟨fun l rest hx => .inr ?_, .inr rfl⟩
        rw [hx] at h3 ⊢
        simp only [List.head?_cons, Option.map_some, Option.some.injEq] at h3
        simp [bitsOf, inputPath, h3]
  obtain ⟨h1, h2⟩ := key _ rfl
  unfold DelayLine.advance
  dsimp only
  split
  · rename_i h
    rw [h] at h2
    exact h2
  · rename_i l rest h
    cases d.wait.getD draw with
    | zero => exact h1 l rest h
    | succ n =>
      rw [h] at h2
      exact h2

end Sys2Proof.Machine
end

