-- ==== Sys2Proof/Laws/PerInstr.lean ====
section
/-! SUPPORT. Statements about every instruction as syntax, one lemma per constructor. -/

namespace Sys2Proof

/-- The first parcel of a word of which the fields end in 11 is a long one (R241). -/
theorem takeCode_word (f : Fields) (h : f.op.extractLsb' 0 2 = 3#2) (rest : List Byte) :
    takeCode ((Code.word f.toWord).bytes ++ rest) = some (.word f.toWord, rest) := by
  have hw : ∀ w : BitVec 32,
      w.extractLsb' 24 8 ++ w.extractLsb' 16 8 ++ w.extractLsb' 8 8 ++ w.extractLsb' 0 8 = w := by
    intro w
    refine BitVec.eq_of_getLsbD_eq fun i hi => ?_
    simp only [BitVec.getLsbD_append, BitVec.getLsbD_extractLsb']
    (repeat' split) <;> rw [decide_eq_true (by omega), Bool.true_and] <;> congr 1 <;> omega
  have hl : longParcel (f.toWord.extractLsb' 8 8 ++ f.toWord.extractLsb' 0 8) = true := by
    have ho : (Fields.ofWord f.toWord).op = f.op := by rw [ofWord_toWord]
    rw [← ho] at h
    simp only [longParcel, beq_iff_eq]
    rw [← h]
    refine BitVec.eq_of_getLsbD_eq fun i hi => ?_
    simp only [Fields.ofWord, BitVec.getLsbD_append, BitVec.getLsbD_extractLsb']
    have h8 : 0 + i < 8 := by omega
    have h7 : 0 + i < 7 := by omega
    simp only [h8, h7, if_true, decide_true, Bool.true_and]
  simp only [Code.bytes, List.cons_append, List.nil_append, takeCode, hl, if_true, hw]

/-- The first parcel of a 16-bit instruction is a short one (R241). -/
theorem takeCode_half (f : Fields16) (h : f.op ≠ 3#2) (rest : List Byte) :
    takeCode ((Code.half f.toParcel).bytes ++ rest) = some (.half f.toParcel, rest) := by
  have hp : f.toParcel.extractLsb' 8 8 ++ f.toParcel.extractLsb' 0 8 = f.toParcel := by
    refine BitVec.eq_of_getLsbD_eq fun i hi => ?_
    simp only [BitVec.getLsbD_append, BitVec.getLsbD_extractLsb']
    split <;> rw [decide_eq_true (by omega), Bool.true_and] <;> congr 1 <;> omega
  have hl : longParcel f.toParcel = false := by
    have ho : (Fields16.ofParcel f.toParcel).op = f.op := by rw [ofParcel_toParcel]
    rw [← ho] at h
    simpa [longParcel, Fields16.ofParcel] using h
  simp only [Code.bytes, List.cons_append, List.nil_append, takeCode, hp, hl, Bool.false_eq_true, if_false]

/-- `takeCode_word`, with the major opcode shown. -/
theorem takeCode_fields (f7 : BitVec 7) (r2 r1 : BitVec 5) (f3 : BitVec 3) (rd : BitVec 5) (op : BitVec 7)
    (h : op.extractLsb' 0 2 = 3#2) (rest : List Byte) :
    takeCode ((Code.word (Fields.mk f7 r2 r1 f3 rd op).toWord).bytes ++ rest) =
      some (.word (Fields.mk f7 r2 r1 f3 rd op).toWord, rest) := takeCode_word _ h rest

/-- `takeCode_half`, with the quadrant shown. -/
theorem takeCode_fields16 (f3 : BitVec 3) (b : BitVec 1) (r1 r2 : BitVec 5) (op : BitVec 2) (h : op ≠ 3#2)
    (rest : List Byte) :
    takeCode ((Code.half (Fields16.mk f3 b r1 r2 op).toParcel).bytes ++ rest) =
      some (.half (Fields16.mk f3 b r1 r2 op).toParcel, rest) := takeCode_half _ h rest

/-- The bytes of the instruction say themselves where it ends, whatever follows them (R241, R161). -/
def Laws.EncodedLength.Statement (i : Instr) : Prop :=
  ∀ rest, takeCode (encode i ++ rest) = some (i.code, rest)

namespace Laws.EncodedLength
theorem lui (rd : Reg) (imm : BitVec 20) : Statement (.lui rd imm) :=
  takeCode_fields _ _ _ _ _ _ (by decide)
theorem auipc (rd : Reg) (imm : BitVec 20) : Statement (.auipc rd imm) :=
  takeCode_fields _ _ _ _ _ _ (by decide)
theorem jal (rd : Reg) (off : BitVec 21) : Statement (.jal rd off) :=
  takeCode_fields _ _ _ _ _ _ (by decide)
theorem jalr (rd rs1 : Reg) (off : BitVec 12) : Statement (.jalr rd rs1 off) :=
  takeCode_fields _ _ _ _ _ _ (by decide)
theorem beq (rs1 rs2 : Reg) (off : BitVec 13) : Statement (.beq rs1 rs2 off) :=
  takeCode_fields _ _ _ _ _ _ (by decide)
theorem bne (rs1 rs2 : Reg) (off : BitVec 13) : Statement (.bne rs1 rs2 off) :=
  takeCode_fields _ _ _ _ _ _ (by decide)
theorem blt (rs1 rs2 : Reg) (off : BitVec 13) : Statement (.blt rs1 rs2 off) :=
  takeCode_fields _ _ _ _ _ _ (by decide)
theorem bge (rs1 rs2 : Reg) (off : BitVec 13) : Statement (.bge rs1 rs2 off) :=
  takeCode_fields _ _ _ _ _ _ (by decide)
theorem bltu (rs1 rs2 : Reg) (off : BitVec 13) : Statement (.bltu rs1 rs2 off) :=
  takeCode_fields _ _ _ _ _ _ (by decide)
theorem bgeu (rs1 rs2 : Reg) (off : BitVec 13) : Statement (.bgeu rs1 rs2 off) :=
  takeCode_fields _ _ _ _ _ _ (by decide)
theorem lb (rd rs1 : Reg) (off : BitVec 12) : Statement (.lb rd rs1 off) :=
  takeCode_fields _ _ _ _ _ _ (by decide)
theorem lh (rd rs1 : Reg) (off : BitVec 12) : Statement (.lh rd rs1 off) :=
  takeCode_fields _ _ _ _ _ _ (by decide)
theorem lw (rd rs1 : Reg) (off : BitVec 12) : Statement (.lw rd rs1 off) :=
  takeCode_fields _ _ _ _ _ _ (by decide)
theorem lbu (rd rs1 : Reg) (off : BitVec 12) : Statement (.lbu rd rs1 off) :=
  takeCode_fields _ _ _ _ _ _ (by decide)
theorem lhu (rd rs1 : Reg) (off : BitVec 12) : Statement (.lhu rd rs1 off) :=
  takeCode_fields _ _ _ _ _ _ (by decide)
theorem sb (rs2 rs1 : Reg) (off : BitVec 12) : Statement (.sb rs2 rs1 off) :=
  takeCode_fields _ _ _ _ _ _ (by decide)
theorem sh (rs2 rs1 : Reg) (off : BitVec 12) : Statement (.sh rs2 rs1 off) :=
  takeCode_fields _ _ _ _ _ _ (by decide)
theorem sw (rs2 rs1 : Reg) (off : BitVec 12) : Statement (.sw rs2 rs1 off) :=
  takeCode_fields _ _ _ _ _ _ (by decide)
theorem addi (rd rs1 : Reg) (imm : BitVec 12) : Statement (.addi rd rs1 imm) :=
  takeCode_fields _ _ _ _ _ _ (by decide)
theorem slti (rd rs1 : Reg) (imm : BitVec 12) : Statement (.slti rd rs1 imm) :=
  takeCode_fields _ _ _ _ _ _ (by decide)
theorem sltiu (rd rs1 : Reg) (imm : BitVec 12) : Statement (.sltiu rd rs1 imm) :=
  takeCode_fields _ _ _ _ _ _ (by decide)
theorem xori (rd rs1 : Reg) (imm : BitVec 12) : Statement (.xori rd rs1 imm) :=
  takeCode_fields _ _ _ _ _ _ (by decide)
theorem ori (rd rs1 : Reg) (imm : BitVec 12) : Statement (.ori rd rs1 imm) :=
  takeCode_fields _ _ _ _ _ _ (by decide)
theorem andi (rd rs1 : Reg) (imm : BitVec 12) : Statement (.andi rd rs1 imm) :=
  takeCode_fields _ _ _ _ _ _ (by decide)
theorem slli (rd rs1 : Reg) (shamt : BitVec 5) : Statement (.slli rd rs1 shamt) :=
  takeCode_fields _ _ _ _ _ _ (by decide)
theorem srli (rd rs1 : Reg) (shamt : BitVec 5) : Statement (.srli rd rs1 shamt) :=
  takeCode_fields _ _ _ _ _ _ (by decide)
theorem srai (rd rs1 : Reg) (shamt : BitVec 5) : Statement (.srai rd rs1 shamt) :=
  takeCode_fields _ _ _ _ _ _ (by decide)
theorem add (rd rs1 rs2 : Reg) : Statement (.add rd rs1 rs2) :=
  takeCode_fields _ _ _ _ _ _ (by decide)
theorem sub (rd rs1 rs2 : Reg) : Statement (.sub rd rs1 rs2) :=
  takeCode_fields _ _ _ _ _ _ (by decide)
theorem sll (rd rs1 rs2 : Reg) : Statement (.sll rd rs1 rs2) :=
  takeCode_fields _ _ _ _ _ _ (by decide)
theorem slt (rd rs1 rs2 : Reg) : Statement (.slt rd rs1 rs2) :=
  takeCode_fields _ _ _ _ _ _ (by decide)
theorem sltu (rd rs1 rs2 : Reg) : Statement (.sltu rd rs1 rs2) :=
  takeCode_fields _ _ _ _ _ _ (by decide)
theorem xor (rd rs1 rs2 : Reg) : Statement (.xor rd rs1 rs2) :=
  takeCode_fields _ _ _ _ _ _ (by decide)
theorem srl (rd rs1 rs2 : Reg) : Statement (.srl rd rs1 rs2) :=
  takeCode_fields _ _ _ _ _ _ (by decide)
theorem sra (rd rs1 rs2 : Reg) : Statement (.sra rd rs1 rs2) :=
  takeCode_fields _ _ _ _ _ _ (by decide)
theorem or (rd rs1 rs2 : Reg) : Statement (.or rd rs1 rs2) :=
  takeCode_fields _ _ _ _ _ _ (by decide)
theorem and (rd rs1 rs2 : Reg) : Statement (.and rd rs1 rs2) :=
  takeCode_fields _ _ _ _ _ _ (by decide)
theorem fence (fm pred succ : BitVec 4) (rs1 rd : Reg) : Statement (.fence fm pred succ rs1 rd) :=
  takeCode_fields _ _ _ _ _ _ (by decide)
theorem ecall : Statement (.ecall) :=
  takeCode_fields _ _ _ _ _ _ (by decide)
theorem ebreak : Statement (.ebreak) :=
  takeCode_fields _ _ _ _ _ _ (by decide)
theorem fenceI (imm : BitVec 12) (rs1 rd : Reg) : Statement (.fenceI imm rs1 rd) :=
  takeCode_fields _ _ _ _ _ _ (by decide)
theorem csrrw (rd : Reg) (csr : BitVec 12) (rs1 : Reg) : Statement (.csrrw rd csr rs1) :=
  takeCode_fields _ _ _ _ _ _ (by decide)
theorem csrrs (rd : Reg) (csr : BitVec 12) (rs1 : Reg) : Statement (.csrrs rd csr rs1) :=
  takeCode_fields _ _ _ _ _ _ (by decide)
theorem csrrc (rd : Reg) (csr : BitVec 12) (rs1 : Reg) : Statement (.csrrc rd csr rs1) :=
  takeCode_fields _ _ _ _ _ _ (by decide)
theorem csrrwi (rd : Reg) (csr : BitVec 12) (uimm : BitVec 5) : Statement (.csrrwi rd csr uimm) :=
  takeCode_fields _ _ _ _ _ _ (by decide)
theorem csrrsi (rd : Reg) (csr : BitVec 12) (uimm : BitVec 5) : Statement (.csrrsi rd csr uimm) :=
  takeCode_fields _ _ _ _ _ _ (by decide)
theorem csrrci (rd : Reg) (csr : BitVec 12) (uimm : BitVec 5) : Statement (.csrrci rd csr uimm) :=
  takeCode_fields _ _ _ _ _ _ (by decide)
theorem mul (rd rs1 rs2 : Reg) : Statement (.mul rd rs1 rs2) :=
  takeCode_fields _ _ _ _ _ _ (by decide)
theorem mulh (rd rs1 rs2 : Reg) : Statement (.mulh rd rs1 rs2) :=
  takeCode_fields _ _ _ _ _ _ (by decide)
theorem mulhsu (rd rs1 rs2 : Reg) : Statement (.mulhsu rd rs1 rs2) :=
  takeCode_fields _ _ _ _ _ _ (by decide)
theorem mulhu (rd rs1 rs2 : Reg) : Statement (.mulhu rd rs1 rs2) :=
  takeCode_fields _ _ _ _ _ _ (by decide)
theorem div (rd rs1 rs2 : Reg) : Statement (.div rd rs1 rs2) :=
  takeCode_fields _ _ _ _ _ _ (by decide)
theorem divu (rd rs1 rs2 : Reg) : Statement (.divu rd rs1 rs2) :=
  takeCode_fields _ _ _ _ _ _ (by decide)
theorem rem (rd rs1 rs2 : Reg) : Statement (.rem rd rs1 rs2) :=
  takeCode_fields _ _ _ _ _ _ (by decide)
theorem remu (rd rs1 rs2 : Reg) : Statement (.remu rd rs1 rs2) :=
  takeCode_fields _ _ _ _ _ _ (by decide)
theorem mret : Statement (.mret) :=
  takeCode_fields _ _ _ _ _ _ (by decide)
theorem wfi : Statement (.wfi) :=
  takeCode_fields _ _ _ _ _ _ (by decide)
theorem cAddi4spn (rd : CReg) (uimm : BitVec 10) : Statement (.cAddi4spn rd uimm) :=
  takeCode_fields16 _ _ _ _ _ (by decide)
theorem cLw (rd rs1 : CReg) (uimm : BitVec 7) : Statement (.cLw rd rs1 uimm) :=
  takeCode_fields16 _ _ _ _ _ (by decide)
theorem cSw (rs2 rs1 : CReg) (uimm : BitVec 7) : Statement (.cSw rs2 rs1 uimm) :=
  takeCode_fields16 _ _ _ _ _ (by decide)
theorem cNop (imm : BitVec 6) : Statement (.cNop imm) :=
  takeCode_fields16 _ _ _ _ _ (by decide)
theorem cAddi (rd : Reg) (imm : BitVec 6) : Statement (.cAddi rd imm) :=
  takeCode_fields16 _ _ _ _ _ (by decide)
theorem cJal (off : BitVec 12) : Statement (.cJal off) :=
  takeCode_fields16 _ _ _ _ _ (by decide)
theorem cLi (rd : Reg) (imm : BitVec 6) : Statement (.cLi rd imm) :=
  takeCode_fields16 _ _ _ _ _ (by decide)
theorem cAddi16sp (imm : BitVec 10) : Statement (.cAddi16sp imm) :=
  takeCode_fields16 _ _ _ _ _ (by decide)
theorem cLui (rd : Reg) (imm : BitVec 6) : Statement (.cLui rd imm) :=
  takeCode_fields16 _ _ _ _ _ (by decide)
theorem cSrli (rd : CReg) (shamt : BitVec 5) : Statement (.cSrli rd shamt) :=
  takeCode_fields16 _ _ _ _ _ (by decide)
theorem cSrai (rd : CReg) (shamt : BitVec 5) : Statement (.cSrai rd shamt) :=
  takeCode_fields16 _ _ _ _ _ (by decide)
theorem cAndi (rd : CReg) (imm : BitVec 6) : Statement (.cAndi rd imm) :=
  takeCode_fields16 _ _ _ _ _ (by decide)
theorem cSub (rd rs2 : CReg) : Statement (.cSub rd rs2) :=
  takeCode_fields16 _ _ _ _ _ (by decide)
theorem cXor (rd rs2 : CReg) : Statement (.cXor rd rs2) :=
  takeCode_fields16 _ _ _ _ _ (by decide)
theorem cOr (rd rs2 : CReg) : Statement (.cOr rd rs2) :=
  takeCode_fields16 _ _ _ _ _ (by decide)
theorem cAnd (rd rs2 : CReg) : Statement (.cAnd rd rs2) :=
  takeCode_fields16 _ _ _ _ _ (by decide)
theorem cJ (off : BitVec 12) : Statement (.cJ off) :=
  takeCode_fields16 _ _ _ _ _ (by decide)
theorem cBeqz (rs1 : CReg) (off : BitVec 9) : Statement (.cBeqz rs1 off) :=
  takeCode_fields16 _ _ _ _ _ (by decide)
theorem cBnez (rs1 : CReg) (off : BitVec 9) : Statement (.cBnez rs1 off) :=
  takeCode_fields16 _ _ _ _ _ (by decide)
theorem cSlli (rd : Reg) (shamt : BitVec 5) : Statement (.cSlli rd shamt) :=
  takeCode_fields16 _ _ _ _ _ (by decide)
theorem cLwsp (rd : Reg) (uimm : BitVec 8) : Statement (.cLwsp rd uimm) :=
  takeCode_fields16 _ _ _ _ _ (by decide)
theorem cJr (rs1 : Reg) : Statement (.cJr rs1) :=
  takeCode_fields16 _ _ _ _ _ (by decide)
theorem cMv (rd rs2 : Reg) : Statement (.cMv rd rs2) :=
  takeCode_fields16 _ _ _ _ _ (by decide)
theorem cEbreak : Statement (.cEbreak) :=
  takeCode_fields16 _ _ _ _ _ (by decide)
theorem cJalr (rs1 : Reg) : Statement (.cJalr rs1) :=
  takeCode_fields16 _ _ _ _ _ (by decide)
theorem cAdd (rd rs2 : Reg) : Statement (.cAdd rd rs2) :=
  takeCode_fields16 _ _ _ _ _ (by decide)
theorem cSwsp (rs2 : Reg) (uimm : BitVec 8) : Statement (.cSwsp rs2 uimm) :=
  takeCode_fields16 _ _ _ _ _ (by decide)

end Laws.EncodedLength

end Sys2Proof
end

