-- ==== Sys2Proof/Laws/Step.lean ====
section
/-! SUPPORT. What the parts of a step around an instruction touch: the boundary, the PIC, the fetch, Debug Mode. -/

namespace Sys2Proof.Machine

/-! ## The boundary -/

/-- Sampling the gateways changes their synchroniser, the PIC and its waiting updates only (R574). -/
theorem sampleGateways_frame (s : State) (long : Bool) :
    sampleGateways s long =
      { s with
        pic := (sampleGateways s long).pic, picQueue := (sampleGateways s long).picQueue
        lines := { s.lines with ext := (sampleGateways s long).lines.ext } } := by
  unfold sampleGateways takeSample withLines
  simp only
  split <;> rfl

/-- Staging changes what the evaluation sees only (R630). -/
theorem stageRequests_frame (s : State) :
    stageRequests s = { s with pic := (stageRequests s).pic } := rfl

/-- Counting a step changes the counters only. -/
theorem countStep_frame (s : State) :
    countStep s =
      { s with counters := { s.counters with
        cycleSteps := (countStep s).counters.cycleSteps, stepCounted := (countStep s).counters.stepCounted
        hpm := (countStep s).counters.hpm } } := by
  unfold countStep
  split
  · simp only
    rw [countEvents_frame]
  · rfl

/-- A step counts in `mcycle` exactly while the counters run, and then shows that it has counted (R672). -/
theorem countStep_counted (s : State) :
    (countStep s).counters.stepCounted = countersRun s ∧
      (countStep s).counters.cycleSteps = s.counters.cycleSteps + (countersRun s).toNat := by
  unfold countStep
  cases h : countersRun s
  · exact ⟨rfl, rfl⟩
  · simp only [if_true]
    rw [countEvents_counters]
    exact ⟨rfl, rfl⟩

/-- Speculation is seen by devices and fills lines, and changes nothing else (R174, R190). -/
theorem speculate_frame (s : State) :
    speculate s = { s with deviceTrace := (speculate s).deviceTrace, icache := (speculate s).icache } := rfl

/-- The synchronisers change what the hart sees, the NMI request and the acknowledgements (R692). -/
theorem syncPins_frame (s : State) (long : Bool) :
    syncPins s long = { s with
      lines := { (syncPins s long).lines with ext := s.lines.ext }
      seen := (syncPins s long).seen, nmiPending := (syncPins s long).nmiPending
      pins := (syncPins s long).pins } := rfl

/-- `t` is `s` but for what time passing may change: the step number, the counters that run, the bus, the I-cache, the PIC,
and the hart's view of its inputs. -/
def BoundaryFrame (s t : State) : Prop :=
  t = { s with
    stepNo := t.stepNo
    counters := { s.counters with
      cycleSteps := t.counters.cycleSteps, stepCounted := t.counters.stepCounted, hpm := t.counters.hpm }
    mem := t.mem, ecc := t.ecc, stale := t.stale, unfenced := t.unfenced, unfencedEcc := t.unfencedEcc
    wb := t.wb, responses := t.responses
    devReq := t.devReq, deviceTrace := t.deviceTrace, mdseacLocked := t.mdseacLocked, dbusErr := t.dbusErr
    csr := { s.csr with mdseac := t.csr.mdseac }
    icache := t.icache
    pic := t.pic, picQueue := t.picQueue
    seen := t.seen, lines := t.lines, nmiPending := t.nmiPending, pins := t.pins }

theorem BoundaryFrame.trans {s t u : State} (h₁ : BoundaryFrame s t) (h₂ : BoundaryFrame t u) :
    BoundaryFrame s u := by
  unfold BoundaryFrame at *
  rw [h₁] at h₂
  exact h₂

theorem BusFrame.boundary {s t : State} (h : BusFrame s t) : BoundaryFrame s t := by
  unfold BusFrame at h
  unfold BoundaryFrame
  rw [h]

/-- Everything a boundary does. -/
theorem boundary_frame (s : State) : BoundaryFrame s (boundary s) := by
  have h1 : ∀ t, BoundaryFrame t (countStep t) := fun t => by
    unfold BoundaryFrame; rw [countStep_frame]
  have h2 : ∀ t, BoundaryFrame t (sampleGateways t (longStep s)) := fun t => by
    unfold BoundaryFrame; rw [sampleGateways_frame]
  have h0 : BoundaryFrame s { s with stepNo := s.stepNo + 1 } := rfl
  have h3 : ∀ t, BoundaryFrame t (speculate t) := fun t => rfl
  have h4 : ∀ t, BoundaryFrame t (stageRequests t) := fun t => rfl
  have h5 : ∀ t, BoundaryFrame t (syncPins t (longStep s)) := fun t => rfl
  exact ((((((h0.trans (h1 _)).trans (h3 _)).trans (sendSome_frame _).boundary).trans
    (answerSome_frame _).boundary).trans (h2 _)).trans (h4 _)).trans (h5 _)

theorem boundary_canonical (s : State) (h : Canonical s) : Canonical (boundary s) := by
  have h1 : Canonical (speculate (countStep { s with stepNo := s.stepNo + 1 })) := by
    unfold speculate
    rw [countStep_frame]; exact h
  unfold boundary
  simp only
  rw [stageRequests_frame, sampleGateways_frame]
  exact answerSome_canonical _ (sendSome_canonical _ h1)

theorem boundary_responses (s : State) (h : s.responses.length ≤ 255) :
    (boundary s).responses.length ≤ 255 := by
  have h1 : (speculate (countStep { s with stepNo := s.stepNo + 1 })).responses.length ≤ 255 := by
    unfold speculate
    rw [countStep_frame]; exact h
  unfold boundary
  simp only
  rw [stageRequests_frame, sampleGateways_frame]
  exact answerSome_responses _ (sendSome_responses _ h1)

/-! ## Waiting -/

/-- A wait that is not wanted any more ends; one that is wanted ends with the event, or is one shorter than before. -/
theorem waitStep_spec (wanted : Bool) (wait : Option Nat) (draw : Nat) :
    (wanted = false → waitStep wanted wait draw = (none, false)) ∧
      (wanted = true →
        (wait.getD draw = 0 ∧ waitStep wanted wait draw = (none, true)) ∨
          ∃ n, wait.getD draw = n + 1 ∧ waitStep wanted wait draw = (some n, false)) := by
  unfold waitStep
  cases wanted <;> simp
  cases wait.getD draw <;> simp

/-! ## Fetching -/

/-- What a fetch keeps. -/
structure FetchKeeps (s t : State) : Prop where
  frame : FetchFrame s t
  ecc : rising s.ecc = true → rising t.ecc = true
  micect : t.csr.micect.extractLsb' 27 5 = s.csr.micect.extractLsb' 27 5
  miccmect : t.csr.miccmect.extractLsb' 27 5 = s.csr.miccmect.extractLsb' 27 5

theorem FetchKeeps.refl (s : State) : FetchKeeps s s := ⟨rfl, id, rfl, rfl⟩

theorem FetchKeeps.trans {s t u : State} (h₁ : FetchKeeps s t) (h₂ : FetchKeeps t u) : FetchKeeps s u := by
  refine ⟨?_, h₂.ecc ∘ h₁.ecc, h₂.micect.trans h₁.micect, h₂.miccmect.trans h₁.miccmect⟩
  have h := h₂.frame
  unfold FetchFrame at *
  rw [h₁.frame] at h
  exact h

theorem lookUp_keeps (s : State) (p : Word) : FetchKeeps s (lookUp s p) := ⟨rfl, id, rfl, rfl⟩

theorem icacheErrorIn_keeps (s : State) (set : Nat) : FetchKeeps s (icacheErrorIn s set) :=
  ⟨rfl, id, bumpCount_threshold _, rfl⟩

theorem icacheFetch_keeps (s : State) (p : Word) : FetchKeeps s (icacheFetch s p).2 := by
  have hf := lookUp_keeps s p
  have he := hf.trans (icacheErrorIn_keeps (lookUp s p) (setOf s.cfg p))
  unfold icacheFetch
  dsimp only
  split_ifs
  · exact hf
  · exact hf
  · exact he
  · split
    · exact hf
    · split_ifs
      · exact he
      · exact hf

/-- The state a parcel fetch leaves. -/
def Fetched.state : Fetched → State
  | .parcel _ s => s
  | .fault s => s

theorem fetchIccm_keeps (s : State) (p : Word) : FetchKeeps s (fetchIccm s p).state := by
  unfold fetchIccm
  split
  · exact .refl s
  · simp only [Fetched.state, writeBack, List.foldl_cons, List.foldl_nil]
    unfold writeBackWord
    split
    · exact ⟨rfl, fun h => rising_setEcc _ _ _ h, rfl, bumpCount_threshold _⟩
    · exact .refl s

theorem traceDevice_keeps (s : State) (d : DeviceAccess) : FetchKeeps s (traceDevice s d) := by
  rw [traceDevice_frame]
  exact ⟨rfl, id, rfl, rfl⟩

theorem fetchBus_keeps (s : State) (c : Bool) (p : Word) : FetchKeeps s (fetchBus s c p).state := by
  unfold fetchBus
  simp only
  split <;> exact traceDevice_keeps s _

theorem fillLine_keeps (s : State) (p : Word) : FetchKeeps s (fillLine s p).state :=
  (⟨rfl, id, rfl, rfl⟩ : FetchKeeps s { s with icache := s.icache.afterFills s.cfg [fillOf s p] }).trans
    (fetchBus_keeps _ _ _)

theorem lineParcel_keeps (s : State) (p : Word) (way : BitVec 2) : FetchKeeps s (lineParcel s p way).state := by
  unfold lineParcel
  split
  · exact .refl s
  · split
    · exact (icacheErrorIn_keeps s _).trans (fillLine_keeps _ _)
    · exact .refl s

theorem fetchCached_keeps (s : State) (p : Word) : FetchKeeps s (fetchCached s p).state := by
  have h := icacheFetch_keeps s p
  unfold fetchCached
  split <;> rename_i heq <;> rw [heq] at h
  · exact h
  · split
    · exact h.trans (lineParcel_keeps _ _ _)
    · exact h.trans (fillLine_keeps _ _)

/-- A parcel fetch leaves a state that differs from the old one as `FetchKeeps` says. -/
theorem fetchParcel_keeps (s : State) (p : Word) : FetchKeeps s (fetchParcel s p).state := by
  unfold fetchParcel
  split
  · split
    · exact fetchIccm_keeps s p
    · exact .refl s
  · split
    · exact .refl s
    · split
      · exact fetchCached_keeps s p
      · exact fetchBus_keeps s false p

/-- The ways of a legal I-cache hold 4 KB to 64 KB (R11, R681). -/
theorem wayBytes_pow (c : Build) (h : c.icacheKb ∈ [16, 32, 64, 128, 256]) :
    ∃ n, 12 ≤ n ∧ n ≤ 16 ∧ wayBytes c = 2 ^ n := by
  simp only [List.mem_cons, List.not_mem_nil, or_false] at h
  unfold wayBytes
  rcases h with h | h | h | h | h <;> rw [h]
  exacts [⟨12, by norm_num⟩, ⟨13, by norm_num⟩, ⟨14, by norm_num⟩, ⟨15, by norm_num⟩, ⟨16, by norm_num⟩]

/-- The key of a data entry names the way and the set in which the address's line is filled (R112, R681). -/
theorem dataEntry_place (c : Build) (p : Word) (way : BitVec 2) (h : c.icacheKb ∈ [16, 32, 64, 128, 256]) :
    (65536 * way.toNat + (p &&& indexMask c).toNat / 4) / 65536 = way.toNat ∧
      (65536 * way.toNat + (p &&& indexMask c).toNat / 4) % 65536 / 16 = lineOf p % icacheSets c := by
  obtain ⟨n, h1, h2, hw⟩ := wayBytes_pow c h
  have hm : (indexMask c).toNat / 4 = 2 ^ (n - 2) - 1 := by
    unfold indexMask
    rw [hw]
    interval_cases n <;> decide
  have hp : (p &&& indexMask c).toNat / 4 = p.toNat / 4 % 2 ^ (n - 2) := by
    have e : ∀ x : Nat, x / 4 = x >>> 2 := fun x => by simp [Nat.shiftRight_eq_div_pow]
    rw [BitVec.toNat_and, e, Nat.shiftRight_and_distrib, ← e, ← e, hm, Nat.and_two_pow_sub_one_eq_mod]
  have hlt : p.toNat / 4 % 2 ^ (n - 2) < 2 ^ 14 :=
    lt_of_lt_of_le (Nat.mod_lt _ (by positivity)) (Nat.pow_le_pow_right (by omega) (by omega))
  rw [hp, icacheSets, hw, lineOf]
  refine ⟨by omega, ?_⟩
  rw [show (65536 * way.toNat + p.toNat / 4 % 2 ^ (n - 2)) % 65536 = p.toNat / 4 % 2 ^ (n - 2) by omega]
  interval_cases n <;> norm_num <;> omega

/-- The state a fetch leaves. -/
def FetchResult.state : FetchResult → State
  | .code _ s => s
  | .fault _ s => s

/-- A fetch leaves a state that differs from the old one as `FetchKeeps` says (R168). -/
theorem fetch_keeps (s : State) : FetchKeeps s (fetch s).state := by
  have h1 := fetchParcel_keeps s s.pc
  unfold fetch
  split <;> rename_i heq <;> rw [heq] at h1
  · exact h1
  · split
    · exact h1
    · split
      · exact h1
      · have h2 := fetchParcel_keeps ‹State› ((‹State› : State).pc + 2)
        split <;> rename_i heq2 <;> rw [heq2] at h2 <;> exact h1.trans h2

/-! ## Debug Mode -/

/-- Entering Debug Mode drains the bus and changes `dpc`, `dcsr` and the activity (R656). -/
theorem enterDebug_spec (s : State) (c : DebugCause) :
    enterDebug s c =
      { drainBus s with
        csr := { (drainBus s).csr with dpc := s.pc, dcsr := withCause s.csr.dcsr c }
        activity := .dbHalt, stepping := false } := by
  have h := (drainBus_spec s).1
  have hp : (drainBus s).pc = s.pc := by rw [h]
  have hd : (drainBus s).csr.dcsr = s.csr.dcsr := by rw [h]
  unfold enterDebug
  simp only [hp, hd]

/-! ## Turns -/

/-- What is put off does not decide which interrupt is takeable. -/
@[simp] theorem takeableInterrupt_waits (s : State) (w : Waits) :
    takeableInterrupt { s with waits := w } = takeableInterrupt s := rfl

/-- What is put off does not decide whether an NMI is requested. -/
@[simp] theorem nmiRequested_waits (s : State) (w : Waits) :
    nmiRequested { s with waits := w } = nmiRequested s := rfl

/-- Without a halt request of the PMU, or with one of the MPC, which goes first, a running hart looks at the NMIs
(R642, R645). -/
theorem runningTurn_noHalt (s : State) (h : s.seen.cpuHaltReq = false ∨ s.seen.mpcHaltReq = true) :
    runningTurn s = nmiTurn { s with waits := { s.waits with pmuHalt := none } } := by
  rcases h with h | h <;> simp [runningTurn, pmuHaltWanted, waitStep, h]

/-- After the boundary the hart's step is counted already, or it runs no instruction; only a resume by the MPC is counted late
(R671, R672). -/
theorem atBoundary_counted (s : State) (h : (serveMpcRun (serveMpcHalt (boundary s))).counters.stepCounted = true) :
    atBoundary s = serveMpcRun (serveMpcHalt (boundary s)) := by
  simp [atBoundary, countResumed, h]

/-- What an instruction reads of `mcycle` is short of the count after its step by one cycle at least and by no more than the step
takes: after a write in the step before it may be any number ahead of the written value (R671, R672, D21). -/
theorem mcycle_read (s : State) (hc : s.counters.stepCounted = true)
    (hm : s.counters.mcycleMark < s.counters.cycleSteps) :
    ∃ own, 1 ≤ own ∧ own ≤ cyclesNow s ∧ mcycleNow s = mcycleNow (beforeStep s) + BitVec.ofNat 64 own := by
  have hle : cyclesBeforeRead s ≤ Config.extraCycles (s.counters.cycleSteps - 1) := Nat.min_le_right _ _
  refine ⟨cyclesNow s - cyclesBeforeRead s, by unfold cyclesNow; omega, Nat.sub_le _ _, ?_⟩
  obtain ⟨n, hn⟩ : ∃ n, s.counters.cycleSteps - s.counters.mcycleMark = n + 1 :=
    ⟨s.counters.cycleSteps - s.counters.mcycleMark - 1, by omega⟩
  have hk : s.counters.mcycleMark + n = s.counters.cycleSteps - 1 := by omega
  have hb : s.counters.cycleSteps - 1 - s.counters.mcycleMark = n := by omega
  simp only [mcycleNow, beforeStep, countersBefore, hc, if_true, takeBack, hn, hb, cyclesFrom, hk]
  rw [show cyclesFrom s.counters.mcycleMark n + (1 + Config.extraCycles (s.counters.cycleSteps - 1)) =
      cyclesBeforeRead s + cyclesFrom s.counters.mcycleMark n + (cyclesNow s - cyclesBeforeRead s) by
    unfold cyclesNow; omega]
  simp only [BitVec.ofNat_add]
  ac_rfl

/-- A hart that runs at a boundary has the step counted (R671, R672; log 12). -/
theorem atBoundary_running (s : State) (h : (atBoundary s).activity = .running) :
    (atBoundary s).counters.stepCounted = true := by
  unfold atBoundary countResumed at *
  split at h <;> rename_i hc
  · rw [if_pos hc, (countStep_counted _).1]
    simp only [Bool.and_eq_true, beq_iff_eq] at hc
    simp [countersRun, hc.1]
  · rw [if_neg hc]
    simpa [h] using hc

/-- What is put off does not decide whether an NMI is pending. -/
@[simp] theorem nmiPresent_waits (s : State) (w : Waits) : nmiPresent { s with waits := w } = nmiPresent s := rfl

/-- Without a pending NMI the hart looks at the interrupts. -/
theorem nmiTurn_none (s : State) (h : nmiPresent s = false) :
    nmiTurn s = interruptTurn { s with waits := { s.waits with nmi := none } } := by
  simp [nmiTurn, waitStep, nmiRequested, h]

/-- In a single step a pending NMI holds interrupts back, and waits itself (R531; log 10). -/
theorem nmiTurn_held (s : State) (h : nmiPresent s = true) (hd : debugMode s = true) :
    nmiTurn s = goOn { s with waits := { s.waits with nmi := none } } := by
  simp [nmiTurn, waitStep, nmiRequested, h, hd]

/-- A requested NMI is entered when it waits no longer; else it waits one boundary less (R552; log 10). -/
theorem nmiTurn_requested (s : State) (h : nmiRequested s = true) :
    nmiTurn s =
      match s.waits.nmi.getD (Config.nmiDelay s.stepNo) with
      | 0 => .over (enterNmi { s with waits := { s.waits with nmi := none } })
      | n + 1 => goOn { s with waits := { s.waits with nmi := some n } } := by
  have hp : nmiPresent s = true := by
    unfold nmiRequested at h
    exact (Bool.and_eq_true_iff.mp h).1
  unfold nmiTurn
  rw [h]
  simp only [waitStep, if_true]
  cases s.waits.nmi.getD (Config.nmiDelay s.stepNo) <;> simp [hp]

/-- Without a takeable interrupt the hart goes on. -/
theorem interruptTurn_none (s : State) (h : takeableInterrupt s = none) :
    interruptTurn s = goOn { s with waits := { s.waits with interrupt := none } } := by
  unfold interruptTurn
  rw [h]
  simp [waitStep]

/-- A takeable interrupt is taken when it waits no longer; else it waits one boundary less (R530; log 11). -/
theorem interruptTurn_some (s : State) (c : Word) (h : takeableInterrupt s = some c) :
    interruptTurn s =
      match s.waits.interrupt.getD (Config.interruptDelay s.stepNo) with
      | 0 => .over (takeInterrupt { s with waits := { s.waits with interrupt := none } } c)
      | n + 1 => goOn { s with waits := { s.waits with interrupt := some n } } := by
  unfold interruptTurn
  rw [h]
  simp only [waitStep, Option.isSome_some, if_true]
  cases s.waits.interrupt.getD (Config.interruptDelay s.stepNo) <;> simp

/-- An MPC's halt request that waits no longer is served at the boundary: the hart is in db-halt then, at the pc it had
(R642, R658). -/
theorem atBoundary_mpcHalt (t : State) (hw : t.waits.mpcHalt = some 0) (ha : t.activity ≠ .dbHalt)
    (h1 : (boundary t).seen.mpcHaltReq = true) (h2 : (boundary t).seen.mpcRunReq = false) :
    (atBoundary t).activity = .dbHalt ∧ (atBoundary t).csr.dpc = t.pc := by
  let ready : State := { boundary t with waits := { (boundary t).waits with mpcHalt := none } }
  have hb := boundary_frame t
  unfold BoundaryFrame at hb
  have e1 : (boundary t).waits = t.waits := by rw [hb]
  have e2 : (boundary t).activity = t.activity := by rw [hb]
  have e3 : (boundary t).pc = t.pc := by rw [hb]
  have hs : serveMpcHalt (boundary t) = mpcHolds (enterDebug ready .haltRequest) := by
    unfold serveMpcHalt
    simp [e1, hw, waitStep, h1, e2, ha, ready]
  have hd := enterDebug_spec ready .haltRequest
  have hsn : (enterDebug ready .haltRequest).seen = (boundary t).seen := by
    rw [hd, (drainBus_spec _).1]
  have hr : serveMpcRun (serveMpcHalt (boundary t)) = serveMpcHalt (boundary t) := by
    unfold serveMpcRun
    rw [hs]
    simp [mpcHolds, hsn, h2]
  unfold atBoundary countResumed
  rw [hr, hs]
  have ea : (mpcHolds (enterDebug ready .haltRequest)).activity = .dbHalt := rfl
  rw [if_neg (by simp [ea])]
  exact ⟨ea, by simp only [mpcHolds, hd]; exact e3⟩

/-- Without a host event the step is the hart's turn at the boundary. -/
theorem step_noEvent (s : State) (h : s.inputs = []) :
    step s =
      match turn (atBoundary s) with
      | .over t => .next t
      | .execute t => executeNext t := by
  unfold step
  rw [h]
  rfl

end Sys2Proof.Machine
end

