-- ==== Sys2Proof/Laws/View.lean ====
section
/-! SUPPORT. What the boundary of a step and the buffer's stores leave of memory as the hart sees it, and of the hart. -/

namespace Sys2Proof.Machine

/-- No word of memory has an uncorrectable error or an error indication. -/
def Unmarked (s : State) : Prop := ∀ w, cellGet s.ecc w ≠ some .uncorrectable

/-- What an operation on the bus keeps of memory: the hart's view of it, the absence of error marks, and the check bits of the
words that are not SoC memory. -/
structure KeepsView (s t : State) : Prop where
  cfg : t.cfg = s.cfg
  unmarked : Unmarked s → Unmarked t
  view : SameMemory s t
  checks : ∀ w < 2 ^ 30, busKind s.cfg (BitVec.ofNat 32 (4 * w)) ≠ .memory → cellGet t.ecc w = cellGet s.ecc w

/-- What changes neither memory nor buffer nor check bits keeps the view. -/
theorem KeepsView.of_eq {s t : State} (hc : t.cfg = s.cfg) (he : t.ecc = s.ecc) (hm : t.mem = s.mem) (hw : t.wb = s.wb) :
    KeepsView s t where
  cfg := hc
  unmarked h := by unfold Unmarked; rw [he]; exact h
  view := ⟨fun _ b _ _ => dataByte_congr hw hm b, fun b _ _ => by unfold memByte; rw [hm]⟩
  checks w _ _ := by rw [he]

/-- The view is kept where nothing happens. -/
theorem KeepsView.refl (s : State) : KeepsView s s := .of_eq rfl rfl rfl rfl

/-- The view is kept by two operations that keep it. -/
theorem KeepsView.trans {s t u : State} (h₁ : KeepsView s t) (h₂ : KeepsView t u) : KeepsView s u where
  cfg := h₂.cfg.trans h₁.cfg
  unmarked := h₂.unmarked ∘ h₁.unmarked
  view := by
    obtain ⟨a1, b1⟩ := h₁.view
    obtain ⟨a2, b2⟩ := h₂.view
    rw [h₁.cfg] at a2 b2
    exact ⟨fun h b hb hk => (a2 (h₁.unmarked h) b hb hk).trans (a1 h b hb hk),
      fun b hb hk => (b2 b hb hk).trans (b1 b hb hk)⟩
  checks w hw hk := (h₂.checks w hw (by rw [h₁.cfg]; exact hk)).trans (h₁.checks w hw hk)

/-! ## A store performed -/

/-- A byte write without an error mark in the way writes memory, and nothing else (R186). -/
theorem busWriteByte_unmarked {s : State} (h : Unmarked s) (whole : Bool) (a : Nat) (v : Byte) :
    busWriteByte whole s a v =
      if busKind s.cfg (BitVec.ofNat 32 a) = .memory then storeFetchableByte s a v else s := by
  have hf : ∀ ws, socFailed s ws = false := fun ws => by
    simp only [socFailed, List.any_eq_false, beq_iff_eq]
    exact fun w _ => h w
  unfold busWriteByte
  cases hk : busKind s.cfg (BitVec.ofNat 32 a) <;> simp [writeFails, hk, hf]

/-- No byte outside SoC memory is written by the bus (R186). -/
theorem busWriteByte_other (whole : Bool) (s : State) (a : Nat) (v : Byte) (b : Nat)
    (hk : busKind s.cfg (BitVec.ofNat 32 b) ≠ .memory) : memByte (busWriteByte whole s a v) b = memByte s b := by
  unfold busWriteByte
  cases ha : busKind s.cfg (BitVec.ofNat 32 a) <;> try rfl
  simp only
  split
  · rfl
  · rw [memByte_storeFetchableByte, if_neg]
    rintro rfl
    exact hk ha

/-- The bytes of a store, written where the SoC has memory. -/
theorem writeBytes_busWriteByte (whole : Bool) (s : State) (a n : Nat) (v : Word) :
    let t := writeBytes (busWriteByte whole) s a n v
    t.cfg = s.cfg ∧ t.ecc = s.ecc ∧ t.wb = s.wb ∧
      (∀ b, busKind s.cfg (BitVec.ofNat 32 b) ≠ .memory → memByte t b = memByte s b) ∧
      (Unmarked s → ∀ b, busKind s.cfg (BitVec.ofNat 32 b) = .memory →
        memByte t b = if a ≤ b ∧ b < a + n then byteOf v (b - a) else memByte s b) := by
  induction n with
  | zero => exact ⟨rfl, rfl, rfl, fun _ _ => rfl, fun _ b _ => by simp [writeBytes]⟩
  | succ n ih =>
    obtain ⟨h1, h2, h3, h4, h5⟩ := ih
    simp only [writeBytes_succ]
    generalize writeBytes (busWriteByte whole) s a n v = u at h1 h2 h3 h4 h5
    have hf : busWriteByte whole u (a + n) (byteOf v n) = { u with
        mem := (busWriteByte whole u (a + n) (byteOf v n)).mem
        stale := (busWriteByte whole u (a + n) (byteOf v n)).stale
        unfenced := (busWriteByte whole u (a + n) (byteOf v n)).unfenced } := by
      unfold busWriteByte
      split
      · split <;> rfl
      all_goals rfl
    refine ⟨by rw [hf]; exact h1, by rw [hf]; exact h2, by rw [hf]; exact h3, fun b hb => ?_, fun hu b hb => ?_⟩
    · rw [busWriteByte_other _ _ _ _ _ (by rw [h1]; exact hb)]
      exact h4 b hb
    · have hun : Unmarked u := by unfold Unmarked; rw [h2]; exact hu
      rw [busWriteByte_unmarked hun, h1]
      split
      · rw [memByte_storeFetchableByte, h5 hu b hb]
        split_ifs with c1 c2 c3 <;> first | rfl | omega | skip
        rw [c1, Nat.add_sub_cancel_left]
      · rename_i hk
        rw [h5 hu b hb]
        have : b ≠ a + n := by rintro rfl; exact hk hb
        split_ifs <;> first | rfl | omega

/-- Healing a word adds no error mark, and touches SoC memory only (R186). -/
theorem healWord_checks (s : State) (a : Word) :
    (Unmarked s → Unmarked (healWord s a)) ∧
      (a.toNat % 4 = 0 → ∀ w, busKind s.cfg (BitVec.ofNat 32 (4 * w)) ≠ .memory →
        cellGet (healWord s a).ecc w = cellGet s.ecc w) := by
  unfold healWord
  cases hk : busKind s.cfg a
  case memory =>
    simp only
    split
    · refine ⟨fun h w => ?_, fun ha w hw => ?_⟩ <;> simp only [storeEcc, setEcc, cellGet_cellSet]
      · split
        · simp
        · exact h w
      · rw [if_neg]
        rintro rfl
        rw [Nat.mul_div_cancel' (Nat.dvd_of_mod_eq_zero ha), BitVec.ofNat_toNat, BitVec.setWidth_eq] at hw
        exact hw hk
    · exact ⟨id, fun _ _ _ => rfl⟩
  all_goals exact ⟨id, fun _ _ _ => rfl⟩

/-- A whole-word store is aligned. -/
theorem wholeWord_aligned {a : Word} {n : Nat} (h : wholeWord a n = true) : a.toNat % 4 = 0 := by
  simp only [wholeWord, Bool.and_eq_true, beq_iff_eq] at h
  have := congrArg BitVec.toNat h.2
  simpa [BitVec.extractLsb'_toNat] using this

/-- What a performed store leaves of memory, buffer and check bits (R186). -/
theorem performStore_view (s : State) (st : BusStore) :
    let t := performStore s st
    t.cfg = s.cfg ∧ t.wb = s.wb ∧ (Unmarked s → Unmarked t) ∧
      (∀ w, busKind s.cfg (BitVec.ofNat 32 (4 * w)) ≠ .memory → cellGet t.ecc w = cellGet s.ecc w) ∧
      (∀ b, busKind s.cfg (BitVec.ofNat 32 b) ≠ .memory → memByte t b = memByte s b) ∧
      (Unmarked s → ∀ b, busKind s.cfg (BitVec.ofNat 32 b) = .memory →
        memByte t b = if st.addr.toNat ≤ b ∧ b < st.addr.toNat + st.size then st.byteAt b else memByte s b) := by
  obtain ⟨h1, h2, h3, h4, h5⟩ :=
    writeBytes_busWriteByte (wholeWord st.addr st.size) s st.addr.toNat st.size st.data
  unfold performStore
  simp only
  generalize writeBytes (busWriteByte (wholeWord st.addr st.size)) s st.addr.toNat st.size st.data = u at h1 h2 h3 h4 h5
  rw [showStore_frame]
  have hu : Unmarked s → Unmarked u := fun h => by unfold Unmarked; rw [h2]; exact h
  have hh : healWord u st.addr = { u with ecc := (healWord u st.addr).ecc, unfencedEcc := (healWord u st.addr).unfencedEcc } := by
    unfold healWord
    split
    · split <;> rfl
    all_goals rfl
  obtain ⟨c1, c2⟩ := healWord_checks u st.addr
  split
  · rename_i hw
    refine ⟨by rw [hh]; exact h1, by rw [hh]; exact h3, fun h => c1 (hu h), fun w hk => ?_, fun b hk => ?_, fun h b hk => ?_⟩
    · exact (c2 (wholeWord_aligned hw) w (by rw [h1]; exact hk)).trans (by rw [h2])
    · rw [hh]; exact h4 b hk
    · rw [hh]; exact h5 h b hk
  · exact ⟨h1, h3, hu, fun w _ => by rw [h2], h4, h5⟩

/-- A transaction of stores performed in order: each byte of memory is the newest store's (R202). -/
theorem performGroup_view (s : State) (g : List BusStore) :
    let t := (performGroup s g).1
    t.cfg = s.cfg ∧ t.wb = s.wb ∧ (Unmarked s → Unmarked t) ∧
      (∀ w, busKind s.cfg (BitVec.ofNat 32 (4 * w)) ≠ .memory → cellGet t.ecc w = cellGet s.ecc w) ∧
      (∀ b, busKind s.cfg (BitVec.ofNat 32 b) ≠ .memory → memByte t b = memByte s b) ∧
      (Unmarked s → ∀ b, busKind s.cfg (BitVec.ofNat 32 b) = .memory →
        memByte t b = match bufferedStore g b with | some st => st.byteAt b | none => memByte s b) := by
  induction g generalizing s with
  | nil => exact ⟨rfl, rfl, id, fun _ _ => rfl, fun _ _ => rfl, fun _ _ _ => rfl⟩
  | cons st rest ih =>
    obtain ⟨a1, a2, a3, a4, a5, a6⟩ := performStore_view s st
    obtain ⟨b1, b2, b3, b4, b5, b6⟩ := ih (performStore s st)
    rw [a1] at b1 b4 b5 b6
    refine ⟨b1, b2.trans a2, b3 ∘ a3, fun w hk => (b4 w hk).trans (a4 w hk), fun b hk => (b5 b hk).trans (a5 b hk),
      fun h b hk => ?_⟩
    show memByte (performGroup (performStore s st) rest).1 b = _
    rw [b6 (a3 h) b hk, bufferedStore]
    cases bufferedStore rest b with
    | some x => rfl
    | none =>
      simp only [a6 h b hk, decide_eq_true_eq, Bool.and_eq_true]
      split <;> rfl

/-- The newest store of two stretches of the buffer is the later one's, if it has one. -/
theorem bufferedStore_append (l₁ l₂ : List BusStore) (b : Nat) :
    bufferedStore (l₁ ++ l₂) b = (bufferedStore l₂ b).or (bufferedStore l₁ b) := by
  induction l₁ with
  | nil => cases h : bufferedStore l₂ b <;> simp [bufferedStore, h]
  | cons st rest ih =>
    simp only [List.cons_append, bufferedStore, ih]
    cases bufferedStore l₂ b <;> simp

/-! ## The buffer -/

/-- Reporting answers touches no memory. -/
theorem reportAnswers_view (s : State) (batch : List BusResponse) : KeepsView s (reportAnswers s batch) := by
  rw [reportAnswers_frame]
  exact .of_eq rfl rfl rfl rfl

/-- Answering transactions touches no memory. -/
theorem answer_view (s : State) (n : Nat) : KeepsView s (answer s n) :=
  .of_eq (by rw [answer_frame s n]) (by simp) (by simp) (by simp)

/-- Answering all transactions touches no memory. -/
theorem answerAll_view (s : State) : KeepsView s (answerAll s) :=
  .of_eq (by rw [answerAll_frame s]) (by simp) (by simp) (by simp)

/-- A transaction that leaves the buffer leaves the hart's view of memory as it was (R204, R209). -/
theorem sendStore_view (s : State) : KeepsView s (sendStore s) := by
  unfold sendStore
  cases hw : s.wb with
  | nil => exact .refl s
  | cons st rest =>
    simp only
    have hg : ∀ r, KeepsView s (sendTransaction (performGroup (waitForRoom { s with wb := rest.dropWhile (·.joined) })
        (st :: rest.takeWhile (·.joined))).1 r) := fun r => by
      obtain ⟨h1, h2, h3, h4, h5, h6⟩ := performGroup_view (waitForRoom { s with wb := rest.dropWhile (·.joined) })
        (st :: rest.takeWhile (·.joined))
      have hc : (waitForRoom { s with wb := rest.dropWhile (·.joined) }).cfg = s.cfg := by rw [waitForRoom_frame]
      have hu : Unmarked s → Unmarked (waitForRoom { s with wb := rest.dropWhile (·.joined) }) := fun h => by
        unfold Unmarked; rw [waitForRoom_ecc]; exact h
      have hm : ∀ b, memByte (waitForRoom { s with wb := rest.dropWhile (·.joined) }) b = memByte s b := fun b => by
        unfold memByte; simp
      rw [hc] at h1 h4 h5 h6
      refine ⟨h1, fun h => h3 (hu h), ⟨fun h b _ hk => ?_, fun b _ hk => (h5 b hk).trans (hm b)⟩, fun w _ hk => (h4 w hk).trans (by simp)⟩
      have hl : s.wb = (st :: rest.takeWhile (·.joined)) ++ rest.dropWhile (·.joined) := by
        rw [hw, List.cons_append, List.takeWhile_append_dropWhile]
      have hb : (performGroup (waitForRoom { s with wb := rest.dropWhile (·.joined) })
          (st :: rest.takeWhile (·.joined))).1.wb = rest.dropWhile (·.joined) := by simpa using h2
      have h7 := h6 (hu h) b hk
      rw [hm] at h7
      unfold dataByte
      rw [hl, bufferedStore_append]
      simp only [sendTransaction, hb]
      cases bufferedStore (rest.dropWhile (·.joined)) b with
      | some x => rfl
      | none => rw [Option.none_or]; exact h7
    split
    · exact (hg _).trans (answerAll_view _)
    · exact hg _

/-- Transactions that leave the buffer leave the hart's view of memory as it was. -/
theorem sendStores_view (n : Nat) (s : State) : KeepsView s (sendStores n s) := by
  induction n generalizing s with
  | zero => exact .refl s
  | succ n ih => exact (sendStore_view s).trans (ih _)

/-- Waiting for the side-effect stores leaves the hart's view of memory as it was (R208). -/
theorem awaitSideEffects_view (s : State) : KeepsView s (awaitSideEffects s) :=
  awaitSideEffects_induct (P := KeepsView s) (fun t h => h.trans (sendStore_view t)) s (.refl s)

/-- A drain leaves the hart's view of memory as it was (R206). -/
theorem drainBus_view (s : State) : KeepsView s (drainBus s) :=
  ((sendStores_view s.wb.length s).trans (answerAll_view _)).trans (.of_eq rfl rfl rfl rfl)

/-- After a drain memory holds what the hart saw (R204, R206). -/
theorem drainBus_performs (s : State) (h : Unmarked s) (b : Nat) (hb : b < 2 ^ 32)
    (hk : busKind s.cfg (BitVec.ofNat 32 b) = .memory) : memByte (drainBus s) b = dataByte s b := by
  rw [← (drainBus_view s).view.1 h b hb hk]
  unfold dataByte
  rw [(drainBus_spec s).2.1]
  rfl

/-- What FENCE has done, said once: the stores performed, nothing left buffered, and the updates it waits for in effect (R206, R370). -/
theorem fenceData_fenced (s : State) : Fenced s (fenceData s) := by
  obtain ⟨hw, hr, hq, hm, hf⟩ := fenceData_spec s
  refine ⟨hw, hr, fun h b hb hk => drainBus_performs s h b hb hk, fun b hb hk => (drainBus_view s).view.2 b hb hk, hq, ?_, ?_⟩
  · exact picNewest_drainBus s
  · unfold mracNow
    rw [hm, hf]
    rfl

/-- A second FENCE has done what the first did. -/
theorem Fenced.again {s t u : State} (h : Fenced s t) (hu : Fenced t u) (hc : t.cfg = s.cfg) (hm : t.csr.mrac = s.csr.mrac)
    (he : Unmarked s → Unmarked t) : Fenced s u where
  buffer := hu.buffer
  answered := hu.answered
  performed hs b hb hk := by
    rw [hu.performed (he hs) b hb (by rw [hc]; exact hk), ← h.performed hs b hb hk, dataByte, h.buffer]
    rfl
  other b hb hk := (hu.other b hb (by rw [hc]; exact hk)).trans (h.other b hb hk)
  picQueue := hu.picQueue
  pic := by
    rw [hu.pic, picNewest, h.picQueue, ← h.pic]
    rfl
  mrac := hu.mrac.trans hm

/-- What FENCE.I has done, said once: what FENCE does, and the fetch side sees memory as it is (R191, R440, R723). -/
theorem fenceInstructions_fenced (s : State) :
    Fenced s (fenceInstructions s) ∧ FetchFenced s (fenceInstructions s) := by
  have h := fenceData_fenced s
  have hf := (fenceData_spec s).2.2.2.2
  refine ⟨⟨h.buffer, h.answered, h.performed, h.other, h.picQueue, h.pic, h.mrac⟩, fun b => rfl, ?_, ?_, fun p => rfl, rfl⟩
  · show (fenceData s).csr.mrac = _
    rw [hf]
  · show (fenceData s).csr.mfdc = _
    rw [hf]

/-- The stores that leave the buffer at a boundary leave the hart's view of memory as it was. -/
theorem sendSome_view (s : State) : KeepsView s (sendSome s) := by
  unfold sendSome
  split
  · exact .refl s
  · exact sendStores_view _ _

/-- The answers at a boundary touch no memory. -/
theorem answerSome_view (s : State) : KeepsView s (answerSome s) := by
  unfold answerSome
  split
  · exact .refl s
  · exact answer_view _ _

/-- Sampling the inputs and staging the requests touches no memory. -/
theorem boundary_view (s : State) : KeepsView s (boundary s) := by
  unfold boundary
  simp only
  rw [syncPins_frame, stageRequests_frame, sampleGateways_frame]
  have h0 : KeepsView s (speculate (countStep { s with stepNo := s.stepNo + 1 })) := by
    rw [speculate_frame, countStep_frame]
    exact .of_eq rfl rfl rfl rfl
  exact ((h0.trans (sendSome_view _)).trans (answerSome_view _)).trans (.of_eq rfl rfl rfl rfl)

/-! ## The boundary -/

/-- What the hart keeps at a boundary whatever its activity: registers, PAUSE, the machine-mode CSRs but `mdseac`, and the count of
retired instructions; a debug halt of the MPC saves the pc in `dpc`, and its end goes back there (R649, R656, R658). -/
structure BoundaryKeeps (s t : State) : Prop where
  regs : t.regs = s.regs
  pauseCount : t.pauseCount = s.pauseCount
  inputs : t.inputs = s.inputs
  csr : t.csr = { s.csr with mdseac := t.csr.mdseac, dpc := t.csr.dpc, dcsr := t.csr.dcsr }
  minstret : t.counters.minstret = s.counters.minstret
  event : t.counters.event = s.counters.event
  hpm : ∀ n, inexactEvent (s.counters.event.get n).toNat = false → t.counters.hpm.get n = s.counters.hpm.get n
  view : KeepsView s t

/-- What a boundary keeps is kept by two operations that keep it. -/
theorem BoundaryKeeps.trans {s t u : State} (h₁ : BoundaryKeeps s t) (h₂ : BoundaryKeeps t u) : BoundaryKeeps s u where
  regs := h₂.regs.trans h₁.regs
  pauseCount := h₂.pauseCount.trans h₁.pauseCount
  inputs := h₂.inputs.trans h₁.inputs
  csr := by rw [h₂.csr, h₁.csr]
  minstret := h₂.minstret.trans h₁.minstret
  event := h₂.event.trans h₁.event
  hpm n h := (h₂.hpm n (by rw [h₁.event]; exact h)).trans (h₁.hpm n h)
  view := h₁.view.trans h₂.view

/-- What a boundary keeps is kept where nothing happens. -/
theorem BoundaryKeeps.refl (s : State) : BoundaryKeeps s s :=
  ⟨rfl, rfl, rfl, rfl, rfl, rfl, fun _ _ => rfl, .refl s⟩

/-- An exact event is not counted with the step's time (R673). -/
theorem countStep_hpm (s : State) (n : BitVec 2) (h : inexactEvent (s.counters.event.get n).toNat = false) :
    (countStep s).counters.hpm.get n = s.counters.hpm.get n ∧ (countStep s).counters.event = s.counters.event := by
  have one : ∀ (f : Nat → Nat → Nat) (c : Counters) (m : BitVec 2), c.event = s.counters.event →
      f n.toNat (c.event.get n).toNat = 0 →
      (addEvent f c m).hpm.get n = c.hpm.get n ∧ (addEvent f c m).event = s.counters.event := by
    intro f c m he hf
    refine ⟨?_, he⟩
    unfold addEvent
    simp only [Bank4.get_set]
    split
    · rename_i hm
      subst hm
      rw [hf]
      simp
    · rfl
  unfold countStep
  split
  · simp only
    generalize hs' : ({ s with counters := { s.counters with cycleSteps := s.counters.cycleSteps + 1, stepCounted := true } } : State) = s'
    have he : s'.counters.event = s.counters.event := by rw [← hs']
    have hh : s'.counters.hpm = s.counters.hpm := by rw [← hs']
    have hz : inexactCount s' n.toNat (s'.counters.event.get n).toNat = 0 := by
      simp [inexactCount, he, h]
    unfold countEvents
    split
    · simp only
      obtain ⟨a1, b1⟩ := one (inexactCount s') s'.counters 0 he hz
      obtain ⟨a2, b2⟩ := one (inexactCount s') _ 1 b1 (by rw [b1, ← he]; exact hz)
      obtain ⟨a3, b3⟩ := one (inexactCount s') _ 2 b2 (by rw [b2, ← he]; exact hz)
      obtain ⟨a4, b4⟩ := one (inexactCount s') _ 3 b3 (by rw [b3, ← he]; exact hz)
      exact ⟨by rw [a4, a3, a2, a1, hh], b4⟩
    · exact ⟨by rw [hh], he⟩
  · exact ⟨rfl, rfl⟩

/-- The counters move with the step's time only. -/
theorem boundary_counters (s : State) : (boundary s).counters = (countStep { s with stepNo := s.stepNo + 1 }).counters := by
  have h1 : ∀ t l, (sampleGateways t l).counters = t.counters := fun t l => by rw [sampleGateways_frame]
  have h2 : ∀ t, (answerSome t).counters = t.counters := fun t => by rw [answerSome_frame]
  have h3 : ∀ t, (sendSome t).counters = t.counters := fun t => by rw [sendSome_frame]
  exact (h1 _ _).trans ((h2 _).trans (h3 _))

/-- Sampling, staging and the bus keep what a boundary keeps. -/
theorem boundary_keeps (s : State) : BoundaryKeeps s (boundary s) := by
  have hf := boundary_frame s
  unfold BoundaryFrame at hf
  refine ⟨by rw [hf], by rw [hf], by rw [hf], by rw [hf], ?_, ?_, fun n h => ?_, boundary_view s⟩ <;> rw [boundary_counters]
  · rw [countStep_frame]
  · rw [countStep_frame]
  exact (countStep_hpm { s with stepNo := s.stepNo + 1 } n h).1

/-- What changes neither registers nor CSRs nor counters nor memory keeps what a boundary keeps. -/
theorem BoundaryKeeps.of_eq {s t : State} (hr : t.regs = s.regs) (hp : t.pauseCount = s.pauseCount) (hi : t.inputs = s.inputs)
    (hk : t.csr = s.csr) (hn : t.counters = s.counters) (hv : KeepsView s t) : BoundaryKeeps s t :=
  ⟨hr, hp, hi, by rw [hk], by rw [hn], by rw [hn], fun n _ => by rw [hn], hv⟩

/-- Counting the cycles of a hart that goes on keeps what a boundary keeps, the pc, the CSRs and the activity. -/
theorem countResumed_keeps (s : State) : BoundaryKeeps s (countResumed s) ∧ (countResumed s).pc = s.pc ∧
    (countResumed s).csr = s.csr ∧ (countResumed s).activity = s.activity := by
  unfold countResumed
  split
  · have hf := countStep_frame s
    have e1 : (countStep s).csr = s.csr := by rw [hf]
    have e2 : (countStep s).counters.minstret = s.counters.minstret := by rw [hf]
    have e3 : (countStep s).counters.event = s.counters.event := by rw [hf]
    have e4 : (countStep s).mem = s.mem ∧ (countStep s).ecc = s.ecc ∧ (countStep s).wb = s.wb ∧ (countStep s).cfg = s.cfg := by
      rw [hf]; exact ⟨rfl, rfl, rfl, rfl⟩
    exact ⟨⟨by rw [hf], by rw [hf], by rw [hf], by rw [e1], e2, e3, fun n h => (countStep_hpm s n h).1,
      .of_eq e4.2.2.2 e4.2.1 e4.1 e4.2.2.1⟩, by rw [hf], e1, by rw [hf]⟩
  · exact ⟨.refl s, rfl, rfl, rfl⟩

/-- Entering Debug Mode keeps what a boundary keeps, and saves the pc (R649, R656). -/
theorem enterDebug_keeps (s : State) (c : DebugCause) :
    BoundaryKeeps s (enterDebug s c) ∧ (enterDebug s c).pc = s.pc ∧ (enterDebug s c).csr.dpc = s.pc := by
  have hf := (drainBus_spec s).1
  have hv := drainBus_view s
  rw [enterDebug_spec]
  unfold BusFrame at hf
  have e1 : (drainBus s).csr = { s.csr with mdseac := (drainBus s).csr.mdseac } := by rw [hf]
  have e2 : (drainBus s).counters = s.counters := by rw [hf]
  exact ⟨⟨by rw [hf], by rw [hf], by rw [hf], by rw [e1], by rw [e2], by rw [e2],
    fun n _ => by rw [e2], hv.trans (.of_eq rfl rfl rfl rfl)⟩, by rw [hf], rfl⟩

/-- That the MPC holds the hart touches nothing a boundary keeps. -/
theorem mpcHolds_keeps (s : State) : BoundaryKeeps s (mpcHolds s) :=
  .of_eq rfl rfl rfl rfl rfl (.of_eq rfl rfl rfl rfl)

/-- Serving the MPC's halt request leaves the hart as it was, or halts it at its pc (R649, R656, R658). -/
theorem serveMpcHalt_keeps (s : State) : BoundaryKeeps s (serveMpcHalt s) ∧ (serveMpcHalt s).pc = s.pc ∧
    ((serveMpcHalt s).csr = s.csr ∧ (serveMpcHalt s).activity = s.activity ∨
      (serveMpcHalt s).csr.dpc = s.pc ∧ s.activity ≠ .dbHalt ∧ s.seen.mpcHaltReq = true) := by
  have h0 : ∀ w : Option Nat, BoundaryKeeps s { s with waits := { s.waits with mpcHalt := w } } := fun w =>
    .of_eq rfl rfl rfl rfl rfl (.of_eq rfl rfl rfl rfl)
  unfold serveMpcHalt
  dsimp only
  generalize hv : waitStep (s.seen.mpcHaltReq && s.activity != .dbHalt) s.waits.mpcHalt (Config.mpcHaltDelay s.stepNo) = v
  split_ifs with h1 h2
  · obtain ⟨k1, k2, k3⟩ := enterDebug_keeps { s with waits := { s.waits with mpcHalt := v.1 } } .haltRequest
    refine ⟨((h0 v.1).trans k1).trans (mpcHolds_keeps _), k2, .inr ⟨k3, ?_⟩⟩
    cases hm : s.seen.mpcHaltReq && s.activity != .dbHalt
    · rw [← hv, hm] at h1
      simp [waitStep] at h1
    · simpa [and_comm] using hm
  · exact ⟨(h0 v.1).trans (mpcHolds_keeps _), rfl, .inl ⟨rfl, rfl⟩⟩
  · exact ⟨h0 v.1, rfl, .inl ⟨rfl, rfl⟩⟩

/-- Serving the MPC's run request leaves the hart as it was, or ends a debug halt, and the hart goes on at `dpc` (R657, R658). -/
theorem serveMpcRun_keeps (s : State) : BoundaryKeeps s (serveMpcRun s) ∧ (serveMpcRun s).csr = s.csr ∧
    (serveMpcRun s).pc = if s.activity = .dbHalt ∧ (serveMpcRun s).activity = .running then s.csr.dpc else s.pc := by
  have of : ∀ t : State, t.regs = s.regs → t.pauseCount = s.pauseCount → t.inputs = s.inputs → t.csr = s.csr →
      t.counters = s.counters → t.cfg = s.cfg → t.ecc = s.ecc → t.mem = s.mem → t.wb = s.wb → BoundaryKeeps s t :=
    fun t a b c d e f g h i => .of_eq a b c d e (.of_eq f g h i)
  unfold serveMpcRun
  dsimp only
  have no : ¬(s.activity = .dbHalt ∧ s.activity = .running) := by rintro ⟨h, h'⟩; rw [h] at h'; cases h'
  split_ifs <;> refine ⟨of _ rfl rfl rfl rfl rfl rfl rfl rfl rfl, rfl, ?_⟩ <;>
    first | exact (if_neg no).symm | simp_all [exitDebug]

/-- A boundary, with the MPC's requests served, keeps what `BoundaryKeeps` says; the pc too, but where an MPC's run request ends a
debug halt, which goes on at `dpc`; and without a halt request of the MPC `dpc` and `dcsr` as well (R649, R656 to R658). -/
theorem atBoundary_keeps (s : State) : BoundaryKeeps s (atBoundary s) ∧
    ((atBoundary s).pc = if s.activity = .dbHalt ∧ (atBoundary s).activity = .running then s.csr.dpc else s.pc) ∧
    ((boundary s).seen.mpcHaltReq = false → (atBoundary s).csr.dpc = s.csr.dpc ∧ (atBoundary s).csr.dcsr = s.csr.dcsr) := by
  have hf := boundary_frame s
  unfold BoundaryFrame at hf
  have e1 : (boundary s).pc = s.pc := by rw [hf]
  have e2 : (boundary s).csr.dpc = s.csr.dpc := by rw [hf]
  have e3 : (boundary s).csr.dcsr = s.csr.dcsr := by rw [hf]
  have e4 : (boundary s).activity = s.activity := by rw [hf]
  obtain ⟨k1, p1, d1⟩ := serveMpcHalt_keeps (boundary s)
  obtain ⟨k2, c2, p2⟩ := serveMpcRun_keeps (serveMpcHalt (boundary s))
  obtain ⟨k3, p3, c3, a3⟩ := countResumed_keeps (serveMpcRun (serveMpcHalt (boundary s)))
  unfold atBoundary
  rw [p3, c3, a3, c2, p2, p1, e1]
  refine ⟨(((boundary_keeps s).trans k1).trans k2).trans k3, ?_, fun hq => ?_⟩
  · rcases d1 with ⟨d1, d2⟩ | ⟨d1, d2, -⟩
    · rw [d2, d1, e4, e2]
    · rw [d1, e1, ite_self, if_neg (by rw [← e4]; exact fun h => d2 h.1)]
  · rcases d1 with ⟨d1, -⟩ | ⟨-, -, d2⟩
    · rw [d1]; exact ⟨e2, e3⟩
    · rw [hq] at d2; cases d2

/-- A hart that executes the next instruction has taken no other step at the boundary: only what is put off has moved on
(R530, R552, R643, R652). -/
theorem turn_execute {s u : State} (h : turn s = .execute u) :
    s.activity = .running ∧ s.pauseCount = 0 ∧ u = { s with waits := u.waits } := by
  have go : ∀ w, goOn { s with waits := w } = .execute u → s.pauseCount = 0 ∧ u = { s with waits := u.waits } := fun w hg => by
    unfold goOn at hg
    split at hg
    · rename_i hp
      injection hg with hg
      exact ⟨hp, by rw [← hg]⟩
    · cases hg
  have gi : ∀ w, interruptTurn { s with waits := w } = .execute u → s.pauseCount = 0 ∧ u = { s with waits := u.waits } := fun w hg => by
    unfold interruptTurn at hg
    dsimp only at hg
    split at hg
    · exact go _ hg
    · split at hg
      · cases hg
      · exact go _ hg
  unfold turn at h
  split at h <;> rename_i ha <;> try cases h
  refine ⟨ha, ?_⟩
  unfold runningTurn nmiTurn at h
  dsimp only at h
  split_ifs at h
  · exact go _ h
  · exact gi _ h

end Sys2Proof.Machine
end

