-- ==== Sys2Proof/Tests/Slice0.lean ====
section
/-! SUPPORT. Tests: ill-formed terms, words of the spec and what they decode to, results of the spec's vectors
(95_test_vectors.md), and for each statement with hypotheses a state that meets them. -/

namespace Sys2Proof.Tests

-- One theorem after another: a thread for each at once would outgrow the memory a check allows.
set_option Elab.async false

open Sys2Proof Sys2Proof.Machine

/-! ## Ill-formed terms, one for each check -/

theorem test_ill_formed_offsets : ([.jal 1 3, .beq 1 2 3, .bne 1 2 3, .blt 1 2 3, .bge 1 2 3, .bltu 1 2 3,
    .bgeu 1 2 3, .cJal 3, .cJ 3, .cBeqz 0 3, .cBnez 0 3] : List Instr).all (fun i => !i.wellFormed) = true := by
  decide +kernel

theorem test_ill_formed_scales : ([.cAddi4spn 0 2, .cLw 0 0 2, .cSw 0 0 2, .cAddi16sp 8, .cLwsp 1 2,
    .cSwsp 1 2] : List Instr).all (fun i => !i.wellFormed) = true := by
  decide +kernel

theorem test_ill_formed_zeros : ([.cAddi4spn 0 0, .cAddi 0 1, .cAddi16sp 0, .cLui 2 1, .cLui 1 0, .cLwsp 0 4,
    .cJr 0, .cJalr 0, .cMv 1 0, .cAdd 1 0] : List Instr).all (fun i => !i.wellFormed) = true := by
  decide +kernel

/-! ## Words of the spec -/

/-- Rows I1, I3, B4, B8, B11, B13, B15, B17, B16, B19 of 95_test_vectors.md. -/
def words_upper_control : List (Code × Instr) :=
  [(.word 0xFFFFF2B7, .lui 5 1048575), (.word 0xFFFFF317, .auipc 6 1048575),
   (.word 0x800000EF, .jal 1 (-1048576)), (.word 0x80008067, .jalr 0 1 (-2048)),
   (.word 0x00730863, .beq 6 7 16), (.word 0xFE731CE3, .bne 6 7 (-8)), (.word 0x02734063, .blt 6 7 32),
   (.word 0x02735063, .bge 6 7 32), (.word 0x02736063, .bltu 6 7 32), (.word 0x02737063, .bgeu 6 7 32)]

theorem test_decode_upper_control : words_upper_control.all (fun e => decodeCode e.1 == some e.2) = true := by
  decide +kernel

/-- Rows A3, M5, M10, M3, M6, M14, M15, M19 of 95_test_vectors.md. -/
def words_memory : List (Code × Instr) :=
  [(.word 0xFFF30283, .lb 5 6 (-1)), (.word 0x00231283, .lh 5 6 2), (.word 0xFFC32283, .lw 5 6 (-4)),
   (.word 0x00034283, .lbu 5 6 0), (.word 0x00035283, .lhu 5 6 0), (.word 0x007301A3, .sb 7 6 3),
   (.word 0x00731123, .sh 7 6 2), (.word 0x80732023, .sw 7 6 (-2048))]

theorem test_decode_memory : words_memory.all (fun e => decodeCode e.1 == some e.2) = true := by
  decide +kernel

/-- Rows I5, I9, I11, I14, I16, I17, I19, I21, I23 of 95_test_vectors.md. -/
def words_immediate : List (Code × Instr) :=
  [(.word 0xFFF30293, .addi 5 6 (-1)), (.word 0xFFF32293, .slti 5 6 (-1)),
   (.word 0xFFF33293, .sltiu 5 6 (-1)), (.word 0xFFF34293, .xori 5 6 (-1)),
   (.word 0x80036293, .ori 5 6 (-2048)), (.word 0xFF037293, .andi 5 6 (-16)),
   (.word 0x01F31293, .slli 5 6 31), (.word 0x01F35293, .srli 5 6 31), (.word 0x41F35293, .srai 5 6 31)]

theorem test_decode_immediate : words_immediate.all (fun e => decodeCode e.1 == some e.2) = true := by
  decide +kernel

/-- Rows I28, I30, I32, I34, I35, I37, I38, I39, I41, I42 of 95_test_vectors.md. -/
def words_register : List (Code × Instr) :=
  [(.word 0x007302B3, .add 5 6 7), (.word 0x407302B3, .sub 5 6 7), (.word 0x007312B3, .sll 5 6 7),
   (.word 0x007322B3, .slt 5 6 7), (.word 0x007332B3, .sltu 5 6 7), (.word 0x007342B3, .xor 5 6 7),
   (.word 0x007352B3, .srl 5 6 7), (.word 0x407352B3, .sra 5 6 7), (.word 0x007362B3, .or 5 6 7),
   (.word 0x007372B3, .and 5 6 7)]

theorem test_decode_register : words_register.all (fun e => decodeCode e.1 == some e.2) = true := by
  decide +kernel

/-- Rows S1, S5, S6, S4, Z1, Z13, Z16, Z17, Z18, Z19 of 95_test_vectors.md. -/
def words_fence_system_csr : List (Code × Instr) :=
  [(.word 0x0FF0000F, .fence 0 15 15 0 0), (.word 0x00000073, .ecall), (.word 0x00100073, .ebreak),
   (.word 0x0000100F, .fenceI 0 0 0), (.word 0x340312F3, .csrrw 5 0x340 6),
   (.word 0xF11322F3, .csrrs 5 0xF11 6), (.word 0x304332F3, .csrrc 5 0x304 6),
   (.word 0x30045073, .csrrwi 0 0x300 8), (.word 0x30046073, .csrrsi 0 0x300 8),
   (.word 0x300472F3, .csrrci 5 0x300 8)]

theorem test_decode_fence_system_csr : words_fence_system_csr.all (fun e => decodeCode e.1 == some e.2) = true := by
  decide +kernel

/-- Rows D1, D4, D7, D9, D11, D15, D17, D21, S8, S10 of 95_test_vectors.md. -/
def words_multiply_privileged : List (Code × Instr) :=
  [(.word 0x027302B3, .mul 5 6 7), (.word 0x027312B3, .mulh 5 6 7), (.word 0x027322B3, .mulhsu 5 6 7),
   (.word 0x027332B3, .mulhu 5 6 7), (.word 0x027342B3, .div 5 6 7), (.word 0x027352B3, .divu 5 6 7),
   (.word 0x027362B3, .rem 5 6 7), (.word 0x027372B3, .remu 5 6 7), (.word 0x30200073, .mret),
   (.word 0x10500073, .wfi)]

theorem test_decode_multiply_privileged : words_multiply_privileged.all (fun e => decodeCode e.1 == some e.2) = true := by
  decide +kernel

/-- Rows C2, C5, C7, C10, C12, C16, C17, C19, C22, C25, C27, C28, C29 of 95_test_vectors.md. -/
def words_compressed_low : List (Code × Instr) :=
  [(.half 0x005C, .cAddi4spn 7 4), (.half 0x41C8, .cLw 2 3 4), (.half 0xC1C8, .cSw 2 3 4),
   (.half 0x0001, .cNop 0), (.half 0x157D, .cAddi 10 (-1)), (.half 0x3001, .cJal (-2048)),
   (.half 0x5501, .cLi 10 (-32)), (.half 0x7101, .cAddi16sp (-512)), (.half 0x7501, .cLui 10 (-32)),
   (.half 0x807D, .cSrli 0 31), (.half 0x8411, .cSrai 0 4), (.half 0x9841, .cAndi 0 (-16)),
   (.half 0x8C05, .cSub 0 1)]

theorem test_decode_compressed_low : words_compressed_low.all (fun e => decodeCode e.1 == some e.2) = true := by
  decide +kernel

/-- Rows C30, C31, C32, C34, C35, C37, C38, C40, C42, C44, S7, C46, C48, C50 of 95_test_vectors.md. -/
def words_compressed_high : List (Code × Instr) :=
  [(.half 0x8C25, .cXor 0 1), (.half 0x8C45, .cOr 0 1), (.half 0x8C65, .cAnd 0 1), (.half 0xBFFD, .cJ (-2)),
   (.half 0xCC7D, .cBeqz 0 254), (.half 0xF381, .cBnez 7 (-256)), (.half 0x057E, .cSlli 10 31),
   (.half 0x557E, .cLwsp 10 252), (.half 0x8082, .cJr 1), (.half 0x852E, .cMv 10 11),
   (.half 0x9002, .cEbreak), (.half 0x9502, .cJalr 10), (.half 0x952E, .cAdd 10 11),
   (.half 0xDFAE, .cSwsp 11 252)]

theorem test_decode_compressed_high : words_compressed_high.all (fun e => decodeCode e.1 == some e.2) = true := by
  decide +kernel

/-- Rows B3, B21, C1, C6, S2, S3: extreme offsets, and the fields FENCE ignores. -/
theorem test_decode_extremes : ([(.word 0x7FFFF0EF, .jal 1 0xFFFFE), (.word 0x80000063, .beq 0 0 (-4096)),
    (.half 0x1FE0, .cAddi4spn 0 1020), (.half 0x5FE0, .cLw 0 7 124), (.word 0x8330000F, .fence 8 3 3 0 0),
    (.word 0x0FF3028F, .fence 0 15 15 6 5)] : List (Code × Instr)).all
      (fun e => decodeCode e.1 == some e.2) = true := by
  decide +kernel

/-- Rows I26, I27, I44, B10, B23, M21, M23, S11, S13, S14, Z24: illegal words. -/
theorem test_illegal_words : [0x02031293, 0x42135293, 0x407312B3, 0x000310E7, 0x00732863, 0x00033283, 0x00733023,
    0x10200073, 0x12000073, 0x000000F3, 0x34004073].all (fun w => decodeCode (.word w) == none) = true := by
  decide +kernel

/-- Rows C8, C9, C21, C24, C26, C33, C39, C41, C43, C52 and the parcel 0: illegal parcels. -/
theorem test_illegal_parcels : [0x0000, 0x2000, 0x8000, 0x6101, 0x6501, 0x9005, 0x9C01, 0x1506, 0x4002, 0x8002,
    0x6002].all (fun h => decodeCode (.half h) == none) = true := by
  decide +kernel

/-- The table's numbering, and the bytes in memory order. -/
theorem test_table_words : decodeTableWord 32 0x007302B3 = some (.add 5 6 7) ∧
    decodeTableWord 16 0x952E = some (.cAdd 10 11) ∧ decodeTableWord 16 0 = none ∧
    encode (.add 5 6 7) = [0xB3, 0x02, 0x73, 0x00] ∧ encode (.cAdd 10 11) = [0x2E, 0x95] := by
  decide +kernel

/-! ## Results of the vectors -/

/-- The defaults of the vectors: pc 0x40100, trap vector 0x40000; the data words at 0x80010 and 0x80014. -/
def base : State :=
  { State.reset with
    pc := 0x40100
    csr := { State.reset.csr with mtvec := 0x40000 }
    mem := [(0x80010, 0x80), (0x80011, 0xFF), (0x80012, 0x7F), (0x80013, 0x01), (0x80014, 0xAA),
      (0x80015, 0xBB), (0x80016, 0xCC), (0x80017, 0xDD)]
    ecc := [(0x20004, .good), (0x20005, .good)] }

/-- The defaults with values in x6 and x7. -/
def small (a b : Word) : State := setReg (setReg base 6 a) 7 b

/-- The instruction completes with `v` in `rd` and the pc `next`. -/
def gives (r : Result) (rd : Reg) (v next : Word) : Bool :=
  match r with
  | .next t => reg t rd == v && t.pc == next && t.counters.minstret == 1
  | _ => false

/-- The instruction traps with this cause and value, and does not retire. -/
def traps (r : Result) (cause value : Word) : Bool :=
  match r with
  | .next t =>
    t.pc == 0x40000 && t.csr.mcause == cause && t.csr.mtval == value && t.csr.mepc == 0x40100 &&
      t.counters.minstret == 0
  | _ => false

/-- Rows I28 to I42. -/
theorem test_register_results : ([(.add 5 6 7, 0x7FFFFFFF, 1, 0x80000000), (.sub 5 6 7, 0, 1, 0xFFFFFFFF),
    (.sll 5 6 7, 1, 0x21, 2), (.sll 5 6 7, 1, 0xFFFFFFFF, 0x80000000), (.slt 5 6 7, 0x80000000, 1, 1),
    (.sltu 5 6 7, 0x80000000, 1, 0), (.xor 5 6 7, 0xFF00FF00, 0x0FF00FF0, 0xF0F0F0F0),
    (.srl 5 6 7, 0x80000000, 0xFFFFFFE4, 0x08000000), (.sra 5 6 7, 0x80000000, 0xFFFFFFE4, 0xF8000000),
    (.or 5 6 7, 0xFF00FF00, 0x0FF00FF0, 0xFFF0FFF0),
    (.and 5 6 7, 0xFF00FF00, 0x0FF00FF0, 0x0F000F00)] : List (Instr × Word × Word × Word)).all
      (fun e => gives (exec e.1 (small e.2.1 e.2.2.1)) 5 e.2.2.2 0x40104) = true := by
  decide +kernel

/-- Rows I1, I3, I5 to I25, S10. -/
theorem test_immediate_results : ([(.lui 5 0xFFFFF, 0, 0xFFFFF000), (.auipc 5 0xFFFFF, 0, 0x3F100),
    (.addi 5 6 (-1), 0, 0xFFFFFFFF), (.addi 5 6 2047, 0x7FFFFFFF, 0x800007FE),
    (.slti 5 6 (-1), 0x80000000, 1), (.sltiu 5 6 (-1), 0xFFFFFFFE, 1), (.xori 5 6 (-1), 0x0F0F0F0F, 0xF0F0F0F0),
    (.ori 5 6 (-2048), 1, 0xFFFFF801), (.andi 5 6 (-16), 0x12345678, 0x12345670),
    (.slli 5 6 31, 3, 0x80000000), (.srli 5 6 4, 0xF0000000, 0x0F000000), (.srai 5 6 4, 0xF0000000, 0xFF000000),
    (.wfi, 0, 0)] : List (Instr × Word × Word)).all
      (fun e => gives (exec e.1 (small e.2.1 0)) 5 e.2.2 0x40104) = true := by
  decide +kernel

/-- Rows D1 to D22. -/
theorem test_multiply_divide_results : ([(.mul 5 6 7, 0x12345678, 0x9ABCDEF0, 0x242D2080),
    (.mulh 5 6 7, 0x80000000, 0x7FFFFFFF, 0xC0000000), (.mulhsu 5 6 7, 0xFFFFFFFF, 0xFFFFFFFF, 0xFFFFFFFF),
    (.mulhu 5 6 7, 0xFFFFFFFF, 0xFFFFFFFF, 0xFFFFFFFE), (.div 5 6 7, 0xFFFFFFF9, 2, 0xFFFFFFFD),
    (.div 5 6 7, 0x80000000, 0xFFFFFFFF, 0x80000000), (.divu 5 6 7, 7, 0, 0xFFFFFFFF),
    (.divu 5 6 7, 0xFFFFFFF9, 2, 0x7FFFFFFC), (.rem 5 6 7, 0xFFFFFFF9, 2, 0xFFFFFFFF),
    (.rem 5 6 7, 7, 0xFFFFFFFE, 1), (.remu 5 6 7, 7, 0, 7)] : List (Instr × Word × Word × Word)).all
      (fun e => gives (exec e.1 (small e.2.1 e.2.2.1)) 5 e.2.2.2 0x40104) = true := by
  decide +kernel

/-- Rows B1 to B20, C15, C34 to C37, C42, C46: the register linked, its value, and the pc. -/
theorem test_control_results : ([(.jal 1 8, 0, 0, 1, 0x40104, 0x40108),
    (.jalr 1 6 1, 0x40201, 0, 1, 0x40104, 0x40202), (.jalr 6 6 0, 0x40200, 0, 6, 0x40104, 0x40200),
    (.beq 6 7 16, 5, 5, 5, 0, 0x40110), (.beq 6 7 16, 5, 6, 5, 0, 0x40104), (.bne 6 7 (-8), 5, 6, 5, 0, 0x400F8),
    (.blt 6 7 32, 0xFFFFFFFF, 1, 5, 0, 0x40120), (.bltu 6 7 32, 0xFFFFFFFF, 1, 5, 0, 0x40104),
    (.bge 6 7 32, 0x80000000, 0x7FFFFFFF, 5, 0, 0x40104), (.bgeu 6 7 32, 0x80000000, 0x7FFFFFFF, 5, 0, 0x40120),
    (.cJal 2046, 0, 0, 1, 0x40102, 0x408FE), (.cJ (-2), 0, 0, 5, 0, 0x400FE), (.cBeqz 0 254, 0, 0, 5, 0, 0x401FE),
    (.cBnez 0 254, 0, 0, 5, 0, 0x40102), (.cJr 6, 0x40203, 0, 5, 0, 0x40202),
    (.cJalr 6, 0x40200, 0, 1, 0x40102, 0x40200)] : List (Instr × Word × Word × Reg × Word × Word)).all
      (fun e => gives (exec e.1 (small e.2.1 e.2.2.1)) e.2.2.2.1 e.2.2.2.2.1 e.2.2.2.2.2) = true := by
  decide +kernel

/-- Rows M1 to M10, C5, C40, the base in x6, x11 or x2: loads from the DCCM. -/
theorem test_load_results : ([(.lb 5 6 0, 5, 0xFFFFFF80, 4), (.lbu 5 6 0, 5, 0x80, 4), (.lh 5 6 0, 5, 0xFFFFFF80, 4),
    (.lh 5 6 3, 5, 0xFFFFAA01, 4), (.lhu 5 6 0, 5, 0xFF80, 4), (.lw 5 6 1, 5, 0xAA017FFF, 4),
    (.lw 6 6 4, 6, 0xDDCCBBAA, 4), (.cLw 2 3 4, 10, 0xDDCCBBAA, 2),
    (.cLwsp 10 4, 10, 0xDDCCBBAA, 2)] : List (Instr × Reg × Word × Word)).all (fun e =>
      gives (exec e.1 (setReg (setReg (small 0x80010 0) 11 0x80010) 2 0x80010)) e.2.1 e.2.2.1
        (0x40100 + e.2.2.2)) = true := by
  decide +kernel

/-- Rows M13 to M18, C7, C50: the eight bytes from 0x80010 on after a store of 0x11223344. -/
theorem test_store_results : ([(.sb 7 6 3, 0xDDCCBBAA447FFF80), (.sh 7 6 2, 0xDDCCBBAA3344FF80),
    (.sh 7 6 3, 0xDDCCBB33447FFF80), (.sw 7 6 0, 0xDDCCBBAA11223344), (.sw 7 6 3, 0xDD112233447FFF80),
    (.cSw 2 3 4, 0x11223344017FFF80), (.cSwsp 7 4, 0x11223344017FFF80)] : List (Instr × BitVec 64)).all (fun e =>
      match exec e.1 (setReg (setReg (setReg (small 0x80010 0x11223344) 11 0x80010) 2 0x80010) 10 0x11223344) with
      | .next t => assemble64 (memByte t) 0x80010 8 == e.2
      | _ => false) = true := by
  decide +kernel

/-- Rows A1, A3, A4, A6, A9, A10, A12 (loads) and A2, A7, A11 (stores). -/
theorem test_access_traps : ([(.lw 5 6 0, 0x9FFFE, 5), (.lb 5 6 0, 0x7FFFF, 5), (.lw 5 6 0, 0x40000, 5),
    (.lw 5 6 0, 0x0FFFFFFE, 4), (.lh 5 6 0, 0xC0004, 5), (.lw 5 6 0, 0xC0006, 5), (.lw 5 6 0, 0xC7FFE, 5),
    (.sw 7 6 0, 0x9FFFE, 7), (.sh 7 6 0, 0x2FFFFFFF, 6), (.sb 7 6 0, 0xC2014, 7)] : List (Instr × Word × Word)).all
      (fun e => traps (exec e.1 (small e.2.1 0)) e.2.2 e.2.1) = true := by
  decide +kernel

/-- Rows A16, A17, A19: side-effect regions. -/
theorem test_side_effect_traps : ([(.lw 5 6 0, 0x20000101, 4, 0x20), (.sh 7 6 0, 0x10000001, 6, 0x8),
    (.lw 5 6 0, 0x30000000, 5, 0x80)] : List (Instr × Word × Word × Word)).all (fun e =>
      let s := small e.2.1 0
      traps (exec e.1 { s with csr := { s.csr with mrac := e.2.2.2 } }) e.2.2.1 e.2.1) = true := by
  decide +kernel

/-- Rows N4, N5: the answer to a store where nothing answers is captured; while locked the next one is not. -/
theorem test_store_error :
    let t := reportAnswers base [⟨0x30000000, 4, false, true, false⟩]
    t.csr.mdseac = 0x30000000 ∧ t.mdseacLocked = true ∧ t.dbusErr = some .store ∧
      reportAnswers t [⟨0x30000100, 4, true, true, false⟩] = t := by
  decide +kernel

/-- Row A15: a misaligned load from SoC memory through the write buffer of two stores. -/
theorem test_bus_forwarding : gives (exec (.lw 5 6 1) { small 0x20000100 0 with
    wb := [⟨0x20000100, 4, 0x44332211, false, false, false⟩, ⟨0x20000104, 4, 0x88776655, false, false, false⟩] }) 5 0x55443322 0x40104 = true := by
  decide +kernel

/-- The C forms on the rows C1 to C49: the register written and its value. -/
theorem test_compressed_results : ([(.cAddi4spn 7 4, 15, 0x81004), (.cNop 3, 5, 0), (.cAddi 10 31, 10, 0x8000001E),
    (.cLi 10 (-32), 10, 0xFFFFFFE0), (.cAddi16sp (-512), 2, 0x80E00), (.cLui 10 (-32), 10, 0xFFFE0000),
    (.cSrli 0 31, 8, 1), (.cSrai 0 4, 8, 0xFFF00FF0), (.cAndi 0 (-16), 8, 0xFF00FF00), (.cSub 0 1, 8, 0xEF10EF10),
    (.cXor 0 1, 8, 0xF0F0F0F0), (.cOr 0 1, 8, 0xFFF0FFF0), (.cAnd 0 1, 8, 0x0F000F00), (.cSlli 10 31, 10, 0x80000000),
    (.cMv 10 9, 10, 0x0FF00FF0), (.cAdd 10 2, 10, 0x80080FFF)] : List (Instr × Reg × Word)).all (fun e =>
      gives (exec e.1 (setReg (setReg (setReg (setReg base 8 0xFF00FF00) 9 0x0FF00FF0) 2 0x81000) 10 0x7FFFFFFF))
        e.2.1 e.2.2 0x40102) = true := by
  decide +kernel

/-- Rows S5 to S9: ECALL, EBREAK, MRET. -/
theorem test_system_results : traps (exec .ecall base) 11 0 = true ∧ traps (exec .ebreak base) 3 0x40100 = true ∧
    traps (exec .cEbreak base) 3 0x40100 = true ∧
    (match exec .mret { base with csr := { base.csr with mstatus := 0x1880, mepc := 0x40200 } } with
      | .next t => t.pc == 0x40200 && t.csr.mstatus == 0x1888
      | _ => false) = true := by
  decide +kernel

/-- Rows S1, S4: FENCE and FENCE.I retire. -/
theorem test_fence_results : gives (exec (.fence 0 15 15 6 5) (small 2 1)) 7 1 0x40104 = true ∧
    gives (exec (.fenceI 0 0 0) (small 2 1)) 7 1 0x40104 = true := by
  decide +kernel

/-- Rows Z1, Z5 to Z10, Z15 to Z20, Z25, Z27: the old value in x5, the CSR read after. -/
theorem test_csr_results : ([(.csrrw 5 0x340 6, 0x5555, 0, 0x5555, .mscratch), (.csrrw 5 0x300 6, 0xFFFFFFFF, 0x1800, 0x1888, .mstatus),
    (.csrrw 5 0x304 6, 0xFFFFFFFF, 0, 0x40000888, .mie), (.csrrw 5 0x344 6, 0xFFFFFFFF, 0, 0, .mip),
    (.csrrw 5 0x301 0, 0, 0x40001104, 0x40001104, .misa), (.csrrs 5 0xF11 0, 0, 0x45, 0x45, .mvendorid),
    (.csrrs 5 0xF12 0, 0, 0xB, 0xB, .marchid), (.csrrs 5 0x304 6, 0x800, 0, 0x800, .mie),
    (.csrrc 5 0x305 6, 0x40000, 0x40000, 0, .mtvec), (.csrrwi 5 0x340 8, 0, 0, 8, .mscratch),
    (.csrrsi 5 0x300 8, 0, 0x1800, 0x1808, .mstatus), (.csrrci 5 0x300 8, 0, 0x1800, 0x1800, .mstatus),
    (.csrrci 5 0xF14 0, 0, 0, 0, .mhartid), (.csrrw 5 0xBC8 6, 0xFFFFFFFF, 0, 0xFFFFFC00, .meivt),
    (.csrrw 5 0xBCA 0, 0, 0, 0, .meicpct)] : List (Instr × Word × Word × Word × Csr)).all (fun e =>
      let r := exec e.1 (small e.2.1 0)
      gives r 5 e.2.2.1 0x40104 && match r with
        | .next t => csrRead t e.2.2.2.2 == e.2.2.2.1
        | _ => false) = true := by
  decide +kernel

/-- Rows Z13, Z14, Z21 to Z23, Z28: accesses that are illegal, and the refusal of R60. -/
theorem test_csr_traps : traps (exec (.csrrs 5 0xF11 6) base) 2 0xF11322F3 = true ∧
    traps (exec (.csrrw 0 0xF11 0) base) 2 0xF1101073 = true ∧ traps (exec (.csrrs 5 0xC00 0) base) 2 0xC00022F3 = true ∧
    traps (exec (.csrrs 5 0x7C4 0) base) 2 0x7C4022F3 = true ∧
    (match exec (.csrrs 5 0x7A0 0) base with
      | .refused .triggerCsr => true
      | _ => false) = true := by
  decide +kernel

/-- Rows G1 to G4, G6, G8 to G12: what a PIC register reads after a store of all ones. -/
theorem test_pic_results : ([(0x14, 0xF), (0x2014, 1), (0x4014, 3), (0x5014, 0), (0x3000, 1), (0, 0),
    (0x24, 0), (0x2024, 0), (0x3004, 0), (0x7FFC, 0)] : List (Nat × Word)).all
      (fun e => loadPic (issuePicStore base e.1 0xFFFFFFFF) e.1 == e.2) = true := by
  decide +kernel

/-- The PIC with sources 3 and 6 enabled, requesting, at these internal priorities. -/
def picWith (p3 p6 : BitVec 4) : PicRegs :=
  { PicRegs.reset with
    ipl := (PicRegs.reset.ipl.set 3 p3).set 6 p6, inten := 0x48, prev := 0x48, staged := 0x48 }

/-- Rows E2 to E4, E9, E13, E14: the winner. -/
theorem test_pic_winner : picWinner cfgT (picWith 5 0) = (5, 3) ∧ picWinner cfgT (picWith 5 5) = (5, 3) ∧
    picWinner cfgT (picWith 5 7) = (7, 6) ∧ picWinner cfgT (picWith 0 0) = (0, 0) ∧
    picWinner cfgT (picWith 13 15) = (15, 6) ∧ picWinner cfgT (picWith 13 6) = (13, 3) := by
  decide +kernel

/-- Row W1 and W2: an edge sets the pending bit, a clear keeps it clear while the pin stays high. -/
theorem test_gateway_edge :
    let s := { base with pic := { base.pic with gwType := 0x20 } }
    let up := takeSample s 0x20
    let cleared := takeSample (settlePic (issuePicStore up 0x5014 0)) 0x20
    up.pic.ip = 0x20 ∧ cleared.pic.ip = 0 := by
  decide +kernel

/-- R577, R721: the edge at a gateway with an un-fenced store waits with both readings of its configuration. -/
theorem test_edge_beside_store :
    let s := { base with pic := { base.pic with gwType := 0x20 } }
    let t := takeSample (issuePicStore s 0x4014 0) 0x20
    t.pic.ip = 0 ∧ t.picQueue = [.store 0x4014 0, .edge 0x20 0] := by
  decide +kernel

/-- R630, R742: levels arrive in their order when their wait is over, for an input of the mask at once; none is left out. -/
theorem test_delay_line :
    let d : Option Nat → DelayLine 8 := fun w => ⟨[0x20, 0x60, 0x40], w⟩
    (d (some 0)).advance 0 0 9 = (0x20, ⟨[0x60, 0x40], none⟩) ∧
    (d (some 2)).advance 0 0 9 = (0, ⟨[0x20, 0x60, 0x40], some 1⟩) ∧
    (d (some 2)).advance 0 0x40 9 = (0x40, ⟨[0x60, 0x60, 0x40], some 1⟩) ∧
    (d none).advance 0x40 0x20 1 = (0x60, ⟨[0x20, 0x60, 0x40], some 0⟩) ∧
    (⟨[1, 0], some 0⟩ : DelayLine 8).advance 0 1 9 = (1, ⟨[0], none⟩) := by
  decide +kernel

/-- R574, R692: a level that has stood for two steps, or a long one, is recognised whatever the synchroniser would drop; one that
has not may be dropped, and a pulse between two boundaries recognised. -/
theorem test_short_levels :
    let drops : Nat → BitVec 8 := fun _ => 0xFF
    let line : InputLine 8 := .steady 0
    let one := line.sample drops false 1
    let two := one.sample drops false 1
    one.passed = 0 ∧ two.passed = 0 ∧ (two.sample drops false 0).passed = 1 ∧ (one.sample drops true 0).passed = 1 ∧
      (one.sample drops false 0).passed = 0 ∧ ((two.note true 0).sample drops false 0).passed = 0 ∧
      (line.sample (fun _ => 0) false 1).way.queue = [1] ∧
      (((line.note false 1).note false 0).sample (fun _ => 0) false 0).way.queue = [1, 0] ∧
      (((line.note false 1).note false 0).sample drops false 0).passed = 0 := by
  decide +kernel

/-- R204 case 3, R208: with `mfdc.sepd` = 1 a load waits for the side-effect store in the buffer and passes the younger one. -/
theorem test_load_passes_younger_store :
    let s := { small 0x20000100 0 with
      csr := { base.csr with mfdc := 0x70040 }
      wb := [⟨0x20000010, 4, 1, false, false, false⟩, ⟨0x20000020, 4, 2, true, false, false⟩,
        ⟨0x20000030, 4, 3, false, false, false⟩] }
    (match exec (.lw 5 6 0) s with
      | .next t => t.wb == s.wb.drop 2 && t.responses.map (·.addr) == [0x20000100] && memByte t 0x20000020 == 2
      | _ => false) = true := by
  decide +kernel

/-- R186: a device is shown the valid bytes of a store. -/
theorem test_shown_bytes :
    (showStore base ⟨0x10000011, 1, 0x123456AB, false, false, false⟩).deviceTrace.map (·.data) = [0xAB] := by
  decide +kernel

/-- R184: how a misaligned access is cut. -/
theorem test_cut_access : cutAccess false 0x103 4 = [(0, 1), (1, 2), (3, 1)] ∧
    cutAccess false 0x102 4 = [(0, 2), (2, 2)] ∧ cutAccess false 0x101 2 = [(0, 1), (1, 1)] ∧
    cutAccess true 0x102 4 = [(0, 1), (1, 1), (2, 1), (3, 1)] ∧ cutAccess true 0x100 4 = [(0, 4)] := by
  decide +kernel

/-- R184: on AHB-Lite a misaligned store is four byte writes. -/
theorem test_ahb_store :
    let s := { small 0x20000001 0x44332211 with cfg := { cfgT with busType := .ahbLite } }
    (match exec (.sw 7 6 0) s with
      | .next t => t.wb.map fun st => (st.addr, st.size, byteOf st.data 0)
      | _ => []) = [(0x20000001, 1, 0x11), (0x20000002, 1, 0x22), (0x20000003, 1, 0x33), (0x20000004, 1, 0x44)] := by
  decide +kernel

/-- R210: without another agent a misaligned DCCM load is undisturbed, and DMA may act only between pieces. -/
theorem test_act_between :
    let s := { base with inputs := [.dmaWrite 0x80010 4 0] }
    agentNext s = true ∧ (actBetween s 0).inputs = s.inputs ∧
      (runAgents s.inputs 1 s).inputs = [] ∧ memByte (runAgents s.inputs 1 s) 0x80010 = 0 := by
  decide +kernel

/-- R671, R672: a read of `mcycle` in the step after a write of 7 gives that value and any of the cycles the step has waited,
without its own. -/
theorem test_counter_before :
    ∃ d ≤ Config.extraCycles 0, mcycleNow (beforeStep { base with counters :=
      { base.counters with mcycle := 7, cycleSteps := 1, stepCounted := true } }) = 7 + BitVec.ofNat 64 d :=
  ⟨_, Nat.min_le_right (Config.cyclesBefore 0) _, BitVec.add_zero _⟩

/-- R671, R672: the step in which the MPC ends a halt that stops the counters counts, for an instruction executes in it; a step
that has not counted is not taken back. -/
theorem test_resumed_step :
    let s := { base with activity := .dbHalt, csr := { base.csr with dcsr := 0x40000403 }, mpcHaltState := true,
                         pins := { base.pins with mpcRunReq := true }, seen := { base.seen with mpcRunReq := true },
                         lines := { base.lines with mpc := .steady 1 } }
    let u := serveMpcRun (countStep { s with counters := { s.counters with cycleSteps := 1 } })
    (atBoundary s).activity = .running ∧ (atBoundary s).counters.cycleSteps = 1 ∧
      u.activity = .running ∧ (countersBefore u).cycleSteps = 1 := by
  decide +kernel

/-- R692: the hart sees a level of an input when its wait is over; a seen rising edge of `nmi_int` is a request. -/
theorem test_synchronisers :
    let high : Nat → InputLine 1 := fun w => { InputLine.steady 1 with way := ⟨[1], some w⟩ }
    let s := fun w => { base with pins := { base.pins with timerInt := true, nmiInt := true },
                                  lines := { base.lines with timer := high w, nmi := high 0 } }
    (syncPins (s 0) false).seen.timerInt = true ∧ (syncPins (s 1) false).seen.timerInt = false ∧
      (syncPins (s 1) false).lines.timer.way.wait = some 0 ∧ (syncPins (s 0) false).nmiPending = true ∧
      (syncPins { s 0 with seen := { base.seen with nmiInt := true } } false).nmiPending = false := by
  decide +kernel

/-- R642, R645: while a halt request of the MPC is seen the PMU's is not honoured. -/
theorem test_debug_before_pmu :
    let s := fun mpc => { base with seen := { base.seen with cpuHaltReq := true, mpcHaltReq := mpc },
                                    waits := { base.waits with pmuHalt := some 0 } }
    (match runningTurn (s false), runningTurn (s true) with
      | .over t, .execute _ => t.activity == .pmuFwHalt
      | _, _ => false) = true := by
  decide +kernel

/-- R723: FENCE.I, a write of `mfdc`, FENCE.I. -/
theorem test_mfdc_fences :
    (match exec (.csrrwi 0 0x7F9 0) base with
      | .refused .mfdcFence => true
      | _ => false) = true ∧
    (match exec (.fenceI 0 0 0) base with
      | .next s => match exec (.csrrwi 0 0x7F9 4) s with
        | .next t => t.csr.mfdc == 4 && t.fencesDue == [0x40108] && fenceIDue t (.addi 0 0 0) && !fenceIDue t (.fenceI 0 0 0)
        | _ => false
      | _ => false) = true := by
  decide +kernel

/-- R531: in a single step with `dcsr.stepie` a pending NMI holds back a takeable interrupt. -/
theorem test_step_nmi_first :
    let s := { base with
      stepping := true, nmiPending := true, seen := { base.seen with timerInt := true }
      csr := { base.csr with mstatus := 0x1808, mie := 0x80, dcsr := 0x40000803 } }
    takeableInterrupt s = some 7 ∧ (match runningTurn s with
      | .execute _ => true
      | .over _ => false) = true := by
  decide +kernel

/-- R190: what devices see of a fetch, and a line filled only once. -/
theorem test_line_fill : fetchSeen true 0x2000007E = ⟨.fetch, 0x20000040, 64, 0, false⟩ ∧
    fetchSeen false 0x2000007E = ⟨.fetch, 0x2000007E, 2, 0, false⟩ ∧
    addLine cfgT (addLine cfgT [] ⟨5, some 1⟩) ⟨5, some 2⟩ = [(5, 2)] ∧ addLine cfgT [(69, 2), (6, 2)] ⟨5, some 2⟩ = [(5, 2), (6, 2)] ∧
    (invalidateICache { base with icache := { ICache.reset with filled := [(5, 1)] } }).icache.filled = [] := by
  decide +kernel

/-- R191, R440: a line that is filled takes the place of what the debugger wrote there, and of nothing else. -/
theorem test_fill_replaces :
    let e : ICacheEntry := ⟨1, 0⟩
    let c := { ICache.reset with data := [(80, e), (65536 + 80, e), (65536 + 96, e)], tags := [(65536 + 5, e)] }
    (c.afterFills cfgT [⟨64 + 5, some 1⟩]).data = [(80, e), (65536 + 96, e)] ∧
      (c.afterFills cfgT [⟨64 + 5, some 1⟩]).tags = [] ∧ (c.afterFills cfgT []).data = c.data := by
  decide +kernel

/-- R112 to R115, R190: a read of `dicago` shows the word of a filled line, and the arrays hold its tag, each with its even
parity. -/
theorem test_read_filled_line :
    let s := fun w => { State.reset with
      mem := [(0x20000044, 0x13), (0x20000045, 0x05), (0x20000046, 0x10), (0x20000047, 0x00)]
      csr := { State.reset.csr with dicawics := w }
      icache := { ICache.reset with filled := [(0x800001, 2)] } }
    let data := readArray (s 0x00200044)
    data.csr.dicad0 = 0x00100513 ∧ data.csr.dicad1 = 3 ∧ tagEntry (s 0) (65536 * 2 + 1) = ⟨0x20000001, 1⟩ := by
  decide +kernel

/-- Row T1 to T4: where an interrupt goes, and what it saves. -/
theorem test_interrupt_targets :
    let s := { base with csr := { base.csr with mtvec := 0x41001, mstatus := 0x1808 } }
    (takeInterrupt s 11).pc = 0x4102C ∧ (takeInterrupt s 7).pc = 0x4101C ∧ (takeInterrupt s 30).pc = 0x41078 ∧
    (takeInterrupt s 11).csr.mcause = 0x8000000B ∧ (takeInterrupt s 11).csr.mstatus = 0x1880 ∧
    (takeInterrupt { s with csr := { s.csr with mtvec := 0x41000 } } 11).pc = 0x41000 := by
  decide +kernel

/-- Row N2: where an NMI goes. -/
theorem test_nmi_target : (takeNmi { base with csr := { base.csr with mtvec := 0x40001 } } 0).pc = 0x41000 := by
  decide +kernel

/-- Rows F1, F4: fetch faults, by the step. -/
theorem test_fetch_faults :
    (match step { base with pc := 0x60000 } with
      | .next t => t.csr.mcause == 1 && t.csr.mtval == 0x60000 && t.csr.mepc == 0x60000
      | _ => false) = true ∧
    (match step (State.withFetchWord { base with pc := 0x5FFFE } 16 0x0293) with
      | .next t => t.csr.mcause == 1 && t.csr.mtval == 0x60000 && t.csr.mepc == 0x5FFFE
      | _ => false) = true := by
  decide +kernel

/-- Row V1, and an instruction placed at the reset vector runs as the first step. -/
theorem test_reset : State.reset.pc = 0x40000 ∧ State.reset.csr.mfdc = 0x70040 ∧ State.reset.csr.mgpmc = 1 ∧
    State.reset.activity = .running ∧
    (match step (State.reset.withFetchWord 32 0x123452B7) with
      | .next t => reg t 5 == 0x12345000 && t.pc == 0x40004
      | _ => false) = true := by
  decide +kernel

/-! ## For each statement with hypotheses, states and operands that meet them -/

theorem witness_DecodingUndoesEncoding : (Instr.cLui 10 (-1)).wellFormed = true ∧
    (Instr.jal 1 (-2)).wellFormed = true ∧ (Instr.add 5 6 7).wellFormed = true := by
  decide +kernel

theorem witness_EncodingUndoesDecoding : decodeCode (.word 0x007302B3) = some (.add 5 6 7) ∧
    decodeCode (.half 0x952E) = some (.cAdd 10 11) := by
  decide +kernel

theorem witness_ReservedParcelsAreIllegal : longParcel 0x8002 = false ∧ longParcel 0x0001 = false ∧
    ReservedParcel 0x8002 ∧ ReservedParcel 0x001C ∧ ¬ReservedParcel 0x003C ∧ ¬ReservedParcel 0x0001 := by
  refine ⟨?_, ?_, ?_, ?_, ?_, ?_⟩ <;> decide +kernel

/-- ADD at the reset vector. -/
def runAdd : State := State.reset.withFetchWord 32 0x007302B3

/-- A hart that executes at the boundary does so in a state; what a check finds there holds of it. -/
theorem executes (s : State) (P : State → Bool)
    (h : (match turn (atBoundary s) with | .execute u => P u | .over _ => false) = true) :
    ∃ u, turn (atBoundary s) = .execute u ∧ P u = true := by
  split at h
  case h_1 u hu => exact ⟨u, hu, h⟩
  case h_2 => cases h

/-- `CodeInIccm` as a check. -/
def codeInIccm (s : State) (c : Code) : Bool :=
  decide (s.pc.getLsbD 0 = false ∧
    c.bytes = (List.range c.size).map (fun k => memByte s (pcPlus s k).toNat) ∧
    takeCode c.bytes = some (c, []) ∧
    ∀ k < c.size, iccmRegion s.cfg (pcPlus s k) = true ∧ inIccm s.cfg (pcPlus s k) = true ∧
      checkWord s ((pcPlus s k).toNat / 4) = .sound ∧ staleValues s (pcPlus s k).toNat = [])

/-- `CodeInSocMemory` as a check. -/
def codeInSocMemory (s : State) (c : Code) : Bool :=
  decide (s.pc.getLsbD 0 = false ∧
    c.bytes = (List.range c.size).map (fun k => memByte s (pcPlus s k).toNat) ∧
    takeCode c.bytes = some (c, []) ∧
    (∀ k < c.size, iccmRegion s.cfg (pcPlus s k) = false ∧ windowsAllow s.cfg.instWindows (pcPlus s k) = true ∧
      busKind s.cfg (pcPlus s k) = .memory ∧ readFails s (pcPlus s k) = false ∧
      staleValues s (pcPlus s k).toNat = []) ∧
    inIccm s.cfg s.pc = false ∧ s.icache.tags = [] ∧ s.icache.data = [])

/-- ADD in SoC memory, across a word's end; uncached, and cached. -/
def runFar (cached : Bool) : State :=
  State.withFetchWord { State.reset with
    pc := 0x20000002
    cfg := { cfgT with icacheEnable := cached }
    csr := { State.reset.csr with mrac := if cached then 0x10 else 0 } } 32 0x007302B3

theorem witness_StepRunsTheDecodedInstruction :
    (runAdd.inputs = [] ∧ ∃ u, turn (atBoundary runAdd) = .execute u ∧ CodeInIccm u (.word 0x007302B3) ∧
      u.pc ∉ u.fencesDue) ∧
    (∀ cached, (runFar cached).inputs = [] ∧ ∃ u, turn (atBoundary (runFar cached)) = .execute u ∧
      CodeInSocMemory u (.word 0x007302B3) ∧ cacheable u u.pc = cached) ∧
    ({ runAdd with fencesDue := [0x40000] } : State).inputs = [] ∧
    (∃ u, turn (atBoundary { runAdd with fencesDue := [0x40000] }) = .execute u ∧
      CodeInIccm u (.word 0x007302B3) ∧ u.pc ∈ u.fencesDue) ∧
    decodeCode (.word 0x007302B3) = some (.add 5 6 7) := by
  refine ⟨⟨by decide +kernel, ?_⟩, ?_, by decide +kernel, ?_, by decide +kernel⟩
  · obtain ⟨u, h, hc⟩ := executes runAdd (fun u => codeInIccm u (.word 0x007302B3) && decide (u.pc ∉ u.fencesDue))
      (by decide +kernel)
    obtain ⟨h1, h2⟩ := Bool.and_eq_true_iff.mp hc
    exact ⟨u, h, of_decide_eq_true (p := _ ∧ _ ∧ _ ∧ _) h1, of_decide_eq_true h2⟩
  · intro cached
    refine ⟨by cases cached <;> rfl, ?_⟩
    obtain ⟨u, h, hc⟩ := executes (runFar cached)
      (fun u => codeInSocMemory u (.word 0x007302B3) && decide (cacheable u u.pc = cached))
      (by cases cached <;> decide +kernel)
    obtain ⟨h1, h2⟩ := Bool.and_eq_true_iff.mp hc
    exact ⟨u, h, of_decide_eq_true (p := _ ∧ _ ∧ _ ∧ _ ∧ _ ∧ _ ∧ _) h1, of_decide_eq_true h2⟩
  · obtain ⟨u, h, hc⟩ := executes { runAdd with fencesDue := [0x40000] }
      (fun u => codeInIccm u (.word 0x007302B3) && decide (u.pc ∈ u.fencesDue)) (by decide +kernel)
    obtain ⟨h1, h2⟩ := Bool.and_eq_true_iff.mp hc
    exact ⟨u, h, of_decide_eq_true (p := _ ∧ _ ∧ _ ∧ _) h1, of_decide_eq_true h2⟩

/-- The parcel 0 at the reset vector. -/
def runIllegal : State := State.reset.withFetchWord 16 0

theorem witness_IllegalCodesTrap : runIllegal.inputs = [] ∧ decodeCode (.half 0) = none ∧
    ∃ u v, turn (atBoundary runIllegal) = .execute u ∧ fetch u = .code (.half 0) v ∧ v.stepping = false := by
  refine ⟨by decide +kernel, by decide +kernel, ?_⟩
  obtain ⟨u, h1, h2⟩ := executes runIllegal (fun u => match fetch u with
    | .code c v => c == .half 0 && !v.stepping
    | .fault _ _ => false) (by decide +kernel)
  cases hf : fetch u with
  | code c v =>
    simp only [hf, Bool.and_eq_true, beq_iff_eq, Bool.not_eq_true'] at h2
    exact ⟨u, v, h1, by rw [hf, h2.1], h2.2⟩
  | fault a v => simp [hf] at h2

/-- `ParcelFaults` as a check. -/
def parcelFaults (s : State) (p : Word) : Bool :=
  if iccmRegion s.cfg p then !inIccm s.cfg p || checkWord s (p.toNat / 4) == .failed
  else !windowsAllow s.cfg.instWindows p ||
    ((readFails s p || readFails s (p + 1)) &&
      (!s.cfg.icacheEnable || !cacheableBit (mracFetchNow s) p || (s.icache.tags.isEmpty && s.icache.filled.isEmpty)))

theorem parcelFaults_iff (s : State) (p : Word) : parcelFaults s p = true ↔ ParcelFaults s p := by
  unfold parcelFaults ParcelFaults
  split <;> simp [or_assoc]

/-- A pc at an address. -/
def runAt (p : Word) : State := { State.reset with pc := p }

/-- A 32-bit instruction across the ICCM's end; and one in SoC memory whose second parcel has an error indication. -/
def runAcross : State := State.withFetchWord (runAt 0x5FFFE) 16 0x0293
def runMarked : State :=
  { State.withFetchWord (runAt 0x20000002) 16 0x0293 with ecc := [(0x8000000, .good), (0x8000001, .uncorrectable)] }

/-- Just past the ICCM; in a bad word of its last; outside the instruction windows; where nothing answers; across the ICCM's
end; and in SoC memory with a bad second parcel. -/
theorem witness_FetchOutsideIccmTraps :
    (∀ s ∈ [runAt 0x60000, { runAt 0x5FFFC with ecc := [(0x17FFF, .uncorrectable)] },
        { runAt 0x20000100 with cfg := { cfgT with instWindows := [⟨true, 0x20000000, 0xFF⟩] } }, runAt 0x30000000],
      s.inputs = [] ∧ ∃ u, turn (atBoundary s) = .execute u ∧ u.stepping = false ∧ ParcelFaults u u.pc) ∧
    (runAcross.inputs = [] ∧ ∃ u, turn (atBoundary runAcross) = .execute u ∧
      (u.stepping == false && iccmRegion u.cfg u.pc == true && inIccm u.cfg u.pc == true &&
        checkWord u (u.pc.toNat / 4) == .sound && longParcel (parcelAt (fetchByte u) u.pc) == true &&
        u.pc.getLsbD 0 == false && inIccm u.cfg (u.pc + 2) == false) = true) ∧
    (runMarked.inputs = [] ∧ ∃ u, turn (atBoundary runMarked) = .execute u ∧ u.stepping = false ∧
      ∃ h v, fetchParcel u u.pc = .parcel h v ∧ longParcel h = true ∧ ParcelFaults v (u.pc + 2)) := by
  have single : ∀ s : State,
      (match turn (atBoundary s) with | .execute u => !u.stepping && parcelFaults u u.pc | .over _ => false) = true →
      ∃ u, turn (atBoundary s) = .execute u ∧ u.stepping = false ∧ ParcelFaults u u.pc := fun s h => by
    obtain ⟨u, h1, h2⟩ := executes s (fun u => !u.stepping && parcelFaults u u.pc) h
    simp only [Bool.and_eq_true, Bool.not_eq_true', parcelFaults_iff] at h2
    exact ⟨u, h1, h2⟩
  refine ⟨?_, ⟨rfl, executes runAcross _ (by decide +kernel)⟩, rfl, ?_⟩
  · simp only [List.forall_mem_cons]
    exact ⟨⟨rfl, single _ (by decide +kernel)⟩, ⟨rfl, single _ (by decide +kernel)⟩,
      ⟨rfl, single _ (by decide +kernel)⟩, ⟨rfl, single _ (by decide +kernel)⟩, by simp⟩
  · obtain ⟨u, h1, h2⟩ := executes runMarked (fun u => !u.stepping && match fetchParcel u u.pc with
      | .parcel h v => longParcel h && parcelFaults v (u.pc + 2)
      | .fault _ => false) (by decide +kernel)
    cases hf : fetchParcel u u.pc with
    | parcel h v =>
      simp only [hf, Bool.and_eq_true, Bool.not_eq_true', parcelFaults_iff] at h2
      exact ⟨u, h1, h2.1, h, v, hf, h2.2⟩
    | fault v => simp [hf] at h2

/-- An ADD that is executed, the views' conditions, and the MPC's run request that ends a debug halt. -/
theorem witness_BoundaryKeepsTheHart :
    (∃ v, turn (atBoundary runAdd) = .execute v) ∧ (boundary runAdd).seen.mpcHaltReq = false ∧
    inexactEvent 4 = false ∧ (∀ w, cellGet State.reset.ecc w ≠ some .uncorrectable) ∧
    busKind cfgT (BitVec.ofNat 32 0x20000000) = .memory ∧ busKind cfgT (BitVec.ofNat 32 (4 * 0x10000)) ≠ .memory ∧
    (let s := { runAdd with
      activity := .dbHalt, mpcHaltState := true, pins := { runAdd.pins with mpcRunReq := true }
      seen := { runAdd.seen with mpcRunReq := true }, lines := { runAdd.lines with mpc := .steady 1 } };
    s.activity = .dbHalt ∧ (atBoundary s).activity = .running) := by
  refine ⟨?_, by decide +kernel, by decide +kernel, fun w => by simp [State.reset, State.resetWith, imageEcc, imageMem, cfgT, cellGet],
    by decide +kernel, by decide +kernel, by decide +kernel⟩
  obtain ⟨v, h, -⟩ := executes runAdd (fun _ => true) (by decide +kernel)
  exact ⟨v, h⟩

/-- `CodeInCheckedIccm` as a check. -/
def codeInCheckedIccm (s : State) (c : Code) : Bool :=
  decide (s.pc.getLsbD 0 = false ∧
    c.bytes = (List.range c.size).map (fun k => memByte s (pcPlus s k).toNat) ∧
    takeCode c.bytes = some (c, []) ∧
    ∀ k < c.size, iccmRegion s.cfg (pcPlus s k) = true ∧ inIccm s.cfg (pcPlus s k) = true ∧
      (checkWord s ((pcPlus s k).toNat / 4) = .sound ∨ checkWord s ((pcPlus s k).toNat / 4) = .corrected) ∧
      staleValues s (pcPlus s k).toNat = [])

/-- ADD at the ICCM's first word, which is correctable, and over its last two words, both correctable. -/
def runCorrectable (last : Bool) : State :=
  { State.withFetchWord (runAt (if last then 0x5FFFA else 0x40000)) 32 0x007302B3 with
    ecc := [(0x10000, .correctable), (0x17FFE, .correctable), (0x17FFF, .correctable)] }

/-- A cached line of SoC memory that a debugger wrote, whose tag's parity is wrong. -/
def runSpoilt : State :=
  { runFar true with icache := { ICache.reset with tags := [(65536 * 2 + 4, ⟨0x20000001, 0⟩)] } }

theorem witness_CorrectableFetchErrors :
    (∀ last, (runCorrectable last).inputs = [] ∧ ∃ u, turn (atBoundary (runCorrectable last)) = .execute u ∧
      CodeInCheckedIccm u (.word 0x007302B3) ∧ u.pc ∉ u.fencesDue ∧
      correctedWords u (wordsOf u.pc.toNat 4) = if last then [0x17FFE, 0x17FFF] else [0x10000]) ∧
    decodeCode (.word 0x007302B3) = some (.add 5 6 7) ∧
    (SocParcel runSpoilt 0x20000100 ∧ runSpoilt.cfg.icacheKb ∈ [16, 32, 64, 128, 256] ∧
      ICacheSpoilt runSpoilt 0x20000100 ∧ writtenTags runSpoilt 0x20000100 = [(2, ⟨0x20000001, 0⟩)]) ∧
    (let s := { runSpoilt with inputs := [.icacheError 4] };
      s.inputs = .icacheError 4 :: [] ∧ s.cfg.icacheEnable = true) := by
  refine ⟨fun last => ⟨by cases last <;> rfl, ?_⟩, by decide +kernel,
    ⟨by decide +kernel, by decide +kernel, ⟨by decide +kernel, fun way e h => ?_⟩, by decide +kernel⟩, by decide +kernel⟩
  · obtain ⟨u, h, hc⟩ := executes (runCorrectable last) (fun u => codeInCheckedIccm u (.word 0x007302B3) &&
      decide (u.pc ∉ u.fencesDue ∧ correctedWords u (wordsOf u.pc.toNat 4) = if last then [0x17FFE, 0x17FFF] else [0x10000]))
      (by cases last <;> decide +kernel)
    obtain ⟨h1, h2⟩ := Bool.and_eq_true_iff.mp hc
    exact ⟨u, h, of_decide_eq_true (p := _ ∧ _ ∧ _ ∧ _) h1, of_decide_eq_true h2⟩
  · cases h

theorem stepsTo_next (s : State)
    (h : (match step s with | .next _ => true | .fault _ => false | .refused _ => false) = true) :
    ∃ t, step s = .next t := by
  cases hs : step s with
  | next t => exact ⟨t, rfl⟩
  | fault f => simp [hs] at h
  | refused f => simp [hs] at h

theorem runAdd_legal : RegistersLegal runAdd where
  csrs := by constructor <;> decide +kernel
  events := by decide +kernel
  pc := by decide +kernel

theorem witness_StepKeepsRegistersLegal : RegistersLegal runAdd ∧ ∃ t, step runAdd = .next t :=
  ⟨runAdd_legal, stepsTo_next _ (by decide +kernel)⟩

theorem witness_StepKeepsMemoryLegal : MemoryLegal runAdd ∧ BusLegal runAdd ∧ ∃ t, step runAdd = .next t :=
  ⟨by unfold MemoryLegal; decide +kernel, by unfold BusLegal; decide +kernel, stepsTo_next _ (by decide +kernel)⟩

theorem witness_ResetIsSafe : legalBuild cfgT = true ∧ boot cfgT = .next (State.resetWith cfgT) := by
  have h : legalBuild cfgT = true := by decide +kernel
  exact ⟨h, by simp [boot, h]⟩

theorem witness_Division : reg (small 7 0) 7 = 0 ∧
    (reg (small 0x80000000 0xFFFFFFFF) 6 = 0x80000000 ∧ reg (small 0x80000000 0xFFFFFFFF) 7 = 0xFFFFFFFF) ∧
    (reg (small 7 2) 7 ≠ 0 ∧ ¬(reg (small 7 2) 6 = 0x80000000 ∧ reg (small 7 2) 7 = 0xFFFFFFFF)) := by
  decide +kernel

theorem witness_DccmLoads :
    (let s := small 0x80010 0;
      loadForm s (.lw 5 6 1) = some ⟨5, 4, true, 0x80011, 4⟩ ∧ WhollyInDccm s 0x80011 4 ∧ Undisturbed s 0x80011 4 ∧
        ∀ w ∈ wordsOf (0x80011 : Word).toNat 4, checkWord s w = .sound) ∧
    (let s := { setReg base 2 0x80010 with inputs := [.dmaRead 0x80010 4] };
      loadForm s (.cLwsp 10 4) = some ⟨10, 4, true, 0x80014, 2⟩ ∧ WhollyInDccm s 0x80014 4 ∧
        Undisturbed s 0x80014 4 ∧ ∀ w ∈ wordsOf (0x80014 : Word).toNat 4, checkWord s w = .sound) := by
  unfold WhollyInDccm Undisturbed
  decide +kernel

theorem witness_DccmLoadErrors :
    (let s := { small 0x9FFFC 0 with ecc := [(0x27FFF, .uncorrectable)] };
      loadForm s (.lw 5 6 0) = some ⟨5, 4, true, 0x9FFFC, 4⟩ ∧ WhollyInDccm s 0x9FFFC 4 ∧
        anyFailed s (wordsOf (0x9FFFC : Word).toNat 4) = true) ∧
    (let s := { small 0x80010 0 with ecc := [(0x20004, .correctable), (0x20005, .correctable)] };
      loadForm s (.lw 5 6 2) = some ⟨5, 4, true, 0x80012, 4⟩ ∧ WhollyInDccm s 0x80012 4 ∧ Undisturbed s 0x80012 4 ∧
        anyFailed s (wordsOf (0x80012 : Word).toNat 4) = false ∧
        correctedWords s (wordsOf (0x80012 : Word).toNat 4) = [0x20004, 0x20005]) := by
  unfold WhollyInDccm Undisturbed
  decide +kernel

theorem witness_DccmStores :
    (let s := small 0x9FFFC 1;
      storeForm s (.sw 7 6 0) = some ⟨4, 1, 0x9FFFC, 4⟩ ∧ WhollyInDccm s 0x9FFFC 4 ∧ Undisturbed s 0x9FFFC 4 ∧
        wholeWord 0x9FFFC 4 = true) ∧
    (let s := small 0x80010 1;
      storeForm s (.sh 7 6 3) = some ⟨2, 1, 0x80013, 4⟩ ∧ WhollyInDccm s 0x80013 2 ∧ Undisturbed s 0x80013 2 ∧
        anyFailed s (wordsOf (0x80013 : Word).toNat 2) = false) ∧
    (let s := { small 0x80013 1 with ecc := [(0x20004, .good), (0x20005, .uncorrectable)] };
      storeForm s (.sh 7 6 0) = some ⟨2, 1, 0x80013, 4⟩ ∧ WhollyInDccm s 0x80013 2 ∧ wholeWord 0x80013 2 = false ∧
        anyFailed s (wordsOf (0x80013 : Word).toNat 2) = true) ∧
    (let s := { small 0x80010 1 with ecc := [(0x20004, .correctable)], csr := { base.csr with mfdc := 0x100 } };
      storeForm s (.sb 7 6 1) = some ⟨1, 1, 0x80011, 4⟩ ∧ WhollyInDccm s 0x80011 1 ∧ Undisturbed s 0x80011 1 ∧
        anyFailed s (wordsOf (0x80011 : Word).toNat 1) = false ∧ checkWord s 0x20004 = .spoilt) ∧
    (let s := { small 0x80013 1 with ecc := [(0x20004, .correctable), (0x20005, .good)] };
      storeForm s (.sh 7 6 0) = some ⟨2, 1, 0x80013, 4⟩ ∧ WhollyInDccm s 0x80013 2 ∧ Undisturbed s 0x80013 2 ∧
        anyFailed s (wordsOf (0x80013 : Word).toNat 2) = false ∧
        correctedWords s (wordsOf (0x80013 : Word).toNat 2) = [0x20004]) := by
  unfold WhollyInDccm Undisturbed
  decide +kernel

theorem witness_BusLoadsForward :
    let s := { small 0x20000100 0 with wb := [⟨0x20000100, 4, 0x44332211, false, false, false⟩] }
    loadForm s (.lh 5 6 1) = some ⟨5, 2, true, 0x20000101, 4⟩ ∧ BusAccess s 0x20000101 2 ∧
      sideEffectBit s.cfg (mracNow s) 0x20000101 = false ∧
      ∀ k < 2, ∃ st, bufferedStore s.wb ((0x20000101 : Word).toNat + k) = some st ∧ st.sideEffect = false := by
  unfold BusAccess
  refine ⟨by decide +kernel, by decide +kernel, by decide +kernel, fun k hk => ⟨⟨0x20000100, 4, 0x44332211, false, false, false⟩, ?_, rfl⟩⟩
  have h : k = 0 ∨ k = 1 := by omega
  rcases h with rfl | rfl <;> decide +kernel

/-- A double-word of SoC memory without an error mark. -/
theorem soundDoubleWord {s : State} {d : Nat}
    (h : ((List.range 8).all fun k =>
      busKind s.cfg (BitVec.ofNat 32 (8 * d + k)) == .memory && !readFails s (BitVec.ofNat 32 (8 * d + k))) = true)
    (b : Word) (hb : b.toNat / 8 = d) : busKind s.cfg b = .memory ∧ readFails s b = false := by
  have he : b = BitVec.ofNat 32 (8 * d + b.toNat % 8) := by
    apply BitVec.eq_of_toNat_eq
    rw [BitVec.toNat_ofNat]
    have := b.isLt
    omega
  have := List.all_eq_true.mp h (b.toNat % 8) (by simp; omega)
  rw [he]
  simpa using this

/-- A misaligned load up to the end of SoC memory with nothing buffered; one that a buffered store holds in part; one with
side effects; and one that waits for a side-effect store. -/
theorem witness_BusLoadsFromMemory :
    (∀ s ∈ [small 0x2000FFFC 0,
        { small 0x2000FFFC 0 with wb := [⟨0x2000FFFE, 2, 9, false, false, false⟩] },
        { small 0x2000FFFC 0 with csr := { base.csr with mrac := 0x20 } },
        { small 0x2000FFFC 0 with
          csr := { base.csr with mfdc := 0x70040 }, wb := [⟨0x20000000, 4, 9, true, false, false⟩] }],
      loadForm s (.lw 5 6 0) = some ⟨5, 4, true, 0x2000FFFC, 4⟩ ∧ BusAccess s 0x2000FFFC 4 ∧ Undisturbed s 0x2000FFFC 4 ∧
        ∀ b : Word, b.toNat / 8 = (0x2000FFFC : Word).toNat / 8 ∨ b.toNat / 8 = (lastByte 0x2000FFFC 4).toNat / 8 →
          busKind s.cfg b = .memory ∧ readFails s b = false) ∧
    (let s := small 0x2000FFF7 0;
      loadForm s (.lw 5 6 0) = some ⟨5, 4, true, 0x2000FFF7, 4⟩ ∧ BusAccess s 0x2000FFF7 4 ∧ Undisturbed s 0x2000FFF7 4 ∧
        (∀ b : Word, b.toNat / 8 = (0x2000FFF7 : Word).toNat / 8 ∨ b.toNat / 8 = (lastByte 0x2000FFF7 4).toNat / 8 →
          busKind s.cfg b = .memory ∧ readFails s b = false) ∧
        sideEffectBit s.cfg (mracNow s) 0x2000FFF7 = false ∧ s.wb = [] ∧ s.responses.length < 253) ∧
    overlapsBuffer [⟨0x2000FFFE, 2, 9, false, false, false⟩] 0x2000FFFC 4 = true ∧
    forwards [⟨0x2000FFFE, 2, 9, false, false, false⟩] 0x2000FFFC 4 = false ∧
    (let w : State := { small 0x2000FFFC 0 with
      csr := { base.csr with mfdc := 0x70040 }, wb := [⟨0x20000000, 4, 9, true, false, false⟩] };
    sideEffectBit w.cfg (mracNow w) 0x2000FFFC = false ∧ overlapsBuffer w.wb 0x2000FFFC 4 = false ∧
      sideEffectStoresBlock w = true ∧ w.wb.any (·.sideEffect) = true) ∧
    sideEffectBit cfgT 0x20 0x2000FFFC = true := by
  unfold BusAccess Undisturbed
  refine ⟨?_, ⟨by decide +kernel, by decide +kernel, by decide +kernel, ?_, by decide +kernel, by decide +kernel,
    by decide +kernel⟩, by decide +kernel, by decide +kernel, by decide +kernel, by decide +kernel⟩
  · have inWord : ∀ b : Word, b.toNat / 8 = (0x2000FFFC : Word).toNat / 8 ∨
        b.toNat / 8 = (lastByte 0x2000FFFC 4).toNat / 8 → b.toNat / 8 = 0x4001FFF := fun b hb => by
      have h1 : (0x2000FFFC : Word).toNat / 8 = 0x4001FFF := by decide +kernel
      have h2 : (lastByte 0x2000FFFC 4).toNat / 8 = 0x4001FFF := by decide +kernel
      omega
    refine List.forall_mem_cons.mpr ⟨?_, List.forall_mem_cons.mpr ⟨?_, List.forall_mem_cons.mpr ⟨?_,
      List.forall_mem_cons.mpr ⟨?_, List.forall_mem_nil _⟩⟩⟩⟩ <;>
      exact ⟨by decide +kernel, by decide +kernel, by decide +kernel,
        fun b hb => soundDoubleWord (by decide +kernel) b (inWord b hb)⟩
  · rintro b (hb | hb)
    · exact soundDoubleWord (d := 0x4001FFE) (by decide +kernel) b hb
    · exact soundDoubleWord (d := 0x4001FFF) (by decide +kernel) b hb

theorem witness_BusLoadsCompleteOrTrap :
    let s := small 0x30000000 0
    loadForm s (.lw 5 6 0) = some ⟨5, 4, true, 0x30000000, 4⟩ ∧ BusAccess s 0x30000000 4 ∧
      storeForm s (.sw 7 6 0) = some ⟨4, 0, 0x30000000, 4⟩ ∧
      Undisturbed s 0x30000000 4 ∧ s.wb = [] ∧ s.responses.length < 253 ∧ readFails s (0x30000000 + BitVec.ofNat 32 0) = true ∧
      blockingLoad s (sideEffectBit s.cfg (mracNow s) 0x30000000) = false ∧
      blockingLoad { s with csr := { s.csr with mrac := 0x80 } }
        (sideEffectBit s.cfg (mracNow { s with csr := { s.csr with mrac := 0x80 } }) 0x30000000) = true := by
  unfold BusAccess Undisturbed
  decide +kernel

theorem witness_BusStores :
    let s := small 0x20000001 9
    storeForm s (.sw 7 6 0) = some ⟨4, 9, 0x20000001, 4⟩ ∧ BusAccess s 0x20000001 4 := by
  unfold BusAccess
  decide +kernel

theorem witness_PicAccesses :
    let s := small 0xC7FFC 9
    loadForm s (.lw 5 6 0) = some ⟨5, 4, true, 0xC7FFC, 4⟩ ∧ storeForm s (.sw 7 6 0) = some ⟨4, 9, 0xC7FFC, 4⟩ ∧
      PicWord s 0xC7FFC 4 := by
  unfold PicWord
  decide +kernel

/-- A build with one data window. -/
def windowed : State :=
  { small 0x20000100 0 with cfg := { cfgT with dataWindows := [⟨true, 0x20000000, 0xFF⟩] } }

theorem witness_AccessChecksTrap :
    (let s := small 0x0FFFFFFE 0;
      loadForm s (.lw 5 6 0) = some ⟨5, 4, true, 0x0FFFFFFE, 4⟩ ∧
        region 0x0FFFFFFE ≠ region (lastByte 0x0FFFFFFE 4)) ∧
    (let s := { small 0x20000101 0 with csr := { base.csr with mrac := 0x20 } };
      storeForm s (.sh 7 6 0) = some ⟨2, 0, 0x20000101, 4⟩ ∧ region 0x20000101 = region (lastByte 0x20000101 2) ∧
        dataLocalRegion s.cfg 0x20000101 = false ∧ sideEffectBit s.cfg (mracNow s) 0x20000101 = true ∧
        (0x20000101 : Word).toNat % 2 ≠ 0) ∧
    (let s := small 0x9FFFE 0;
      loadForm s (.lw 5 6 0) = some ⟨5, 4, true, 0x9FFFE, 4⟩ ∧ region 0x9FFFE = region (lastByte 0x9FFFE 4) ∧
        dataLocalRegion s.cfg 0x9FFFE = true ∧ inDccm s.cfg (lastByte 0x9FFFE 4) = false ∧
        inPic s.cfg 0x9FFFE = false) ∧
    (loadForm windowed (.lw 5 6 0) = some ⟨5, 4, true, 0x20000100, 4⟩ ∧
      region 0x20000100 = region (lastByte 0x20000100 4) ∧ dataLocalRegion windowed.cfg 0x20000100 = false ∧
      sideEffectBit windowed.cfg (mracNow windowed) 0x20000100 = false ∧
      windowsAllow windowed.cfg.dataWindows 0x20000100 = false) :=
  by
  decide +kernel

theorem witness_EbreakTrapsOrHalts : base.csr.dcsr.getLsbD 15 = false ∧
    ({ base with csr := { base.csr with dcsr := 0x40008003 } } : State).csr.dcsr.getLsbD 15 = true := by
  decide +kernel

/-- A store to SoC memory is waiting in the buffer, and no word has an error mark. -/
def storeWaiting : State := { base with wb := [⟨0x20000000, 4, 9, false, false, false⟩] }

theorem storeWaiting_unmarked (w : Nat) : cellGet storeWaiting.ecc w ≠ some .uncorrectable := by
  simp only [storeWaiting, base, cellGet]
  split
  · simp
  · split <;> simp

/-- What a FENCE may find: an outstanding store's error and a load's, a buffered store where nothing answers, and one to SoC
memory; at the first byte of the store and at the last of that memory, and at a byte outside it. -/
theorem witness_FenceDrains :
    (∃ r ∈ [(⟨0x30000000, 4, false, true, false⟩ : BusResponse)], r.isError = true) ∧
    (∀ r ∈ [(⟨0x30000000, 4, false, true, false⟩ : BusResponse)], (r.isLoad = true → r.isError = false) ∧ 0 < r.size) ∧
    (∀ r ∈ [(⟨0x30000000, 4, true, true, false⟩ : BusResponse)], r.isError = true → r.isLoad = true) ∧
    base.mdseacLocked = false ∧ base.wb = [] ∧ SocRejects base ⟨0x30000000, 4, 9, false, false, false⟩ ∧
    ({ base with mdseacLocked := true } : State).mdseacLocked = true ∧
    (∀ w, cellGet storeWaiting.ecc w ≠ some .uncorrectable) ∧
    busKind storeWaiting.cfg (BitVec.ofNat 32 0x20000000) = .memory ∧
    busKind storeWaiting.cfg (BitVec.ofNat 32 0x2000FFFF) = .memory ∧
    busKind storeWaiting.cfg (BitVec.ofNat 32 0x80010) ≠ .memory := by
  exact ⟨by decide +kernel, by decide +kernel, by decide +kernel, by decide +kernel, by decide +kernel,
    ⟨0x30000000, by decide +kernel, by decide +kernel⟩, by decide +kernel, storeWaiting_unmarked, by decide +kernel,
    by decide +kernel, by decide +kernel⟩

theorem witness_FenceISynchronises : (∀ w, cellGet storeWaiting.ecc w ≠ some .uncorrectable) ∧
    busKind storeWaiting.cfg (BitVec.ofNat 32 0x20000003) = .memory ∧
    (match exec (.fenceI 0 0 0) base with
      | .next t => decide (SocParcel t 0x20000100 ∧ SocParcel t 0x2000013E ∧ t.cfg.icacheKb ∈ [16, 32, 64, 128, 256])
      | _ => false) = true :=
  ⟨storeWaiting_unmarked, by decide +kernel, by decide +kernel⟩

/-- In Debug Mode, by a debugger's command and in a single step; each field alone, both and neither. -/
theorem witness_DmstFences :
    (let s := { storeWaiting with activity := .dbHalt, dbgHaltState := true, inputs := [.debugWriteCsr 0x7C4 3] };
      s.activity = .dbHalt ∧ s.dbgHaltState = true ∧ s.inputs = .debugWriteCsr 0x7C4 3 :: []) ∧
    (let s := { storeWaiting with activity := .dbHalt, dbgHaltState := true, inputs := [.debugReadCsr 0x7C4] };
      s.activity = .dbHalt ∧ s.dbgHaltState = true ∧ s.inputs = .debugReadCsr 0x7C4 :: []) ∧
    (∀ v : BitVec 5, csrForm storeWaiting (.csrrwi 5 0x7C4 v) = some ⟨5, 0x7C4, true, fun _ => BitVec.ofNat 32 v.toNat⟩) ∧
    debugMode { storeWaiting with stepping := true } = true ∧
    ([(0, false, false), (1, true, false), (2, false, true), (3, true, true)].all fun e : BitVec 5 × Bool × Bool =>
      (BitVec.ofNat 32 e.1.toNat).getLsbD 0 == e.2.1 && (BitVec.ofNat 32 e.1.toNat).getLsbD 1 == e.2.2) = true ∧
    csrForm base (.csrrs 5 0x7C4 0) = some ⟨5, 0x7C4, (0 : Reg) != 0, fun old => old ||| reg base 0⟩ :=
  ⟨⟨rfl, rfl, rfl⟩, ⟨rfl, rfl, rfl⟩, fun _ => rfl, by decide +kernel, by decide +kernel, rfl⟩

theorem witness_CsrInstructionsComplete : csrForm base (.csrrw 5 0xB00 6) = some ⟨5, 0xB00, true, fun _ => reg base 6⟩ ∧
    csrCheck base 0xB00 true = .allowed .mcycle ∧
    csrForm base (.csrrsi 5 0xF11 0) = some ⟨5, 0xF11, (0 : BitVec 5) != 0, fun old => old ||| BitVec.ofNat 32 (0 : BitVec 5).toNat⟩ ∧
    csrCheck base 0xF11 false = .allowed .mvendorid :=
  ⟨rfl, by decide +kernel, rfl, by decide +kernel⟩

theorem witness_PlainCsrsStoreLegalValues :
    (∃ e, e ∈ plainCsrs ∧ e.number = 0x300 ∧
      csrForm base (.csrrwi 5 0x300 8) = some ⟨5, 0x300, true, fun _ => BitVec.ofNat 32 (8 : BitVec 5).toNat⟩) ∧
    (∃ e, e ∈ plainCsrs ∧ e.number = 0x7F9 ∧
      csrForm base (.csrrwi 5 0x7F9 8) = some ⟨5, 0x7F9, true, fun _ => BitVec.ofNat 32 (8 : BitVec 5).toNat⟩) ∧
    base.activity ≠ .dbHalt ∧ base.pc ∉ base.fenced ∧
    ({ base with fenced := [0x40100] } : State).pc ∈ ({ base with fenced := [0x40100] } : State).fenced :=
  ⟨⟨⟨0x300, (·.mstatus), fun r v => { r with mstatus := 0x1800 ||| (v &&& 0x88) }⟩, by simp [plainCsrs], rfl, rfl⟩,
    ⟨⟨0x7F9, (·.mfdc), fun r v => { r with mfdc := v &&& 0x000705FD }⟩, by simp [plainCsrs], rfl, rfl⟩,
    by decide +kernel⟩

theorem witness_ConstantCsrs : csrForm base (.csrrw 5 0x301 6) = some ⟨5, 0x301, true, fun _ => reg base 6⟩ ∧
    csrForm base (.csrrs 5 0xF14 0) = some ⟨5, 0xF14, (0 : Reg) != 0, fun old => old ||| reg base 0⟩ :=
  ⟨rfl, rfl⟩

theorem witness_MipShowsItsSources : csrForm base (.csrrwi 5 0x344 31) =
    some ⟨5, 0x344, true, fun _ => BitVec.ofNat 32 (31 : BitVec 5).toNat⟩ :=
  rfl

theorem witness_CounterWrites : csrForm base (.csrrwi 5 0xB03 9) =
      some ⟨5, 0xB03, true, fun _ => BitVec.ofNat 32 (9 : BitVec 5).toNat⟩ ∧ (0xB03 : BitVec 12) = BitVec.ofNat 12 (0xB00 + (3#5).toNat) ∧
    (3 ≤ (3#5).toNat ∧ (3#5).toNat ≤ 6) ∧ (3 ≤ (6#5).toNat ∧ (6#5).toNat ≤ 6) ∧
    7 ≤ (7#5).toNat ∧ 7 ≤ (31#5).toNat :=
  ⟨rfl, by decide +kernel⟩

theorem witness_IllegalCsrAccessesTrap :
    csrForm base (.csrrs 5 0xC00 0) = some ⟨5, 0xC00, (0 : Reg) != 0, fun old => old ||| reg base 0⟩ ∧
    ([0x000, 0x180, 0x302, 0x322, 0x345, 0x79F, 0x7A4, 0x7C1, 0xB01, 0xB20, 0xBCD, 0xF15, 0xFFF].all fun n =>
      decide (¬CsrExists n)) = true ∧
    ([0x300, 0x323, 0x33F, 0x7B3, 0x7F9, 0xB03, 0xB9F, 0xFC8].all fun n => decide (CsrExists n)) = true ∧
    csrForm base (.csrrw 5 0xF11 0) = some ⟨5, 0xF11, true, fun _ => reg base 0⟩ ∧
    csrForm base (.csrrs 5 0x7C4 0) = some ⟨5, 0x7C4, (0 : Reg) != 0, fun old => old ||| reg base 0⟩ ∧ debugMode base = false ∧
    csrForm base (.csrrs 5 0x7A0 0) = some ⟨5, 0x7A0, (0 : Reg) != 0, fun old => old ||| reg base 0⟩ ∧
    csrForm base (.csrrwi 5 0x7A3 1) = some ⟨5, 0x7A3, true, fun _ => BitVec.ofNat 32 (1 : BitVec 5).toNat⟩ :=
  ⟨rfl, by decide +kernel, by decide +kernel, rfl, rfl, by decide +kernel, rfl, rfl⟩

/-- The hart sees a halt request of the MPC that it has not served yet. -/
def mpcAsks : State :=
  { base with
    pins := { base.pins with mpcHaltReq := true }, seen := { base.seen with mpcHaltReq := true }
    lines := { base.lines with mpc := .steady 2 } }

theorem witness_FirmwareHalts :
    csrForm storeWaiting (.csrrwi 0 0x7C6 1) =
      some ⟨0, 0x7C6, true, fun _ => BitVec.ofNat 32 (1 : BitVec 5).toNat⟩ ∧ debugMode storeWaiting = false ∧
    csrForm base (.csrrs 5 0x7C6 0) = some ⟨5, 0x7C6, (0 : Reg) != 0, fun old => old ||| reg base 0⟩ ∧
    (∀ w, cellGet storeWaiting.ecc w ≠ some .uncorrectable) ∧
    busKind storeWaiting.cfg (BitVec.ofNat 32 0x80010) ≠ .memory ∧
    (mpcAsks.seen.mpcHaltReq = true ∧ debugMode mpcAsks = false ∧
      (match exec (.csrrwi 0 0x7C6 1) mpcAsks with
        | .next t => (boundary t).seen.mpcHaltReq && !(boundary t).seen.mpcRunReq && (atBoundary t).activity == .dbHalt
        | _ => false) = true) :=
  ⟨rfl, by decide +kernel, rfl, storeWaiting_unmarked, by decide +kernel, by decide +kernel⟩

theorem witness_PriorityCsrsReadBack : csrForm base (.csrrwi 5 0xBC9 9) =
      some ⟨5, 0xBC9, true, fun _ => BitVec.ofNat 32 (9 : BitVec 5).toNat⟩ ∧
    csrForm base (.csrrs 5 0xBC8 6) = some ⟨5, 0xBC8, (6 : Reg) != 0, fun old => old ||| reg base 6⟩ :=
  ⟨rfl, rfl⟩

theorem witness_ClaimCapturesTheWinner : csrForm base (.csrrwi 0 0xBCA 1) = some ⟨0, 0xBCA, true, fun _ => BitVec.ofNat 32 (1 : BitVec 5).toNat⟩ ∧
    csrForm base (.csrrs 5 0xBCA 0) = some ⟨5, 0xBCA, (0 : Reg) != 0, fun old => old ||| reg base 0⟩ :=
  ⟨rfl, rfl⟩

/-- The timer interrupt is pending and enabled. -/
def timerPending : State :=
  { base with
    csr := { base.csr with mstatus := 0x1808, mie := 0x80 }
    pins := { base.pins with timerInt := true }, seen := { base.seen with timerInt := true }
    lines := { base.lines with timer := .steady 1 } }

theorem witness_InterruptPriority : base.csr.mstatus.getLsbD 3 = false ∧
    ({ timerPending with activity := .pmuFwHalt } : State).activity ≠ .running ∧
    timerPending.csr.mstatus.getLsbD 3 = true ∧ timerPending.activity = .running ∧ timerPending.stepping = false ∧
    takeableInterrupt { timerPending with stepping := true } = none ∧
    takeableInterrupt { timerPending with stepping := true, csr := { timerPending.csr with dcsr := 0x40000803 } } =
      some 7 := by
  decide +kernel

theorem witness_InterruptIsTaken :
    let s := fun w => { timerPending with waits := { timerPending.waits with interrupt := some w } }
    let u := fun w => atBoundary (s w)
    (s 0).inputs = [] ∧ (s 3).inputs = [] ∧
    ([0, 3].all fun w => (u w).activity == .running && !(u w).seen.cpuHaltReq && !(u w).nmiPending &&
      (u w).dbusErr == none && takeableInterrupt (u w) == some 7 &&
      (u w).waits.interrupt.getD (Config.interruptDelay (u w).stepNo) == w) = true := by
  decide +kernel

/-- A state with these NMI requests, which may wait for that many boundaries. -/
def nmiState (pin : Bool) (bus : Option BusError) (wait : Nat) : State :=
  { base with nmiPending := pin, dbusErr := bus, waits := { base.waits with nmi := some wait } }

theorem witness_NmiIsTaken : [(true, none, 0), (false, some .store, 0), (false, some .load, 2),
    (true, some .load, 0)].all (fun e =>
      let s := nmiState e.1 e.2.1 e.2.2
      let u := atBoundary s
      s.inputs.isEmpty && u.activity == .running && !u.stepping && !u.seen.cpuHaltReq &&
        u.waits.nmi.getD (Config.nmiDelay u.stepNo) == e.2.2 && u.nmiPending == e.1 && u.dbusErr == e.2.1) = true ∧
    (let s := { nmiState true none 0 with stepping := true };
      s.inputs = [] ∧ (atBoundary s).activity = .running ∧ (atBoundary s).seen.cpuHaltReq = false ∧
        (atBoundary s).stepping = true ∧ (atBoundary s).nmiPending = true) := by
  decide +kernel

theorem witness_WinnerIsHighestThenLowest : cfgT.picTotalInt ≤ 255 ∧ (picWinner cfgT (picWith 5 7)).1 ≠ 0 ∧
    (picWinner cfgT (picWith 0 0)).1 = 0 := by
  decide +kernel

theorem witness_GatewayRequests : validSource cfgT 0 = false ∧ validSource cfgT 9 = false ∧
    (validSource cfgT 8 = true ∧ cfgT.gatewayConfigurable.getLsbD 8 = true) ∧
    (validSource { cfgT with gatewayConfigurable := 0 } 1 = true ∧
      ({ cfgT with gatewayConfigurable := 0 } : Build).gatewayConfigurable.getLsbD 1 = false) := by
  decide +kernel

theorem witness_PicRegistersReadBack : base.cfg.picTotalInt ≤ 255 ∧ validSource base.cfg 1 = true ∧
    validSource base.cfg 8 = true ∧ base.cfg.gatewayConfigurable.getLsbD 8 = true ∧ base.picQueue = [] ∧
    ({ base.pic with gwType := 0x100 } : PicRegs).gwType.getLsbD 8 = true ∧
    (gatewayStores [.store 0x4004 1]).getLsbD 8 = false := by
  decide +kernel

theorem witness_UnusedPicAddresses :
    ([0, 0x24, 0xFFC, 0x1004, 0x2000, 0x2024, 0x3004, 0x3FFC, 0x4000, 0x4024, 0x5000, 0x5FFC, 0x6000, 0x7FFC].all
      fun o => decide (unusedPicOffset cfgT o)) = true ∧
    ([0x4, 0x20, 0x1000, 0x2004, 0x2020, 0x3000, 0x4004, 0x5020].all fun o => !decide (unusedPicOffset cfgT o)) = true ∧
    (let s := small 0xC3004 9;
      loadForm s (.lw 5 6 0) = some ⟨5, 4, true, 0xC3004, 4⟩ ∧ storeForm s (.sw 7 6 0) = some ⟨4, 9, 0xC3004, 4⟩ ∧
        PicWord s 0xC3004 4 ∧ unusedPicOffset s.cfg ((0xC3004 : Word).toNat - picBase s.cfg)) := by
  unfold PicWord
  decide +kernel

theorem witness_BusErrorCapture :
    (∀ r ∈ [(⟨0x30000000, 4, false, true, true⟩ : BusResponse)], 0 < r.size) ∧ base.mdseacLocked = false ∧
    (∃ r ∈ [(⟨0x30000000, 4, false, true, true⟩ : BusResponse)], r.isError = true) ∧
    ({ base with mdseacLocked := true } : State).mdseacLocked = true ∧
    csrForm base (.csrrw 0 0xBC0 0) = some ⟨0, 0xBC0, true, fun _ => reg base 0⟩ :=
  ⟨by simp, by decide +kernel, by simp, rfl, rfl⟩

/-- Aligned accesses at the ends of both memories, and others; reads that meet a correctable word, one in each memory, an uncorrectable
one, and a sound one. -/
theorem witness_DmaReadsAndWrites :
    ((0x9FFFC : Word).toNat % 4 = 0 ∧ (ccmOf base.cfg 0x9FFFC 4).isSome = true ∧
      (0x9FFF8 : Word).toNat % 8 = 0 ∧ (ccmOf base.cfg 0x9FFF8 8).isSome = true ∧
      (ccmOf base.cfg 0x40000 4).isSome = true ∧ ccmOf base.cfg 0x9FFFE 4 = none ∧ ccmOf base.cfg 0x9FFFC 8 = none ∧
      ccmOf base.cfg 0xC0000 4 = none) ∧
    (let s := { base with ecc := [(0x17FFE, .correctable), (0x17FFF, .good), (0x20004, .correctable), (0x20005, .good),
        (0x20006, .uncorrectable)] };
      ccmOf s.cfg 0x5FFF8 8 = some .iccm ∧ ccmOf s.cfg 0x80010 8 = some .dccm ∧ ccmOf s.cfg 0x80017 1 = some .dccm ∧
        anyFailed s (wordsOf (0x5FFF8 : Word).toNat 8) = false ∧ anyFailed s (wordsOf (0x80010 : Word).toNat 8) = false ∧
        anyFailed s (wordsOf (0x80017 : Word).toNat 1) = false ∧ anyFailed s (wordsOf (0x80014 : Word).toNat 8) = true ∧
        ccmOf s.cfg 0x80014 8 = some .dccm ∧ correctedWords s (wordsOf (0x5FFF8 : Word).toNat 8) = [0x17FFE] ∧
        correctedWords s (wordsOf (0x80010 : Word).toNat 8) = [0x20004]) := by
  decide +kernel

theorem witness_ResetKeepsMemory :
    let s := { base with inputs := [.reset false, .run] }
    s.inputs = .reset false :: [.run] ∧ s.wb = [] ∧ s.responses = [] ∧ s.unfenced = [] ∧ s.unfencedEcc = [] := by
  decide +kernel

theorem witness_HaltedHartsRunNothing :
    (let s := { base with activity := .dbHalt };
      s.inputs = [] ∧ (boundary s).seen.mpcRunReq = false ∧ s.activity = .dbHalt) ∧
    (let s := { base with activity := .pmuFwHalt };
      s.inputs = [] ∧ (boundary s).seen.mpcRunReq = false ∧ s.activity = .pmuFwHalt ∧
        (boundary s).seen.mpcHaltReq = false ∧
        wakes (atBoundary s) = false) := by
  decide +kernel

theorem witness_PauseHoldsTheHart :
    csrForm base (.csrrwi 0 0x7C2 9) = some ⟨0, 0x7C2, true, fun _ => BitVec.ofNat 32 (9 : BitVec 5).toNat⟩ ∧
    let s := { base with pauseCount := 1 }
    let u := atBoundary s
    s.inputs = [] ∧ u.activity = .running ∧ u.seen.cpuHaltReq = false ∧ u.nmiPending = false ∧ u.dbusErr = none ∧
      takeableInterrupt u = none ∧ s.pauseCount ≠ 0 :=
  ⟨rfl, by decide +kernel⟩

theorem witness_DebugResume :
    (let s := { base with inputs := [.debugResume], activity := .dbHalt, dbgHaltState := true };
      s.inputs = .debugResume :: [] ∧ s.activity = .dbHalt ∧ s.dbgHaltState = true ∧ s.mpcHaltState = false) ∧
    (let s := { base with inputs := [.debugResume], activity := .dbHalt };
      s.inputs = .debugResume :: [] ∧ s.activity = .dbHalt ∧ s.dbgHaltState = false) := by
  decide +kernel

theorem witness_ExactEventsAreCounted : base.counters.event.get 3 ∈ [(0 : Word), 4, 5, 6, 9, 10, 11, 12, 21, 22, 23] ∧
    ({ base.counters with event := base.counters.event.set 0 23 } : Counters).event.get 0 = 23 ∧
    ({ base.counters with event := base.counters.event.set 0 15 } : Counters).event.get 0 = 15 := by
  decide +kernel

theorem witness_ICacheEntriesReadBack :
    let s := { small 1 0 with activity := .dbHalt }
    let t := fun w => { s with csr := { s.csr with dicawics := w }, icache := { ICache.reset with filled := [(0x800001, 2)] } }
    debugMode s = true ∧ dicawicsTags s.csr.dicawics = false ∧ (reg s 6).getLsbD 0 = true ∧
    ([0x00200044, 0x01200044].all fun w => debugMode (t w) && dicawicsTags w == (w == 0x01200044) &&
      filledAt (t w) (setOf cfgT w) (w.extractLsb' 20 2).toNat == some 0x800001 &&
      (cellGet (t w).icache.data (dataKey cfgT w)).isNone && (cellGet (t w).icache.tags (tagKey cfgT w)).isNone) = true ∧
    0x800001 < 2 ^ 26 ∧ cfgT.icacheKb ∈ [16, 32, 64, 128, 256] := by
  decide +kernel

end Sys2Proof.Tests
end

/-! PROOFS. The registers of a legal state stay legal: the parts of a step, and the step (R33, R42, R44, R45, R47, R56, R106,
R110, R116, R117, R120). -/

namespace Sys2Proof.Machine

/-! ## The restricted registers -/

/-- `t` has the pc, the event selectors and the restricted CSR bits of `s`; of an error counter only the threshold is
restricted (R106). -/
structure SameRestricted (s t : State) : Prop where
  csrs : t.csr = { t.csr with
    mstatus := s.csr.mstatus, mie := s.csr.mie, mtvec := s.csr.mtvec, mepc := s.csr.mepc, dpc := s.csr.dpc
    mgpmc := s.csr.mgpmc, mcgc := s.csr.mcgc, mfdc := s.csr.mfdc, meivt := s.csr.meivt }
  micect : t.csr.micect.extractLsb' 27 5 = s.csr.micect.extractLsb' 27 5
  miccmect : t.csr.miccmect.extractLsb' 27 5 = s.csr.miccmect.extractLsb' 27 5
  mdccmect : t.csr.mdccmect.extractLsb' 27 5 = s.csr.mdccmect.extractLsb' 27 5
  events : t.counters.event = s.counters.event
  pc : t.pc = s.pc

/-- A state with the same restricted registers is as legal. -/
theorem SameRestricted.legal {s t : State} (h : SameRestricted s t) (hs : RegistersLegal s) : RegistersLegal t where
  csrs := {
    mstatus := by rw [h.csrs]; exact hs.csrs.mstatus
    mie := by rw [h.csrs]; exact hs.csrs.mie
    mtvec := by rw [h.csrs]; exact hs.csrs.mtvec
    mepc := by rw [h.csrs]; exact hs.csrs.mepc
    dpc := by rw [h.csrs]; exact hs.csrs.dpc
    micect := h.micect ▸ hs.csrs.micect
    miccmect := h.miccmect ▸ hs.csrs.miccmect
    mdccmect := h.mdccmect ▸ hs.csrs.mdccmect
    mgpmc := by rw [h.csrs]; exact hs.csrs.mgpmc
    mcgc := by rw [h.csrs]; exact hs.csrs.mcgc
    mfdc := by rw [h.csrs]; exact hs.csrs.mfdc
    meivt := by rw [h.csrs]; exact hs.csrs.meivt }
  events n := h.events ▸ hs.events n
  pc := h.pc ▸ hs.pc

theorem AccessKeeps.restricted {s t : State} (h : AccessKeeps s t) : SameRestricted s t where
  csrs := by rw [h.frame]
  micect := by rw [h.frame]
  miccmect := h.miccmect
  mdccmect := h.mdccmect
  events := by rw [h.frame]
  pc := by rw [h.frame]

theorem FetchKeeps.restricted {s t : State} (h : FetchKeeps s t) : SameRestricted s t where
  csrs := by rw [h.frame]
  micect := h.micect
  miccmect := h.miccmect
  mdccmect := by rw [h.frame]
  events := by rw [h.frame]
  pc := by rw [h.frame]

theorem BoundaryFrame.restricted {s t : State} (h : BoundaryFrame s t) : SameRestricted s t := by
  constructor <;> rw [h]

theorem BusFrame.restricted {s t : State} (h : BusFrame s t) : SameRestricted s t := h.boundary.restricted

/-- A FENCE changes no restricted register. -/
theorem fenceData_restricted (s : State) : SameRestricted s (fenceData s) := by
  have hf := (fenceData_spec s).2.2.2.2
  constructor <;> rw [hf]

theorem countEvents_restricted (s : State) (f : Nat → Nat → Nat) : SameRestricted s (countEvents s f) := by
  constructor <;> rw [countEvents_frame]

theorem countStep_restricted (s : State) : SameRestricted s (countStep s) := by
  constructor <;> rw [countStep_frame]

theorem setReg_restricted (s : State) (i : Reg) (v : Word) : SameRestricted s (setReg s i v) := by
  constructor <;> rw [setReg_frame]

/-- Nothing but CSRs, counters and pc makes a state legal. -/
theorem RegistersLegal.of_eq {s t : State} (h : RegistersLegal s) (hc : t.csr = s.csr) (hn : t.counters = s.counters)
    (hp : t.pc = s.pc) : RegistersLegal t := ⟨hc ▸ h.csrs, hn ▸ h.events, hp ▸ h.pc⟩

/-- What is put off makes no state illegal. -/
theorem RegistersLegal.waits {s : State} (h : RegistersLegal s) (w : Waits) : RegistersLegal { s with waits := w } :=
  h.of_eq rfl rfl rfl

/-! ## Even addresses (R33) -/

theorem even_add {a b : Word} (ha : a.getLsbD 0 = false) (hb : b.getLsbD 0 = false) : (a + b).getLsbD 0 = false := by
  simp only [BitVec.getLsbD, Nat.testBit_zero, BitVec.toNat_add, decide_eq_false_iff_not] at *
  omega

theorem even_and {a b : Word} (hb : b.getLsbD 0 = false) : (a &&& b).getLsbD 0 = false := by
  rw [BitVec.getLsbD_and, hb, Bool.and_false]

/-- An even address stays even behind an instruction (R34). -/
theorem even_nextPc {s : State} (h : s.pc.getLsbD 0 = false) (short : Bool) : (nextPc s short).getLsbD 0 = false :=
  even_add h (by cases short <;> rfl)

/-- The target of a pc-relative transfer with an even offset is even (R330). -/
theorem even_relTarget {n : Nat} {s : State} (h : s.pc.getLsbD 0 = false) {off : BitVec n} (hn : 0 < n)
    (ho : evenOffset off = true) : (relTarget s off).getLsbD 0 = false := by
  refine even_add h ?_
  rw [sextImm, BitVec.getLsbD_signExtend, if_pos hn]
  simpa [evenOffset] using ho

/-- The target of a register transfer is even (R332). -/
theorem even_regTarget {n : Nat} (s : State) (rs1 : Reg) (off : BitVec n) : (regTarget s rs1 off).getLsbD 0 = false :=
  even_and rfl

/-- Every trap vector is even (R521). -/
theorem even_trapBase (s : State) : (trapBase s).getLsbD 0 = false := even_and rfl

theorem even_append (v : BitVec 31) : (v ++ 0#1).getLsbD 0 = false := by
  rw [BitVec.getLsbD_append]
  rfl

/-! ## Traps, retiring, Debug Mode -/

theorem trapStatus_legal (m : Word) : trapStatus m = 0x1800 ||| (trapStatus m &&& 0x88) := by
  unfold trapStatus
  cases m.getLsbD 3 <;> decide

theorem returnStatus_legal (m : Word) : returnStatus m = 0x1800 ||| (returnStatus m &&& 0x88) := by
  unfold returnStatus
  cases m.getLsbD 7 <;> decide

theorem enterTrap_legal {s : State} (h : RegistersLegal s) (c v : Word) {target : Word} (ht : target.getLsbD 0 = false) :
    RegistersLegal (enterTrap s c v target) where
  csrs := { h.csrs with mstatus := trapStatus_legal _, mepc := h.pc }
  events := h.events
  pc := ht

theorem takeException_legal {s : State} (h : RegistersLegal s) (c v : Word) : RegistersLegal (takeException s c v) :=
  (countEvents_restricted _ _).legal (enterTrap_legal h c v (even_trapBase s))

theorem retire_legal {s : State} (h : RegistersLegal s) (r : Retired) {next : Word} (hn : next.getLsbD 0 = false) :
    RegistersLegal (retire s r next) := by
  have := (countEvents_restricted s fun _ e => retiredEvents s.stepNo r e).legal h
  exact ⟨this.csrs, this.events, hn⟩

theorem returnFromTrap_legal {s : State} (h : RegistersLegal s) : RegistersLegal (returnFromTrap s) where
  csrs := { h.csrs with mstatus := returnStatus_legal _ }
  events := h.events
  pc := h.csrs.mepc

theorem drainBus_legal {s : State} (h : RegistersLegal s) : RegistersLegal (drainBus s) :=
  (drainBus_spec s).1.restricted.legal h

theorem enterDebug_legal {s : State} (h : RegistersLegal s) (c : DebugCause) : RegistersLegal (enterDebug s c) := by
  have hd := drainBus_legal h
  exact ⟨{ hd.csrs with dpc := hd.pc }, hd.events, hd.pc⟩

theorem exitDebug_legal {s : State} (h : RegistersLegal s) (step : Bool) : RegistersLegal (exitDebug s step) :=
  ⟨h.csrs, h.events, h.csrs.dpc⟩

theorem afterInstr_legal {s : State} (h : RegistersLegal s) : RegistersLegal (afterInstr s) := by
  unfold afterInstr
  split
  · have hd := enterDebug_legal h .step
    exact hd.of_eq rfl rfl rfl
  · exact h

/-! ## The boundary and the hart's turn -/

theorem serveMpcHalt_legal {s : State} (h : RegistersLegal s) : RegistersLegal (serveMpcHalt s) := by
  unfold serveMpcHalt
  dsimp only
  generalize waitStep _ _ _ = w
  split_ifs
  · exact (enterDebug_legal (h.waits { s.waits with mpcHalt := w.1 }) .haltRequest).of_eq rfl rfl rfl
  · exact h.of_eq rfl rfl rfl
  · exact h.waits _

theorem serveMpcRun_legal {s : State} (h : RegistersLegal s) : RegistersLegal (serveMpcRun s) := by
  have he := exitDebug_legal h false
  unfold serveMpcRun
  dsimp only
  split_ifs
  · exact h.of_eq rfl rfl rfl
  · exact h.of_eq rfl rfl rfl
  · exact he.of_eq rfl rfl rfl
  · exact he.of_eq rfl rfl rfl
  · exact h.of_eq rfl rfl rfl
  · exact h
  · exact h

theorem atBoundary_legal {s : State} (h : RegistersLegal s) : RegistersLegal (atBoundary s) := by
  have hm := serveMpcRun_legal (serveMpcHalt_legal ((boundary_frame s).restricted.legal h))
  unfold atBoundary countResumed
  split
  · exact (countStep_restricted _).legal hm
  · exact hm

/-- The state a turn leaves. -/
def Turn.state : Turn → State
  | .over s => s
  | .execute s => s

theorem goOn_legal {s : State} (h : RegistersLegal s) : RegistersLegal (goOn s).state := by
  unfold goOn pauseTurn
  split_ifs <;> exact h.of_eq rfl rfl rfl

theorem takeInterrupt_legal {s : State} (h : RegistersLegal s) {code : Word} : RegistersLegal (takeInterrupt s code) := by
  have ht : (interruptTarget s code).getLsbD 0 = false := by
    unfold interruptTarget
    split
    · refine even_add (even_trapBase s) ?_
      have h4 : (4 : Word).toNat = 4 := rfl
      simp only [BitVec.getLsbD, Nat.testBit_zero, BitVec.toNat_mul, h4, decide_eq_false_iff_not]
      omega
    · exact even_trapBase s
  have he := enterTrap_legal h (0x80000000 ||| code) 0 ht
  exact (countEvents_restricted _ _).legal (he.of_eq rfl rfl rfl)

theorem takeNmi_legal {s : State} (h : RegistersLegal s) (cause : Word) : RegistersLegal (takeNmi s cause) :=
  (enterTrap_legal h cause 0 (even_append s.pins.nmiVec)).of_eq rfl rfl rfl

theorem enterNmi_legal {s : State} (h : RegistersLegal s) : RegistersLegal (enterNmi s) := by
  have hp := takeNmi_legal (s := { s with nmiPending := false }) (h.of_eq rfl rfl rfl) 0
  unfold enterNmi
  dsimp only
  split
  · exact hp
  · split
    · exact hp
    · exact takeNmi_legal (s := { s with dbusErr := none }) (h.of_eq rfl rfl rfl) _

theorem interruptTurn_legal {s : State} (h : RegistersLegal s) : RegistersLegal (interruptTurn s).state := by
  unfold interruptTurn
  dsimp only
  split
  · exact goOn_legal (h.waits _)
  · split
    · exact takeInterrupt_legal (h.waits _)
    · exact goOn_legal (h.waits _)

theorem nmiTurn_legal {s : State} (h : RegistersLegal s) : RegistersLegal (nmiTurn s).state := by
  unfold nmiTurn
  dsimp only
  split_ifs
  · exact enterNmi_legal (h.waits _)
  · exact goOn_legal (h.waits _)
  · exact interruptTurn_legal (h.waits _)

theorem enterPmuFwHalt_legal {s : State} (h : RegistersLegal s) : RegistersLegal (enterPmuFwHalt s) :=
  (drainBus_legal h).of_eq rfl rfl rfl

theorem runningTurn_legal {s : State} (h : RegistersLegal s) : RegistersLegal (runningTurn s).state := by
  unfold runningTurn
  dsimp only
  generalize waitStep _ _ _ = w
  split_ifs
  · exact (enterPmuFwHalt_legal (h.waits { s.waits with pmuHalt := w.1 })).of_eq rfl rfl rfl
  · exact nmiTurn_legal (h.waits _)

theorem turn_legal {s : State} (h : RegistersLegal s) : RegistersLegal (turn s).state := by
  unfold turn
  split
  · exact runningTurn_legal h
  · exact h
  · unfold wake
    dsimp only
    split_ifs <;> exact h.of_eq rfl rfl rfl

end Sys2Proof.Machine

/-! PROOFS. CSR writes, instructions, host events and the step keep the registers legal. -/

namespace Sys2Proof.Machine

/-! ## The six Zicsr instructions -/

/-- A Zicsr instruction is an access of its form's CSR; whether it also reads, so that a read side effect happens, its form does
not say (R446 to R451). -/
theorem exec_csrForm {s : State} {i : Instr} {f : CsrForm} (h : csrForm s i = some f) :
    ∃ reads, exec i s = csrAccess s i.code f.rd f.csr reads f.writes f.value := by
  unfold csrForm at h
  split at h <;> cases h <;> simp only [BitVec.ofNat_toNat]
  · exact ⟨_, rfl⟩
  · exact ⟨_, rfl⟩
  · exact ⟨_, rfl⟩
  · exact ⟨_, rfl⟩
  · exact ⟨_, rfl⟩
  · exact ⟨_, rfl⟩

/-! ## The values CSR writes leave -/

theorem and_mask (v m : Word) : v &&& m = v &&& m &&& m := by rw [BitVec.and_assoc, BitVec.and_self]

theorem legalErrorCounter_threshold (v : Word) : (legalErrorCounter v).extractLsb' 27 5 ≤ 26#5 := by
  have h : ∀ (x : BitVec 5) (y : BitVec 27), (x ++ y).extractLsb' 27 5 = x := fun x y => by
    refine BitVec.eq_of_getLsbD_eq fun i hi => ?_
    rw [BitVec.getLsbD_extractLsb', BitVec.getLsbD_append, if_neg (by omega), decide_eq_true hi, Bool.true_and,
      Nat.add_sub_cancel_left]
  unfold legalErrorCounter
  rw [h]
  split
  · exact BitVec.le_refl _
  · rename_i hx
    exact BitVec.le_of_lt (BitVec.not_le.mp hx)

theorem legalEvent_le (v : Word) : legalEvent v ≤ 50#32 := by
  unfold legalEvent
  split
  · exact BitVec.le_refl _
  · rename_i hx
    exact BitVec.le_of_lt (BitVec.not_le.mp hx)

theorem mstatus_legal (v : Word) : (0x1800 : Word) ||| (v &&& 0x88) = 0x1800 ||| ((0x1800 ||| (v &&& 0x88)) &&& 0x88) := by
  refine BitVec.eq_of_getLsbD_eq fun i hi => ?_
  simp only [BitVec.getLsbD_or, BitVec.getLsbD_and]
  interval_cases i <;> simp

/-! ## CSR accesses -/

theorem readArray_restricted (s : State) : SameRestricted s (readArray s) := by
  unfold readArray
  dsimp only
  split <;> exact ⟨rfl, rfl, rfl, rfl, rfl, rfl⟩

theorem csrReadEffect_restricted (s : State) (c : Csr) : SameRestricted s (csrReadEffect s c) := by
  unfold csrReadEffect
  split
  · exact readArray_restricted s
  · exact ⟨rfl, rfl, rfl, rfl, rfl, rfl⟩

theorem fenceInstructions_restricted (s : State) : SameRestricted s (fenceInstructions s) :=
  have h := fenceData_restricted s
  ⟨h.csrs, h.micect, h.miccmect, h.mdccmect, h.events, h.pc⟩

theorem writeDmst_legal {s : State} (h : RegistersLegal s) (v : Word) : RegistersLegal (writeDmst s v) := by
  have hd := (fenceData_restricted s).legal h
  unfold writeDmst
  dsimp only
  split_ifs
  · exact (fenceInstructions_restricted _).legal hd
  · exact (fenceInstructions_restricted _).legal h
  · exact hd
  · exact h

theorem firmwareHalt_legal {s : State} (h : RegistersLegal s) : RegistersLegal (firmwareHalt s) := by
  unfold firmwareHalt
  split
  · exact (drainBus_legal h).of_eq rfl rfl rfl
  · exact enterPmuFwHalt_legal h

theorem writeArray_legal {s : State} (h : RegistersLegal s) : RegistersLegal (writeArray s) := by
  unfold writeArray
  dsimp only
  split <;> exact h.of_eq rfl rfl rfl

/-- A write of an event selector leaves all selectors legal (R56). -/
theorem withEvent_legal {s : State} (h : RegistersLegal s) (n : BitVec 2) (v : Word) :
    RegistersLegal (withCounters s fun k => { k with event := k.event.set n (legalEvent v) }) where
  csrs := h.csrs
  pc := h.pc
  events m := by
    show (s.counters.event.set n (legalEvent v)).get m ≤ 50#32
    rw [Bank4.get_set]
    split
    · exact legalEvent_le v
    · exact h.events m

/-- Every CSR write leaves the registers legal (R42, R44, R45, R47, R56, R106, R110, R116, R117, R120). -/
theorem csrWrite_legal {s : State} (h : RegistersLegal s) (c : Csr) (v : Word) : RegistersLegal (csrWrite s c v) := by
  have even (w : Word) : (w &&& 0xFFFFFFFE).getLsbD 0 = false := even_and rfl
  cases c
  case mstatus => exact ⟨{ h.csrs with mstatus := mstatus_legal v }, h.events, h.pc⟩
  case mie => exact ⟨{ h.csrs with mie := and_mask _ _ }, h.events, h.pc⟩
  case mtvec => exact ⟨{ h.csrs with mtvec := and_mask _ _ }, h.events, h.pc⟩
  case mepc => exact ⟨{ h.csrs with mepc := even v }, h.events, h.pc⟩
  case dpc => exact ⟨{ h.csrs with dpc := even v }, h.events, h.pc⟩
  case mgpmc => exact ⟨{ h.csrs with mgpmc := and_mask _ _ }, h.events, h.pc⟩
  case mcgc => exact ⟨{ h.csrs with mcgc := and_mask _ _ }, h.events, h.pc⟩
  case meivt => exact ⟨{ h.csrs with meivt := and_mask _ _ }, h.events, h.pc⟩
  case micect => exact ⟨{ h.csrs with micect := legalErrorCounter_threshold v }, h.events, h.pc⟩
  case miccmect => exact ⟨{ h.csrs with miccmect := legalErrorCounter_threshold v }, h.events, h.pc⟩
  case mdccmect => exact ⟨{ h.csrs with mdccmect := legalErrorCounter_threshold v }, h.events, h.pc⟩
  case mfdc =>
    unfold csrWrite writeMfdc recordMfdcWrite
    dsimp only
    split <;> exact ⟨{ h.csrs with mfdc := and_mask _ _ }, h.events, h.pc⟩
  case mhpmevent n =>
    unfold csrWrite
    dsimp only
    split
    · exact withEvent_legal h _ v
    · exact h
  case dmst => exact writeDmst_legal h v
  case mpmc =>
    unfold csrWrite
    dsimp only
    split
    · exact firmwareHalt_legal h
    · exact h
  case dicago =>
    unfold csrWrite
    dsimp only
    split
    · exact writeArray_legal h
    · exact h
  case mhpmcounter n =>
    unfold csrWrite
    dsimp only
    split
    · exact ⟨h.csrs, h.events, h.pc⟩
    · exact h
  case mhpmcounterh n =>
    unfold csrWrite
    dsimp only
    split
    · exact ⟨h.csrs, h.events, h.pc⟩
    · exact h
  case misa | mip | mvendorid | marchid | mimpid | mhartid | mdseac | meihap => exact h
  all_goals exact ⟨{ h.csrs with }, h.events, h.pc⟩

/-! ## Outcomes -/

/-- If the outcome goes on, then to a state with legal registers. -/
def LegalOutcome (r : Result) : Prop := ∀ t, r = .next t → RegistersLegal t

theorem RegistersLegal.outcome {t : State} (h : RegistersLegal t) : LegalOutcome (.next t) := by
  rintro _ ⟨⟩
  exact h

theorem LegalOutcome.refused (r : Refusal) : LegalOutcome (.refused r) := by simp [LegalOutcome]

theorem LegalOutcome.fault (f : Fault) : LegalOutcome (.fault f) := by simp [LegalOutcome]

section Instructions

variable {s : State} (h : RegistersLegal s)
include h

theorem retire_setReg_legal (rd : Reg) (v : Word) (r : Retired) {next : Word} (hn : next.getLsbD 0 = false) :
    RegistersLegal (retire (setReg s rd v) r next) :=
  retire_legal ((setReg_restricted s rd v).legal h) r hn

theorem finishAlu_legal (short : Bool) (rd : Reg) (v : Word) : LegalOutcome (finishAlu s short rd v) :=
  (retire_setReg_legal h rd v _ (even_nextPc h.pc short)).outcome

theorem finishMulDiv_legal (cls : InstrClass) (rd : Reg) (v : Word) : LegalOutcome (finishMulDiv s cls rd v) :=
  (retire_setReg_legal h rd v _ (even_nextPc h.pc false)).outcome

theorem finishJump_legal (short : Bool) (rd : Reg) {target : Word} (ht : target.getLsbD 0 = false) :
    LegalOutcome (finishJump s short rd target) :=
  (retire_setReg_legal h rd _ _ ht).outcome

theorem finishBranch_legal (short taken : Bool) {target : Word} (ht : target.getLsbD 0 = false) :
    LegalOutcome (finishBranch s short taken target) := by
  refine (retire_legal h _ ?_).outcome
  split
  · exact ht
  · exact even_nextPc h.pc short

theorem finishLoad_legal (short : Bool) (k : LoadKind) (rd : Reg) (a : Word) :
    LegalOutcome (finishLoad s short k rd a) := by
  have hm := (memLoad_keeps s a k.size).restricted.legal h
  unfold finishLoad
  dsimp only
  split <;> rename_i heq <;> rw [heq] at hm
  · exact (takeException_legal hm _ _).outcome
  · exact (retire_setReg_legal hm _ _ _ (even_nextPc hm.pc short)).outcome
  · exact (retire_setReg_legal hm _ _ _ (even_nextPc hm.pc short)).outcome

theorem finishStore_legal (short : Bool) (n : Nat) (v a : Word) : LegalOutcome (finishStore s short n v a) := by
  have hm := (memStore_keeps s a n v).restricted.legal h
  unfold finishStore
  split <;> rename_i heq <;> rw [heq] at hm
  · exact (takeException_legal hm _ _).outcome
  · exact (retire_legal hm _ (even_nextPc hm.pc short)).outcome
  · exact (retire_legal hm _ (even_nextPc hm.pc short)).outcome

theorem finishFence_legal (cls : InstrClass) : LegalOutcome (finishFence s cls) :=
  (retire_legal h _ (even_nextPc h.pc false)).outcome

theorem finishBreak_legal : LegalOutcome (finishBreak s) := by
  have hc := (countEvents_restricted s fun _ e => (e == 19).toNat).legal h
  unfold finishBreak
  dsimp only
  split
  · exact RegistersLegal.outcome (t := breakToDebug _) ((enterDebug_legal hc _).of_eq rfl rfl rfl)
  · exact (takeException_legal hc _ _).outcome

theorem csrAccess_legal (code : Code) (rd : Reg) (n : BitVec 12) (reads writes : Bool) (f : Word → Word) :
    LegalOutcome (csrAccess s code rd n reads writes f) := by
  unfold csrAccess
  split
  · exact .refused _
  · exact (takeException_legal h _ _).outcome
  · rename_i c _
    have hr : RegistersLegal (if reads then csrReadEffect s c else s) := by
      split
      · exact (csrReadEffect_restricted s c).legal h
      · exact h
    have ht := fun rd v r => retire_setReg_legal hr rd v r (even_nextPc hr.pc false)
    dsimp only
    split
    · exact (csrWrite_legal (ht _ _ _) _ _).outcome
    · exact (ht _ _ _).outcome

theorem csrForm_legal {i : Instr} {f : CsrForm} (hf : csrForm s i = some f) : LegalOutcome (exec i s) := by
  obtain ⟨reads, hr⟩ := exec_csrForm hf
  rw [hr]
  exact csrAccess_legal h _ _ _ _ _ _

/-- Every instruction an encoding exists for leaves the registers legal: the only thing that could go wrong is an odd branch
target. -/
theorem exec_legal (i : Instr) (hi : i.wellFormed = true) : LegalOutcome (exec i s) := by
  cases i with
  | jal | cJal | cJ => exact finishJump_legal h _ _ (even_relTarget h.pc (by decide) hi)
  | jalr | cJr | cJalr => exact finishJump_legal h _ _ (even_regTarget s _ _)
  | beq | bne | blt | bge | bltu | bgeu | cBeqz | cBnez =>
    exact finishBranch_legal h _ _ (even_relTarget h.pc (by decide) hi)
  | lb | lh | lw | lbu | lhu | cLw | cLwsp => exact finishLoad_legal h _ _ _ _
  | sb | sh | sw | cSw | cSwsp => exact finishStore_legal h _ _ _ _
  | mul | mulh | mulhsu | mulhu | div | divu | rem | remu => exact finishMulDiv_legal h _ _ _
  | csrrw | csrrs | csrrc | csrrwi | csrrsi | csrrci => exact csrForm_legal h rfl
  | fence => exact finishFence_legal ((fenceData_restricted s).legal h) _
  | fenceI =>
    have hf : RegistersLegal (recordFenceI (fenceInstructions s)) :=
      ((fenceInstructions_restricted s).legal h).of_eq rfl rfl rfl
    exact finishFence_legal hf _
  | ecall => exact (takeException_legal ((countEvents_restricted s _).legal h) _ _).outcome
  | ebreak | cEbreak => exact finishBreak_legal h
  | mret => exact (retire_legal (returnFromTrap_legal h) _ h.csrs.mepc).outcome
  | _ => exact finishAlu_legal h _ _ _

end Instructions

end Sys2Proof.Machine

/-! PROOFS. What decodes is well-formed; a step, of the hart or of the host, keeps the registers legal; reset is safe. -/

namespace Sys2Proof

/-! ## Decoded instructions are well-formed (R244, R263, R268) -/

theorem evenOffset_append {n : Nat} (v : BitVec n) : evenOffset (v ++ 0#1) = true := by
  unfold evenOffset
  rw [BitVec.getLsbD_append]
  rfl

theorem extractLsb'_append_zero {n k : Nat} (v : BitVec n) : (v ++ 0#k).extractLsb' 0 k = 0#k := by
  refine BitVec.eq_of_getLsbD_eq fun i hi => ?_
  rw [BitVec.getLsbD_extractLsb', BitVec.getLsbD_append, if_pos (by omega)]
  simp

theorem wordScaled_append {n : Nat} (v : BitVec n) : wordScaled (v ++ 0#2) = true := by
  rw [wordScaled, extractLsb'_append_zero]
  rfl

/-- The immediate of C.ADDI16SP has the bits of the plain one of C.LUI in another order, so that one is zero when the other is. -/
theorem imm16sp_ne_zero {f : Fields16} (h : f.imm6 ≠ 0#6) : f.imm16sp ≠ 0#10 := by
  have key : ∀ (b : BitVec 1) (r : BitVec 5), b ++ r ≠ 0#6 →
      b ++ r.extractLsb' 1 2 ++ r.extractLsb' 3 1 ++ r.extractLsb' 0 1 ++ r.extractLsb' 4 1 ++ 0#4 ≠ 0#10 := by
    decide
  exact key f.b12 f.r2 h

theorem decodeOpImm_wellFormed {f : Fields} {i : Instr} (h : decodeOpImm f = some i) : i.wellFormed = true := by
  unfold decodeOpImm at h
  split at h
  · cases h; rfl
  · split_ifs at h; cases h; rfl
  · cases h; rfl
  · cases h; rfl
  · cases h; rfl
  · split_ifs at h <;> cases h <;> rfl
  · cases h; rfl
  · cases h; rfl

theorem decodeSystem_wellFormed {f : Fields} {i : Instr} (h : decodeSystem f = some i) : i.wellFormed = true := by
  unfold decodeSystem at h
  split at h
  · unfold decodePriv at h
    split_ifs at h <;> cases h <;> rfl
  all_goals cases h
  all_goals rfl

theorem decodeFields_wellFormed {f : Fields} {i : Instr} (h : decodeFields f = some i) : i.wellFormed = true := by
  have hb : evenOffset f.immB = true := evenOffset_append _
  have hj : evenOffset f.immJ = true := evenOffset_append _
  have hbase : (decodeOpBase f).wellFormed = true := by unfold decodeOpBase; split <;> rfl
  have hm : (decodeOpM f).wellFormed = true := by unfold decodeOpM; split <;> rfl
  unfold decodeFields at h
  split at h
  · unfold decodeLoad at h; split at h <;> cases h <;> rfl
  · unfold decodeMiscMem at h; split at h <;> cases h <;> rfl
  · exact decodeOpImm_wellFormed h
  · cases h; rfl
  · unfold decodeStore at h; split at h <;> cases h <;> rfl
  · unfold decodeOp at h
    split_ifs at h
    · cases h; exact hbase
    · cases h; exact hm
    · split at h <;> cases h <;> rfl
  · cases h; rfl
  · unfold decodeBranch at h; split at h <;> cases h <;> exact hb
  · split at h <;> cases h; rfl
  · cases h; exact hj
  · exact decodeSystem_wellFormed h
  · cases h

theorem decodeQuadrant0_wellFormed {f : Fields16} {i : Instr} (h : decodeQuadrant0 f = some i) :
    i.wellFormed = true := by
  have hi : wordScaled f.immIw = true := wordScaled_append _
  have hl : wordScaled f.immLs = true := wordScaled_append _
  unfold decodeQuadrant0 at h
  split at h
  · split at h <;> cases h
    simp_all [Instr.wellFormed]
  · cases h; exact hl
  · cases h; exact hl
  · cases h

theorem decodeCArith_wellFormed {f : Fields16} {i : Instr} (h : decodeCArith f = some i) : i.wellFormed = true := by
  unfold decodeCArith at h
  split at h
  · split_ifs at h; cases h; rfl
  · split_ifs at h; cases h; rfl
  · cases h; rfl
  · unfold decodeCa at h
    split_ifs at h
    split at h <;> cases h <;> rfl

theorem decodeQuadrant1_wellFormed {f : Fields16} {i : Instr} (h : decodeQuadrant1 f = some i) :
    i.wellFormed = true := by
  have hj : evenOffset f.immCj = true := evenOffset_append _
  have hb : evenOffset f.immCb = true := evenOffset_append _
  have hs : f.imm16sp.extractLsb' 0 4 = 0#4 := extractLsb'_append_zero _
  unfold decodeQuadrant1 at h
  split at h
  · split at h <;> cases h
    · rfl
    · simpa [Instr.wellFormed]
  · cases h; exact hj
  · cases h; rfl
  · split_ifs at h with h0 h2 <;> cases h
    · simp [Instr.wellFormed, hs, imm16sp_ne_zero h0]
    · simp [Instr.wellFormed, h0, h2]
  · exact decodeCArith_wellFormed h
  · cases h; exact hj
  · cases h; exact hb
  · cases h; exact hb

theorem decodeQuadrant2_wellFormed {f : Fields16} {i : Instr} (h : decodeQuadrant2 f = some i) :
    i.wellFormed = true := by
  have hl : wordScaled f.immLwsp = true := wordScaled_append _
  have hs : wordScaled f.immSwsp = true := wordScaled_append _
  unfold decodeQuadrant2 at h
  split at h
  · split at h <;> cases h; rfl
  · split at h <;> cases h
    simp_all [Instr.wellFormed]
  · unfold decodeCr at h
    split_ifs at h <;> cases h <;> simp_all [Instr.wellFormed]
  · cases h; exact hs
  · cases h

/-- What decodes is well-formed: the formats fix every low bit that has to be zero, and the decoder gives the reserved operands
to no instruction. -/
theorem decodeCode_wellFormed {c : Code} {i : Instr} (h : decodeCode c = some i) : i.wellFormed = true := by
  cases c with
  | word w => exact decodeFields_wellFormed h
  | half p =>
    rw [decodeCode, decodeFields16] at h
    split at h
    · exact decodeQuadrant0_wellFormed h
    · exact decodeQuadrant1_wellFormed h
    · exact decodeQuadrant2_wellFormed h
    · cases h

end Sys2Proof

namespace Sys2Proof.Machine

/-! ## The step of the hart -/

theorem finishStep_legal {r : Result} (h : LegalOutcome r) : LegalOutcome (finishStep r) := by
  cases r with
  | next s => exact (afterInstr_legal (h s rfl)).outcome
  | fault f => exact .fault f
  | refused f => exact .refused f

theorem executeNext_legal {s : State} (h : RegistersLegal s) : LegalOutcome (executeNext s) := by
  have hf := (fetch_keeps s).restricted.legal h
  unfold executeNext
  split <;> rename_i heq <;> rw [heq] at hf
  · exact (afterInstr_legal (takeException_legal hf _ _)).outcome
  · split
    · exact (afterInstr_legal (takeException_legal hf _ _)).outcome
    · rename_i hd
      split
      · exact .refused _
      · exact finishStep_legal (exec_legal hf _ (decodeCode_wellFormed hd))

theorem hartStep_legal {s : State} (h : RegistersLegal s) : LegalOutcome (hartStep s) := by
  have ht := turn_legal (atBoundary_legal h)
  unfold hartStep
  split <;> rename_i heq <;> rw [heq] at ht
  · exact ht.outcome
  · exact executeNext_legal ht

/-! ## Host events -/

/-- The registers come out of reset legal, in every build (R62, R63). -/
theorem resetWith_legal (c : Build) : RegistersLegal (State.resetWith c) := by
  have hpc : (c.rstVec ++ 0#1).getLsbD 0 = false := even_append _
  have hr : CsrsLegal (Csrs.reset c) := by
    unfold Csrs.reset
    constructor <;> dsimp only
    case mfdc => cases c.busType <;> rfl
    all_goals decide
  refine ⟨?_, fun n => ?_, hpc⟩
  · unfold State.resetWith
    cases c.mpcResetRunReq
    · exact { hr with dpc := hpc }
    · exact hr
  · show (Bank4.fill (0 : Word)).get n ≤ 50#32
    rw [Bank4.get_fill]
    decide

theorem resetEvent_legal (s : State) (held : Bool) : RegistersLegal (resetEvent s held) :=
  have h := resetWith_legal { s.cfg with mpcResetRunReq := s.pins.mpcResetRunReq && !held }
  ⟨h.csrs, h.events, h.pc⟩

section HostEvents

variable {s : State} (h : RegistersLegal s)
include h

theorem debugHalt_legal : RegistersLegal (debugHalt s) := by
  unfold debugHalt
  dsimp only
  split
  · exact h.of_eq rfl rfl rfl
  · exact (enterDebug_legal h _).of_eq rfl rfl rfl

theorem debugResume_legal : RegistersLegal (debugResume s) := by
  unfold debugResume
  dsimp only
  split_ifs
  · exact h.of_eq rfl rfl rfl
  · exact (exitDebug_legal h _).of_eq rfl rfl rfl
  · exact h

theorem debugReadCsr_legal (n : BitVec 12) : LegalOutcome (debugReadCsr s n) := by
  unfold debugReadCsr
  split
  · split
    · exact .refused _
    · exact h.outcome
    · exact RegistersLegal.outcome (SameRestricted.legal (csrReadEffect_restricted _ _) (h.of_eq rfl rfl rfl))
  · exact h.outcome

theorem debugWriteCsr_legal (n : BitVec 12) (v : Word) : LegalOutcome (debugWriteCsr s n v) := by
  unfold debugWriteCsr
  split
  · split
    · exact .refused _
    · exact h.outcome
    · exact (csrWrite_legal h _ _).outcome
  · exact h.outcome

theorem eccEvent_legal (a : Word) (u : Bool) : RegistersLegal (eccEvent s a u) := by
  have he : ∀ w e, RegistersLegal (setEcc s w e) := fun w e => h.of_eq rfl rfl rfl
  unfold eccEvent
  dsimp only
  split
  · split
    · exact he _ _
    · split
      · exact he _ _
      · exact h
    all_goals exact h
  · split
    · exact he _ _
    · exact h

/-- Every host event leaves the registers legal. -/
theorem hostEvent_legal (e : HostEvent) : LegalOutcome (hostEvent e s) := by
  cases e with
  | run => exact h.outcome
  | timerInt | extInt | nmiInt | nmiVec | mpcResetRunReq => exact RegistersLegal.outcome (h.of_eq rfl rfl rfl)
  | cpuHaltReq b | cpuRunReq b | mpcHaltReq b | mpcRunReq b =>
    unfold hostEvent
    dsimp only
    split
    · exact .fault _
    · exact RegistersLegal.outcome (h.of_eq rfl rfl rfl)
  | debugHalt => exact (debugHalt_legal h).outcome
  | debugResume => exact (debugResume_legal h).outcome
  | debugReadCsr n => exact debugReadCsr_legal h n
  | debugWriteCsr n v => exact debugWriteCsr_legal h n v
  | debugReadReg r =>
    refine RegistersLegal.outcome ?_
    split <;> exact h.of_eq rfl rfl rfl
  | debugWriteReg r v =>
    refine RegistersLegal.outcome ?_
    split
    · exact (setReg_restricted s r v).legal h
    · exact h
  | dmaRead a n => exact ((dmaRead_keeps s a n).restricted.legal h).outcome
  | dmaWrite a n v => exact ((dmaWrite_keeps s a n v).restricted.legal h).outcome
  | busWrite a b =>
    have hb := (answerSome_frame _).restricted.legal ((sendSome_frame s).restricted.legal h)
    exact ((otherMasterWrite_keeps _ a b).restricted.legal hb).outcome
  | eccError a u => exact (eccEvent_legal h a u).outcome
  | icacheError set =>
    refine RegistersLegal.outcome ?_
    split
    · exact (icacheErrorIn_keeps s set).restricted.legal h
    · exact h
  | reset held => exact (resetEvent_legal s held).outcome

end HostEvents

/-! ## The step -/

/-- The host event that is taken from the list makes no state illegal. -/
theorem RegistersLegal.inputs {s : State} (h : RegistersLegal s) (rest : List HostEvent) (n : Nat) :
    RegistersLegal { s with inputs := rest, stepNo := n } := h.of_eq rfl rfl rfl

/-- Settles O8: a step is a host event or a step of the hart, and each of its parts keeps the registers legal. -/
theorem stepKeepsRegistersLegal : Obligations.StepKeepsRegistersLegal := by
  unfold Obligations.StepKeepsRegistersLegal
  intro s t h hs
  refine (?_ : LegalOutcome (step s)) t hs
  unfold step
  split
  · exact hartStep_legal h
  · exact hartStep_legal (h.inputs _ _)
  · exact hostEvent_legal (h.inputs _ _) _

/-! ## Reset -/

/-- Every build comes out of reset safe, whatever its memory image. -/
theorem resetWith_safe (c : Build) : Safe (State.resetWith c) :=
  ⟨resetWith_legal c, ⟨wf_reset c, rising_imageEcc c⟩, Nat.zero_le _⟩

/-- Settles O10: a build that comes out of reset is in its reset state. -/
theorem resetIsSafe : Obligations.ResetIsSafe := by
  refine ⟨resetWith_safe cfgT, fun c t h => ?_⟩
  unfold boot at h
  split at h <;> cases h
  exact resetWith_safe c

end Sys2Proof.Machine

/-! PROOFS. The access check of the CSRs, what a Zicsr instruction does, and the CSRs that ignore writes (R43, R50, R51). -/

namespace Sys2Proof.Machine

/-! ## The access check (R40, R452) -/

/-- What the check lets through: a CSR that exists, is no trigger CSR, and is not written when it is read-only; in Debug Mode, if it
is for Debug Mode; and, if it is `mfdc`, not written without its FENCE.I. -/
theorem csrCheck_allowed {s : State} {n : BitVec 12} {write : Bool} {c : Csr} (ht : triggerCsr n = false)
    (hn : csrOfNumber n = some c) (hd : debugOnly c = true → debugMode s = true)
    (hw : write = true → n.extractLsb' 10 2 ≠ 3#2) (hf : write = true → c = .mfdc → fenceIMissing s = false) :
    csrCheck s n write = .allowed c := by
  unfold csrCheck
  rw [ht, hn]
  have h1 : (debugOnly c && !debugMode s) = false := by
    cases hc : debugOnly c
    · rfl
    · rw [hd hc]; rfl
  have h2 : (write && n.extractLsb' 10 2 == 3#2) = false := by
    cases write
    · rfl
    · simpa using hw rfl
  have h3 : (write && c == .mfdc && fenceIMissing s) = false := by
    cases write
    · rfl
    · by_cases hc : c = .mfdc
      · rw [hf rfl hc, Bool.and_false]
      · simp [hc]
  dsimp only
  rw [h1, h2, h3]
  rfl

/-- An access to a CSR that exists is illegal when it is Debug Mode's and the hart is not in it, or a write of a read-only one. -/
theorem csrCheck_illegal {s : State} {n : BitVec 12} {write : Bool} {c : Csr} (ht : triggerCsr n = false)
    (hn : csrOfNumber n = some c)
    (h : debugOnly c = true ∧ debugMode s = false ∨ write = true ∧ n.extractLsb' 10 2 = 3#2) :
    csrCheck s n write = .illegal := by
  unfold csrCheck
  rw [ht, hn]
  rcases h with ⟨h1, h2⟩ | ⟨rfl, h2⟩
  · simp [h1, h2]
  · simp [h2]

/-! ## What a Zicsr instruction does (R445 to R452) -/

/-- The state in which a CSR instruction that has read `v` writes: `v` is in `rd`, and the instruction counted (R672; log 52). -/
def csrRetired (s : State) (rd : Reg) (v : Word) : State :=
  retire (setReg s rd v) ⟨false, .csr, false⟩ (nextPc s false)

theorem csrRetired_wroteReg (s : State) (rd : Reg) (v : Word) :
    WroteReg s (csrRetired s rd v) rd v (s.pc + 4) := wroteReg_retire_setReg s rd v (s.pc + 4) _

@[simp] theorem csrRetired_pc (s : State) (rd : Reg) (v : Word) : (csrRetired s rd v).pc = s.pc + 4 := by
  simp [csrRetired, nextPc, ilen]
@[simp] theorem csrRetired_csr (s : State) (rd : Reg) (v : Word) : (csrRetired s rd v).csr = s.csr := by
  simp [csrRetired]
@[simp] theorem csrRetired_activity (s : State) (rd : Reg) (v : Word) : (csrRetired s rd v).activity = s.activity := by
  simp [csrRetired]
@[simp] theorem csrRetired_fenced (s : State) (rd : Reg) (v : Word) : (csrRetired s rd v).fenced = s.fenced := by
  simp [csrRetired]
@[simp] theorem csrRetired_fencesDue (s : State) (rd : Reg) (v : Word) :
    (csrRetired s rd v).fencesDue = s.fencesDue := by
  simp [csrRetired]

/-- A Zicsr instruction that the check allows, and whose CSR has no read side effect. -/
theorem exec_csr {s : State} {i : Instr} {f : CsrForm} {c : Csr} (hf : csrForm s i = some f)
    (hc : csrCheck s f.csr f.writes = .allowed c) (hg : c ≠ .dicago) :
    exec i s = .next (if f.writes then
        csrWrite (csrRetired s f.rd (csrRead (beforeStep s) c)) c (f.value (csrRead (beforeStep s) c))
      else csrRetired s f.rd (csrRead (beforeStep s) c)) := by
  obtain ⟨reads, hr⟩ := exec_csrForm hf
  have he : (if reads then csrReadEffect s c else s) = s := by
    split
    · unfold csrReadEffect
      split
      · contradiction
      · rfl
    · rfl
  rw [hr]
  unfold csrAccess
  rw [hc]
  dsimp only
  rw [he]
  rfl

/-- A Zicsr instruction the check finds illegal takes exception 2, with its bits in `mtval` (R452, R502, R523). -/
theorem exec_csr_illegal {s : State} {i : Instr} {f : CsrForm} (hf : csrForm s i = some f)
    (hc : csrCheck s f.csr f.writes = .illegal) :
    GoesTo (exec i s) fun t => Trapped s t 2 i.code.bits (exceptionTarget s) := by
  obtain ⟨reads, hr⟩ := exec_csrForm hf
  refine ⟨takeException s 2 i.code.bits, ?_, takeException_spec s _ _⟩
  rw [hr]
  unfold csrAccess
  rw [hc]

/-- A Zicsr instruction whose access is refused. -/
theorem exec_csr_refused {s : State} {i : Instr} {f : CsrForm} {why : Refusal} (hf : csrForm s i = some f)
    (hc : csrCheck s f.csr f.writes = .refused why) : exec i s = .refused why := by
  obtain ⟨reads, hr⟩ := exec_csrForm hf
  rw [hr]
  unfold csrAccess
  rw [hc]

/-- The number of a CSR that any mode may read, without a side effect, and of which no write needs a fence. -/
structure OrdinaryCsr (n : BitVec 12) (c : Csr) : Prop where
  trigger : triggerCsr n = false
  number : csrOfNumber n = some c
  anyMode : debugOnly c = false
  noEffect : c ≠ .dicago
  noFence : c ≠ .mfdc

section Ordinary

variable {s : State} {i : Instr} {f : CsrForm} {c : Csr} {n : BitVec 12} (hf : csrForm s i = some f)
  (hn : f.csr = n) (ho : OrdinaryCsr n c)
include ho

theorem OrdinaryCsr.allowed {w : Bool} (hw : w = true → n.extractLsb' 10 2 ≠ 3#2) : csrCheck s n w = .allowed c :=
  csrCheck_allowed ho.trigger ho.number (by simp [ho.anyMode]) hw fun _ h => absurd h ho.noFence

include hf hn

/-- An access that writes nothing puts the CSR's value in `rd`, and does nothing else. -/
theorem OrdinaryCsr.reads (hw : f.writes = false) :
    GoesTo (exec i s) fun t => WroteReg s t f.rd (csrRead (beforeStep s) c) (s.pc + 4) := by
  subst hn
  refine ⟨_, exec_csr hf (ho.allowed (by simp [hw])) ho.noEffect, ?_⟩
  rw [hw]
  exact csrRetired_wroteReg s f.rd _

/-- An access that writes, of a CSR that is not read-only: `rd` takes the old value, then the CSR is written. -/
theorem OrdinaryCsr.writes (hr : n.extractLsb' 10 2 ≠ 3#2) (hw : f.writes = true) :
    exec i s = .next (csrWrite (csrRetired s f.rd (csrRead (beforeStep s) c)) c (f.value (csrRead (beforeStep s) c))) := by
  subst hn
  rw [exec_csr hf (ho.allowed fun _ => hr) ho.noEffect, hw]
  rfl

/-- A CSR that ignores writes: `rd` takes its value, and nothing else happens. -/
theorem OrdinaryCsr.ignores (hr : n.extractLsb' 10 2 ≠ 3#2) (hx : ∀ u x, csrWrite u c x = u) :
    GoesTo (exec i s) fun t => WroteReg s t f.rd (csrRead (beforeStep s) c) (s.pc + 4) := by
  cases hw : f.writes
  · exact ho.reads hf hn hw
  · refine ⟨_, ho.writes hf hn hr hw, ?_⟩
    rw [hx]
    exact csrRetired_wroteReg s f.rd _

end Ordinary

/-! ## Constant CSRs and `mip` -/

/-- Settles O37: `misa` and the identification registers read constants, and `misa` ignores writes. -/
theorem constantCsrs : Obligations.ConstantCsrs := by
  intro s i f hf
  refine ⟨fun h => ?_, fun hw => ⟨fun h => ?_, fun h => ?_, fun h => ?_, fun h => ?_⟩⟩
  · exact OrdinaryCsr.ignores (c := .misa) hf h ⟨rfl, rfl, rfl, nofun, nofun⟩ (by decide) fun _ _ => rfl
  · exact OrdinaryCsr.reads (c := .mvendorid) hf h ⟨rfl, rfl, rfl, nofun, nofun⟩ hw
  · exact OrdinaryCsr.reads (c := .marchid) hf h ⟨rfl, rfl, rfl, nofun, nofun⟩ hw
  · exact OrdinaryCsr.reads (c := .mimpid) hf h ⟨rfl, rfl, rfl, nofun, nofun⟩ hw
  · exact OrdinaryCsr.reads (c := .mhartid) hf h ⟨rfl, rfl, rfl, nofun, nofun⟩ hw

/-- A bit of a single bit, widened and shifted to its place. -/
theorem getLsbD_flag (b : Bool) (n k : Nat) (hn : n < 32) :
    (((BitVec.ofBool b).setWidth 32 : Word) <<< n).getLsbD k = (decide (k = n) && b) := by
  rw [BitVec.getLsbD_shiftLeft, BitVec.getLsbD_setWidth, BitVec.getLsbD_ofBool]
  rcases lt_trichotomy k n with h | rfl | h
  · simp [h, h.ne]
  · simp [hn]
  · simp [h.ne', show k - n ≠ 0 by omega]

/-- The bits of `mip` (R50). -/
theorem getLsbD_mipNow (s : State) (u k : Nat) : (mipNow s u).getLsbD k =
    (decide (k = 30) && correctablePending s || decide (k = 11) && externalPending s u || decide (k = 7) && s.seen.timerInt) := by
  simp only [mipNow, BitVec.getLsbD_or, getLsbD_flag _ 30 k (by decide), getLsbD_flag _ 11 k (by decide), getLsbD_flag _ 7 k (by decide)]

theorem externalPending_iff (s : State) (u : Nat) : externalPending s u =
    decide (max s.csr.ithresh.toNat s.csr.icur.toNat < (picWinner s.cfg (picNow s u)).1.toNat) := by
  unfold externalPending
  rw [← Bool.decide_and]
  refine decide_eq_decide.mpr ?_
  rw [max_lt_iff, BitVec.lt_def, BitVec.lt_def]

/-- Settles O38: bit by bit, and a write of `mip` is ignored. -/
theorem mipShowsItsSources : Obligations.MipShowsItsSources := by
  intro s
  refine ⟨?_, ?_, ?_, fun k h7 h11 h30 => ?_, fun i f hf hn => ?_⟩
  · exact (getLsbD_mipNow s 5 30).trans (by simp [correctablePending, thresholdReached])
  · rw [← externalPending_iff]
    exact (getLsbD_mipNow s 5 11).trans (by simp)
  · exact (getLsbD_mipNow s 5 7).trans (by simp)
  · exact (getLsbD_mipNow s 5 k).trans (by simp [h7, h11, h30])
  · exact OrdinaryCsr.ignores (c := .mip) hf hn ⟨rfl, rfl, rfl, nofun, nofun⟩ (by decide) fun _ _ => rfl

end Sys2Proof.Machine

/-! PROOFS. The plain CSRs (R38, R42 to R49, R101, R106, R110, R116, R117, R120, R723). -/

namespace Sys2Proof.Machine

/-! ## Plain CSRs -/

/-- The model's legal error counter is the specified one: the threshold is at most 26 (R106). -/
theorem legalErrorCounter_eq (v : Word) : legalErrorCounter v = atMost26 v := by
  have hd : (v.extractLsb' 27 5).toNat = v.toNat / 2 ^ 27 := by
    rw [BitVec.extractLsb'_toNat, Nat.shiftRight_eq_div_pow]
    omega
  unfold legalErrorCounter atMost26
  rw [← hd]
  congr 1
  refine BitVec.eq_of_toNat_eq ?_
  rw [BitVec.toNat_ofNat]
  split <;> rename_i h <;> rw [BitVec.le_def] at h <;> simp only [BitVec.toNat_ofNat] at * <;> omega

/-- Entry `e` of the table of plain CSRs is CSR `c` of the model. -/
structure PlainAs (e : PlainCsr) (c : Csr) : Prop where
  trigger : triggerCsr e.number = false
  number : csrOfNumber e.number = some c
  anyMode : debugOnly c = false
  writable : e.number.extractLsb' 10 2 ≠ 3#2
  noEffect : c ≠ .dicago
  mfdc : c = .mfdc ↔ e.number = 0x7F9
  read : ∀ s, csrRead (beforeStep s) c = e.read s.csr
  write : ∀ s v, csrWrite s c v =
    { (if e.number = 0x7F9 then recordMfdcWrite s else s) with
      csr := e.write s.csr v, mracData := (csrWrite s c v).mracData, mracFetch := (csrWrite s c v).mracFetch
      mfdcOld := (csrWrite s c v).mfdcOld }

/-- Every plain CSR is one of the model's (R39). -/
theorem plainCsrs_plainAs {e : PlainCsr} (he : e ∈ plainCsrs) : ∃ c, PlainAs e c := by
  have count : ∀ v, atMost26 v = legalErrorCounter v := fun v => (legalErrorCounter_eq v).symm
  simp only [plainCsrs, List.cons_append, List.nil_append, List.mem_cons, List.not_mem_nil, or_false] at he
  rcases he with rfl | rfl | rfl | rfl | rfl | rfl | rfl | rfl | rfl | rfl | rfl | rfl | rfl | rfl | rfl
  · exact ⟨.mstatus, rfl, rfl, rfl, by decide, nofun, by decide, fun _ => rfl, fun _ _ => rfl⟩
  · exact ⟨.mie, rfl, rfl, rfl, by decide, nofun, by decide, fun _ => rfl, fun _ _ => rfl⟩
  · exact ⟨.mtvec, rfl, rfl, rfl, by decide, nofun, by decide, fun _ => rfl, fun _ _ => rfl⟩
  · exact ⟨.mscratch, rfl, rfl, rfl, by decide, nofun, by decide, fun _ => rfl, fun _ _ => rfl⟩
  · exact ⟨.mepc, rfl, rfl, rfl, by decide, nofun, by decide, fun _ => rfl, fun _ _ => rfl⟩
  · exact ⟨.mcause, rfl, rfl, rfl, by decide, nofun, by decide, fun _ => rfl, fun _ _ => rfl⟩
  · exact ⟨.mtval, rfl, rfl, rfl, by decide, nofun, by decide, fun _ => rfl, fun _ _ => rfl⟩
  · exact ⟨.mrac, rfl, rfl, rfl, by decide, nofun, by decide, fun _ => rfl, fun _ _ => rfl⟩
  · exact ⟨.mgpmc, rfl, rfl, rfl, by decide, nofun, by decide, fun _ => rfl, fun _ _ => rfl⟩
  · exact ⟨.micect, rfl, rfl, rfl, by decide, nofun, by decide, fun _ => rfl, fun _ _ => by simp only [count]; rfl⟩
  · exact ⟨.miccmect, rfl, rfl, rfl, by decide, nofun, by decide, fun _ => rfl, fun _ _ => by simp only [count]; rfl⟩
  · exact ⟨.mdccmect, rfl, rfl, rfl, by decide, nofun, by decide, fun _ => rfl, fun _ _ => by simp only [count]; rfl⟩
  · exact ⟨.mcgc, rfl, rfl, rfl, by decide, nofun, by decide, fun _ => rfl, fun _ _ => rfl⟩
  · refine ⟨.mfdc, rfl, rfl, rfl, by decide, nofun, by decide, fun _ => rfl, fun s v => ?_⟩
    simp only [csrWrite, writeMfdc, recordMfdcWrite]
    split <;> rfl
  · exact ⟨.meivt, rfl, rfl, rfl, by decide, nofun, by decide, fun _ => rfl, fun _ _ => rfl⟩

/-- The instruction has read, counted and retired to `w`, and then written: `t`. `u` is `s` with the records of FENCE.I that a
write of `mfdc` leaves. -/
theorem WroteReg.wroteCsr {s u w t : State} {rd : Reg} {old : Word} {csrs : Csrs} (hw : WroteReg s w rd old (s.pc + 4))
    (hu : u = { s with fenced := t.fenced, fencesDue := t.fencesDue })
    (ht : t = { w with
      csr := csrs, mracData := t.mracData, mracFetch := t.mracFetch, mfdcOld := t.mfdcOld
      fenced := t.fenced, fencesDue := t.fencesDue }) : WroteCsr u t rd old csrs := by
  have hreg : ∀ r, reg t r = reg w r := fun r => reg_congr (by rw [ht]) r
  refine ⟨fun h => (hreg rd).trans (hw.target h), fun r h => ?_, rfl, by rw [ht], ?_, ?_, fun b => ?_, ?_⟩
  · rw [hreg, hw.others r h, hu]; rfl
  · rw [hu, ht]; exact hw.pc
  · rw [hu, ht]; exact hw.retired
  · have h1 : dataByte t b = dataByte w b := dataByte_congr (by rw [ht]) (by rw [ht]) b
    rw [h1, hw.memory, hu]; rfl
  · have hf := hw.frame
    rw [hu, ht, hf]

/-- The records of FENCE.I after an instruction that writes `mfdc` outside db-halt: the one before it is used up, the one after it
due (R723). -/
theorem recordMfdcWrite_csrRetired (s : State) (rd : Reg) (v : Word) (h : s.activity ≠ .dbHalt) :
    recordMfdcWrite (csrRetired s rd v) = { csrRetired s rd v with
      fenced := s.fenced.erase s.pc, fencesDue := (s.pc + 4) :: s.fencesDue.erase (s.pc + 4) } := by
  unfold recordMfdcWrite
  rw [if_neg (by simpa using h), csrRetired_pc, csrRetired_fenced, csrRetired_fencesDue, BitVec.add_sub_cancel,
    ← csrRetired_pc s rd v]

theorem recordMfdcWrite_halted {s : State} (h : s.activity = .dbHalt) : recordMfdcWrite s = s := by
  unfold recordMfdcWrite
  rw [if_pos (by simpa using h)]

/-- A program's write of `mfdc` without the FENCE.I before it is refused (R723, D32). -/
theorem csrCheck_mfdcFence {s : State} (h : fenceIMissing s = true) : csrCheck s 0x7F9 true = .refused .mfdcFence := by
  have ht : triggerCsr 0x7F9 = false := rfl
  have hn : csrOfNumber 0x7F9 = some .mfdc := rfl
  unfold csrCheck
  rw [ht, hn]
  simp [debugOnly, h]

/-- A plain CSR may be accessed, but for a write of `mfdc` that needs its FENCE.I. -/
theorem PlainAs.allowed {e : PlainCsr} {c : Csr} (hc : PlainAs e c) {s : State} {w : Bool}
    (h : ¬((e.number = 0x7F9 ∧ w = true ∧ s.activity ≠ .dbHalt) ∧ s.pc ∉ s.fenced)) : csrCheck s e.number w = .allowed c := by
  refine csrCheck_allowed hc.trigger hc.number (by simp [hc.anyMode]) (fun _ => hc.writable) fun hw hx => ?_
  simp only [fenceIMissing, Bool.and_eq_false_iff, bne_eq_false_iff_eq, Bool.not_eq_false', List.contains_iff_mem]
  by_contra hno
  rw [not_or] at hno
  exact h ⟨⟨hc.mfdc.mp hx, hw, hno.1⟩, hno.2⟩

section Writes

variable {e : PlainCsr} {c : Csr} (hc : PlainAs e c) (s : State) (rd : Reg) (v : Word)
include hc

/-- A program's write of `mfdc`: the FENCE.I before it is used up, and the one after it is due (R723). -/
theorem PlainAs.wrote_mfdc (h : e.number = 0x7F9) (ha : s.activity ≠ .dbHalt) :
    WroteCsr { s with fenced := s.fenced.erase s.pc, fencesDue := (s.pc + 4) :: s.fencesDue.erase (s.pc + 4) }
      (csrWrite (csrRetired s rd (e.read s.csr)) c v) rd (e.read s.csr) (e.write s.csr v) := by
  have hwrite := hc.write (csrRetired s rd (e.read s.csr)) v
  rw [csrRetired_csr, if_pos h, recordMfdcWrite_csrRetired _ _ _ ha] at hwrite
  refine (csrRetired_wroteReg s rd (e.read s.csr)).wroteCsr ?_ ?_
  · rw [hwrite]
  · rw [hwrite]

/-- Any other write of a plain CSR. -/
theorem PlainAs.wrote (h : ¬(e.number = 0x7F9 ∧ s.activity ≠ .dbHalt)) :
    WroteCsr s (csrWrite (csrRetired s rd (e.read s.csr)) c v) rd (e.read s.csr) (e.write s.csr v) := by
  have hwrite := hc.write (csrRetired s rd (e.read s.csr)) v
  have hr : (if e.number = 0x7F9 then recordMfdcWrite (csrRetired s rd (e.read s.csr))
      else csrRetired s rd (e.read s.csr)) = csrRetired s rd (e.read s.csr) := by
    split
    · next h7 =>
      refine recordMfdcWrite_halted ?_
      rw [csrRetired_activity]
      by_contra ha
      exact h ⟨h7, ha⟩
    · rfl
  rw [csrRetired_csr, hr] at hwrite
  refine (csrRetired_wroteReg s rd (e.read s.csr)).wroteCsr ?_ ?_
  · rw [hwrite]; simp
  · rw [hwrite]

end Writes

/-- An access that writes nothing changes no CSR. -/
theorem csrRetired_wroteCsr (s : State) (rd : Reg) (v : Word) : WroteCsr s (csrRetired s rd v) rd v s.csr :=
  (csrRetired_wroteReg s rd v).wroteCsr (by simp) (by rw [← csrRetired_csr s rd v])

/-- Settles O36: the refused write of `mfdc`, then its allowed write, any other write, and no write. -/
theorem plainCsrsStoreLegalValues : Obligations.PlainCsrsStoreLegalValues := by
  intro s i f e hf he hn feature u
  obtain ⟨c, hc⟩ := plainCsrs_plainAs he
  split
  · next hm =>
    obtain ⟨⟨h7, hw, ha⟩, hfence⟩ := hm
    refine exec_csr_refused hf ?_
    rw [h7, hw]
    exact csrCheck_mfdcFence (by simp [fenceIMissing, ha, hfence])
  · next hm =>
    refine ⟨_, exec_csr hf (hn ▸ hc.allowed (hn ▸ hm)) hc.noEffect, ?_⟩
    rw [hc.read]
    by_cases hx : feature
    · have hu : u = { s with
          fenced := s.fenced.erase s.pc, fencesDue := (s.pc + 4) :: s.fencesDue.erase (s.pc + 4) } := if_pos hx
      obtain ⟨h7, hw, ha⟩ := hx
      rw [hu, if_pos hw, if_pos hw]
      exact hc.wrote_mfdc s f.rd _ (hn ▸ h7) ha
    · have hu : u = s := if_neg hx
      rw [hu]
      cases hw : f.writes
      · exact csrRetired_wroteCsr s f.rd _
      · exact hc.wrote s f.rd _ fun h => hx ⟨hn.trans h.1, hw, h.2⟩

end Sys2Proof.Machine

/-! PROOFS. CSR accesses that trap or are refused, and the writes of the counters (R39 to R41, R52 to R57, R60, R672). -/

namespace Sys2Proof.Machine

/-! ## Accesses that trap (R39 to R41, R60, R452) -/

/-- The trigger CSRs are 0x7A0 to 0x7A3 (R60). -/
theorem triggerCsr_iff (n : BitVec 12) : triggerCsr n = true ↔ 0x7A0 ≤ n.toNat ∧ n.toNat ≤ 0x7A3 := by
  have hx : (n.extractLsb' 2 10).toNat = n.toNat / 4 := by
    rw [BitVec.extractLsb'_toNat, Nat.shiftRight_eq_div_pow]
    omega
  unfold triggerCsr
  rw [beq_iff_eq, ← BitVec.toNat_inj, hx, BitVec.toNat_ofNat]
  omega

/-- Every number of the model's table is in the table of R39. -/
theorem csrTable_exists : ∀ e ∈ csrTable, CsrExists e.1.toNat := by decide +kernel

/-- The numbers of a numbered CSR's range: 32 by 32, from 3 on. -/
theorem toNat_of_range {n : BitVec 12} {k : BitVec 7} (h : n.extractLsb' 5 7 = k ∧ 3#5 ≤ n.extractLsb' 0 5) :
    32 * k.toNat + 3 ≤ n.toNat ∧ n.toNat ≤ 32 * k.toNat + 31 := by
  obtain ⟨rfl, h3⟩ := h
  have h1 : (n.extractLsb' 5 7).toNat = n.toNat / 32 := by
    rw [BitVec.extractLsb'_toNat, Nat.shiftRight_eq_div_pow]
    omega
  have h2 : (n.extractLsb' 0 5).toNat = n.toNat % 32 := by simp [BitVec.extractLsb'_toNat]
  rw [BitVec.le_def, h2, BitVec.toNat_ofNat] at h3
  omega

/-- A CSR the model knows is in the table of R39. -/
theorem csrExists_of_number {n : BitVec 12} {c : Csr} (h : csrOfNumber n = some c) : CsrExists n.toNat := by
  unfold csrOfNumber at h
  dsimp only at h
  split_ifs at h with h1 h2 h3
  · exact .inr (.inl (toNat_of_range (k := 0x19#7) (by simpa using h1)))
  · exact .inr (.inr (.inr (.inr (.inr (.inl (toNat_of_range (k := 0x58#7) (by simpa using h2)))))))
  · exact .inr (.inr (.inr (.inr (.inr (.inr (.inl (toNat_of_range (k := 0x5C#7) (by simpa using h3))))))))
  · rw [Option.map_eq_some_iff] at h
    obtain ⟨e, he, -⟩ := h
    have hn : e.1 = n := by simpa using List.find?_some he
    exact hn ▸ csrTable_exists e (List.mem_of_find?_eq_some he)

/-- The read-only CSRs exist, and their numbers say that they are read-only (R41). -/
theorem readOnly_number {n : BitVec 12} (h : n ∈ [(0xF11 : BitVec 12), 0xF12, 0xF13, 0xF14, 0xFC0, 0xFC8]) :
    triggerCsr n = false ∧ (∃ c, csrOfNumber n = some c) ∧ n.extractLsb' 10 2 = 3#2 := by
  simp only [List.mem_cons, List.not_mem_nil, or_false] at h
  rcases h with rfl | rfl | rfl | rfl | rfl | rfl <;> exact ⟨rfl, ⟨_, rfl⟩, rfl⟩

/-- The CSRs for Debug Mode exist (R39). -/
theorem debugOnly_number {n : BitVec 12}
    (h : n ∈ [(0x7B0 : BitVec 12), 0x7B1, 0x7B2, 0x7B3, 0x7C4, 0x7C8, 0x7C9, 0x7CA, 0x7CB]) :
    triggerCsr n = false ∧ ∃ c, csrOfNumber n = some c ∧ debugOnly c = true := by
  simp only [List.mem_cons, List.not_mem_nil, or_false] at h
  rcases h with rfl | rfl | rfl | rfl | rfl | rfl | rfl | rfl | rfl <;> exact ⟨rfl, _, rfl, rfl⟩

/-- Settles O40: each case is one of the access check's answers. -/
theorem illegalCsrAccessesTrap : Obligations.IllegalCsrAccessesTrap := by
  intro s i f hf
  refine ⟨fun hn ht => ?_, fun hn hw => ?_, fun hn hd => ?_, fun hn => ?_⟩
  · refine exec_csr_illegal hf ?_
    have hx : csrOfNumber f.csr = none := Option.eq_none_iff_forall_ne_some.mpr fun c hc => hn (csrExists_of_number hc)
    rw [← triggerCsr_iff, Bool.not_eq_true] at ht
    unfold csrCheck
    rw [ht, hx]
    rfl
  · obtain ⟨ht, ⟨c, hc⟩, hr⟩ := readOnly_number hn
    exact exec_csr_illegal hf (csrCheck_illegal ht hc (.inr ⟨hw, hr⟩))
  · obtain ⟨ht, c, hc, hx⟩ := debugOnly_number hn
    exact exec_csr_illegal hf (csrCheck_illegal ht hc (.inl ⟨hx, hd⟩))
  · refine exec_csr_refused hf ?_
    have ht : triggerCsr f.csr = true := by
      simp only [List.mem_cons, List.not_mem_nil, or_false] at hn
      rcases hn with h | h | h | h <;> rw [h] <;> rfl
    unfold csrCheck
    rw [ht]
    rfl

/-! ## The count of an event (R54, R110, R673) -/

/-- Counting for one counter changes that counter alone. -/
theorem addEvent_get (f : Nat → Nat → Nat) (c : Counters) (m n : BitVec 2) :
    (addEvent f c m).hpm.get n =
      if n = m then c.hpm.get n + BitVec.ofNat 64 (f n.toNat (c.event.get n).toNat) else c.hpm.get n := by
  unfold addEvent
  rw [Bank4.get_set]
  split
  · rename_i h
    rw [h]
  · rfl

theorem addEvent_event (f : Nat → Nat → Nat) (c : Counters) (m : BitVec 2) : (addEvent f c m).event = c.event := rfl

/-- Each counter counts its own event, while `mgpmc.enable` is 1. -/
theorem countEvents_get (s : State) (f : Nat → Nat → Nat) (n : BitVec 2) :
    (countEvents s f).counters.hpm.get n = s.counters.hpm.get n +
      if s.csr.mgpmc.getLsbD 0 = true then BitVec.ofNat 64 (f n.toNat (s.counters.event.get n).toNat) else 0 := by
  have hn : n = 0 ∨ n = 1 ∨ n = 2 ∨ n = 3 := by decide +revert
  unfold countEvents
  split
  · simp only [addEvent_get, addEvent_event]
    rcases hn with rfl | rfl | rfl | rfl <;> rfl
  · exact (BitVec.add_zero _).symm

/-- What an instruction that retires adds to an event counter. -/
theorem retire_get (s : State) (r : Retired) (next : Word) (n : BitVec 2) :
    (retire s r next).counters.hpm.get n = s.counters.hpm.get n +
      if s.csr.mgpmc.getLsbD 0 = true then BitVec.ofNat 64 (retiredEvents s.stepNo r (s.counters.event.get n).toNat) else 0 :=
  countEvents_get s (fun _ e => retiredEvents s.stepNo r e) n

/-- A CSR instruction counts at most once for any event (R455, R673). -/
theorem retiredEvents_csr_le (step e : Nat) : retiredEvents step ⟨false, .csr, false⟩ e ≤ 1 := by
  unfold retiredEvents
  split <;> simp [Bool.toNat_le]

/-! ## Counter writes (R52 to R57, R672) -/

/-- `mcycle` is at the written value in the step of the write (R672). -/
theorem mcycleNow_setMcycle (s : State) (v : BitVec 64) : mcycleNow (setMcycle s v) = v := by
  simp [mcycleNow, setMcycle, cyclesFrom]

theorem mcycleNow_csrRetired (s : State) (rd : Reg) (v : Word) : mcycleNow (csrRetired s rd v) = mcycleNow s := by
  unfold mcycleNow
  rw [(csrRetired_wroteReg s rd v).frame]

/-- The CSR instruction has counted itself at most once in an event counter (R672). -/
theorem csrRetired_hpm (s : State) (rd : Reg) (v : Word) (n : BitVec 2) :
    ∃ d ≤ 1#64, (csrRetired s rd v).counters.hpm.get n = s.counters.hpm.get n + d := by
  have h := retire_get (setReg s rd v) ⟨false, .csr, false⟩ (nextPc s false) n
  rw [setReg_counters, setReg_csr] at h
  refine ⟨_, ?_, h⟩
  have h1 := retiredEvents_csr_le (setReg s rd v).stepNo (s.counters.event.get n).toNat
  generalize retiredEvents _ _ _ = k at h1 ⊢
  split
  · interval_cases k <;> decide
  · decide

/-- Number `32 * k + n` has the fields `k` and `n` of a numbered CSR. -/
theorem rangeNumber_fields (k : BitVec 7) (n : BitVec 5) :
    (BitVec.ofNat 12 (32 * k.toNat + n.toNat)).toNat = 32 * k.toNat + n.toNat ∧
    (BitVec.ofNat 12 (32 * k.toNat + n.toNat)).extractLsb' 5 7 = k ∧
    (BitVec.ofNat 12 (32 * k.toNat + n.toNat)).extractLsb' 0 5 = n := by
  have hk := k.isLt
  have hn := n.isLt
  have ht : (BitVec.ofNat 12 (32 * k.toNat + n.toNat)).toNat = 32 * k.toNat + n.toNat := by
    rw [BitVec.toNat_ofNat]
    omega
  refine ⟨ht, BitVec.eq_of_toNat_eq ?_, BitVec.eq_of_toNat_eq ?_⟩
  · rw [BitVec.extractLsb'_toNat, ht, Nat.shiftRight_eq_div_pow]
    omega
  · rw [BitVec.extractLsb'_toNat, ht, Nat.shiftRight_zero]
    omega

/-- Only the numbers of field 0x3D can be trigger CSRs. -/
theorem rangeNumber_noTrigger {k : BitVec 7} {n : BitVec 5} (h : k.toNat ≠ 0x3D) :
    triggerCsr (BitVec.ofNat 12 (32 * k.toNat + n.toNat)) = false := by
  have hn := n.isLt
  rw [← Bool.not_eq_true, triggerCsr_iff, (rangeNumber_fields k n).1]
  omega

/-- The numbers below 0xC00 are not read-only (R41). -/
theorem writable_of_lt {n : BitVec 12} (h : n.toNat < 0xC00) : n.extractLsb' 10 2 ≠ 3#2 := by
  intro hc
  have := congrArg BitVec.toNat hc
  rw [BitVec.extractLsb'_toNat, Nat.shiftRight_eq_div_pow, BitVec.toNat_ofNat] at this
  omega

section NumberedCsrs

variable {n : BitVec 5} (h : 3 ≤ n.toNat)
include h

/-- The low halves of the event counters stand at 0xB00 plus their number (R39). -/
theorem mhpmcounter_ordinary : OrdinaryCsr (BitVec.ofNat 12 (0xB00 + n.toNat)) (.mhpmcounter n) := by
  obtain ⟨h1, h2, h3⟩ := rangeNumber_fields 0x58#7 n
  have hle : 3#5 ≤ n := h
  refine ⟨rangeNumber_noTrigger (k := 0x58#7) (by decide), ?_, rfl, nofun, nofun⟩
  unfold csrOfNumber
  dsimp only at h2 h3 ⊢
  rw [show 0xB00 + n.toNat = 32 * (0x58#7).toNat + n.toNat from rfl, h2, h3]
  simp [hle]

/-- Their high halves stand at 0xB80 plus their number. -/
theorem mhpmcounterh_ordinary : OrdinaryCsr (BitVec.ofNat 12 (0xB80 + n.toNat)) (.mhpmcounterh n) := by
  obtain ⟨h1, h2, h3⟩ := rangeNumber_fields 0x5C#7 n
  have hle : 3#5 ≤ n := h
  refine ⟨rangeNumber_noTrigger (k := 0x5C#7) (by decide), ?_, rfl, nofun, nofun⟩
  unfold csrOfNumber
  dsimp only at h2 h3 ⊢
  rw [show 0xB80 + n.toNat = 32 * (0x5C#7).toNat + n.toNat from rfl, h2, h3]
  simp [hle]

/-- The event selectors stand at 0x320 plus their number. -/
theorem mhpmevent_ordinary : OrdinaryCsr (BitVec.ofNat 12 (0x320 + n.toNat)) (.mhpmevent n) := by
  obtain ⟨h1, h2, h3⟩ := rangeNumber_fields 0x19#7 n
  have hle : 3#5 ≤ n := h
  refine ⟨rangeNumber_noTrigger (k := 0x19#7) (by decide), ?_, rfl, nofun, nofun⟩
  unfold csrOfNumber
  dsimp only at h2 h3 ⊢
  rw [show 0x320 + n.toNat = 32 * (0x19#7).toNat + n.toNat from rfl, h2, h3]
  simp [hle]

end NumberedCsrs

/-- The counters the model has are 3 to 6 (R53, R54). -/
theorem functional_iff (n : BitVec 5) : functional n = true ↔ 3 ≤ n.toNat ∧ n.toNat ≤ 6 := by
  simp [functional, BitVec.le_def]

theorem functional_of_ge {n : BitVec 5} (h : 7 ≤ n.toNat) : functional n = false := by
  rw [← Bool.not_eq_true, functional_iff]
  omega

/-- An event above 50 is kept at 50 (R56). -/
theorem legalEvent_eq (v : Word) : legalEvent v = BitVec.ofNat 32 (min v.toNat 50) := by
  unfold legalEvent
  split
  · next h =>
    have hv : 50 ≤ v.toNat := h
    rw [min_eq_right hv]
    rfl
  · next h =>
    have hv : ¬50 ≤ v.toNat := h
    rw [min_eq_left (Nat.le_of_not_le hv), BitVec.ofNat_toNat, BitVec.setWidth_eq]

section CounterHalves

variable {n : BitVec 5} (u : State) (v : Word)

theorem csrWrite_mhpmcounter_get (h : functional n = true) : (csrWrite u (.mhpmcounter n) v).counters.hpm.get (bankIndex n) =
    (u.counters.hpm.get (bankIndex n)).extractLsb' 32 32 ++ v := by
  simp only [csrWrite, h, if_true, withCounters, Bank4.get_set, withLow]

theorem csrWrite_mhpmcounterh_get (h : functional n = true) : (csrWrite u (.mhpmcounterh n) v).counters.hpm.get (bankIndex n) =
    v ++ (u.counters.hpm.get (bankIndex n)).extractLsb' 0 32 := by
  simp only [csrWrite, h, if_true, withCounters, Bank4.get_set, withHigh]

theorem csrRead_csrWrite_mhpmevent (h : functional n = true) :
    csrRead (csrWrite u (.mhpmevent n) v) (.mhpmevent n) = legalEvent v := by
  simp only [csrRead, csrWrite, h, if_true, withCounters, Bank4.get_set]

/-- A write of a hardwired counter half or selector is ignored (R53, R57). -/
theorem csrWrite_hardwired {c : Csr} (h : functional n = false)
    (hc : c = .mhpmcounter n ∨ c = .mhpmcounterh n ∨ c = .mhpmevent n) : csrWrite u c v = u := by
  rcases hc with rfl | rfl | rfl <;> simp [csrWrite, h]

/-- The hardwired counters and selectors read 0. -/
theorem csrRead_hardwired {c : Csr} (h : functional n = false)
    (hc : c = .mhpmcounter n ∨ c = .mhpmcounterh n ∨ c = .mhpmevent n) : csrRead u c = 0 := by
  rcases hc with rfl | rfl | rfl <;> simp [csrRead, h]

end CounterHalves

/-- None of the numbered counter CSRs is read-only. -/
theorem counterNumber_writable {first : Nat} (n : BitVec 5) (h : first ≤ 0xB80) :
    (BitVec.ofNat 12 (first + n.toNat)).extractLsb' 10 2 ≠ 3#2 := by
  have hn := n.isLt
  refine writable_of_lt ?_
  rw [BitVec.toNat_ofNat]
  omega

/-- An access of a hardwired counter half or selector only puts 0 in `rd`. -/
theorem hardwired_wroteReg {s : State} {i : Instr} {f : CsrForm} {n : BitVec 5} {c : Csr} {first : Nat}
    (hf : csrForm s i = some f) (hn : f.csr = BitVec.ofNat 12 (first + n.toNat)) (hb : first ≤ 0xB80) (h : functional n = false)
    (ho : OrdinaryCsr (BitVec.ofNat 12 (first + n.toNat)) c)
    (hc : c = .mhpmcounter n ∨ c = .mhpmcounterh n ∨ c = .mhpmevent n) :
    GoesTo (exec i s) fun t => WroteReg s t f.rd 0 (s.pc + 4) := by
  have hx := ho.ignores hf hn (counterNumber_writable n hb) fun u x => csrWrite_hardwired u x h hc
  rwa [csrRead_hardwired _ h hc] at hx

/-- Settles O39: the counter half is written after the instruction has counted itself. -/
theorem counterWrites : Obligations.CounterWrites := by
  intro s i f n hf hw goes old is high low
  refine ⟨fun hn => ?_, fun hn => ?_, fun hn => ?_, fun hn => ?_, fun h3 h6 => ?_, fun h7 hn => ?_⟩
  · refine ⟨_, OrdinaryCsr.writes (c := .mcycle) hf hn ⟨rfl, rfl, rfl, nofun, nofun⟩ (by decide) hw, ?_⟩
    exact (mcycleNow_setMcycle _ _).trans (by rw [mcycleNow_csrRetired]; rfl)
  · refine ⟨_, OrdinaryCsr.writes (c := .mcycleh) hf hn ⟨rfl, rfl, rfl, nofun, nofun⟩ (by decide) hw, ?_⟩
    exact (mcycleNow_setMcycle _ _).trans (by rw [mcycleNow_csrRetired]; rfl)
  · refine ⟨_, OrdinaryCsr.writes (c := .minstret) hf hn ⟨rfl, rfl, rfl, nofun, nofun⟩ (by decide) hw, ?_⟩
    rw [← (csrRetired_wroteReg s f.rd (csrRead (beforeStep s) .minstret)).retired]
    rfl
  · refine ⟨_, OrdinaryCsr.writes (c := .minstreth) hf hn ⟨rfl, rfl, rfl, nofun, nofun⟩ (by decide) hw, ?_⟩
    rw [← (csrRetired_wroteReg s f.rd (csrRead (beforeStep s) .minstreth)).retired]
    rfl
  · have hfun := (functional_iff n).mpr ⟨h3, h6⟩
    refine ⟨fun hn => ?_, fun hn => ?_, fun hn => ?_⟩
    · refine ⟨_, (mhpmcounter_ordinary h3).writes hf hn (counterNumber_writable n (by decide)) hw, ?_⟩
      obtain ⟨d, hd, he⟩ := csrRetired_hpm s f.rd (csrRead (beforeStep s) (.mhpmcounter n)) (bankIndex n)
      exact ⟨d, hd, (csrWrite_mhpmcounter_get _ _ hfun).trans (by rw [he])⟩
    · refine ⟨_, (mhpmcounterh_ordinary h3).writes hf hn (counterNumber_writable n (by decide)) hw, ?_⟩
      obtain ⟨d, hd, he⟩ := csrRetired_hpm s f.rd (csrRead (beforeStep s) (.mhpmcounterh n)) (bankIndex n)
      exact ⟨d, hd, (csrWrite_mhpmcounterh_get _ _ hfun).trans (by rw [he])⟩
    · refine ⟨_, (mhpmevent_ordinary h3).writes hf hn (counterNumber_writable n (by decide)) hw, ?_⟩
      exact (csrRead_csrWrite_mhpmevent _ _ hfun).trans (legalEvent_eq _)
  · have hfun := functional_of_ge h7
    have h3 : 3 ≤ n.toNat := by omega
    rcases hn with hn | hn | hn
    · exact hardwired_wroteReg hf hn (by decide) hfun (mhpmcounter_ordinary h3) (.inl rfl)
    · exact hardwired_wroteReg hf hn (by decide) hfun (mhpmcounterh_ordinary h3) (.inr (.inl rfl))
    · exact hardwired_wroteReg hf hn (by decide) hfun (mhpmevent_ordinary h3) (.inr (.inr rfl))

end Sys2Proof.Machine

/-! PROOFS. The event counters count the exact events once (R54, R110, R673). -/

namespace Sys2Proof.Machine

/-- The events that count a class of instructions exactly, whatever the microarchitecture (R300, R404, R673). -/
def exactEvents : List Word := [0, 4, 5, 6, 9, 10, 11, 12, 21, 22, 23]

/-- The exact event of a class, where it has one. -/
def classEvents : InstrClass → List Word
  | .alu => [15]
  | .mul => [9]
  | .div => [10]
  | .load => [11]
  | .store => [12]
  | .fence => [21]
  | .fenceI => [22]
  | .mret => [23]
  | .csr | .branch _ | .jump => []

/-- The exact events of a retired instruction: 4, 5 or 6 by its length, and its class's own. -/
def ownEvents (r : Retired) : List Word := 4 :: (if r.short then 5 else 6) :: classEvents r.cls

/-- The model counts the exact events as `ownEvents` lists them; event 15 is exact for the integer instructions. -/
theorem retiredEvents_exact (step : Nat) (r : Retired) {e : Word} (h : e ∈ exactEvents ∨ r.cls = .alu ∧ e = 15) :
    retiredEvents step r e.toNat = if e ∈ ownEvents r then 1 else 0 := by
  obtain ⟨short, cls, misaligned⟩ := r
  obtain h | ⟨rfl, rfl⟩ := h
  · simp only [exactEvents, List.mem_cons, List.not_mem_nil, or_false] at h
    rcases h with rfl | rfl | rfl | rfl | rfl | rfl | rfl | rfl | rfl | rfl | rfl <;> cases short <;> cases cls <;> rfl
  · cases short <;> rfl

section

variable {s : State} {n : BitVec 2}

/-- Counter `n` has counted its event, if it is an exact one of the instruction `r`. -/
def CountsOwn (s : State) (n : BitVec 2) (r : Retired) (t : State) : Prop :=
  t.counters.hpm.get n = s.counters.hpm.get n +
    if s.csr.mgpmc.getLsbD 0 = true ∧ s.counters.event.get n ∈ ownEvents r then 1 else 0

/-- An instruction that has left the counters and `mgpmc` as they were counts its exact events when it retires. -/
theorem retire_counts {u : State} {r : Retired} {next : Word} (hc : u.counters = s.counters)
    (hg : u.csr.mgpmc = s.csr.mgpmc) (he : s.counters.event.get n ∈ exactEvents ∨ r.cls = .alu ∧ s.counters.event.get n = 15) :
    CountsOwn s n r (retire u r next) := by
  rw [CountsOwn, retire_get, hc, hg, retiredEvents_exact _ r he]
  by_cases hm : s.csr.mgpmc.getLsbD 0 = true <;> by_cases ho : s.counters.event.get n ∈ ownEvents r <;> simp [hm, ho]

theorem finishAlu_counts {short : Bool} {rd : Reg} {v : Word} (he : s.counters.event.get n ∈ 15 :: exactEvents) :
    GoesTo (finishAlu s short rd v) (CountsOwn s n ⟨short, .alu, false⟩) :=
  ⟨_, rfl, retire_counts (setReg_counters ..) (by rw [setReg_csr]) ((List.mem_cons.mp he).symm.imp_right fun h => ⟨rfl, h⟩)⟩

theorem finishMulDiv_counts {cls : InstrClass} {rd : Reg} {v : Word} (he : s.counters.event.get n ∈ exactEvents) :
    GoesTo (finishMulDiv s cls rd v) (CountsOwn s n ⟨false, cls, false⟩) :=
  ⟨_, rfl, retire_counts (setReg_counters ..) (by rw [setReg_csr]) (.inl he)⟩

theorem finishFence_counts {u : State} {cls : InstrClass} (hc : u.counters = s.counters) (hg : u.csr.mgpmc = s.csr.mgpmc)
    (he : s.counters.event.get n ∈ exactEvents) : GoesTo (finishFence u cls) (CountsOwn s n ⟨false, cls, false⟩) :=
  ⟨_, rfl, retire_counts hc hg (.inl he)⟩

end

/-- FENCE touches no counter and no counter control. -/
theorem fenceData_counters (s : State) : (fenceData s).counters = s.counters ∧ (fenceData s).csr.mgpmc = s.csr.mgpmc := by
  rw [(fenceData_spec s).2.2.2.2]
  exact ⟨rfl, rfl⟩

/-- Settles O59: each instruction retires once, with its own class. -/
theorem exactEventsAreCounted : Obligations.ExactEventsAreCounted := by
  intro s n rd rs1 rs2 off imm f u ci counts exact
  obtain ⟨hc, hg⟩ := fenceData_counters s
  refine ⟨fun he => ?_, fun he => ?_⟩
  · exact ⟨finishAlu_counts he, finishAlu_counts he, finishAlu_counts he, finishAlu_counts he, finishAlu_counts he,
      finishAlu_counts he, finishAlu_counts he⟩
  · exact ⟨finishMulDiv_counts he, finishMulDiv_counts he, ⟨_, rfl, retire_counts rfl rfl (.inl he)⟩,
      finishFence_counts hc hg he, finishFence_counts (u := recordFenceI (fenceInstructions s)) hc hg he,
      ⟨_, rfl, retire_counts rfl rfl (.inl he)⟩⟩

end Sys2Proof.Machine

/-! PROOFS. A write of `dmst` does what FENCE and FENCE.I do (R61, R103, R206, R440). -/

namespace Sys2Proof.Machine

/-- `t` has the hart's registers as `s` has them: all a FENCE may change of them is `mdseac` (R210). -/
structure KeepsHart (s t : State) : Prop where
  regs : t.regs = s.regs
  pc : t.pc = s.pc
  counters : t.counters = s.counters
  csrs : t.csr = { s.csr with mdseac := t.csr.mdseac }
  activity : t.activity = s.activity
  stepping : t.stepping = s.stepping

theorem KeepsHart.refl (s : State) : KeepsHart s s := ⟨rfl, rfl, rfl, rfl, rfl, rfl⟩

theorem KeepsHart.trans {s t u : State} (h : KeepsHart s t) (k : KeepsHart t u) : KeepsHart s u where
  regs := k.regs.trans h.regs
  pc := k.pc.trans h.pc
  counters := k.counters.trans h.counters
  csrs := by rw [k.csrs, h.csrs]
  activity := k.activity.trans h.activity
  stepping := k.stepping.trans h.stepping

theorem fenceData_keepsHart (s : State) : KeepsHart s (fenceData s) := by
  rw [(fenceData_spec s).2.2.2.2]
  exact ⟨rfl, rfl, rfl, rfl, rfl, rfl⟩

theorem fenceInstructions_keepsHart (s : State) : KeepsHart s (fenceInstructions s) := by
  obtain ⟨hr, hp, hk, hc, ha, hs⟩ := fenceData_keepsHart s
  exact ⟨hr, hp, hk, hc, ha, hs⟩

/-- FENCE leaves the fetch side as it is (R370). -/
theorem fenceData_fetchSide (s : State) : (fenceData s).icache = s.icache ∧ (fenceData s).mracFetch = s.mracFetch ∧
    (fenceData s).mfdcOld = s.mfdcOld := by
  rw [(fenceData_spec s).2.2.2.2]
  exact ⟨rfl, rfl, rfl⟩

/-- A FENCE changes neither what FENCE.I makes memory's for the fetch side nor the absence of error marks, so that FENCE and
FENCE.I have done what FENCE.I does. -/
theorem fenceInstructions_fenceData_fenced (s : State) :
    Fenced s (fenceInstructions (fenceData s)) ∧ FetchFenced s (fenceInstructions (fenceData s)) := by
  have hc := (fenceData_keepsHart s).csrs
  have hm : (fenceData s).csr.mrac = s.csr.mrac := by rw [hc]
  have hd : (fenceData s).csr.mfdc = s.csr.mfdc := by rw [hc]
  have hg : (fenceData s).cfg = s.cfg := by rw [(fenceData_spec s).2.2.2.2]
  obtain ⟨hf, hb, hr, hx, ht, hl⟩ := fenceInstructions_fenced (fenceData s)
  exact ⟨(fenceData_fenced s).again hf hg hm (drainBus_view s).unmarked, hb, hr.trans hm, hx.trans hd, ht, hl⟩

section

variable (s : State) {v : Word}

/-- A write of `dmst` by its bits: `fence_i` in bit 0, `fence` in bit 1 (R103). -/
theorem writeDmst_eq : writeDmst s v = match v.getLsbD 0, v.getLsbD 1 with
    | false, false => s
    | false, true => fenceData s
    | true, false => fenceInstructions s
    | true, true => fenceInstructions (fenceData s) := by
  unfold writeDmst
  cases v.getLsbD 0 <;> cases v.getLsbD 1 <;> rfl

theorem writeDmst_keepsHart : KeepsHart s (writeDmst s v) := by
  rw [writeDmst_eq]
  split
  · exact .refl s
  · exact fenceData_keepsHart s
  · exact fenceInstructions_keepsHart s
  · exact (fenceData_keepsHart s).trans (fenceInstructions_keepsHart _)

theorem writeDmst_zero (h0 : v.getLsbD 0 = false) (h1 : v.getLsbD 1 = false) : writeDmst s v = s := by
  rw [writeDmst_eq, h0, h1]

theorem writeDmst_fetchFenced (h : v.getLsbD 0 = true) : Fenced s (writeDmst s v) ∧ FetchFenced s (writeDmst s v) := by
  rw [writeDmst_eq, h]
  split
  · contradiction
  · contradiction
  · exact fenceInstructions_fenced s
  · exact fenceInstructions_fenceData_fenced s

theorem writeDmst_fenced (h : v.getLsbD 0 = true ∨ v.getLsbD 1 = true) : Fenced s (writeDmst s v) := by
  cases h0 : v.getLsbD 0
  · rw [writeDmst_eq, h0, h.resolve_left (h0 ▸ Bool.false_ne_true)]
    exact fenceData_fenced s
  · exact (writeDmst_fetchFenced s h0).1

theorem writeDmst_fetchSide (h : v.getLsbD 0 = false) : (writeDmst s v).icache = s.icache ∧
    (writeDmst s v).mracFetch = s.mracFetch ∧ (writeDmst s v).mfdcOld = s.mfdcOld := by
  cases h1 : v.getLsbD 1
  · rw [writeDmst_zero s h h1]
    exact ⟨rfl, rfl, rfl⟩
  · rw [writeDmst_eq, h, h1]
    exact fenceData_fetchSide s

end

/-- A step whose next input is an event of the host, other than to let the hart run, is that event. -/
theorem step_hostEvent {s : State} {e : HostEvent} {rest : List HostEvent} (h : s.inputs = e :: rest) (he : e ≠ .run) :
    step s = hostEvent e { s with inputs := rest, stepNo := s.stepNo + 1 } := by
  unfold step
  rw [h]
  cases e with
  | run => contradiction
  | _ => rfl

/-- In Debug Mode the access check lets `dmst` through. -/
theorem csrCheck_dmst {s : State} (h : debugMode s = true) (w : Bool) : csrCheck s 0x7C4 w = .allowed .dmst :=
  csrCheck_allowed rfl rfl (fun _ => h) (fun _ => by decide) fun _ => nofun

section Debugger

variable {s : State} (ha : s.activity = .dbHalt) (hd : s.dbgHaltState = true)
include ha hd

theorem debuggerMayAct_of_dbHalt : debuggerMayAct s = true := by
  rw [debuggerMayAct, ha, hd]
  rfl

theorem debugWriteCsr_dmst (v : Word) : debugWriteCsr s 0x7C4 v = .next (writeDmst s v) := by
  rw [debugWriteCsr, debuggerMayAct_of_dbHalt ha hd, csrCheck_dmst (by rw [debugMode, ha]; rfl)]
  rfl

theorem debugReadCsr_dmst : debugReadCsr s 0x7C4 = .next { s with dbgData := 0 } := by
  rw [debugReadCsr, debuggerMayAct_of_dbHalt ha hd, csrCheck_dmst (by rw [debugMode, ha]; rfl)]
  rfl

end Debugger

/-- Settles O34: the debugger's write and the instruction's are both `writeDmst`. -/
theorem dmstFences : Obligations.DmstFences := by
  intro s v leaves
  have hleaves : ∀ u, leaves u (writeDmst u v) := fun u =>
    have h := writeDmst_keepsHart u (v := v)
    ⟨h.regs, h.pc, h.counters, h.csrs, h.activity, h.stepping, writeDmst_zero u, writeDmst_fenced u,
      fun h0 => (writeDmst_fetchFenced u h0).2, writeDmst_fetchSide u⟩
  refine ⟨fun rest ha hd => ⟨fun hi => ?_, fun hi => ?_⟩, fun i f hf hn hm => ⟨fun hw hv => ?_, fun hw => ?_⟩⟩
  · refine ⟨_, ?_, hleaves { s with inputs := rest, stepNo := s.stepNo + 1 }⟩
    exact (step_hostEvent hi nofun).trans (debugWriteCsr_dmst (s := { s with inputs := rest, stepNo := s.stepNo + 1 }) ha hd v)
  · exact (step_hostEvent hi nofun).trans (debugReadCsr_dmst (s := { s with inputs := rest, stepNo := s.stepNo + 1 }) ha hd)
  · refine ⟨_, exec_csr (c := .dmst) hf (hn ▸ csrCheck_dmst hm _) nofun, csrRetired s f.rd 0, csrRetired_wroteReg s f.rd 0, ?_⟩
    rw [hw]
    show leaves _ (writeDmst _ (f.value 0))
    rw [hv]
    exact hleaves _
  · refine ⟨_, exec_csr (c := .dmst) hf (hn ▸ csrCheck_dmst hm _) nofun, ?_⟩
    rw [hw]
    exact csrRetired_wroteReg s f.rd 0

end Sys2Proof.Machine

/-! PROOFS. What reset leaves (R62, R63, R700, R703 to R705). -/

namespace Sys2Proof.Machine

/-! ## A reset with every store made sure of -/

/-- A reset that finds no store under way, and none to make sure of, leaves memory and devices as they are (R704, R705). -/
theorem memoryAtReset_of_fenced {s : State} (hw : s.wb = []) (hr : s.responses = []) (hu : s.unfenced = [])
    (he : s.unfencedEcc = []) : memoryAtReset s = s := by
  cases s
  dsimp only at hw hr hu he
  subst hw hr hu he
  rfl

/-- The CSRs at reset: only `dpc` and `dcsr` depend on whether the hart comes out halted (R63, R659). -/
theorem resetWith_csr (c : Build) : ∃ dpc dcsr, (State.resetWith c).csr = { Csrs.reset c with dpc := dpc, dcsr := dcsr } ∧
    dcsr.getLsbD 15 = false ∧ dcsr.getLsbD 2 = false := by
  unfold State.resetWith
  cases c.mpcResetRunReq
  · exact ⟨_, _, rfl, rfl, rfl⟩
  · exact ⟨_, _, rfl, rfl, rfl⟩

theorem mstatus_resetWith (c : Build) : (State.resetWith c).csr.mstatus = 0x1800 := by
  obtain ⟨dpc, dcsr, hc, -⟩ := resetWith_csr c
  rw [hc]
  rfl

/-- The general registers are zero after reset (R62). -/
theorem reg_resetWith (c : Build) (r : Reg) : reg (State.resetWith c) r = 0 := by
  unfold reg
  split
  · rfl
  · exact Bank32.get_fill 0 r

/-- Settles O55: the memory a reset leaves is the memory it finds, and the registers are those of reset. -/
theorem resetKeepsMemory : Obligations.ResetKeepsMemory := by
  intro s rest held hi hw hr hu he
  refine ⟨_, step_hostEvent hi nofun, ?_⟩
  have hm := memoryAtReset_of_fenced (s := { s with inputs := rest, stepNo := s.stepNo + 1 }) hw hr hu he
  show (∀ b, memByte (resetEvent _ held) b = _) ∧ _
  unfold resetEvent
  rw [hm]
  exact ⟨fun _ => rfl, rfl, reg_resetWith { s.cfg with mpcResetRunReq := s.pins.mpcResetRunReq && !held }, rfl, rfl,
    mstatus_resetWith _⟩

/-! ## The values after reset -/

section

variable (c : Build)

/-- No request reaches the PIC's evaluation, so that nothing wins it (R585). -/
theorem picWinner_resetWith (u : Nat) : picWinner (State.resetWith c).cfg (picNow (State.resetWith c) u) = (0, 0) := by
  have hp : picNow (State.resetWith c) u = PicRegs.reset := rfl
  rw [hp]
  rfl

theorem mipNow_resetWith : mipNow (State.resetWith c) 5 = 0 := by
  obtain ⟨dpc, dcsr, hc, -⟩ := resetWith_csr c
  refine BitVec.eq_of_getLsbD_eq fun k _ => ?_
  have hp : correctablePending (State.resetWith c) = false := by
    rw [correctablePending, hc]
    simp only [Csrs.reset]
    rfl
  have hx : externalPending (State.resetWith c) 5 = false := by
    rw [externalPending_iff, picWinner_resetWith]
    exact decide_eq_false (Nat.not_lt_zero _)
  rw [getLsbD_mipNow, hp, hx]
  simp [State.resetWith, Seen.reset]

theorem csrRead_resetWith {k : Csr}
    (hk : k ∈ [Csr.mip, .meivt, .meipt, .meicidpl, .meicurpl, .meihap, .dicawics, .dicad0, .dicad1]) :
    csrRead (State.resetWith c) k = 0 := by
  obtain ⟨dpc, dcsr, hc, -⟩ := resetWith_csr c
  simp only [List.mem_cons, List.not_mem_nil, or_false] at hk
  have ho : csrOrderMask (State.resetWith c) = 0 := rfl
  rcases hk with rfl | hk
  · exact mipNow_resetWith c
  · rcases hk with rfl | rfl | rfl | rfl | rfl | rfl | rfl | rfl <;>
      simp only [csrRead, csrPriority, hc, ho, Csrs.reset] <;> rfl

/-- No line of the I-cache is valid after reset, whatever its arrays hold (R703). -/
theorem tagEntry_resetWith (k : Nat) : (tagEntry (State.resetWith c) k).word.getLsbD 0 = false := by
  show ((unknownEntry (State.resetWith c)).word &&& ~~~1#32).getLsbD 0 = false
  rw [BitVec.getLsbD_and]
  exact Bool.and_false _

theorem running_resetWith_iff : (State.resetWith c).activity = .running ↔ c.mpcResetRunReq = true := by
  unfold State.resetWith
  cases c.mpcResetRunReq <;> simp

end

/-- Settles O54: the fields of the reset state, one by one. -/
theorem resetValues : Obligations.ResetValues := by
  intro c s
  obtain ⟨dpc, dcsr, hc, h15, h2⟩ := resetWith_csr c
  have hf : (Csrs.reset c).mfdc = if c.busType = .axi4 then 0x00070040 else 0x00070000 := by
    unfold Csrs.reset
    cases c.busType <;> rfl
  have hs : s.csr = { Csrs.reset c with dpc := dpc, dcsr := dcsr } := hc
  refine ⟨reg_resetWith c, rfl, ?_⟩
  rw [hs]
  exact ⟨rfl, rfl, rfl, rfl, rfl, rfl, rfl, rfl, rfl, rfl, hf, fun k hk => csrRead_resetWith c hk, rfl, h15, h2, rfl,
    Bank256.get_fill 0, rfl, rfl, rfl, rfl, rfl, tagEntry_resetWith c, running_resetWith_iff c, rfl, rfl, rfl, rfl, rfl, rfl⟩

end Sys2Proof.Machine

/-! PROOFS. The PIC's priority CSRs, the capture of a bus error, `mcpc` and `mpmc` (R105, R108, R109, R120 to R125, R215, R644, R652). -/

namespace Sys2Proof.Machine

/-! ## The priority CSRs (R120 to R125, R581) -/

/-- A level written under a priority order and read under the same one is the low four bits written (R581). -/
theorem setWidth_levelOf (s : State) (v : Word) :
    (levelOf s v ^^^ csrOrderMask s).setWidth 32 = BitVec.ofNat 32 (v.toNat % 16) := by
  rw [levelOf, BitVec.xor_assoc, BitVec.xor_self, BitVec.xor_zero]
  refine BitVec.eq_of_toNat_eq ?_
  rw [BitVec.toNat_setWidth, BitVec.extractLsb'_toNat, BitVec.toNat_ofNat]
  rfl

/-- A priority CSR whose level was written as `levelOf` says, and is not open any more, shows what was written (R581, R582). -/
theorem csrPriority_levelOf {s t : State} {v : Word} {k : Nat} (ho : csrOrderMask t = csrOrderMask s)
    (hd : t.csr.priDoubt.getLsbD k = false) :
    csrPriority t k (levelOf s v) = BitVec.ofNat 32 (v.toNat % 16) := by
  rw [csrPriority, hd, ho, ← setWidth_levelOf s v]
  rfl

theorem getLsbD_putBit_false {n : Nat} (x : BitVec n) {k : Nat} (hk : k < n) : (putBit x k false).getLsbD k = false := by
  simp [putBit, hk]

/-- `meihap` is the vector base of `meivt` above the claim ID in bits 9:2 (R120, R121). -/
theorem meihap_eq (v : Word) (c : BitVec 8) :
    (v &&& (0xFFFFFC00 : Word)) ||| c.setWidth 32 <<< 2 = BitVec.ofNat 32 (v.toNat / 1024 * 1024 + c.toNat * 4) := by
  have hv : (v.extractLsb' 10 22).toNat = v.toNat / 1024 := by
    rw [BitVec.extractLsb'_toNat, Nat.shiftRight_eq_div_pow]
    omega
  have hb : (v &&& (0xFFFFFC00 : Word)) ||| c.setWidth 32 <<< 2 = v.extractLsb' 10 22 ++ c ++ 0#2 := by
    refine BitVec.eq_of_getLsbD_eq fun n hn => ?_
    rw [BitVec.getLsbD_or, BitVec.getLsbD_append, BitVec.getLsbD_append]
    interval_cases n <;> simp
  refine BitVec.eq_of_toNat_eq ?_
  rw [hb, BitVec.toNat_append, toNat_append8, hv, BitVec.toNat_ofNat, Nat.shiftLeft_eq]
  have hc := c.isLt
  have := v.isLt
  simp
  omega

/-- Settles O44: the order in which a level is written is the one in which it is read. -/
theorem priorityCsrsReadBack : Obligations.PriorityCsrsReadBack := by
  intro s i f hf hw new reads
  refine ⟨fun hn => ?_, fun hn => ?_, fun hn => ?_, fun hn => ?_⟩
  · exact ⟨_, OrdinaryCsr.writes (c := .meipt) hf hn ⟨rfl, rfl, rfl, nofun, nofun⟩ (by decide) hw,
      csrPriority_levelOf rfl (getLsbD_putBit_false _ (by decide))⟩
  · exact ⟨_, OrdinaryCsr.writes (c := .meicidpl) hf hn ⟨rfl, rfl, rfl, nofun, nofun⟩ (by decide) hw,
      csrPriority_levelOf rfl (getLsbD_putBit_false _ (by decide))⟩
  · exact ⟨_, OrdinaryCsr.writes (c := .meicurpl) hf hn ⟨rfl, rfl, rfl, nofun, nofun⟩ (by decide) hw,
      csrPriority_levelOf rfl (getLsbD_putBit_false _ (by decide))⟩
  · refine ⟨_, OrdinaryCsr.writes (c := .meivt) hf hn ⟨rfl, rfl, rfl, nofun, nofun⟩ (by decide) hw, ?_⟩
    refine (meihap_eq _ (csrRetired s f.rd (csrRead (beforeStep s) .meivt)).csr.claimid).trans ?_
    rw [csrRetired_csr]
    rfl

/-! ## The error capture (R105, R215) -/

/-- The address captured for an answer is that of one of its bytes (R215). -/
theorem capturedAddress_mem (s : State) {r : BusResponse} (h : 0 < r.size) :
    ∃ k < r.size, capturedAddress s r = r.addr + BitVec.ofNat 32 k := by
  unfold capturedAddress
  split
  · exact ⟨_, Nat.mod_lt _ h, rfl⟩
  · exact ⟨0, h, (BitVec.add_zero _).symm⟩

/-- No answer of a batch without errors is captured. -/
theorem firstError_none {batch : List BusResponse} (h : ∀ r ∈ batch, r.isError = false) : firstError batch = none := by
  have hl : batch.find? (fun r => r.isError && r.isLoad) = none :=
    List.find?_eq_none.mpr fun r hr => by simp [h r hr]
  have he : batch.find? (fun r => r.isError) = none := List.find?_eq_none.mpr fun r hr => by simp [h r hr]
  rw [firstError, hl, he]

/-- Of a batch with an error one is captured, and a load's if there is one (R215). -/
theorem firstError_some {batch : List BusResponse} (h : ∃ r ∈ batch, r.isError = true) :
    ∃ r ∈ batch, firstError batch = some r ∧ r.isError = true ∧
      r.isLoad = batch.any fun r => r.isError && r.isLoad := by
  unfold firstError
  cases hl : batch.find? fun r => r.isError && r.isLoad with
  | some r =>
    have hr := List.find?_some hl
    rw [Bool.and_eq_true] at hr
    have hm := List.mem_of_find?_eq_some hl
    refine ⟨r, hm, rfl, hr.1, hr.2.trans (List.any_eq_true.mpr ⟨r, hm, ?_⟩).symm⟩
    rw [hr.1, hr.2]; rfl
  | none =>
    have hn := List.find?_eq_none.mp hl
    obtain ⟨r, he⟩ := Option.isSome_iff_exists.mp (List.find?_isSome.mpr h)
    have hm := List.mem_of_find?_eq_some he
    have hr := List.find?_some he
    refine ⟨r, hm, he, hr, ?_⟩
    rw [List.any_eq_false.mpr hn]
    simpa [hr] using hn r hm

/-- While nothing is captured, the answers of a moment with an error lock `mdseac` (R215). -/
theorem reportAnswers_captures {s : State} {batch : List BusResponse} {r : BusResponse} (hl : s.mdseacLocked = false)
    (hr : firstError batch = some r) :
    reportAnswers s batch = { s with
      csr := { s.csr with mdseac := capturedAddress s r }
      mdseacLocked := true
      dbusErr := some (if r.isLoad then .load else .store) } := by
  rw [reportAnswers, hr, hl]
  rfl

/-- What an instruction that writes a register does is not concerned with the capture's lock. -/
theorem WroteReg.withLock {s t : State} {rd : Reg} {v next : Word} (h : WroteReg s t rd v next) (locked : Bool) :
    WroteReg { s with mdseacLocked := locked } { t with mdseacLocked := locked } rd v next :=
  ⟨h.target, h.others, h.zero, h.pc, h.retired, h.memory,
    congrArg (fun u : State => { u with mdseacLocked := locked }) h.frame⟩

/-- Settles O52: no error, a locked capture, and the answer that is captured; and `mdeau`. -/
theorem busErrorCapture : Obligations.BusErrorCapture := by
  refine ⟨fun s batch hb => ⟨reportAnswers_locked s batch, fun hn => ?_, fun hl he => ?_⟩, fun s i f hf hn => ?_⟩
  · rw [reportAnswers, firstError_none hn]
  · obtain ⟨r, hm, hr, her, hload⟩ := firstError_some he
    have ht := reportAnswers_captures hl hr
    obtain ⟨k, hk, ha⟩ := capturedAddress_mem s (hb r hm)
    dsimp only
    rw [ht]
    exact ⟨rfl, by rw [hload], ⟨r, hm, her, hload, k, hk, ha⟩, rfl⟩
  · have ho : OrdinaryCsr 0xBC0 .mdeau := ⟨rfl, rfl, rfl, nofun, nofun⟩
    cases hw : f.writes
    · rw [Bool.not_false, Bool.and_true]
      exact ho.reads hf hn hw
    · rw [Bool.not_true, Bool.and_false]
      exact ⟨_, ho.writes hf hn (by decide) hw, (csrRetired_wroteReg s f.rd _).withLock false⟩

/-! ## Pausing (R109, R652) -/

/-- What an instruction that writes a register does is not concerned with the PAUSE count. -/
theorem WroteReg.withPause {s t : State} {rd : Reg} {v next : Word} (h : WroteReg s t rd v next) (count : Word) :
    WroteReg { s with pauseCount := count } { t with pauseCount := count } rd v next :=
  ⟨h.target, h.others, h.zero, h.pc, h.retired, h.memory,
    congrArg (fun u : State => { u with pauseCount := count }) h.frame⟩

/-- An access of `mcpc` reads 0, and loads the count if it writes (R109). -/
theorem exec_mcpc {s : State} {i : Instr} {f : CsrForm} (hf : csrForm s i = some f) (hn : f.csr = 0x7C2) :
    GoesTo (exec i s) fun t =>
      WroteReg { s with pauseCount := if f.writes then f.value 0 else s.pauseCount } t f.rd 0 (s.pc + 4) := by
  have ho : OrdinaryCsr 0x7C2 .mcpc := ⟨rfl, rfl, rfl, nofun, nofun⟩
  cases hw : f.writes
  · exact ho.reads hf hn hw
  · exact ⟨_, ho.writes hf hn (by decide) hw, (csrRetired_wroteReg s f.rd _).withPause (f.value 0)⟩

/-- The count falls with every step of PAUSE, by a cycle at least, and nothing else changes (R652). -/
theorem pauseTurn_spec (s : State) (h : s.pauseCount ≠ 0) :
    (pauseTurn s).pauseCount.toNat < s.pauseCount.toNat ∧
      pauseTurn s = { s with pauseCount := (pauseTurn s).pauseCount } := by
  have hp : 0 < s.pauseCount.toNat := Nat.pos_of_ne_zero fun h0 => h (BitVec.eq_of_toNat_eq h0)
  unfold pauseTurn
  split
  · exact ⟨hp, rfl⟩
  · refine ⟨?_, rfl⟩
    have hc : 1 ≤ cyclesNow s := Nat.le_add_right 1 _
    have hlt := s.pauseCount.isLt
    rw [BitVec.toNat_sub_of_le] <;> simp [BitVec.le_def] <;> omega

/-- A running hart that nothing halts or interrupts, and whose PAUSE count is not 0, pauses (R652). -/
theorem turn_pauses {u : State} (ha : u.activity = .running) (hh : u.seen.cpuHaltReq = false)
    (hn : nmiPresent u = false) (hi : takeableInterrupt u = none) (hp : u.pauseCount ≠ 0) :
    ∃ w, turn u = .over (pauseTurn { u with waits := w }) := by
  refine ⟨{ u.waits with pmuHalt := none, nmi := none, interrupt := none }, ?_⟩
  calc turn u = runningTurn u := by unfold turn; rw [ha]
    _ = nmiTurn _ := runningTurn_noHalt u (.inl hh)
    _ = interruptTurn _ := nmiTurn_none _ hn
    _ = goOn _ := interruptTurn_none _ hi
    _ = _ := if_neg hp

/-- Settles O57: the boundary keeps the hart, and its turn is one step of PAUSE. -/
theorem pauseHoldsTheHart : Obligations.PauseHoldsTheHart := by
  refine ⟨fun s i f hf hn => exec_mcpc hf hn, fun s u hin hu ha hh hn hb hi hp => ?_⟩
  obtain ⟨hk, hpc, -⟩ := atBoundary_keeps s
  rw [hu] at hk hpc
  have hnmi : nmiPresent u = false := by rw [nmiPresent, hn, hb]; rfl
  obtain ⟨w, hw⟩ := turn_pauses ha hh hnmi hi (hk.pauseCount ▸ hp)
  obtain ⟨hlt, hframe⟩ := pauseTurn_spec { u with waits := w } (hk.pauseCount ▸ hp)
  refine ⟨pauseTurn { u with waits := w }, by rw [step_noEvent s hin, hu, hw], ?_⟩
  rw [hframe]
  refine ⟨hk.pauseCount ▸ hlt, hk.regs, ?_, hk.minstret, hk.pauseCount, rfl⟩
  refine hpc.trans ?_
  rw [ha]
  simp only [and_true]

/-! ## The firmware's halt (R108, R642 to R649) -/

@[simp] theorem csrRetired_mem (s : State) (rd : Reg) (v : Word) : (csrRetired s rd v).mem = s.mem := by
  simp [csrRetired]
@[simp] theorem csrRetired_ecc (s : State) (rd : Reg) (v : Word) : (csrRetired s rd v).ecc = s.ecc := by
  simp [csrRetired]
@[simp] theorem csrRetired_cfg (s : State) (rd : Reg) (v : Word) : (csrRetired s rd v).cfg = s.cfg := by
  simp [csrRetired]
@[simp] theorem csrRetired_seen (s : State) (rd : Reg) (v : Word) : (csrRetired s rd v).seen = s.seen := by
  simp [csrRetired]
@[simp] theorem debugMode_csrRetired (s : State) (rd : Reg) (v : Word) : debugMode (csrRetired s rd v) = debugMode s := by
  simp [debugMode, csrRetired]

/-- A drain changes of the hart's registers at most `mdseac` (R206). -/
theorem drainBus_keepsHart (s : State) : KeepsHart s (drainBus s) := by
  rw [(drainBus_spec s).1]
  exact ⟨rfl, rfl, rfl, rfl, rfl, rfl⟩

/-- The firmware's halt drains the bus, and halts the hart or, while the MPC's request is seen, has the MPC's halt served at the
next boundary (R642, R644). -/
theorem firmwareHalt_eq (s : State) : ∃ w a, firmwareHalt s = { drainBus s with waits := w, activity := a } ∧
    if s.seen.mpcHaltReq then w.mpcHalt = some 0 ∧ a = s.activity else a = .pmuFwHalt := by
  unfold firmwareHalt
  cases s.seen.mpcHaltReq
  · exact ⟨_, _, rfl, rfl⟩
  · exact ⟨_, _, rfl, rfl, (drainBus_keepsHart s).activity⟩

/-- Where the halt is asked for while the MPC's request is seen, the next boundary halts the hart for the MPC (R642, R645). -/
theorem firmwareHalt_activity (s : State) (h : debugMode s = false) :
    let t := firmwareHalt s
    if s.seen.mpcHaltReq = true then
      t.activity = s.activity ∧
        ((boundary t).seen.mpcHaltReq = true → (boundary t).seen.mpcRunReq = false →
          (atBoundary t).activity = .dbHalt ∧ (atBoundary t).csr.dpc = t.pc)
    else t.activity = .pmuFwHalt ∧ cpuHaltStatus t = true := by
  obtain ⟨w, a, ht, ha⟩ := firmwareHalt_eq s
  dsimp only
  rw [ht]
  cases hm : s.seen.mpcHaltReq <;> rw [hm] at ha
  · obtain rfl : a = .pmuFwHalt := ha
    exact ⟨rfl, rfl⟩
  · obtain ⟨hw, rfl⟩ := ha
    refine ⟨rfl, atBoundary_mpcHalt _ hw ?_⟩
    rintro hd
    rw [debugMode, show s.activity = .dbHalt from hd] at h
    contradiction

/-- What the firmware's halt leaves of the hart and of memory (R206, R649). -/
theorem firmwareHalt_drains (s : State) :
    let t := firmwareHalt s
    t.wb = [] ∧ t.responses = [] ∧ t.regs = s.regs ∧ t.pc = s.pc ∧ t.counters = s.counters ∧
      t.csr = { s.csr with mdseac := t.csr.mdseac } ∧ StoresPerformed s t ∧ OtherMemoryKept s t := by
  obtain ⟨w, a, ht, -⟩ := firmwareHalt_eq s
  obtain ⟨-, hw, hr, -⟩ := drainBus_spec s
  have hk := drainBus_keepsHart s
  dsimp only
  rw [ht]
  exact ⟨hw, hr, hk.regs, hk.pc, hk.counters, hk.csrs, drainBus_performs s, (drainBus_view s).view.2⟩

theorem csrWrite_mpmc (s : State) (v : Word) :
    csrWrite s .mpmc v = if v.getLsbD 0 && !debugMode s then firmwareHalt s else s := rfl

/-- A write of `mpmc` with bit 0 set, outside Debug Mode, halts; every other access reads 0 and does nothing (R108, R644). -/
theorem exec_mpmc {s : State} {i : Instr} {f : CsrForm} (hf : csrForm s i = some f) (hn : f.csr = 0x7C6) :
    exec i s = .next (if f.writes = true ∧ (f.value 0).getLsbD 0 = true ∧ debugMode s = false then
      firmwareHalt (csrRetired s f.rd 0) else csrRetired s f.rd 0) := by
  have ho : OrdinaryCsr 0x7C6 .mpmc := ⟨rfl, rfl, rfl, nofun, nofun⟩
  have hx := exec_csr hf (hn ▸ ho.allowed fun _ => by decide) ho.noEffect
  refine hx.trans (congrArg _ ?_)
  cases f.writes
  · rw [if_neg (by simp), if_neg (by simp)]
    rfl
  · have hr : csrRead (beforeStep s) .mpmc = 0 := rfl
    rw [if_pos rfl, hr, csrWrite_mpmc, debugMode_csrRetired]
    simp only [true_and, Bool.and_eq_true, Bool.not_eq_true']

/-- Settles O42: the instruction retires, and then the firmware's halt is done. -/
theorem firmwareHalts : Obligations.FirmwareHalts := by
  intro s i f hf hn
  have hx := exec_mpmc hf hn
  have hw := csrRetired_wroteReg s f.rd 0
  by_cases h : f.writes = true ∧ (f.value 0).getLsbD 0 = true ∧ debugMode s = false
  · rw [if_pos h] at hx
    refine ⟨_, hx, (if_pos h).mpr ?_⟩
    have hact := firmwareHalt_activity (csrRetired s f.rd 0) ((debugMode_csrRetired s f.rd 0).trans h.2.2)
    obtain ⟨hwb, hresp, hregs, hpc, hcnt, hcsr, hperf, hother⟩ := firmwareHalt_drains (csrRetired s f.rd 0)
    dsimp only at hact
    rw [csrRetired_seen, csrRetired_activity] at hact
    rw [csrRetired_csr] at hcsr
    rw [StoresPerformed, csrRetired_ecc, csrRetired_cfg] at hperf
    rw [OtherMemoryKept, csrRetired_cfg] at hother
    refine ⟨hact, hwb, hresp, fun h0 => (reg_congr hregs _).trans (hw.target h0),
      fun r hr => (reg_congr hregs _).trans (hw.others r hr), hpc.trans hw.pc, by rw [hcnt, hw.retired], hcsr, ?_, ?_⟩
    · exact fun hu b hb hk => (hperf hu b hb hk).trans (hw.memory b)
    · exact fun b hb hk => (hother b hb hk).trans (by rw [memByte, csrRetired_mem, memByte])
  · rw [if_neg h] at hx
    exact ⟨_, hx, (if_neg h).mpr hw⟩

end Sys2Proof.Machine

/-! PROOFS. The access checks of loads and stores, and the stores and loads of the system bus (R102, R175 to R189, R201 to R213,
R505 to R508). -/

namespace Sys2Proof.Machine

/-! ## The load and store forms (R350 to R358, R402, R403, R421, R427) -/

/-- A load form ends as the loads do, with a kind of load of its size. -/
theorem exec_loadForm {s : State} {i : Instr} {l : LoadForm} (h : loadForm s i = some l) :
    ∃ (k : LoadKind) (short : Bool),
      exec i s = finishLoad s short k l.rd l.addr ∧ k.size = l.size ∧ ilen short = l.length := by
  unfold loadForm at h
  split at h <;> cases h
  · exact ⟨.signed8, false, rfl, rfl, rfl⟩
  · exact ⟨.signed16, false, rfl, rfl, rfl⟩
  · exact ⟨.word, false, rfl, rfl, rfl⟩
  · exact ⟨.unsigned8, false, rfl, rfl, rfl⟩
  · exact ⟨.unsigned16, false, rfl, rfl, rfl⟩
  · exact ⟨.word, true, rfl, rfl, rfl⟩
  · exact ⟨.word, true, rfl, rfl, rfl⟩

/-- A store form ends as the stores do. -/
theorem exec_storeForm {s : State} {i : Instr} {d : StoreForm} (h : storeForm s i = some d) :
    ∃ short : Bool, exec i s = finishStore s short d.size d.value d.addr ∧ ilen short = d.length ∧
      (d.size = 1 ∨ d.size = 2 ∨ d.size = 4) := by
  unfold storeForm at h
  split at h <;> cases h
  · exact ⟨false, rfl, rfl, .inl rfl⟩
  · exact ⟨false, rfl, rfl, .inr (.inl rfl)⟩
  · exact ⟨false, rfl, rfl, .inr (.inr rfl)⟩
  · exact ⟨true, rfl, rfl, .inr (.inr rfl)⟩
  · exact ⟨true, rfl, rfl, .inr (.inr rfl)⟩

theorem LoadKind.size_cases (k : LoadKind) : k.size = 1 ∨ k.size = 2 ∨ k.size = 4 := by
  cases k <;> decide

/-! ## The access checks (R175, R189) -/

theorem wholeWord_iff (a : Word) (n : Nat) : wholeWord a n = true ↔ n = 4 ∧ a.toNat % 4 = 0 := by
  simp [wholeWord, ← BitVec.toNat_inj, BitVec.extractLsb'_toNat]

section Checks

variable {c : Build} {mrac a : Word} {n : Nat}

/-- An access over a region's end is misaligned (R177). -/
theorem classify_cross (h : region a ≠ region (lastByte a n)) : classify c mrac a n = .misaligned := if_pos h

variable (hr : region a = region (lastByte a n))
include hr

/-- A misaligned access with side effects, outside the regions of DCCM and PIC (R175). -/
theorem classify_misaligned (hl : dataLocalRegion c a = false) (hs : sideEffectBit c mrac a = true) (hm : a.toNat % n ≠ 0) :
    classify c mrac a n = .misaligned := by
  unfold classify
  rw [lastByte] at hr
  simp [hr, hl, hs, hm]

/-- An access in a region of DCCM or PIC that is neither one of the DCCM nor a word of the PIC (R178, R180). -/
theorem classify_localFault (hl : dataLocalRegion c a = true)
    (hn : ¬((inDccm c a = true ∧ inDccm c (lastByte a n) = true) ∨
      (inPic c a = true ∧ inPic c (lastByte a n) = true ∧ n = 4 ∧ a.toNat % 4 = 0))) :
    classify c mrac a n = .fault := by
  obtain ⟨hd, hp⟩ := not_or.mp hn
  rw [← wholeWord_iff] at hp
  unfold lastByte at *
  unfold classify
  dsimp only
  rw [if_neg (not_not.mpr hr), if_pos hl, if_neg (by simpa using hd)]
  split
  · next h => exact if_neg fun hw => hp ⟨(Bool.and_eq_true_iff.mp h).1, (Bool.and_eq_true_iff.mp h).2, hw⟩
  · rfl

/-- An access to the bus that no data window allows (R182). -/
theorem classify_windowFault (hl : dataLocalRegion c a = false) (hs : sideEffectBit c mrac a = true → a.toNat % n = 0)
    (hw : ¬(windowsAllow c.dataWindows a = true ∧ windowsAllow c.dataWindows (lastByte a n) = true)) :
    classify c mrac a n = .fault := by
  unfold lastByte at *
  unfold classify
  dsimp only
  rw [if_neg (not_not.mpr hr), hl, if_neg Bool.false_ne_true, if_neg (by simpa using hs), if_neg (by simpa using hw)]

end Checks

/-- What an access that the checks reject does: the exception of its kind, with the effective address (R505 to R508, R523). -/
theorem access_traps {s : State} {i : Instr} {a : Word} {n : Nat} {load : Bool}
    (hi : (∃ l, loadForm s i = some l ∧ l.addr = a ∧ l.size = n ∧ load = true) ∨
      (∃ d, storeForm s i = some d ∧ d.addr = a ∧ d.size = n ∧ load = false)) :
    (classify s.cfg (mracNow s) a n = .misaligned →
      GoesTo (exec i s) fun t => Trapped s t (if load then 4 else 6) a (exceptionTarget s)) ∧
    (classify s.cfg (mracNow s) a n = .fault →
      GoesTo (exec i s) fun t => Trapped s t (if load then 5 else 7) a (exceptionTarget s)) := by
  rcases hi with ⟨l, hl, rfl, rfl, rfl⟩ | ⟨d, hd, rfl, rfl, rfl⟩
  · obtain ⟨k, short, he, hk, -⟩ := exec_loadForm hl
    refine ⟨fun hc => ⟨_, he.trans (finishLoad_raises (code := 4) ?_ short l.rd), takeException_spec s 4 l.addr⟩,
      fun hc => ⟨_, he.trans (finishLoad_raises (code := 5) ?_ short l.rd), takeException_spec s 5 l.addr⟩⟩ <;>
      rw [memLoad, hk, hc]
  · obtain ⟨short, he, -⟩ := exec_storeForm hd
    refine ⟨fun hc => ⟨_, he.trans (finishStore_raises (code := 6) ?_ short), takeException_spec s 6 d.addr⟩,
      fun hc => ⟨_, he.trans (finishStore_raises (code := 7) ?_ short), takeException_spec s 7 d.addr⟩⟩ <;>
      rw [memStore, hc]

/-- Settles O28: each row of the table is a class of `classify`, and the class decides the exception. -/
theorem accessChecksTrap : Obligations.AccessChecksTrap := by
  intro s i a n load hi traps last se inOne
  obtain ⟨hmis, hfault⟩ := access_traps hi
  exact ⟨fun h => hmis (classify_cross h), fun hr hl hs hm => hmis (classify_misaligned hr hl hs hm),
    fun hr hl hn => hfault (classify_localFault hr hl hn),
    fun hr hl hs hw => hfault (classify_windowFault hr hl hs hw)⟩

/-! ## Cutting an access (R184) -/

/-- The pieces of an access are its bytes, cut into stretches. -/
theorem cutAccess_covers (bytes : Bool) (a k : Nat) {n : Nat} (hn : n = 1 ∨ n = 2 ∨ n = 4) :
    (∃ p ∈ cutAccess bytes a n, p.1 ≤ k ∧ k < p.1 + p.2) ↔ k < n := by
  unfold cutAccess
  split_ifs with h1 hb h2 he
  · simp
  · simp only [List.mem_map, List.mem_range, exists_exists_and_eq_and]
    exact ⟨fun ⟨j, hj, h1, h2⟩ => by omega, fun hk => ⟨k, hk, le_rfl, by omega⟩⟩
  · simp
    omega
  all_goals
    obtain rfl : n = 4 := by rcases hn with rfl | rfl | rfl <;> omega
    simp
    omega

/-- No piece reaches beyond the access. -/
theorem cutAccess_within {bytes : Bool} {a n : Nat} {p : Nat × Nat} (hn : n = 1 ∨ n = 2 ∨ n = 4)
    (hp : p ∈ cutAccess bytes a n) : p.1 < n ∧ p.1 + p.2 ≤ n := by
  unfold cutAccess at hp
  split_ifs at hp with h1 hb h2 he
  · obtain rfl := List.mem_singleton.mp hp
    exact ⟨by dsimp only; omega, (Nat.zero_add n).le⟩
  · obtain ⟨k, hk, rfl⟩ := List.mem_map.mp hp
    rw [List.mem_range] at hk
    exact ⟨hk, hk⟩
  · simp only [List.mem_cons, List.not_mem_nil, or_false] at hp
    rcases hp with rfl | rfl <;> dsimp only <;> omega
  all_goals
    obtain rfl : n = 4 := by rcases hn with rfl | rfl | rfl <;> omega
    simp only [List.mem_cons, List.not_mem_nil, or_false] at hp
  · rcases hp with rfl | rfl <;> decide
  · rcases hp with rfl | rfl | rfl <;> decide

/-- An aligned access is made whole. -/
theorem cutAccess_aligned (bytes : Bool) {a n : Nat} (h : a % n = 0) : cutAccess bytes a n = [(0, n)] := if_pos h

/-- An access that stays in its region does not wrap (R160, R177). -/
theorem toNat_add_le_of_region {a : Word} {n : Nat} (hn : n = 1 ∨ n = 2 ∨ n = 4)
    (h : region a = region (lastByte a n)) : a.toNat + n ≤ 2 ^ 32 := by
  have hr : ∀ x : Word, (region x).toNat = x.toNat / 2 ^ 28 := fun x => by
    rw [region, BitVec.extractLsb'_toNat, Nat.shiftRight_eq_div_pow]
    omega
  have ha := a.isLt
  have hl : (lastByte a n).toNat = (a.toNat + (n - 1)) % 2 ^ 32 := by
    rw [lastByte, BitVec.toNat_add, BitVec.toNat_ofNat]
    omega
  have hd := congrArg BitVec.toNat h
  rw [hr, hr, hl] at hd
  omega

/-! ## The write buffer's newest store of a byte -/

/-- Byte `b` is one of those the store holds. -/
def BusStore.Holds (st : BusStore) (b : Nat) : Prop := st.addr.toNat ≤ b ∧ b < st.addr.toNat + st.size

/-- The newest store of a byte is one of the buffer's, and holds the byte. -/
theorem bufferedStore_some {l : List BusStore} {b : Nat} {st : BusStore} (h : bufferedStore l b = some st) :
    st ∈ l ∧ st.Holds b := by
  induction l with
  | nil => cases h
  | cons x l ih =>
    unfold bufferedStore at h
    split at h
    · next hx =>
      cases h
      exact ⟨List.mem_cons_of_mem _ (ih hx).1, (ih hx).2⟩
    · split at h <;> cases h
      next hx => exact ⟨List.mem_cons_self, by simpa [BusStore.Holds] using hx⟩

/-- A byte that a store of the buffer holds has a newest store. -/
theorem bufferedStore_isSome {l : List BusStore} {b : Nat} {st : BusStore} (hm : st ∈ l) (hb : st.Holds b) :
    (bufferedStore l b).isSome = true := by
  induction l with
  | nil => cases hm
  | cons x l ih =>
    unfold bufferedStore
    split
    · rfl
    · next hx =>
      rcases List.mem_cons.mp hm with rfl | hm
      · rw [if_pos (by simpa [BusStore.Holds] using hb)]
        rfl
      · rw [hx] at ih
        exact absurd (ih hm) (by simp)

/-! ## Stores to the bus (R184, R187, R201) -/

/-- The store without its coalescing mark. -/
def BusStore.alone (st : BusStore) : BusStore := { st with joined := false }

/-- What `js` has of the buffered stores: those of `l`, each coalesced with what is before it only where that is allowed
(R187, R203, R230). -/
structure Buffers (s : State) (l js : List BusStore) : Prop where
  stores : js.map BusStore.alone = l.map BusStore.alone
  coalesced : ∀ st ∈ js, st.joined = true →
    st.sideEffect = false ∧ (mfdcNow s).getLsbD 2 = false ∧ s.cfg.busType = .axi4

theorem coalesced_allowed {s : State} {k : Nat} {st : BusStore} (h : coalesced s k st = true) :
    st.sideEffect = false ∧ (mfdcNow s).getLsbD 2 = false ∧ s.cfg.busType = .axi4 := by
  unfold coalesced at h
  split at h
  · cases h
  · simp only [Bool.and_eq_true, Bool.not_eq_true', beq_iff_eq] at h
    obtain ⟨⟨⟨⟨⟨-, hs⟩, -⟩, ht⟩, hm⟩, -⟩ := h
    exact ⟨hs, hm, ht⟩

/-- Stores enter the buffer one after another, and nothing else happens (R201). -/
theorem bufferStores_spec (k : Nat) (s : State) (l : List BusStore) :
    ∃ js, bufferStores k s l = { s with wb := s.wb ++ js } ∧ Buffers s l js := by
  induction l generalizing k s with
  | nil => exact ⟨[], by rw [List.append_nil]; rfl, rfl, by simp⟩
  | cons st rest ih =>
    obtain ⟨js, h1, h2, h3⟩ := ih (k + 1) (bufferStore s k st)
    refine ⟨{ st with joined := coalesced s k st } :: js, ?_, ?_, ?_⟩
    · rw [bufferStores, h1, bufferStore, List.append_assoc]
      rfl
    · rw [List.map_cons, List.map_cons, h2]
      rfl
    · exact List.forall_mem_cons.mpr ⟨fun h => coalesced_allowed h, h3⟩

/-- The bytes of a value: the `k`-th from below. -/
theorem byteOf_eq (v : Word) (k : Nat) : byteOf v k = BitVec.ofNat 8 (v.toNat / 256 ^ k) := by
  refine BitVec.eq_of_toNat_eq ?_
  rw [byteOf, BitVec.extractLsb'_toNat, Nat.shiftRight_eq_div_pow, BitVec.toNat_ofNat, pow_mul]
  rfl

/-- The store is piece `p`, offset and size, of the store of `v` at `a`. -/
structure BusStore.IsPiece (st : BusStore) (a v : Word) (p : Nat × Nat) : Prop where
  addr : st.addr.toNat = a.toNat + p.1
  size : st.size = p.2
  data : st.data = v >>> (8 * p.1)

/-- A piece holds the value's bytes at their places. -/
theorem BusStore.IsPiece.byteAt {st : BusStore} {a v : Word} {p : Nat × Nat} (h : st.IsPiece a v p) {b : Nat} (hb : st.Holds b) :
    st.byteAt b = byteOf v (b - a.toNat) := by
  have hle : a.toNat + p.1 ≤ b := h.addr ▸ hb.1
  rw [BusStore.byteAt, h.data, h.addr, byteOf_eq, byteOf_eq, BitVec.toNat_ushiftRight, Nat.shiftRight_eq_div_pow, pow_mul,
    Nat.div_div_eq_div_mul, show 2 ^ 8 = 256 from rfl, ← pow_add]
  congr 3
  omega

section Pieces

variable {s : State} {bytes se : Bool} {a v : Word} {n : Nat} {js : List BusStore}
  (hn : n = 1 ∨ n = 2 ∨ n = 4) (ha : a.toNat + n ≤ 2 ^ 32) (hj : Buffers s (storePieces bytes a n v se) js)
include hn ha

theorem isPiece_alone {st : BusStore} {p : Nat × Nat} (hp : p ∈ cutAccess bytes a.toNat n) (part : Bool)
    (h : st.alone = ⟨a + BitVec.ofNat 32 p.1, p.2, v >>> (8 * p.1), se, part, false⟩) : st.IsPiece a v p := by
  have hw := cutAccess_within hn hp
  have haddr : st.addr = a + BitVec.ofNat 32 p.1 := congrArg BusStore.addr h
  refine ⟨?_, congrArg BusStore.size h, congrArg BusStore.data h⟩
  rw [haddr, BitVec.toNat_add, BitVec.toNat_ofNat]
  omega

include hj

/-- The buffered stores of an access are its pieces. -/
theorem buffers_isPiece {st : BusStore} (hm : st ∈ js) : ∃ p ∈ cutAccess bytes a.toNat n, st.IsPiece a v p := by
  have h : st.alone ∈ (storePieces bytes a n v se).map BusStore.alone := hj.stores ▸ List.mem_map_of_mem hm
  rw [storePieces, List.map_map, List.mem_map] at h
  obtain ⟨p, hp, he⟩ := h
  exact ⟨p, hp, isPiece_alone hn ha hp _ he.symm⟩

theorem isPiece_buffered {p : Nat × Nat} (hp : p ∈ cutAccess bytes a.toNat n) : ∃ st ∈ js, st.IsPiece a v p := by
  have h : ∃ st ∈ js, st.alone = ⟨a + BitVec.ofNat 32 p.1, p.2, v >>> (8 * p.1), se, a.toNat % n != 0, false⟩ := by
    rw [← List.mem_map, hj.stores, storePieces, List.map_map]
    exact List.mem_map_of_mem hp
  obtain ⟨st, hst, he⟩ := h
  exact ⟨st, hst, isPiece_alone hn ha hp _ he⟩

/-- The newest of an access's pieces that holds a byte of it holds the value's byte; no piece holds another (R184). -/
theorem bufferedStore_pieces (b : Nat) :
    (bufferedStore js b).map (·.byteAt b) =
      if a.toNat ≤ b ∧ b < a.toNat + n then some (byteOf v (b - a.toNat)) else none := by
  split
  · next hb =>
    obtain ⟨p, hp, h1, h2⟩ := (cutAccess_covers bytes a.toNat (b - a.toNat) hn).mpr (by omega)
    obtain ⟨st, hst, hpiece⟩ := isPiece_buffered hn ha hj hp
    have hholds : st.Holds b := ⟨by rw [hpiece.addr]; omega, by rw [hpiece.addr, hpiece.size]; omega⟩
    obtain ⟨x, hx⟩ := Option.isSome_iff_exists.mp (bufferedStore_isSome hst hholds)
    obtain ⟨hxm, hxb⟩ := bufferedStore_some hx
    obtain ⟨q, -, hq⟩ := buffers_isPiece hn ha hj hxm
    rw [hx, Option.map_some, hq.byteAt hxb]
  · next hb =>
    rw [Option.map_eq_none_iff, Option.eq_none_iff_forall_ne_some]
    intro x hx
    obtain ⟨hxm, hx1, hx2⟩ := bufferedStore_some hx
    obtain ⟨q, hq, hpiece⟩ := buffers_isPiece hn ha hj hxm
    have hw := cutAccess_within hn hq
    rw [hpiece.addr] at hx1 hx2
    rw [hpiece.size] at hx2
    omega

end Pieces

/-- The hart's own loads see the bytes just buffered, and the others as before (R204). -/
theorem dataByte_buffered {s t : State} {js : List BusStore} (hw : t.wb = s.wb ++ js) (hm : t.mem = s.mem) (b : Nat) :
    dataByte t b = ((bufferedStore js b).map (·.byteAt b)).getD (dataByte s b) := by
  unfold dataByte
  rw [hw, bufferedStore_append]
  cases bufferedStore js b with
  | none => rw [Option.none_or, memByte, hm, memByte]; rfl
  | some st => rfl

/-- An aligned store is one store of the buffer. -/
theorem buffers_aligned {s : State} {bytes se : Bool} {a v : Word} {n : Nat} {js : List BusStore}
    (hal : a.toNat % n = 0) (hj : Buffers s (storePieces bytes a n v se) js) : ∃ b, js = [⟨a, n, v, se, false, b⟩] := by
  have h := hj.stores
  rw [storePieces, cutAccess_aligned bytes hal] at h
  obtain ⟨st, rfl⟩ : ∃ st, js = [st] := by
    rw [← List.length_eq_one_iff, ← List.length_map (f := BusStore.alone), h]
    rfl
  obtain ⟨addr, size, data, side, part, joined⟩ := st
  simp [BusStore.alone, hal] at h
  obtain ⟨rfl, rfl, rfl, rfl, rfl⟩ := h
  exact ⟨joined, rfl⟩

/-- Settles O26: the pieces join the buffer, and the newest store of a byte decides what the hart sees of it. -/
theorem busStores : Obligations.BusStores := by
  intro s i d hd hb se
  obtain ⟨short, he, hlen, hn⟩ := exec_storeForm hd
  obtain ⟨js, hjs, hbuf⟩ := bufferStores_spec 0 s (storePieces (storesBytes s) d.addr d.size d.value se)
  have hstore : memStore s d.addr d.size d.value = .done 0 { s with wb := s.wb ++ js } := by
    rw [memStore, classify_bus hb, ← hjs]
    rfl
  obtain ⟨t, ht, hret⟩ := finishStore_done hstore short
  have hall : (storePieces (storesBytes s) d.addr d.size d.value se).map BusStore.alone =
      storePieces (storesBytes s) d.addr d.size d.value se := by
    rw [storePieces, List.map_map]
    rfl
  have hwb : t.wb = s.wb ++ js := by rw [hret.frame]
  have hm : t.mem = s.mem := by rw [hret.frame]
  refine ⟨t, he.trans ht, js, hbuf.stores.trans hall, fun hal => buffers_aligned hal hbuf, hbuf.coalesced, ?_,
    fun b => by rw [memByte, hm, memByte], fun b => ?_⟩
  · rw [← hlen]
    exact ⟨hret.registers, hret.pc, hret.retired, hret.frame⟩
  · rw [dataByte_buffered hwb hm, bufferedStore_pieces hn (toNat_add_le_of_region hn hb.1) hbuf, ← byteOf_eq]
    split <;> rfl

end Sys2Proof.Machine

/-! PROOFS. The loads of the system bus complete or trap, and an error is reported (R102, R184, R203, R204, R213, R506). -/

namespace Sys2Proof.Machine

/-! ## How a load ends -/

/-- The access does not raise an exception: its value is there, or its error comes later (R213). -/
def Access.Completes : Access → Prop
  | .raises _ _ => False
  | .done _ _ | .lost _ => True

/-- The access completes or, only if it blocks, raises exception 5 (R213, R506). -/
def Access.CompletesOrFails (r : Access) (blocking : Bool) : Prop :=
  r.Completes ∨ blocking = true ∧ r = .raises 5 r.state

/-- A load whose access completes writes some value, and retires. -/
theorem finishLoad_completes {s : State} {k : LoadKind} {a : Word} (h : (memLoad s a k.size).Completes) (short : Bool)
    (rd : Reg) : GoesTo (finishLoad s short k rd a) fun t => ∃ v, WroteReg (memLoad s a k.size).state t rd v
      ((memLoad s a k.size).state.pc + ilen short) := by
  cases hm : memLoad s a k.size with
  | done v u =>
    obtain ⟨t, ht, hw⟩ := finishLoad_done hm short rd
    exact ⟨t, ht, _, hw⟩
  | raises code u => rw [hm] at h; exact h.elim
  | lost u =>
    obtain ⟨t, ht, hw⟩ := finishLoad_lost hm short rd
    exact ⟨t, ht, _, hw⟩

theorem loadTransaction_ends (s : State) (r : BusRead) (blocking : Bool) :
    (loadTransaction s r blocking).CompletesOrFails blocking := by
  unfold loadTransaction
  dsimp only
  cases blocking
  · rw [if_neg Bool.false_ne_true]
    split
    · exact .inl trivial
    · exact .inl trivial
  · rw [if_pos rfl]
    split
    · exact .inr ⟨rfl, rfl⟩
    · exact .inl trivial

theorem busLoadPieces_ends (a : Word) (part blocking : Bool) (k : Nat) (v : Word) (lost : Bool) (s : State)
    (ps : List (Nat × Nat)) : (busLoadPieces a part blocking k v lost s ps).CompletesOrFails blocking := by
  induction ps generalizing k v lost s with
  | nil =>
    unfold busLoadPieces
    split
    · exact .inl trivial
    · exact .inl trivial
  | cons p ps ih =>
    have h := loadTransaction_ends (actBetween s k) ⟨a + BitVec.ofNat 32 p.1, p.2, false, part⟩ blocking
    unfold busLoadPieces
    split <;> rename_i heq
    · rw [heq] at h
      exact h.imp False.elim id
    · exact ih _ _ _ _
    · exact ih _ _ _ _

/-- What the bus may change does not decide whether an idempotent load blocks. -/
theorem BusFrame.blockingLoad {s t : State} (h : BusFrame s t) (se : Bool) : blockingLoad t se = blockingLoad s se := by
  unfold Machine.blockingLoad mfdcNow
  rw [h]

theorem emptyBuffer_frame (s : State) : BusFrame s (emptyBuffer s) := sendStores_frame _ s

/-- A load from the bus completes, or, if it blocks, takes exception 5. -/
theorem busLoad_ends (s : State) (a : Word) (n : Nat) (se : Bool) :
    (busLoad s a n se).CompletesOrFails (blockingLoad s se) := by
  have idem : ∀ t, BusFrame s t → (idempotentLoad t a n).CompletesOrFails (blockingLoad s false) := fun t ht => by
    rw [idempotentLoad, ht.blockingLoad]
    exact busLoadPieces_ends _ _ _ _ _ _ _ _
  unfold busLoad
  cases se
  · rw [if_neg Bool.false_ne_true]
    split_ifs
    · exact .inl trivial
    · exact idem _ (emptyBuffer_frame s)
    · exact idem _ (awaitSideEffects_frame s)
  · exact loadTransaction_ends _ _ true

/-! ## Undisturbed accesses (R184, R210) -/

/-- No other agent acts before the pieces `k` to `k + m - 1` of an access (R210). -/
def Quiet (s : State) (k m : Nat) : Prop := ∀ j < m, ∀ t : State, t.inputs = s.inputs → actBetween t (k + j) = t

theorem Quiet.head {s : State} {k m : Nat} (h : Quiet s k (m + 1)) : actBetween s k = s := h 0 (Nat.succ_pos m) s rfl

theorem Quiet.tail {s t : State} {k m : Nat} (h : Quiet s k (m + 1)) (ht : t.inputs = s.inputs) : Quiet t (k + 1) m :=
  fun j hj u hu => by
    rw [Nat.add_assoc, Nat.add_comm 1 j]
    exact h (j + 1) (Nat.succ_lt_succ hj) u (hu.trans ht)

/-- An undisturbed access is quiet: it is one piece, or no other agent is about to act. -/
theorem Undisturbed.quiet {s : State} {a : Word} {n : Nat} (h : Undisturbed s a n) {t : State} (ht : t.inputs = s.inputs) :
    Quiet t 0 (cutAccess false a.toNat n).length := by
  intro j hj u hu
  rw [Nat.zero_add]
  rcases h with hal | hno
  · rw [cutAccess_aligned false hal, List.length_singleton, Nat.lt_one_iff] at hj
    rw [hj, actBetween_zero]
  · refine actBetween_idle ?_ j
    rw [agentNext, hu, ht]
    exact hno

theorem BusFrame.inputs {s t : State} (h : BusFrame s t) : t.inputs = s.inputs := by rw [h]

/-! ## The hart's view of memory -/

theorem loadTransaction_view (s : State) (r : BusRead) (blocking : Bool) : KeepsView s (loadTransaction s r blocking).state := by
  obtain ⟨hf, hm, he, hw, -⟩ := loadTransaction_spec s r blocking
  exact .of_eq (by rw [hf]) he hm hw

theorem busLoadPieces_view (a : Word) (part blocking : Bool) (k : Nat) (v : Word) (lost : Bool) (s : State)
    (ps : List (Nat × Nat)) (hq : Quiet s k ps.length) : KeepsView s (busLoadPieces a part blocking k v lost s ps).state := by
  induction ps generalizing k v lost s with
  | nil => unfold busLoadPieces; split <;> exact .refl s
  | cons p ps ih =>
    have hv := loadTransaction_view s ⟨a + BitVec.ofNat 32 p.1, p.2, false, part⟩ blocking
    have hf := (loadTransaction_spec s ⟨a + BitVec.ofNat 32 p.1, p.2, false, part⟩ blocking).1.inputs
    unfold busLoadPieces
    rw [hq.head]
    split <;> rename_i heq <;> rw [heq] at hv hf
    · exact hv
    · exact hv.trans (ih _ _ _ _ (hq.tail hf))
    · exact hv.trans (ih _ _ _ _ (hq.tail hf))

/-- An undisturbed load leaves memory as the hart sees it (R204, R209). -/
theorem busLoad_view {s : State} {a : Word} {n : Nat} (h : Undisturbed s a n) (se : Bool) :
    KeepsView s (busLoad s a n se).state := by
  have he : KeepsView s (emptyBuffer s) := sendStores_view _ s
  unfold busLoad
  split_ifs
  · exact he.trans (loadTransaction_view _ _ _)
  · exact .refl s
  · exact he.trans (busLoadPieces_view _ _ _ _ _ _ _ _ (h.quiet (emptyBuffer_frame s).inputs))
  · exact (awaitSideEffects_view s).trans (busLoadPieces_view _ _ _ _ _ _ _ _ (h.quiet (awaitSideEffects_frame s).inputs))

/-- A load with side effects leaves the write buffer empty (R203). -/
theorem busLoad_drains (s : State) (a : Word) (n : Nat) : (busLoad s a n true).state.wb = [] :=
  (loadTransaction_spec (emptyBuffer s) ⟨a, n, true, false⟩ true).2.2.2.1.trans (emptyBuffer_wb s)

/-! ## Errors (R213) -/

/-- The answer a read of the bus gets: an error when a byte fails that it asks for, or, of those it sees beside them, may fail
(R187, R212). -/
def readAnswer (s : State) (r : BusRead) : BusResponse :=
  ⟨r.addr, r.size, true, readErrs s (accessBytes r.addr r.size)
    (accessBytes (readSeen r.addr r.size r.sideEffect).addr (readSeen r.addr r.size r.sideEffect).size), r.part⟩

theorem readAnswer_isError {s : State} {r : BusRead} {k : Nat} (hk : k < r.size)
    (h : readFails s (r.addr + BitVec.ofNat 32 k) = true) : (readAnswer s r).isError = true :=
  readErrs_asked _ ⟨_, List.mem_map_of_mem (List.mem_range.mpr hk), h⟩

section Room

variable {s : State} (hroom : s.responses.length < 255) (r : BusRead)
include hroom

/-- With room on the bus a blocking read takes exception 5, or answers; only devices have seen it. -/
theorem loadTransaction_blocking : ∃ d v, loadTransaction s r true =
    if (readAnswer s r).isError then .raises 5 { s with deviceTrace := d } else .done v { s with deviceTrace := d } := by
  refine ⟨(traceDevice s (readSeen r.addr r.size r.sideEffect)).deviceTrace, assemble (busReadByte s) r.addr.toNat r.size, ?_⟩
  rw [← traceDevice_frame, loadTransaction, waitForRoom, if_pos hroom]
  rfl

/-- With room on the bus another read leaves its answer outstanding. -/
theorem loadTransaction_sent : ∃ d v, loadTransaction s r false =
    if (readAnswer s r).isError then .lost { s with responses := s.responses ++ [readAnswer s r], deviceTrace := d }
    else .done v { s with responses := s.responses ++ [readAnswer s r], deviceTrace := d } := by
  refine ⟨(traceDevice s (readSeen r.addr r.size r.sideEffect)).deviceTrace, assemble (busReadByte s) r.addr.toNat r.size, ?_⟩
  have hf := traceDevice_frame s (readSeen r.addr r.size r.sideEffect)
  rw [loadTransaction, waitForRoom, if_pos hroom]
  dsimp only
  rw [if_neg Bool.false_ne_true, hf]
  rfl

end Room

/-- The read that piece `p` of an idempotent load makes. -/
def pieceRead (a : Word) (part : Bool) (p : Nat × Nat) : BusRead := ⟨a + BitVec.ofNat 32 p.1, p.2, false, part⟩

/-- A blocking load of which a piece is answered with an error takes exception 5. -/
theorem busLoadPieces_fails (a : Word) (part : Bool) (k : Nat) (v : Word) (lost : Bool) (s : State) (ps : List (Nat × Nat))
    (hroom : s.responses.length < 255) (hq : Quiet s k ps.length)
    (hf : ∃ p ∈ ps, (readAnswer s (pieceRead a part p)).isError = true) :
    ∃ d, busLoadPieces a part true k v lost s ps = .raises 5 { s with deviceTrace := d } := by
  induction ps generalizing k v lost s with
  | nil =>
    obtain ⟨p, hp, -⟩ := hf
    cases hp
  | cons p ps ih =>
    obtain ⟨d, w, hl⟩ := loadTransaction_blocking hroom (pieceRead a part p)
    rw [pieceRead] at hl
    unfold busLoadPieces
    rw [hq.head, hl]
    cases he : (readAnswer s (pieceRead a part p)).isError
    · have hf' : ∃ q ∈ ps, (readAnswer s (pieceRead a part q)).isError = true := by
        obtain ⟨q, hq, hqe⟩ := hf
        rcases List.mem_cons.mp hq with rfl | hq
        · rw [hqe] at he; cases he
        · exact ⟨q, hq, hqe⟩
      obtain ⟨d', h'⟩ := ih (k + 1) (v ||| w <<< (8 * p.1)) lost { s with deviceTrace := d } hroom (hq.tail rfl) hf'
      rw [pieceRead] at he
      rw [he]
      exact ⟨d', h'⟩
    · rw [pieceRead] at he
      rw [he]
      exact ⟨d, rfl⟩

/-- A load that does not block sends all its pieces, and completes, whatever their answers. -/
theorem busLoadPieces_sent (a : Word) (part : Bool) (k : Nat) (v : Word) (lost : Bool) (s : State) (ps : List (Nat × Nat))
    (hroom : s.responses.length + ps.length ≤ 255) (hq : Quiet s k ps.length) :
    (busLoadPieces a part false k v lost s ps).Completes ∧
      ∃ d, (busLoadPieces a part false k v lost s ps).state = { s with
        responses := s.responses ++ ps.map fun p => readAnswer s (pieceRead a part p), deviceTrace := d } := by
  induction ps generalizing k v lost s with
  | nil =>
    unfold busLoadPieces
    rw [List.map_nil, List.append_nil]
    split
    · exact ⟨trivial, s.deviceTrace, rfl⟩
    · exact ⟨trivial, s.deviceTrace, rfl⟩
  | cons p ps ih =>
    rw [List.length_cons] at hroom
    obtain ⟨d, w, hl⟩ := loadTransaction_sent (s := s) (by omega) (pieceRead a part p)
    have hr := fun v lost => ih (k + 1) v lost
      { s with responses := s.responses ++ [readAnswer s (pieceRead a part p)], deviceTrace := d }
      (by rw [List.length_append, List.length_singleton]; omega) (hq.tail rfl)
    rw [List.map_cons, List.append_cons]
    unfold busLoadPieces
    rw [hq.head]
    rw [pieceRead] at hl
    rw [hl]
    cases (readAnswer s ⟨a + BitVec.ofNat 32 p.1, p.2, false, part⟩).isError
    · exact hr _ _
    · exact hr _ _

section Error

variable {s : State} {a : Word} {n : Nat} (hn : n = 1 ∨ n = 2 ∨ n = 4) (hu : Undisturbed s a n) (hw : s.wb = [])
  (hroom : s.responses.length < 253) (hf : ∃ k < n, readFails s (a + BitVec.ofNat 32 k) = true)

include hn hf in
/-- A byte answered with an error makes the answer to its piece one. -/
theorem pieceRead_isError (part : Bool) :
    ∃ p ∈ cutAccess false a.toNat n, (readAnswer s (pieceRead a part p)).isError = true := by
  obtain ⟨k, hk, hfk⟩ := hf
  obtain ⟨p, hp, h1, h2⟩ := (cutAccess_covers false a.toNat k hn).mpr hk
  refine ⟨p, hp, readAnswer_isError (k := k - p.1) (show k - p.1 < p.2 by omega) ?_⟩
  rw [pieceRead]
  dsimp only
  rw [BitVec.add_assoc, ← BitVec.ofNat_add, Nat.add_sub_cancel' h1]
  exact hfk

include hn hw in
/-- With nothing buffered an idempotent load waits for nothing. -/
theorem busLoad_idempotent : busLoad s a n false = idempotentLoad s a n := by
  have h0 : 0 < n := by omega
  have hfw : forwards s.wb a.toNat n = false := by
    rw [hw, forwards, List.all_eq_false]
    exact ⟨0, List.mem_range.mpr h0, Bool.false_ne_true⟩
  have hov : overlapsBuffer s.wb a.toNat n = false := by
    rw [hw, overlapsBuffer, List.any_eq_false]
    exact fun _ _ => Bool.false_ne_true
  unfold busLoad
  rw [if_neg Bool.false_ne_true, hfw, if_neg Bool.false_ne_true, hov, if_neg Bool.false_ne_true,
    awaitSideEffects_idle (.inr (by rw [hw]; rfl))]

include hn hu hw hroom hf

/-- A blocking load with an error takes exception 5, and changes nothing (R213, R506). -/
theorem busLoad_blockingError {se : Bool} (hb : blockingLoad s se = true) :
    ∃ d, busLoad s a n se = .raises 5 { s with deviceTrace := d } := by
  cases se
  · rw [busLoad_idempotent hn hw, idempotentLoad, hb]
    exact busLoadPieces_fails _ _ _ _ _ _ _ (by omega) (hu.quiet rfl) (pieceRead_isError hn hf _)
  · obtain ⟨k, hk, hfk⟩ := hf
    have he : emptyBuffer s = s := by rw [emptyBuffer, hw]; rfl
    obtain ⟨d, v, hl⟩ := loadTransaction_blocking (s := s) (by omega) ⟨a, n, true, false⟩
    rw [readAnswer_isError (r := ⟨a, n, true, false⟩) hk hfk, if_pos rfl] at hl
    refine ⟨d, ?_⟩
    show loadTransaction (emptyBuffer s) ⟨a, n, true, false⟩ true = _
    rw [he]
    exact hl

/-- A load that does not block completes, and its reads are outstanding, one of them with an error (R213). -/
theorem busLoad_laterError {se : Bool} (hb : blockingLoad s se = false) :
    (busLoad s a n se).Completes ∧ ∃ d new, (busLoad s a n se).state = { s with responses := s.responses ++ new, deviceTrace := d } ∧
      (∀ r ∈ new, r.isLoad = true) ∧ (∃ r ∈ new, r.isError = true) ∧
      (a.toNat % n = 0 → new = [⟨a, n, true, true, false⟩]) := by
  obtain rfl : se = false := by
    cases se
    · rfl
    · cases hb
  have hlen : (cutAccess false a.toNat n).length ≤ 3 := by
    unfold cutAccess
    rw [if_neg Bool.false_ne_true]
    split_ifs <;> simp
  rw [busLoad_idempotent hn hw, idempotentLoad, hb]
  obtain ⟨hc, d, hs⟩ := busLoadPieces_sent a (a.toNat % n != 0) 0 0 false s (cutAccess false a.toNat n) (by omega) (hu.quiet rfl)
  obtain ⟨p, hp, he⟩ := pieceRead_isError hn hf (a.toNat % n != 0)
  refine ⟨hc, d, _, hs, ?_, ⟨_, List.mem_map_of_mem hp, he⟩, fun hal => ?_⟩
  · simp only [List.mem_map, forall_exists_index, and_imp, forall_apply_eq_imp_iff₂]
    exact fun _ _ => rfl
  · rw [cutAccess_aligned false hal, List.mem_singleton] at hp
    subst hp
    rw [cutAccess_aligned false hal, List.map_singleton]
    have hr : readAnswer s (pieceRead a (a.toNat % n != 0) (0, n)) = ⟨a + 0#32, n, true, true, a.toNat % n != 0⟩ :=
      congrArg (fun e => BusResponse.mk (a + 0#32) n true e (a.toNat % n != 0)) he
    rw [hr, BitVec.add_zero, hal]
    rfl

end Error

/-- Settles O25: the load's access decides; what it leaves is a state of the bus. -/
theorem busLoadsCompleteOrTrap : Obligations.BusLoadsCompleteOrTrap := by
  intro s i l hl hb blocking drained
  obtain ⟨k, short, he, hk, hlen⟩ := exec_loadForm hl
  have hn := hk ▸ k.size_cases
  let se := sideEffectBit s.cfg (mracNow s) l.addr
  have hm : memLoad s l.addr k.size = busLoad s l.addr l.size se := by
    rw [memLoad, hk, classify_bus hb]
  have hkeeps := (busLoad_keeps s l.addr l.size se).frame
  have hview : Undisturbed s l.addr l.size → SameMemory s (busLoad s l.addr l.size se).state := fun hu => (busLoad_view hu se).view
  have hdrain : drained (busLoad s l.addr l.size se).state := fun h => by
    rw [show se = true from h]
    exact busLoad_drains s l.addr l.size
  have htarget : exceptionTarget (busLoad s l.addr l.size se).state = exceptionTarget s := by
    unfold exceptionTarget
    rw [hkeeps]
  rcases busLoad_ends s l.addr l.size se with hc | ⟨hblock, hr⟩
  · obtain ⟨t, ht, v, hwrote⟩ := finishLoad_completes (hm ▸ hc) short l.rd
    rw [hm, hkeeps.pc, hlen] at hwrote
    refine ⟨_, t, he.trans ht, hkeeps, hview, hdrain, .inl ⟨v, hwrote⟩, fun hu hw hroom hf => ?_⟩
    cases hblock : blocking
    · obtain ⟨-, d, new, hs, hload, herr, hal⟩ := busLoad_laterError hn hu hw hroom hf hblock
      exact ⟨v, new, hwrote, by rw [hs], hload, herr, hal⟩
    · obtain ⟨d, hd⟩ := busLoad_blockingError hn hu hw hroom hf hblock
      rw [hd] at hc
      exact hc.elim
  · have htrap := takeException_spec (busLoad s l.addr l.size se).state 5 l.addr
    rw [htarget] at htrap
    refine ⟨_, _, he.trans (finishLoad_raises (hm.trans hr) short l.rd), hkeeps, hview, hdrain, .inr ⟨hblock, htrap⟩,
      fun hu hw hroom hf => ?_⟩
    obtain ⟨d, hd⟩ := busLoad_blockingError hn hu hw hroom hf hblock
    rw [if_pos hblock]
    exact ⟨by rw [hd]; rfl, htrap⟩

end Sys2Proof.Machine

/-! PROOFS. DMA writes are read back, and DMA reads correct and count (R106, R192, R193, R221, R222). -/

namespace Sys2Proof.Machine

/-! ## Values of up to eight bytes (R161) -/

/-- The value of up to eight bytes is their little-endian number. -/
theorem assemble64_eq (f : Nat → Byte) (a : Nat) {n : Nat} (hn : n ≤ 8) :
    assemble64 f a n = BitVec.ofNat 64 (littleEndianValue f a n) := by
  induction n with
  | zero => rfl
  | succ n ih =>
    have hlt : littleEndianValue f a n < 2 ^ (8 * n) := by
      rw [pow_mul]
      exact littleEndianValue_lt f a n
    have h64 : 2 ^ (8 * n) ≤ 2 ^ 56 := Nat.pow_le_pow_right (by decide) (by omega)
    have hb : (f (a + n)).toNat * 2 ^ (8 * n) ≤ 255 * 2 ^ 56 := Nat.mul_le_mul (by have := (f (a + n)).isLt; omega) h64
    have hstep : assemble64 f a (n + 1) = assemble64 f a n ||| (f (a + n)).setWidth 64 <<< (8 * n) := by
      rw [assemble64, List.range_succ, List.foldl_append]
      rfl
    have hp : 256 ^ n = 2 ^ (8 * n) := by rw [pow_mul]; rfl
    refine BitVec.eq_of_toNat_eq ?_
    rw [hstep, ih (by omega), littleEndianValue, BitVec.toNat_or, BitVec.toNat_shiftLeft, BitVec.toNat_setWidth,
      BitVec.toNat_ofNat, BitVec.toNat_ofNat, hp, Nat.mod_eq_of_lt (a := littleEndianValue f a n) (by omega),
      Nat.mod_eq_of_lt (a := (f (a + n)).toNat) (by have := (f (a + n)).isLt; omega), Nat.shiftLeft_eq,
      Nat.mod_eq_of_lt (b := 2 ^ 64) (by omega), Nat.mod_eq_of_lt (b := 2 ^ 64) (by omega), Nat.or_comm, ← Nat.shiftLeft_eq,
      ← Nat.shiftLeft_add_eq_or_of_lt hlt, Nat.add_comm]

/-- The low bytes of a value make the value again. -/
theorem littleEndianValue_bytes {w : Nat} (v : BitVec w) {f : Nat → Byte} {a n : Nat}
    (h : ∀ k < n, f (a + k) = v.extractLsb' (8 * k) 8) : littleEndianValue f a n = v.toNat % 256 ^ n := by
  induction n with
  | zero => rw [pow_zero, Nat.mod_one]; rfl
  | succ n ih =>
    rw [littleEndianValue, ih fun k hk => h k (by omega), h n (by omega), BitVec.extractLsb'_toNat,
      Nat.shiftRight_eq_div_pow, pow_mul, Nat.mod_pow_succ (x := v.toNat) (b := 256), Nat.mul_comm]
    rfl

/-! ## DMA writes (R192, R193) -/

/-- By `t` the `n` bytes of `v` at `a` are written from `s`, in words that are sound then, and nothing else is changed. -/
structure DmaWritten (s : State) (a n : Nat) (v : BitVec 64) (t : State) : Prop where
  byte : ∀ b, memByte t b = if a ≤ b ∧ b < a + n then v.extractLsb' (8 * (b - a)) 8 else memByte s b
  sound : ∀ w ∈ wordsOf a n, cellGet t.ecc w = some .good
  frame : t = { s with mem := t.mem, ecc := t.ecc, stale := t.stale, dmaResponse := t.dmaResponse }

theorem DmaWritten.responds {s t : State} {a n : Nat} {v : BitVec 64} (h : DmaWritten s a n v t) (r : DmaResponse) :
    DmaWritten s a n v { t with dmaResponse := r } :=
  ⟨h.byte, h.sound, congrArg (fun u : State => { u with dmaResponse := r }) h.frame⟩

/-- One word of a DMA write. -/
theorem dmaWriteWord_spec (m : Ccm) (s : State) (a : Nat) (v : Word) :
    let t := dmaWriteWord m s a v
    t = { s with mem := t.mem, ecc := cellSet s.ecc (a / 4) .good, stale := t.stale } ∧
      ∀ b, memByte t b = if a ≤ b ∧ b < a + 4 then byteOf v (b - a) else memByte s b := by
  cases m
  · refine ⟨?_, memByte_writeBytes memByte_writeFetchableByte s a 4 v⟩
    rw [dmaWriteWord, writeBytes_writeFetchableByte]
    rfl
  · refine ⟨?_, memByte_writeBytes memByte_writeByte s a 4 v⟩
    rw [dmaWriteWord, writeBytes_writeByte]
    rfl

theorem byteOf_extractLsb' (v : BitVec 64) (i : Nat) {k : Nat} (hk : k < 4) :
    byteOf (v.extractLsb' i 32) k = v.extractLsb' (i + 8 * k) 8 := by
  refine BitVec.eq_of_getLsbD_eq fun j hj => ?_
  rw [byteOf, BitVec.getLsbD_extractLsb', BitVec.getLsbD_extractLsb', BitVec.getLsbD_extractLsb', ← Nat.add_assoc]
  simp only [hj, decide_true, Bool.true_and, show 8 * k + j < 32 by omega]

theorem dmaWriteWord_written (m : Ccm) (s : State) {a : Nat} (v : BitVec 64) (h : a % 4 = 0) :
    DmaWritten s a 4 v (dmaWriteWord m s a (v.extractLsb' 0 32)) := by
  obtain ⟨hf, hb⟩ := dmaWriteWord_spec m s a (v.extractLsb' 0 32)
  refine ⟨fun b => ?_, ?_, by rw [hf]⟩
  · rw [hb]
    split
    · rw [byteOf_extractLsb' v 0 (by omega), Nat.zero_add]
    · rfl
  · rw [wordsOf_one (by decide) (by omega), hf]
    simp [cellGet_cellSet]

theorem dmaWriteWord_written_double (m : Ccm) (s : State) {a : Nat} (v : BitVec 64) (h : a % 8 = 0) :
    DmaWritten s a 8 v (dmaWriteWord m (dmaWriteWord m s a (v.extractLsb' 0 32)) (a + 4) (v.extractLsb' 32 32)) := by
  obtain ⟨hb, hs, hf⟩ := dmaWriteWord_written m s v (a := a) (by omega)
  obtain ⟨hf', hb'⟩ := dmaWriteWord_spec m (dmaWriteWord m s a (v.extractLsb' 0 32)) (a + 4) (v.extractLsb' 32 32)
  refine ⟨fun b => ?_, ?_, ?_⟩
  · rw [hb', hb]
    split_ifs with h1 h2 h3
    · rw [byteOf_extractLsb' v 32 (by omega)]
      congr 1
      omega
    all_goals first | rfl | omega
  · have hw : wordsOf a 8 = [a / 4, a / 4 + 1] := by
      rw [wordsOf, show (a + 8 - 1) / 4 - a / 4 + 1 = 2 by omega]
      rfl
    have h0 := hs (a / 4) (by rw [wordsOf_one (by decide) (by omega)]; exact List.mem_singleton_self _)
    rw [hw, hf']
    simp [cellGet_cellSet, show (a + 4) / 4 = a / 4 + 1 by omega, h0]
  · rw [hf']
    generalize dmaWriteWord m (dmaWriteWord m s a (v.extractLsb' 0 32)) (a + 4) (v.extractLsb' 32 32) = t
    rw [hf]

/-- A DMA write of an aligned word or double-word of a closely-coupled memory (R192, R193). -/
theorem dmaWrite_written {s : State} {a : Word} {n : Nat} (v : BitVec 64) (hn : n = 4 ∨ n = 8) (ha : a.toNat % n = 0)
    (hc : (ccmOf s.cfg a n).isSome = true) :
    (dmaWrite s a n v).dmaResponse = .written ∧ DmaWritten s a.toNat n v (dmaWrite s a n v) := by
  obtain ⟨m, hm⟩ := Option.isSome_iff_exists.mp hc
  unfold dmaWrite
  rw [hm]
  dsimp only
  rcases hn with rfl | rfl
  · rw [if_pos (by simpa using ha)]
    exact ⟨rfl, (dmaWriteWord_written m s v ha).responds _⟩
  · rw [if_neg (by simp), if_pos (by simpa using ha)]
    exact ⟨rfl, (dmaWriteWord_written_double m s v ha).responds _⟩

/-! ## DMA reads (R192, R193, R221) -/

section Reads

variable {s : State} {a : Word} {n : Nat} {m : Ccm} (h1 : 1 ≤ n) (h8 : n ≤ 8) (hm : ccmOf s.cfg a n = some m)
include h1 h8 hm

/-- A DMA read gives an error response where a word fails; else the checked bytes, every correctable word written back sound and
counted (R193, R221). -/
theorem dmaRead_eq : dmaRead s a n =
    if anyFailed s (wordsOf a.toNat n) then { s with dmaResponse := .error }
    else { s with
      dmaResponse := .data (BitVec.ofNat 64 (littleEndianValue (checkedByte s (memByte s)) a.toNat n))
      ecc := soundAt (correctedWords s (wordsOf a.toNat n)) s.ecc
      csr := countMemory m (correctedWords s (wordsOf a.toNat n)).length s.csr } := by
  unfold dmaRead
  rw [hm]
  dsimp only
  rw [show decide (n = 0) = false by simp; omega, show decide (8 < n) = false by simp; omega, Bool.false_or, Bool.false_or]
  split
  · rfl
  · rw [writeBack_eq m s _ (wordsOf_nodup _ _), assemble64_eq _ _ h8]

end Reads

/-- What a DMA write wrote a DMA read gives. -/
theorem DmaWritten.read {s t : State} {a : Word} {n : Nat} {v : BitVec 64} (h : DmaWritten s a.toNat n v t) (h1 : 1 ≤ n)
    (h8 : n ≤ 8) (hc : (ccmOf t.cfg a n).isSome = true) :
    (dmaRead t a n).dmaResponse = .data (BitVec.ofNat 64 (v.toNat % 256 ^ n)) := by
  obtain ⟨m, hm⟩ := Option.isSome_iff_exists.mp hc
  have hs : ∀ w ∈ wordsOf a.toNat n, checkWord t w = .sound := fun w hw => checkWord_good (h.sound w hw)
  have hb : ∀ k < n, checkedByte t (memByte t) (a.toNat + k) = v.extractLsb' (8 * k) 8 := fun k hk => by
    have hw : (a.toNat + k) / 4 ∈ wordsOf a.toNat n := by
      rw [wordsOf, List.mem_map]
      exact ⟨(a.toNat + k) / 4 - a.toNat / 4, List.mem_range.mpr (by omega), by omega⟩
    rw [checkedByte, hs _ hw]
    dsimp only
    rw [h.byte, if_pos (by omega), Nat.add_sub_cancel_left]
  rw [dmaRead_eq h1 h8 hm, anyFailed_sound hs, if_neg Bool.false_ne_true, littleEndianValue_bytes v hb]

/-- A word is the low half of the data, a double-word all of it (R193). -/
theorem written_value (v : BitVec 64) {n : Nat} (hn : n = 4 ∨ n = 8) : BitVec.ofNat 64 (v.toNat % 256 ^ n) =
    if n = 4 then (v.extractLsb' 0 32).setWidth 64 else v := by
  rcases hn with rfl | rfl
  · refine BitVec.eq_of_toNat_eq ?_
    rw [if_pos rfl, BitVec.toNat_setWidth, BitVec.extractLsb'_toNat, BitVec.toNat_ofNat]
    rfl
  · rw [if_neg (by decide), show 256 ^ 8 = 2 ^ 64 from rfl, Nat.mod_eq_of_lt v.isLt, BitVec.ofNat_toNat, BitVec.setWidth_eq]

/-- Settles O53: what is written is read back; what is refused changes nothing; and a read. -/
theorem dmaReadsAndWrites : Obligations.DmaReadsAndWrites := by
  refine ⟨fun s a n v hn ha hc => ?_, fun s a n v => ⟨fun hc => ?_, fun h4 h8 => ?_⟩, fun s a n m h1 h8 hm => ?_⟩
  · obtain ⟨hr, hw⟩ := dmaWrite_written v hn ha hc
    have hread := hw.read (by omega) (by omega) (by rw [hw.frame]; exact hc)
    refine ⟨hr, hread.trans ?_, fun w hm => checkWord_good (hw.sound w hm), fun b hb => (hw.byte b).trans (if_neg (by omega)),
      hw.frame⟩
    rw [written_value v hn]
  · rw [dmaRead, dmaWrite, hc]
    exact ⟨rfl, rfl⟩
  · unfold dmaWrite
    split
    · rfl
    · rw [if_neg (by simpa using h4), if_neg (by simpa using h8)]
  · have hr := dmaRead_eq h1 h8 hm
    refine ⟨fun hf => ?_, fun hf => ?_⟩
    · rw [hr, if_pos hf]
    · rw [hr, hf, if_neg Bool.false_ne_true]
      rfl

end Sys2Proof.Machine

/-! PROOFS. The entries of the I-cache that `dicago` shows (R112 to R115, R190, R682, R683, R685). -/

namespace Sys2Proof.Machine

/-! ## The places of the arrays (R112, R681) -/

/-- The index bits are those of a word in a way of 64 KB at most. -/
theorem index_bounds (c : Build) (w : Word) : (w &&& indexMask c).toNat ≤ 0xFFFC ∧ (w &&& indexMask c).toNat % 4 = 0 := by
  have h : (w &&& indexMask c).toNat = (w.toNat &&& (BitVec.ofNat 32 (wayBytes c - 1)).toNat) &&& 0xFFFC := by
    rw [indexMask, ← BitVec.and_assoc, BitVec.toNat_and, BitVec.toNat_and]
    rfl
  rw [h]
  exact ⟨Nat.and_le_right, (Nat.and_mod_two_pow (n := 2)).trans (Nat.and_zero _)⟩

section Places

variable {s : State} {w : Word} {line : Nat}
  (hf : filledAt s (setOf s.cfg w) (w.extractLsb' 20 2).toNat = some line)
include hf

/-- Where the debugger has written nothing, a data entry is the word of the line filled there (R190). -/
theorem dataEntry_filled (h : cellGet s.icache.data (dataKey s.cfg w) = none) :
    dataEntry s (dataKey s.cfg w) = filledData s (line * 64 + (w &&& indexMask s.cfg).toNat % 64) := by
  obtain ⟨hle, h4⟩ := index_bounds s.cfg w
  have hset : dataKey s.cfg w % 65536 / 16 = setOf s.cfg w := by rw [dataKey, setOf]; omega
  have hway : dataKey s.cfg w / 65536 = (w.extractLsb' 20 2).toNat := by rw [dataKey]; omega
  have hoff : dataKey s.cfg w % 16 * 4 = (w &&& indexMask s.cfg).toNat % 64 := by rw [dataKey]; omega
  rw [dataEntry, h, hset, hway, hf, hoff]

/-- Where the debugger has written nothing, a tag entry is the tag of the line filled there (R190). -/
theorem tagEntry_filled (h : cellGet s.icache.tags (tagKey s.cfg w) = none) :
    tagEntry s (tagKey s.cfg w) = filledTag s.cfg line := by
  obtain ⟨hle, -⟩ := index_bounds s.cfg w
  have hset : tagKey s.cfg w % 65536 = setOf s.cfg w := by rw [tagKey, setOf]; omega
  have hway : tagKey s.cfg w / 65536 = (w.extractLsb' 20 2).toNat := by rw [tagKey, setOf]; omega
  rw [tagEntry, h, hset, hway, hf]

end Places

/-! ## What the diagnostic registers show -/

theorem readArray_data {s : State} (h : dicawicsTags s.csr.dicawics = false) :
    readArray s = { s with csr := { s.csr with
      dicad0 := (dataEntry s (dataKey s.cfg s.csr.dicawics)).word
      dicad1 := (dataEntry s (dataKey s.cfg s.csr.dicawics)).check &&& checkMask s.cfg } } := by
  rw [readArray, h]
  rfl

theorem readArray_tags {s : State} (h : dicawicsTags s.csr.dicawics = true) :
    readArray s = { s with csr := { s.csr with
      dicad0 := withOpenBits s 4 unusedTagBits (withLru s (tagEntry s (tagKey s.cfg s.csr.dicawics)).word
        (cellGet s.icache.lru (setOf s.cfg s.csr.dicawics))) &&& tagMask s.cfg
      dicad1 := withOpenBits s 3 (~~~tagCheckMask s.cfg) (tagEntry s (tagKey s.cfg s.csr.dicawics)).check &&&
        checkMask s.cfg } } := by
  rw [readArray, h]
  rfl

/-- The parity of bits depends on those bits only. -/
theorem parityOf_congr {v w : Word} {n : Nat} (h : ∀ k < n, v.getLsbD k = w.getLsbD k) : parityOf v n = parityOf w n := by
  induction n with
  | zero => rfl
  | succ n ih => rw [parityOf, parityOf, ih fun k hk => h k (by omega), h n (by omega)]

/-- In a parity build the check bits of a filled word are the even parity of its two halves (R114). -/
theorem filledData_check {s : State} (h : s.cfg.icacheEcc = false) (a : Nat) :
    (filledData s a).check &&& checkMask s.cfg =
      (BitVec.ofBool (parityOf ((filledData s a).word >>> 16) 16) ++ BitVec.ofBool (parityOf (filledData s a).word 16)).setWidth 32 := by
  have half : ∀ (v : Word) (i : Nat), parityOf ((v.extractLsb' i 16).setWidth 32) 16 = parityOf (v >>> i) 16 := fun v i =>
    parityOf_congr fun k hk => by
      rw [BitVec.getLsbD_setWidth, BitVec.getLsbD_extractLsb', BitVec.getLsbD_ushiftRight]
      simp [hk, show k < 32 by omega]
  have pair : ∀ x y : Bool, (((BitVec.ofBool x).setWidth 32 : Word) ||| (BitVec.ofBool y).setWidth 32 <<< 1) &&& (0x3 : Word) =
      (BitVec.ofBool y ++ BitVec.ofBool x).setWidth 32 := by decide
  rw [filledData, checkMask]
  simp only [chunkCheck, checkWidth, h, half, Bool.false_eq_true, if_false, BitVec.ushiftRight_zero, pair]

theorem withLru_eq (s : State) (d : Word) (l : Option (BitVec 3)) : withLru s d l = (d &&& (0xFFFFFF8F : Word)) |||
    ((l.getD ((Config.icacheWord s.stepNo 2).extractLsb' 0 3)).setWidth 32 : Word) <<< 4 := rfl

/-- The bits of a tag entry that are neither LRU nor unused are shown as they are (R113). -/
theorem getLsbD_shownTag (s : State) (d : Word) (l : Option (BitVec 3)) {j : Nat} (hj : j < 32) (h : j = 0 ∨ 12 ≤ j) :
    (withOpenBits s 4 unusedTagBits (withLru s d l)).getLsbD j = d.getLsbD j := by
  have h1 : ∀ j < 32, j = 0 ∨ 12 ≤ j → unusedTagBits.getLsbD j = false ∧ (0xFFFFFF8F : Word).getLsbD j = true := by decide
  obtain ⟨h2, h3⟩ := h1 j hj h
  have h4 : ∀ x : BitVec 3, ((x.setWidth 32 : Word) <<< 4).getLsbD j = false := fun x => by
    rw [BitVec.getLsbD_shiftLeft, BitVec.getLsbD_setWidth]
    rcases h with rfl | h
    · rfl
    · rw [BitVec.getLsbD_of_ge x (j - 4) (by omega)]
      simp
  rw [withOpenBits, withLru_eq, BitVec.getLsbD_or, BitVec.getLsbD_and, BitVec.getLsbD_and, BitVec.getLsbD_not,
    BitVec.getLsbD_or, BitVec.getLsbD_and, h2, h3, h4]
  simp [hj]

/-- The bits of `dicad0` that exist in the tag layout are the tag's of the address and those below it (R113). -/
theorem getLsbD_tagMask {c : Build} {n j : Nat} (h1 : 12 ≤ n) (h2 : n ≤ 16) (hw : wayBytes c = 2 ^ n) (hj : j < 32) :
    (tagMask c).getLsbD j = decide (j < 44 - n) := by
  have hm : (0x100000000 / wayBytes c - 1) * 0x1000 + 0xFFF = 2 ^ (44 - n) - 1 := by
    rw [hw]
    interval_cases n <;> rfl
  rw [tagMask, hm, BitVec.getLsbD_ofNat, Nat.testBit_two_pow_sub_one]
  simp [hj]

/-- A filled line's tag, of the size the array has for it, is shown valid (R113, R190). -/
theorem shownTag_filled {s : State} {line : Nat} (hl : line < 2 ^ 26) (hk : s.cfg.icacheKb ∈ [16, 32, 64, 128, 256])
    (l : Option (BitVec 3)) :
    let shown := withOpenBits s 4 unusedTagBits (withLru s (filledTag s.cfg line).word l) &&& tagMask s.cfg
    shown.getLsbD 0 = true ∧ (shown.extractLsb' 12 20).toNat = line * 64 / wayBytes s.cfg := by
  obtain ⟨n, h1, h2, hw⟩ := wayBytes_pow s.cfg hk
  have hlt : line * 64 / wayBytes s.cfg < 2 ^ (32 - n) := by
    rw [hw, Nat.div_lt_iff_lt_mul (by positivity), ← pow_add, Nat.sub_add_cancel (by omega)]
    omega
  have h20 : 2 ^ (32 - n) ≤ 2 ^ 20 := Nat.pow_le_pow_right (by decide) (by omega)
  dsimp only
  rw [filledTag]
  dsimp only
  generalize line * 64 / wayBytes s.cfg = tag at hlt
  refine ⟨?_, ?_⟩
  · rw [BitVec.getLsbD_and, getLsbD_shownTag s _ l (by decide) (.inl rfl), getLsbD_tagMask h1 h2 hw (by decide)]
    simp
    omega
  · have he : (withOpenBits s 4 unusedTagBits (withLru s (BitVec.ofNat 32 tag <<< 12 ||| 1) l) &&& tagMask s.cfg).extractLsb' 12 20 =
        BitVec.ofNat 20 tag := by
      refine BitVec.eq_of_getLsbD_eq fun i hi => ?_
      rw [BitVec.getLsbD_extractLsb', BitVec.getLsbD_and, getLsbD_shownTag s _ l (by omega) (.inr (by omega)),
        getLsbD_tagMask h1 h2 hw (by omega), BitVec.getLsbD_ofNat, BitVec.getLsbD_or, BitVec.getLsbD_shiftLeft,
        BitVec.getLsbD_ofNat]
      have hone : (1 : Word).getLsbD (12 + i) = false := by simp
      rw [hone, Nat.add_sub_cancel_left]
      by_cases hb : 12 + i < 44 - n
      · simp [hi, hb, show 12 + i < 32 by omega]
        omega
      · rw [Nat.testBit_lt_two_pow (lt_of_lt_of_le hlt (Nat.pow_le_pow_right (by decide) (by omega)))]
        simp
    rw [he, BitVec.toNat_ofNat, Nat.mod_eq_of_lt (by omega)]

/-! ## The instructions (R115) -/

section Instructions

variable {s : State} (hd : debugMode s = true)
include hd

theorem csrCheck_dicago (w : Bool) : csrCheck s 0x7CB w = .allowed .dicago :=
  csrCheck_allowed rfl rfl (fun _ => hd) (fun _ => by decide) fun _ => nofun

/-- A read of `dicago` shows the selected entry in `dicad0` and `dicad1`. -/
theorem exec_readDicago (rd : Reg) : exec (.csrrs rd 0x7CB 0) s = .next (csrRetired (readArray s) rd 0) := by
  have hx : exec (.csrrs rd 0x7CB 0) s =
      csrAccess s (Instr.csrrs rd 0x7CB 0).code rd 0x7CB true false fun v => v ||| reg s 0 := rfl
  rw [hx, csrAccess, csrCheck_dicago hd]
  rfl

/-- A write of 1 to `dicago.go` without a read copies `dicad0` and `dicad1` to the selected entry. -/
theorem exec_writeDicago {rs1 : Reg} (h : (reg s rs1).getLsbD 0 = true) :
    exec (.csrrw 0 0x7CB rs1) s = .next (writeArray (csrRetired s 0 0)) := by
  have hx : exec (.csrrw 0 0x7CB rs1) s =
      csrAccess s (Instr.csrrw 0 0x7CB rs1).code 0 0x7CB false true fun _ => reg s rs1 := rfl
  have hw : ∀ u, csrWrite u .dicago (reg s rs1) = writeArray u := fun u => if_pos h
  rw [hx, csrAccess, csrCheck_dicago hd]
  exact congrArg Host.Outcome.next (hw _)

end Instructions

/-- What a write of a data entry leaves in the array. -/
theorem writeArray_data {s : State} (h : dicawicsTags s.csr.dicawics = false) :
    writeArray s = { s with icache := { s.icache with
      data := cellSet s.icache.data (dataKey s.cfg s.csr.dicawics) ⟨s.csr.dicad0, s.csr.dicad1⟩ } } := by
  rw [writeArray, h]
  rfl

/-- What a read of `dicago` shows of a data entry (R682). -/
theorem csrRead_readArray_data {s : State} (h : dicawicsTags s.csr.dicawics = false) {e : ICacheEntry}
    (he : dataEntry s (dataKey s.cfg s.csr.dicawics) = e) :
    csrRead (readArray s) .dicad0 = e.word ∧ csrRead (readArray s) .dicad1 = e.check &&& checkMask s.cfg := by
  subst he
  rw [readArray_data h]
  refine ⟨?_, rfl⟩
  rw [csrRead, h]
  rfl

/-- What a read of `dicago` shows of a tag entry in `dicad0` (R685). -/
theorem csrRead_readArray_tags {s : State} (h : dicawicsTags s.csr.dicawics = true) {e : ICacheEntry}
    (he : tagEntry s (tagKey s.cfg s.csr.dicawics) = e) : csrRead (readArray s) .dicad0 =
      withOpenBits s 4 unusedTagBits (withLru s e.word (cellGet s.icache.lru (setOf s.cfg s.csr.dicawics))) &&& tagMask s.cfg := by
  subst he
  rw [readArray_tags h]
  unfold csrRead
  rw [if_pos h, BitVec.and_assoc, BitVec.and_self]

/-- The diagnostic registers show in a retired instruction's state what they did before it retired. -/
theorem csrRead_csrRetired (s : State) (rd : Reg) (v : Word) :
    csrRead (csrRetired s rd v) .dicad0 = csrRead s .dicad0 ∧ csrRead (csrRetired s rd v) .dicad1 = csrRead s .dicad1 := by
  simp only [csrRead, csrRetired_csr, csrRetired_cfg, and_self]

/-- A read of a data entry shows what was written there, whatever `dicad0` and `dicad1` held in between (R682, R683). -/
theorem readArray_writeArray {s : State} (h : dicawicsTags s.csr.dicawics = false) (d q : Word) :
    let t := readArray { writeArray s with csr := { (writeArray s).csr with dicad0 := d, dicad1 := q } }
    csrRead t .dicad0 = csrRead s .dicad0 ∧ csrRead t .dicad1 = csrRead s .dicad1 &&& checkMask s.cfg := by
  have hs : csrRead s .dicad0 = s.csr.dicad0 := by
    rw [csrRead, h]
    rfl
  have hcsr : (writeArray s).csr = s.csr := by rw [writeArray_data h]
  have hcfg : (writeArray s).cfg = s.cfg := by rw [writeArray_data h]
  have he : cellGet (writeArray s).icache.data (dataKey (writeArray s).cfg (writeArray s).csr.dicawics) =
      some ⟨s.csr.dicad0, s.csr.dicad1⟩ := by
    rw [writeArray_data h, cellGet_cellSet, if_pos rfl]
  rw [hs, ← hcfg]
  refine csrRead_readArray_data (s := { writeArray s with csr := { (writeArray s).csr with dicad0 := d, dicad1 := q } })
    (e := ⟨s.csr.dicad0, s.csr.dicad1⟩) (by rw [hcsr]; exact h) ?_
  rw [dataEntry, he]

/-- Settles O60: a read shows the entry of a filled line, and what was written. -/
theorem iCacheEntriesReadBack : Obligations.ICacheEntriesReadBack := by
  constructor
  · intro s line rd hd w hf
    obtain ⟨h0, h1⟩ := csrRead_csrRetired (readArray s) rd 0
    refine ⟨_, exec_readDicago hd rd, ?_, fun ht hn hl hk => ?_⟩
    · intro ht hn v
      obtain ⟨hw, hc⟩ := csrRead_readArray_data ht (dataEntry_filled hf hn)
      exact ⟨h0.trans hw, fun hecc => (h1.trans hc).trans (filledData_check hecc _)⟩
    · rw [h0, csrRead_readArray_tags ht (tagEntry_filled hf hn)]
      exact shownTag_filled hl hk _
  · intro s hd ht rs1 d q h
    refine ⟨_, exec_writeDicago hd h, ?_⟩
    obtain ⟨h0, h1⟩ := csrRead_csrRetired s 0 0
    have hr := readArray_writeArray (s := csrRetired s 0 0) (by rw [csrRetired_csr]; exact ht) d q
    rw [h0, h1, csrRetired_cfg] at hr
    exact hr

end Sys2Proof.Machine

/-! PROOFS. Correctable errors met by a fetch (R106, R172, R190, R220, R221). -/

namespace Sys2Proof.Machine

/-! ## Entries removed -/

/-- What is listed of the keys that are kept. -/
theorem cellGet_filter {β : Type} (l : List (Nat × β)) (q : Nat → Bool) (k : Nat) :
    cellGet (l.filter fun e => q e.1) k = if q k then cellGet l k else none := by
  induction l with
  | nil => exact (ite_self _).symm
  | cons e rest ih =>
    obtain ⟨a, v⟩ := e
    rw [List.filter_cons]
    dsimp only
    by_cases ha : a = k
    · subst ha
      cases hq : q a
      · rw [if_neg Bool.false_ne_true, ih, hq]
        rfl
      · simp [cellGet]
    · cases q a
      · rw [if_neg Bool.false_ne_true, ih, cellGet, if_neg ha]
      · rw [if_pos rfl, cellGet, if_neg ha, ih, cellGet, if_neg ha]

/-! ## The I-cache's error (R106, R172, R221) -/

/-- One more error is counted. -/
theorem bumpCount_eq (v : Word) : bumpCount v = countErrors 1 v := by
  rw [← bumpCount_countErrors, countErrors_zero]

theorem setOf_lt (c : Build) (p : Word) : setOf c p < 65536 := by
  have h := (index_bounds c p).1
  rw [setOf]
  omega

/-- The set of an address is the one its line is filled in (R112, R681). -/
theorem setOf_eq {c : Build} (h : c.icacheKb ∈ [16, 32, 64, 128, 256]) (p : Word) : setOf c p = lineOf p % icacheSets c := by
  have hb := (index_bounds c p).1
  have hp := (dataEntry_place c p 0 h).2
  rw [show (0 : BitVec 2).toNat = 0 from rfl, Nat.mul_zero, Nat.zero_add] at hp
  rw [setOf, ← hp]
  omega

section Error

variable (s : State) (set : Nat)

theorem icacheErrorIn_tags (k : Nat) :
    cellGet (icacheErrorIn s set).icache.tags k = if k % 65536 = set then none else cellGet s.icache.tags k := by
  refine (cellGet_filter s.icache.tags (fun a => a % 65536 != set) k).trans ?_
  by_cases h : k % 65536 = set <;> simp [h]

/-- No line is left filled in the set of an error; the lines of the others are as they were (R172). -/
theorem icacheErrorIn_filledAt (other way : Nat) :
    filledAt (icacheErrorIn s set) other way = if other = set then none else filledAt s other way := by
  have hf : filledAt (icacheErrorIn s set) other way = ((s.icache.filled.filter fun f => f.1 % icacheSets s.cfg != set).find?
      fun f => inPlace s.cfg f other (BitVec.ofNat 2 way)).map (·.1) := rfl
  rw [hf, List.find?_filter, filledAt]
  split
  · next h =>
    subst h
    rw [List.find?_eq_none.mpr fun f _ => ?_]
    · rfl
    · simp only [inPlace, Bool.and_eq_true, bne_iff_ne, beq_iff_eq, decide_eq_true_eq]
      exact fun hn => hn.1 hn.2.1
  · next h =>
    congr 2
    funext f
    by_cases hp : inPlace s.cfg f other (BitVec.ofNat 2 way) = true
    · have hs := hp
      rw [inPlace, Bool.and_eq_true, beq_iff_eq] at hs
      simp [hp, hs.1, h]
    · simp [hp]

end Error

/-! ## The parcels of the ICCM (R168, R169, R172, R221) -/

/-- A word that can be read, its error, if it has one, corrected. -/
def Readable (s : State) (w : Nat) : Prop := checkWord s w = .sound ∨ checkWord s w = .corrected

theorem Readable.checkedByte {s : State} {a : Nat} (h : Readable s (a / 4)) (f : Nat → Byte) : checkedByte s f a = f a := by
  rcases h with h | h <;> rw [Machine.checkedByte, h]

theorem fetchByte_of_held {s : State} {a : Nat} (h : staleValues s a = []) : fetchByte s a = memByte s a := by
  rw [fetchByte, h]
  rfl

/-- A word that was written back is sound; every other as it was (R221). -/
theorem checkWord_writeBack {m : Ccm} {s : State} {w : Nat} (hw : Readable s w) (v : Nat) :
    checkWord (writeBack m s [w]) v = if v = w then .sound else checkWord s v := by
  rcases hw with h | h
  · rw [writeBack_sound m s [w] (by simpa using h)]
    split
    · next hv => rw [hv, h]
    · rfl
  · have hc : correctedWords s [w] = [w] := by simp [correctedWords, h]
    rw [writeBack_eq m s [w] (List.nodup_singleton w), hc]
    split
    · next hv =>
      apply checkWord_good
      rw [cellGet_soundAt, if_pos (by simp [hv])]
    · next hv =>
      refine checkWord_congr ?_ ?_ ?_ ?_
      · rfl
      · rfl
      · rfl
      · rw [cellGet_soundAt, if_neg (by simpa using hv)]

/-- What a parcel fetch of the ICCM needs: the parcel at `p` there, in a word that can be read, with no older value to be fetched. -/
structure IccmParcel (s : State) (p : Word) : Prop where
  even : p.getLsbD 0 = false
  region : iccmRegion s.cfg p = true
  inside : inIccm s.cfg p = true
  readable : Readable s (p.toNat / 4)
  low : staleValues s p.toNat = []
  high : staleValues s (p.toNat + 1) = []

theorem toNat_even {p : Word} (h : p.getLsbD 0 = false) : p.toNat % 2 = 0 := by
  rw [BitVec.getLsbD, Nat.testBit_zero, decide_eq_false_iff_not] at h
  omega

/-- Such a parcel is memory's, and its word is written back (R169, R221). -/
theorem IccmParcel.fetch {s : State} {p : Word} (h : IccmParcel s p) :
    fetchParcel s p = .parcel (parcelAt (memByte s) p) (writeBack .iccm s [p.toNat / 4]) := by
  have he := toNat_even h.even
  have hw : (p.toNat + 1) / 4 = p.toNat / 4 := by omega
  have hf : anyFailed s [p.toNat / 4] = false := by
    rcases h.readable with hr | hr <;> simp [anyFailed, hr]
  have hp : parcelAt (checkedByte s (fetchByte s)) p = parcelAt (memByte s) p := by
    rw [parcelAt, h.readable.checkedByte, Readable.checkedByte (hw ▸ h.readable), fetchByte_of_held h.low,
      fetchByte_of_held h.high]
    rfl
  rw [fetchParcel, if_pos h.region, if_pos h.inside, fetchIccm, hf, if_neg Bool.false_ne_true, hp]

/-- The next parcel is fetched as if the first's word had not been written back. -/
theorem IccmParcel.after {s : State} {p : Word} (h : IccmParcel s p) {w : Nat} (hw : Readable s w) :
    IccmParcel (writeBack .iccm s [w]) p := by
  have hf := writeBack_frame .iccm s [w]
  refine ⟨h.even, by rw [hf]; exact h.region, by rw [hf]; exact h.inside, ?_, by rw [hf]; exact h.low, by rw [hf]; exact h.high⟩
  rw [Readable, checkWord_writeBack hw]
  split
  · exact .inl rfl
  · exact h.readable

/-- Writing a word back again does nothing. -/
theorem writeBack_again {m : Ccm} {s : State} {w : Nat} (hw : Readable s w) :
    writeBack m (writeBack m s [w]) [w] = writeBack m s [w] := by
  refine writeBack_sound m _ _ fun v hv => ?_
  obtain rfl := List.mem_singleton.mp hv
  rw [checkWord_writeBack hw, if_pos rfl]

/-- The words of two parcels written back one after the other are those of the four bytes. -/
theorem writeBack_parcels {m : Ccm} {s : State} {a : Nat} (he : a % 2 = 0) (hw : Readable s (a / 4)) :
    writeBack m (writeBack m s [a / 4]) [(a + 2) / 4] = writeBack m s (wordsOf a 4) := by
  by_cases h : a % 4 = 0
  · rw [wordsOf_one (by decide) (by omega), show (a + 2) / 4 = a / 4 by omega]
    exact writeBack_again hw
  · rw [wordsOf_two (by decide) (by omega), show (a + 2) / 4 = a / 4 + 1 by omega]
    rfl

/-! ## An instruction in the ICCM -/

/-- Two parcels make the word of their four bytes (R161). -/
theorem parcels_append (b₃ b₂ b₁ b₀ : Byte) : (b₃ ++ b₂) ++ (b₁ ++ b₀) = b₃ ++ b₂ ++ b₁ ++ b₀ := by
  rw [BitVec.append_assoc (x₁ := b₃ ++ b₂)]
  rfl

section Code

variable {s : State} {c : Code} (h : CodeInCheckedIccm s c)
include h

/-- The bytes of the instruction do not wrap: the ICCM is in one region (R164). -/
theorem toNat_pcPlus {k : Nat} (hk : k < c.size) : (pcPlus s k).toNat = s.pc.toNat + k := by
  obtain ⟨-, -, -, hb⟩ := h
  have hn : c.size = 1 ∨ c.size = 2 ∨ c.size = 4 := by
    cases c with
    | half x => exact .inr (.inl rfl)
    | word x => exact .inr (.inr rfl)
  have hr : ∀ j < c.size, region (pcPlus s j) = s.cfg.iccmRegion := fun j hj => by
    obtain ⟨hj, -⟩ := hb j hj
    rw [iccmRegion, Bool.and_eq_true, beq_iff_eq] at hj
    exact hj.2
  have h0 : pcPlus s 0 = s.pc := BitVec.add_zero _
  have hle := toNat_add_le_of_region hn ((h0 ▸ hr 0 (by omega)).trans (hr (c.size - 1) (by omega)).symm)
  rw [pcPlus, BitVec.toNat_add, BitVec.toNat_ofNat]
  omega

/-- Its parcel at an even place can be fetched. -/
theorem iccmParcel_of_code {k : Nat} (hk : k + 1 < c.size) (he : k % 2 = 0) : IccmParcel s (pcPlus s k) := by
  have h0 := toNat_pcPlus h (k := k) (by omega)
  have h1 := toNat_pcPlus h hk
  obtain ⟨hpc, -, -, hb⟩ := h
  obtain ⟨hr, hi, hc, hs⟩ := hb k (by omega)
  refine ⟨?_, hr, hi, hc, hs, ?_⟩
  · have hodd := toNat_even hpc
    rw [BitVec.getLsbD, Nat.testBit_zero, h0, decide_eq_false_iff_not]
    omega
  · rw [h0, show s.pc.toNat + k + 1 = s.pc.toNat + (k + 1) from rfl, ← h1]
    exact (hb (k + 1) hk).2.2.2

theorem codeBytes_eq : c.bytes = (List.range c.size).map fun k => memByte s (s.pc.toNat + k) := by
  rw [h.2.1]
  refine List.map_congr_left fun k hk => ?_
  rw [toNat_pcPlus h (List.mem_range.mp hk)]

/-- The fetch finds the instruction, and every correctable word of it is written back (R168, R221). -/
theorem fetch_checkedIccm : fetch s = .code c (writeBack .iccm s (wordsOf s.pc.toNat c.size)) := by
  have hpc : pcPlus s 0 = s.pc := BitVec.add_zero _
  have htake := h.2.2.1
  rw [codeBytes_eq h] at htake
  cases c with
  | half x =>
    have hp := iccmParcel_of_code h (k := 0) (show 1 < 2 by decide) rfl
    rw [hpc] at hp
    have hodd := toNat_even hp.even
    simp only [Code.size, List.range_succ, List.range_zero, List.nil_append, List.map_cons, List.map_nil, List.cons_append, takeCode,
      Nat.add_zero] at htake
    split at htake
    · cases htake
    · next hl =>
      rw [Option.some.injEq, Prod.mk.injEq] at htake
      rw [fetch, hp.fetch, show (Code.half x).size = 2 from rfl, wordsOf_one (by decide) (by omega)]
      dsimp only
      rw [if_pos (by simpa [parcelAt] using hl), parcelAt, htake.1]
  | word x =>
    have hp := iccmParcel_of_code h (k := 0) (show 1 < 4 by decide) rfl
    have hq := iccmParcel_of_code h (k := 2) (show 3 < 4 by decide) rfl
    have h2 := toNat_pcPlus h (k := 2) (show 2 < 4 by decide)
    rw [hpc] at hp
    simp only [Code.size, List.range_succ, List.range_zero, List.nil_append, List.map_cons, List.map_nil, List.cons_append, takeCode,
      Nat.add_zero] at htake
    split at htake
    · next hl =>
      rw [Option.some.injEq, Prod.mk.injEq, Code.word.injEq] at htake
      have hf := writeBack_frame .iccm s [s.pc.toNat / 4]
      have hm : memByte (writeBack .iccm s [s.pc.toNat / 4]) = memByte s := by
        rw [hf]
        rfl
      have hin : leavesIccm s.cfg s.pc = false := by
        rw [leavesIccm, show s.pc + 2 = pcPlus s 2 from rfl, hq.inside]
        simp
      rw [fetch, hp.fetch]
      dsimp only
      rw [if_neg (by simpa [parcelAt] using hl), congrArg State.pc hf, congrArg State.cfg hf]
      dsimp only
      rw [hin, if_neg Bool.false_ne_true, show s.pc + 2 = pcPlus s 2 from rfl, (hq.after hp.readable).fetch]
      dsimp only
      rw [hm, h2, writeBack_parcels (toNat_even hp.even) hp.readable, ← htake.1, parcelAt, parcelAt, h2, parcels_append]
      rfl
    · simp at htake

end Code

/-- Such an instruction is executed as from sound words, with each correctable word sound and counted (R106, R221). -/
theorem step_checkedIccm {s u : State} {c : Code} {i : Instr} (hin : s.inputs = []) (ht : turn (atBoundary s) = .execute u)
    (hc : CodeInCheckedIccm u c) (hd : decodeCode c = some i) (hf : u.pc ∉ u.fencesDue) :
    step s = finishStep (exec i { u with
      ecc := soundAt (correctedWords u (wordsOf u.pc.toNat c.size)) u.ecc
      csr := { u.csr with
        miccmect := countErrors (correctedWords u (wordsOf u.pc.toNat c.size)).length u.csr.miccmect } }) := by
  rw [step_noEvent s hin, ht]
  dsimp only
  rw [executeNext, fetch_checkedIccm hc, writeBack_eq .iccm u _ (wordsOf_nodup _ _)]
  dsimp only
  rw [hd]
  dsimp only
  rw [if_neg]
  · rfl
  · simp [fenceIDue, hf]

/-! ## A parcel of SoC memory, when the I-cache is spoilt (R172, R190, R220) -/

/-- The fetch gives memory's parcel, as the fetch side sees it, and leaves a state with the property. -/
def GivesParcel (s : State) (p : Word) (Q : State → Prop) (r : Fetched) : Prop :=
  ∃ v, r = .parcel (parcelAt (fetchByte s) p) v ∧ Q v

/-- No error was counted. -/
def NoErrorCounted (s v : State) : Prop := v.csr = s.csr

/-- One error of the I-cache was counted, and no line the debugger wrote is valid in the set (R106, R172). -/
def ErrorCounted (s : State) (p : Word) (v : State) : Prop :=
  v.csr = { s.csr with micect := countErrors 1 s.csr.micect } ∧ writtenTags v p = []

theorem writtenTags_nil {s : State} {p : Word} (h : ∀ way, cellGet s.icache.tags (65536 * way + setOf s.cfg p) = none) :
    writtenTags s p = [] :=
  List.filterMap_eq_nil_iff.mpr fun way _ => by rw [h way]

section SocMemory

variable {s : State} {p : Word}

theorem busFetch_socParcel (h : SocParcel s p) : parcelAt (busFetchByte s) p = parcelAt (fetchByte s) p := by
  obtain ⟨-, -, -, h0, h1, -, -⟩ := h
  have e0 : BitVec.ofNat 32 p.toNat = p := by simp
  have e1 : BitVec.ofNat 32 (p.toNat + 1) = p + 1 := by
    rw [BitVec.ofNat_add, e0]
    rfl
  rw [parcelAt, parcelAt, busFetchByte, busFetchByte, e0, e1, h0, h1]

/-- From the bus the parcel is memory's; only devices see it. -/
theorem fetchBus_socParcel (h : SocParcel s p) (c : Bool) :
    ∃ d, fetchBus s c p = .parcel (parcelAt (fetchByte s) p) { s with deviceTrace := d } := by
  obtain ⟨-, -, -, -, -, f0, f1⟩ := id h
  refine ⟨(traceDevice s (fetchSeen c p)).deviceTrace, ?_⟩
  rw [fetchBus, f0, f1, busFetch_socParcel h, ← traceDevice_frame]
  rfl

/-- A line filled leaves the counters alone and makes no line of the debugger's valid (R190). -/
theorem fillLine_socParcel (h : SocParcel s p) {Q : State → Prop}
    (hq : ∀ t : State, t.csr = s.csr → t.cfg = s.cfg →
      (∀ k, cellGet s.icache.tags k = none → cellGet t.icache.tags k = none) → Q t) :
    GivesParcel s p Q (fillLine s p) := by
  obtain ⟨d, hd⟩ := fetchBus_socParcel (s := { s with icache := s.icache.afterFills s.cfg [fillOf s p] }) h true
  refine ⟨_, hd, hq _ rfl rfl fun k hk => ?_⟩
  refine (cellGet_filter s.icache.tags
    (fun a => [fillOf s p].all fun f => !f.takes s.cfg (a / 65536) (a % 65536)) k).trans ?_
  rw [hk]
  exact ite_self _

/-- After an error the line is filled: the error is counted, and the set holds no line of the debugger's (R106, R172). -/
theorem fillLine_afterError (h : SocParcel s p) (k : ICache) :
    GivesParcel s p (ErrorCounted s p) (fillLine (icacheErrorIn { s with icache := k } (setOf s.cfg p)) p) := by
  refine fillLine_socParcel (s := icacheErrorIn { s with icache := k } (setOf s.cfg p)) h fun t hr hc ht => ⟨?_, ?_⟩
  · rw [hr, ← bumpCount_eq]
    rfl
  · refine writtenTags_nil fun way => ht _ ?_
    have hm : (65536 * way + setOf t.cfg p) % 65536 = setOf s.cfg p := by
      rw [hc, Nat.mul_add_mod]
      exact Nat.mod_eq_of_lt (setOf_lt s.cfg p)
    rw [icacheErrorIn_tags, if_pos hm]

/-- After an error no filled line of the set serves the fetch. -/
theorem servingWay_afterError (hb : s.cfg.icacheKb ∈ [16, 32, 64, 128, 256]) :
    servingWay (icacheErrorIn s (setOf s.cfg p)) p = none := by
  have hn : (icacheErrorIn s (setOf s.cfg p)).icache.filled.find? (fun f => f.1 == lineOf p) = none := by
    refine List.find?_eq_none.mpr fun f hf hl => ?_
    have hm := (List.mem_filter.mp hf).2
    rw [beq_iff_eq] at hl
    rw [hl, setOf_eq hb] at hm
    simp at hm
  rw [servingWay, hn]

/-- A line the debugger wrote that the fetch hits has an error in its chunk, when none has one in its tag. -/
theorem halfErrs_of_hit (hs : ICacheSpoilt s p) (ht : ¬((writtenTags s p).any fun e => tagErrs s.cfg e.2) = true) {way : Nat}
    (hw : hitWay s p = some way) : halfErrs s.cfg (lineEntry s p way) (halfOf p) = true := by
  obtain ⟨e, he, rfl⟩ := Option.map_eq_some_iff.mp hw
  have hm := List.mem_of_find?_eq_some he
  exact (hs.1 e hm).resolve_left fun h => ht (List.any_eq_true.mpr ⟨e, hm, h⟩)

/-- Whether a cacheable fetch looks at the lines the debugger wrote and finds an entry to check there. -/
def entrySeen (s : State) (p : Word) : Bool :=
  Config.icacheHits s.stepNo p.toNat && (((writtenTags s p).any fun t => tagErrs s.cfg t.2) || (hitWay s p).isSome)

theorem icacheErrorSeen_eq (s : State) (p : Word) : icacheErrorSeen s p = (cacheable s p && entrySeen s p) :=
  Bool.and_assoc _ _ _

/-- No line the debugger wrote gives the parcel: an entry that is looked at has an error (R172). -/
theorem icacheFetch_spoilt (hs : ICacheSpoilt s p) :
    icacheFetch s p = (none, if entrySeen s p then icacheErrorIn (lookUp s p) (setOf s.cfg p) else lookUp s p) := by
  rw [icacheFetch]
  split
  · next ht =>
    rw [List.isEmpty_iff] at ht
    simp [entrySeen, hitWay, ht]
  split
  · next hh =>
    have hh : Config.icacheHits s.stepNo p.toNat = false := by simpa using hh
    rw [entrySeen, hh]
    rfl
  next hh =>
  have hh : Config.icacheHits s.stepNo p.toNat = true := by simpa using hh
  split
  · next ht => rw [entrySeen, hh, ht]; rfl
  · next ht =>
    cases hw : hitWay s p with
    | none =>
      rw [entrySeen, hh, hw, Bool.not_eq_true _ |>.mp ht]
      rfl
    | some way =>
      dsimp only
      rw [entrySeen, hh, hw, halfErrs_of_hit hs ht hw]
      simp

/-- Of a filled line the parcel is memory's: what the debugger wrote over it has an error (R190). -/
theorem lineParcel_spoilt (h : SocParcel s p) (hs : ICacheSpoilt s p) (way : BitVec 2) :
    GivesParcel s p (fun v => NoErrorCounted s v ∨ ErrorCounted s p v) (lineParcel (lookUp s p) p way) := by
  rw [lineParcel]
  split
  · exact ⟨_, congrArg (Fetched.parcel · _) (busFetch_socParcel (s := lookUp s p) h), .inl rfl⟩
  · next e he =>
    obtain ⟨v, hv, hc⟩ := fillLine_afterError h (lookUp s p).icache
    exact ⟨v, (if_pos (hs.2 way e he)).trans hv, .inr hc⟩

/-- A cacheable fetch gives memory's parcel; an error seen is counted. -/
theorem fetchCached_spoilt (h : SocParcel s p) (hb : s.cfg.icacheKb ∈ [16, 32, 64, 128, 256]) (hs : ICacheSpoilt s p) :
    GivesParcel s p (fun v => ErrorCounted s p v ∨ NoErrorCounted s v ∧ entrySeen s p = false) (fetchCached s p) := by
  rw [fetchCached, icacheFetch_spoilt hs]
  cases he : entrySeen s p with
  | true =>
    obtain ⟨v, hv, hc⟩ := fillLine_afterError h (lookUp s p).icache
    dsimp only
    rw [if_pos rfl, show servingWay (icacheErrorIn (lookUp s p) (setOf s.cfg p)) p = none from
      servingWay_afterError (s := lookUp s p) hb]
    exact ⟨v, hv, .inl hc⟩
  | false =>
    dsimp only
    rw [if_neg Bool.false_ne_true]
    cases servingWay (lookUp s p) p with
    | some way =>
      obtain ⟨v, hv, hc⟩ := lineParcel_spoilt h hs way
      exact ⟨v, hv, hc.symm.imp_right fun hn => ⟨hn, rfl⟩⟩
    | none => exact fillLine_socParcel (s := lookUp s p) h fun t hr _ _ => .inr ⟨hr, rfl⟩

/-- Every fetch of the parcel gives memory's, and counts an error it saw. -/
theorem fetchParcel_spoilt (h : SocParcel s p) (hb : s.cfg.icacheKb ∈ [16, 32, 64, 128, 256]) (hs : ICacheSpoilt s p) :
    GivesParcel s p (fun v => ErrorCounted s p v ∨ NoErrorCounted s v ∧ icacheErrorSeen s p = false) (fetchParcel s p) := by
  obtain ⟨-, hr, hw, -⟩ := id h
  rw [fetchParcel, hr, hw, icacheErrorSeen_eq, if_neg Bool.false_ne_true, if_neg (by simp)]
  cases hc : cacheable s p with
  | true => exact fetchCached_spoilt h hb hs
  | false =>
    obtain ⟨d, hd⟩ := fetchBus_socParcel h false
    exact ⟨_, hd, .inr ⟨rfl, rfl⟩⟩

/-- What was counted, by counter. -/
theorem fetchParcel_counts (h : SocParcel s p) (hb : s.cfg.icacheKb ∈ [16, 32, 64, 128, 256]) (hs : ICacheSpoilt s p) :
    ∃ v, fetchParcel s p = .parcel (parcelAt (fetchByte s) p) v ∧ FetchFrame s v ∧ v.csr.miccmect = s.csr.miccmect ∧
      let counted := v.csr.micect = countErrors 1 s.csr.micect ∧ writtenTags v p = []
      if icacheErrorSeen s p then counted else v.csr.micect = s.csr.micect ∨ counted := by
  obtain ⟨v, hv, hq⟩ := fetchParcel_spoilt h hb hs
  have hf := (fetchParcel_keeps s p).frame
  rw [hv] at hf
  refine ⟨v, hv, hf, ?_⟩
  dsimp only
  rcases hq with ⟨hc, ht⟩ | ⟨hn, he⟩
  · have hm : v.csr.micect = countErrors 1 s.csr.micect := by rw [hc]
    refine ⟨by rw [hc], ?_⟩
    split
    · exact ⟨hm, ht⟩
    · exact .inr ⟨hm, ht⟩
  · rw [NoErrorCounted] at hn
    rw [he, hn]
    exact ⟨rfl, .inl rfl⟩

end SocMemory

/-! ## An error injected from outside (R106, R172, R221; log 22) -/

/-- After an error no line of its set is valid. -/
theorem tagEntry_afterError (s : State) {set way : Nat} (hset : set < 65536) :
    (tagEntry (icacheErrorIn s set) (65536 * way + set)).word.getLsbD 0 = false := by
  have hm : (65536 * way + set) % 65536 = set := by omega
  rw [tagEntry, icacheErrorIn_tags, if_pos hm, hm, icacheErrorIn_filledAt, if_pos rfl]
  dsimp only
  rw [BitVec.getLsbD_and]
  exact Bool.and_false _

/-- The event counts one error and empties its set; the others' lines are as they were. -/
theorem step_icacheError {s : State} {set : Nat} {rest : List HostEvent} (hin : s.inputs = .icacheError set :: rest)
    (hic : s.cfg.icacheEnable = true) :
    step s = .next (icacheErrorIn { s with inputs := rest, stepNo := s.stepNo + 1 } set) :=
  (step_hostEvent hin (by simp)).trans (congrArg Host.Outcome.next (if_pos hic))

/-- Settles O41: the words of an instruction in the ICCM are written back parcel by parcel, as those of the whole; an entry of the
I-cache that could give the parcel has an error, so that the fetch falls to the bus; and the injected error is the model's own. -/
theorem correctableFetchErrors : Obligations.CorrectableFetchErrors := by
  unfold Obligations.CorrectableFetchErrors
  refine ⟨fun s u c i => step_checkedIccm, fun s p => fetchParcel_counts, fun s set rest hin hic => ?_⟩
  rw [step_icacheError hin hic]
  refine ⟨_, rfl, ?_, fun hset way _ => tagEntry_afterError _ hset, fun way other hne hlt => ⟨?_, ?_⟩⟩
  · rw [← bumpCount_eq]
    rfl
  · exact (icacheErrorIn_filledAt _ _ _ _).trans (if_neg hne)
  · exact (icacheErrorIn_tags _ _ _).trans (if_neg (by omega))

end Sys2Proof.Machine

/-! PROOFS. Every step keeps memory and check bits in canonical form and the transactions within their bound (R207). -/

namespace Sys2Proof.Machine

/-! ## Legal memory and bus -/

/-- Memory and check bits are in canonical form, and no more transactions outstanding than may be. -/
def StorageLegal (s : State) : Prop := MemoryLegal s ∧ BusLegal s

/-- Nothing but bytes, check bits and outstanding transactions counts. -/
theorem StorageLegal.of_eq {s t : State} (h : StorageLegal s) (hm : t.mem = s.mem) (he : t.ecc = s.ecc)
    (hr : t.responses = s.responses) : StorageLegal t :=
  ⟨⟨hm ▸ h.1.1, he ▸ h.1.2⟩, show t.responses.length ≤ 255 from hr ▸ h.2⟩

/-- What is put off makes no state illegal. -/
theorem StorageLegal.waits {s : State} (h : StorageLegal s) (w : Waits) : StorageLegal { s with waits := w } := h

/-- The host event that is taken from the list makes no state illegal. -/
theorem StorageLegal.inputs {s : State} (h : StorageLegal s) (rest : List HostEvent) (n : Nat) :
    StorageLegal { s with inputs := rest, stepNo := n } := h

theorem AccessKeeps.storage {s t : State} (k : AccessKeeps s t) (h : StorageLegal s) : StorageLegal t :=
  ⟨k.canonical h.1, k.room h.2⟩

theorem FetchKeeps.storage {s t : State} (k : FetchKeeps s t) (h : StorageLegal s) : StorageLegal t := by
  obtain ⟨⟨hm, he⟩, hr⟩ := h
  refine ⟨⟨?_, k.ecc he⟩, ?_⟩
  · rw [k.frame]; exact hm
  · rw [BusLegal, k.frame]; exact hr

section Parts

variable {s : State} (h : StorageLegal s)
include h

/-! ## Traps, retiring, fences, Debug Mode -/

theorem countEvents_storage (f : Nat → Nat → Nat) : StorageLegal (countEvents s f) := by
  rw [countEvents_frame]; exact h

theorem takeException_storage (c v : Word) : StorageLegal (takeException s c v) :=
  countEvents_storage (s := enterTrap s c v (trapBase s)) h _

theorem setReg_storage (i : Reg) (v : Word) : StorageLegal (setReg s i v) := by
  rw [setReg_frame]; exact h

theorem retire_storage (r : Retired) (next : Word) : StorageLegal (retire s r next) := by
  rw [retire_frame]; exact h

/-- A drain leaves memory canonical and nothing outstanding (R206). -/
theorem drainBus_storage : StorageLegal (drainBus s) := by
  refine ⟨drainBus_canonical s h.1, ?_⟩
  rw [BusLegal, (drainBus_spec s).2.2.1]
  exact Nat.zero_le _

theorem fenceData_storage : StorageLegal (fenceData s) := drainBus_storage h

theorem fenceInstructions_storage : StorageLegal (fenceInstructions s) := fenceData_storage h

theorem enterDebug_storage (c : DebugCause) : StorageLegal (enterDebug s c) := drainBus_storage h

theorem afterInstr_storage : StorageLegal (afterInstr s) := by
  unfold afterInstr
  split
  · exact enterDebug_storage h .step
  · exact h

/-! ## The boundary and the hart's turn -/

theorem serveMpcHalt_storage : StorageLegal (serveMpcHalt s) := by
  unfold serveMpcHalt
  dsimp only
  generalize waitStep _ _ _ = w
  split_ifs
  · exact enterDebug_storage (h.waits { s.waits with mpcHalt := w.1 }) .haltRequest
  · exact h
  · exact h

theorem serveMpcRun_storage : StorageLegal (serveMpcRun s) := by
  unfold serveMpcRun
  dsimp only
  split_ifs <;> exact h

theorem countResumed_storage : StorageLegal (countResumed s) := by
  unfold countResumed
  split
  · rw [countStep_frame]; exact h
  · exact h

theorem atBoundary_storage : StorageLegal (atBoundary s) :=
  have hb : StorageLegal (boundary s) := ⟨boundary_canonical s h.1, boundary_responses s h.2⟩
  countResumed_storage (serveMpcRun_storage (serveMpcHalt_storage hb))

theorem goOn_storage : StorageLegal (goOn s).state := by
  unfold goOn pauseTurn
  split_ifs <;> exact h

theorem enterNmi_storage : StorageLegal (enterNmi s) := by
  unfold enterNmi
  dsimp only
  split
  · exact h
  · split <;> exact h

theorem takeInterrupt_storage (code : Word) : StorageLegal (takeInterrupt s code) :=
  countEvents_storage (s := { enterTrap s _ _ _ with pauseCount := 0 }) h _

theorem interruptTurn_storage : StorageLegal (interruptTurn s).state := by
  unfold interruptTurn
  dsimp only
  split
  · exact goOn_storage (h.waits _)
  · split
    · exact takeInterrupt_storage (h.waits _) _
    · exact goOn_storage (h.waits _)

theorem nmiTurn_storage : StorageLegal (nmiTurn s).state := by
  unfold nmiTurn
  dsimp only
  split_ifs
  · exact enterNmi_storage (h.waits _)
  · exact goOn_storage (h.waits _)
  · exact interruptTurn_storage (h.waits _)

theorem runningTurn_storage : StorageLegal (runningTurn s).state := by
  unfold runningTurn
  dsimp only
  generalize waitStep _ _ _ = w
  split_ifs
  · exact drainBus_storage (h.waits { s.waits with pmuHalt := w.1 })
  · exact nmiTurn_storage (h.waits _)

theorem turn_storage : StorageLegal (turn s).state := by
  unfold turn
  split
  · exact runningTurn_storage h
  · exact h
  · unfold wake
    dsimp only
    split_ifs <;> exact h

/-! ## CSR accesses -/

theorem csrReadEffect_storage (c : Csr) : StorageLegal (csrReadEffect s c) := by
  unfold csrReadEffect readArray
  dsimp only
  split
  · split <;> exact h
  · exact h

theorem writeDmst_storage (v : Word) : StorageLegal (writeDmst s v) := by
  rw [writeDmst_eq]
  split
  · exact h
  · exact fenceData_storage h
  · exact fenceInstructions_storage h
  · exact fenceInstructions_storage (fenceData_storage h)

theorem firmwareHalt_storage : StorageLegal (firmwareHalt s) := by
  unfold firmwareHalt
  split <;> exact drainBus_storage h

/-- Of the CSR writes only those with the effect of a fence or a halt touch memory and bus at all (R103, R108). -/
theorem csrWrite_storage (c : Csr) (v : Word) : StorageLegal (csrWrite s c v) := by
  cases c
  case dmst => exact writeDmst_storage h v
  case mpmc =>
    unfold csrWrite
    dsimp only
    split
    · exact firmwareHalt_storage h
    · exact h
  case mfdc =>
    unfold csrWrite writeMfdc recordMfdcWrite
    dsimp only
    split <;> exact h
  case dicago =>
    unfold csrWrite writeArray
    dsimp only
    split_ifs <;> exact h
  case mhpmevent | mhpmcounter | mhpmcounterh =>
    unfold csrWrite
    dsimp only
    split <;> exact h
  all_goals exact h

end Parts

/-! ## Outcomes -/

/-- If the outcome goes on, then to a state with legal memory and bus. -/
def StorageOutcome (r : Result) : Prop := ∀ t, r = .next t → StorageLegal t

theorem StorageLegal.outcome {t : State} (h : StorageLegal t) : StorageOutcome (.next t) := by
  rintro _ ⟨⟩
  exact h

theorem StorageOutcome.refused (r : Refusal) : StorageOutcome (.refused r) := by simp [StorageOutcome]

theorem StorageOutcome.fault (f : Fault) : StorageOutcome (.fault f) := by simp [StorageOutcome]

section Instructions

variable {s : State} (h : StorageLegal s)
include h

/-! ## Instructions -/

theorem csrAccess_storage (code : Code) (rd : Reg) (n : BitVec 12) (reads writes : Bool) (f : Word → Word) :
    StorageOutcome (csrAccess s code rd n reads writes f) := by
  unfold csrAccess
  split
  · exact .refused _
  · exact (takeException_storage h _ _).outcome
  · next c _ =>
    have hr : StorageLegal (if reads then csrReadEffect s c else s) := by
      split
      · exact csrReadEffect_storage h c
      · exact h
    have hw := fun v r next => retire_storage (setReg_storage hr rd v) r next
    dsimp only
    split
    · exact (csrWrite_storage (hw _ _ _) _ _).outcome
    · exact (hw _ _ _).outcome

theorem csrForm_storage {i : Instr} {f : CsrForm} (hf : csrForm s i = some f) : StorageOutcome (exec i s) := by
  obtain ⟨reads, hr⟩ := exec_csrForm hf
  rw [hr]
  exact csrAccess_storage h _ _ _ _ _ _

theorem retire_setReg_storage (rd : Reg) (v : Word) (r : Retired) (next : Word) :
    StorageOutcome (.next (retire (setReg s rd v) r next)) :=
  (retire_storage (setReg_storage h rd v) r next).outcome

theorem finishLoad_storage (short : Bool) (k : LoadKind) (rd : Reg) (a : Word) :
    StorageOutcome (finishLoad s short k rd a) := by
  have hm := (memLoad_keeps s a k.size).storage h
  unfold finishLoad
  dsimp only
  split <;> rename_i heq <;> rw [heq] at hm
  · exact (takeException_storage hm _ _).outcome
  · exact retire_setReg_storage hm _ _ _ _
  · exact retire_setReg_storage hm _ _ _ _

theorem finishStore_storage (short : Bool) (n : Nat) (v a : Word) : StorageOutcome (finishStore s short n v a) := by
  have hm := (memStore_keeps s a n v).storage h
  unfold finishStore
  split <;> rename_i heq <;> rw [heq] at hm
  · exact (takeException_storage hm _ _).outcome
  · exact (retire_storage hm _ _).outcome
  · exact (retire_storage hm _ _).outcome

theorem finishFence_storage (cls : InstrClass) : StorageOutcome (finishFence s cls) := (retire_storage h _ _).outcome

theorem finishBreak_storage : StorageOutcome (finishBreak s) := by
  have hc := countEvents_storage h fun _ e => (e == 19).toNat
  unfold finishBreak
  dsimp only
  split
  · exact StorageLegal.outcome (t := breakToDebug _) ((enterDebug_storage hc .ebreak).of_eq rfl rfl rfl)
  · exact (takeException_storage hc _ _).outcome

/-- Every instruction keeps memory and bus legal: loads and stores as accesses do, fences and EBREAK as a drain does, and the
others do not touch them. -/
theorem exec_storage (i : Instr) : StorageOutcome (exec i s) := by
  cases i with
  | lb | lh | lw | lbu | lhu | cLw | cLwsp => exact finishLoad_storage h _ _ _ _
  | sb | sh | sw | cSw | cSwsp => exact finishStore_storage h _ _ _ _
  | csrrw | csrrs | csrrc | csrrwi | csrrsi | csrrci => exact csrForm_storage h rfl
  | fence => exact finishFence_storage (fenceData_storage h) _
  | fenceI =>
    have hf : StorageLegal (recordFenceI (fenceInstructions s)) := fenceInstructions_storage h
    exact finishFence_storage hf _
  | ecall => exact (takeException_storage (countEvents_storage h _) _ _).outcome
  | ebreak | cEbreak => exact finishBreak_storage h
  | mret =>
    have hr : StorageLegal (returnFromTrap s) := h
    exact (retire_storage hr _ _).outcome
  | beq | bne | blt | bge | bltu | bgeu | cBeqz | cBnez => exact (retire_storage h _ _).outcome
  | _ => exact retire_setReg_storage h _ _ _ _

/-! ## The step of the hart -/

omit h in
theorem finishStep_storage {r : Result} (hr : StorageOutcome r) : StorageOutcome (finishStep r) := by
  cases r with
  | next t => exact (afterInstr_storage (hr t rfl)).outcome
  | fault f => exact .fault f
  | refused f => exact .refused f

theorem executeNext_storage : StorageOutcome (executeNext s) := by
  have hf := (fetch_keeps s).storage h
  unfold executeNext
  split <;> rename_i heq <;> rw [heq] at hf
  · exact (afterInstr_storage (takeException_storage hf _ _)).outcome
  · split
    · exact (afterInstr_storage (takeException_storage hf _ _)).outcome
    · split
      · exact .refused _
      · exact finishStep_storage (exec_storage hf _)

theorem hartStep_storage : StorageOutcome (hartStep s) := by
  have ht := turn_storage (atBoundary_storage h)
  unfold hartStep
  split <;> rename_i heq <;> rw [heq] at ht
  · exact ht.outcome
  · exact executeNext_storage ht

/-! ## Host events -/

theorem debugHalt_storage : StorageLegal (debugHalt s) := by
  unfold debugHalt
  dsimp only
  split
  · exact h
  · exact enterDebug_storage h .haltRequest

theorem debugResume_storage : StorageLegal (debugResume s) := by
  unfold debugResume
  dsimp only
  split_ifs <;> exact h

theorem debugReadCsr_storage (n : BitVec 12) : StorageOutcome (debugReadCsr s n) := by
  unfold debugReadCsr
  split
  · split
    · exact .refused _
    · exact h.outcome
    · next c _ => exact (csrReadEffect_storage (s := { s with dbgData := csrRead s c }) h c).outcome
  · exact h.outcome

theorem debugWriteCsr_storage (n : BitVec 12) (v : Word) : StorageOutcome (debugWriteCsr s n v) := by
  unfold debugWriteCsr
  split
  · split
    · exact .refused _
    · exact h.outcome
    · exact (csrWrite_storage h _ v).outcome
  · exact h.outcome

theorem eccEvent_storage (a : Word) (u : Bool) : StorageLegal (eccEvent s a u) := by
  have he := fun w e => (setEcc_keeps s w e).storage h
  unfold eccEvent
  dsimp only
  split
  · split
    · exact he _ _
    · split
      · exact he _ _
      · exact h
    all_goals exact h
  · split
    · exact he _ _
    · exact h

end Instructions

/-! ## Reset (R700, R704, R705) -/

section Reset

variable {s : State} (h : Canonical s)
include h

/-- Undoing stores that no FENCE has made sure of leaves the canonical form. -/
theorem undoStores_canonical : Canonical (undoStores s) :=
  ⟨rising_foldl (fun _ _ => rising_cellPut _ _ _) _ _ h.1, rising_foldl (fun _ _ => rising_cellPut _ _ _) _ _ h.2⟩

theorem abandonTransaction_canonical (r : BusResponse) : Canonical (abandonTransaction s r) := by
  unfold abandonTransaction
  split
  · exact h
  · refine List.foldlRecOn _ _ h fun t ht a _ => ?_
    split
    · exact (writeByte_keeps t _ _).canonical ht
    all_goals exact ht

theorem abandonStore_canonical (st : BusStore) : Canonical (abandonStore s st) := by
  refine writeBytes_induct (P := Canonical) (fun t a b ht => ?_) s _ _ _ h
  split
  · split
    · exact (writeByte_keeps t a b).canonical ht
    · exact ht
  all_goals exact ht

theorem showStores_canonical (l : List BusStore) (n : Nat) : Canonical (showStores l n s) := by
  induction l generalizing n s with
  | nil => exact h
  | cons st rest ih =>
    unfold showStores
    split
    · exact h
    · refine ih ?_ _
      rw [showStore_frame]
      exact h

/-- What a reset leaves of memory is in canonical form, whatever it does to the stores under way. -/
theorem memoryAtReset_canonical : Canonical (memoryAtReset s) := by
  have hr : Canonical (s.responses.foldl abandonTransaction (undoStores s)) :=
    List.foldlRecOn _ _ (undoStores_canonical h) fun t ht r _ => abandonTransaction_canonical ht r
  exact showStores_canonical (List.foldlRecOn _ _ hr fun t ht st _ => abandonStore_canonical ht st) _ _

end Reset

theorem resetEvent_storage {s : State} (h : StorageLegal s) (held : Bool) : StorageLegal (resetEvent s held) :=
  ⟨memoryAtReset_canonical h.1, Nat.zero_le _⟩

/-! ## The step -/

/-- Every host event keeps memory and bus legal. -/
theorem hostEvent_storage {s : State} (h : StorageLegal s) (e : HostEvent) : StorageOutcome (hostEvent e s) := by
  cases e with
  | run | timerInt | extInt | nmiInt | nmiVec | mpcResetRunReq => exact StorageLegal.outcome h
  | cpuHaltReq b | cpuRunReq b | mpcHaltReq b | mpcRunReq b =>
    unfold hostEvent
    dsimp only
    split
    · exact .fault _
    · exact StorageLegal.outcome h
  | debugHalt => exact (debugHalt_storage h).outcome
  | debugResume => exact (debugResume_storage h).outcome
  | debugReadCsr n => exact debugReadCsr_storage h n
  | debugWriteCsr n v => exact debugWriteCsr_storage h n v
  | debugReadReg r =>
    refine StorageLegal.outcome ?_
    split <;> exact h
  | debugWriteReg r v =>
    refine StorageLegal.outcome ?_
    split
    · exact setReg_storage h r v
    · exact h
  | dmaRead a n => exact ((dmaRead_keeps s a n).storage h).outcome
  | dmaWrite a n v => exact ((dmaWrite_keeps s a n v).storage h).outcome
  | busWrite a b =>
    have hs : StorageLegal (sendSome s) := ⟨sendSome_canonical s h.1, sendSome_responses s h.2⟩
    have ha : StorageLegal (answerSome (sendSome s)) := ⟨answerSome_canonical _ hs.1, answerSome_responses _ hs.2⟩
    exact ((otherMasterWrite_keeps _ a b).storage ha).outcome
  | eccError a u => exact (eccEvent_storage h a u).outcome
  | icacheError set =>
    refine StorageLegal.outcome ?_
    split
    · exact (icacheErrorIn_keeps s set).storage h
    · exact h
  | reset held => exact (resetEvent_storage h held).outcome

/-- A step is a host event or a step of the hart, and each of its parts keeps memory and bus legal. -/
theorem step_storage {s : State} (h : StorageLegal s) : StorageOutcome (step s) := by
  unfold step
  split
  · exact hartStep_storage h
  · exact hartStep_storage (h.inputs _ _)
  · exact hostEvent_storage (h.inputs _ _) _

/-- Settles O9: what every part of a step keeps, the step keeps. -/
theorem stepKeepsMemoryLegal : Obligations.StepKeepsMemoryLegal :=
  fun _ t hm hb hs => step_storage ⟨hm, hb⟩ t hs

end Sys2Proof.Machine

/-! PROOFS. The boundary keeps the hart; a step runs the instruction fetched at the pc, or traps where no parcel can be fetched
(R168 to R173, R190, R503, R523, R649, R723). -/

namespace Sys2Proof.Machine

/-- Settles O13: what the boundary keeps, and what a turn that executes adds to it. -/
theorem boundaryKeepsTheHart : Obligations.BoundaryKeepsTheHart := by
  intro s u
  obtain ⟨hk, hpc, hd⟩ := atBoundary_keeps s
  exact ⟨hk.regs, hk.pauseCount, hk.view.cfg, hk.inputs, hpc, hk.csr, hd, hk.minstret, hk.event, hk.hpm, hk.view.view,
    hk.view.checks, fun v => turn_execute⟩

/-! ## The step of an instruction -/

/-- A step at whose boundary the hart takes the next instruction. -/
theorem step_executes {s u : State} (hin : s.inputs = []) (ht : turn (atBoundary s) = .execute u) :
    step s = executeNext u := by
  rw [step_noEvent s hin, ht]

/-- A FENCE.I is due, and missing, where an `mfdc` write was just before and another instruction stands (R723). -/
theorem fenceIDue_iff (s : State) (i : Instr) :
    fenceIDue s i = true ↔ s.pc ∈ s.fencesDue ∧ ¬∃ imm rs1 rd, i = .fenceI imm rs1 rd := by
  unfold fenceIDue
  rw [Bool.and_eq_true, List.contains_iff_mem]
  refine and_congr_right fun _ => ?_
  split
  · simp
  · next h => exact iff_of_true rfl fun ⟨imm, rs1, rd, hi⟩ => h imm rs1 rd hi

/-- The instruction fetched is executed, unless it stands where a FENCE.I is due (R168, R723). -/
theorem executeNext_code {u v : State} {c : Code} {i : Instr} (hf : fetch u = .code c v) (hd : decodeCode c = some i) :
    executeNext u = if fenceIDue v i then .refused .mfdcFence else finishStep (exec i v) := by
  unfold executeNext
  rw [hf]
  dsimp only
  rw [hd]

/-! ## The code at the pc -/

/-- The words an access touches are those of its bytes. -/
theorem mem_wordsOf {a n w : Nat} (hn : 0 < n) : w ∈ wordsOf a n ↔ ∃ k < n, (a + k) / 4 = w := by
  simp only [wordsOf, List.mem_map, List.mem_range]
  refine ⟨fun ⟨j, hj, hw⟩ => ?_, fun ⟨k, hk, hw⟩ => ⟨w - a / 4, by omega, by omega⟩⟩
  exact ⟨if j = 0 then 0 else 4 * w - a, by split <;> omega, by split <;> omega⟩

theorem one_lt_codeSize (c : Code) : 1 < c.size := by cases c <;> simp [Code.size]

/-- Sound words can be read as they are. -/
theorem CodeInIccm.checked {s : State} {c : Code} (h : CodeInIccm s c) : CodeInCheckedIccm s c := by
  obtain ⟨hpc, hb, ht, hw⟩ := h
  exact ⟨hpc, hb, ht, fun k hk => ⟨(hw k hk).1, (hw k hk).2.1, .inl (hw k hk).2.2.1, (hw k hk).2.2.2⟩⟩

/-- The fetch of an instruction in sound words of the ICCM changes nothing (R168, R169). -/
theorem CodeInIccm.fetch {s : State} {c : Code} (h : CodeInIccm s c) : fetch s = .code c s := by
  rw [fetch_checkedIccm h.checked, writeBack_sound]
  intro w hw
  obtain ⟨k, hk, rfl⟩ := (mem_wordsOf (Nat.zero_lt_of_lt (one_lt_codeSize c))).mp hw
  rw [← toNat_pcPlus h.checked hk]
  exact (h.2.2.2 k hk).2.2.1

theorem toNat_add_one_of_even {p : Word} (h : p.getLsbD 0 = false) : (p + 1).toNat = p.toNat + 1 := by
  have he := toNat_even h
  have hlt := p.isLt
  rw [BitVec.toNat_add, show (1 : Word).toNat = 1 from rfl]
  omega

theorem takeCode_half {b₀ b₁ : Byte} {x : BitVec 16} (h : takeCode [b₀, b₁] = some (.half x, [])) :
    x = b₁ ++ b₀ ∧ longParcel x = false := by
  simp only [takeCode] at h
  split at h
  · cases h
  · next hl =>
    cases h
    exact ⟨rfl, by simpa using hl⟩

theorem takeCode_word {b₀ b₁ b₂ b₃ : Byte} {x : Word} (h : takeCode [b₀, b₁, b₂, b₃] = some (.word x, [])) :
    x = (b₃ ++ b₂) ++ (b₁ ++ b₀) ∧ longParcel (b₁ ++ b₀) = true := by
  simp only [takeCode] at h
  split at h
  · next hl =>
    cases h
    exact ⟨(parcels_append _ _ _ _).symm, hl⟩
  · cases h

/-- A code at an even pc is fetched when its parcels are: the one parcel of a 16-bit instruction, the two of another, which does
not run over the end of the ICCM (R168, R169, R241). -/
theorem fetch_of_parcels {s u v : State} {c : Code} (he : s.pc.getLsbD 0 = false)
    (hb : takeCode ((List.range c.size).map fun k => memByte s (pcPlus s k).toNat) = some (c, []))
    (h₁ : fetchParcel s s.pc = .parcel (parcelAt (memByte s) s.pc) u) (hu : u.pc = s.pc ∧ u.cfg = s.cfg)
    (h₂ : c.size = 4 → leavesIccm s.cfg s.pc = false ∧
      fetchParcel u (s.pc + 2) = .parcel (parcelAt (memByte s) (s.pc + 2)) v) :
    fetch s = .code c (if c.size = 4 then v else u) := by
  obtain ⟨hpc, hcfg⟩ := hu
  have n0 : pcPlus s 0 = s.pc := BitVec.add_zero _
  have n1 : (pcPlus s 1).toNat = s.pc.toNat + 1 := toNat_add_one_of_even he
  unfold fetch
  rw [h₁]
  cases c with
  | half x =>
    simp only [Code.size, List.range_succ, List.range_zero, List.nil_append, List.map_cons, List.map_nil, List.cons_append,
      n0, n1] at hb
    obtain ⟨rfl, hl⟩ := takeCode_half hb
    dsimp only
    rw [parcelAt, hl]
    rfl
  | word x =>
    obtain ⟨hleaves, hsecond⟩ := h₂ rfl
    have e2 : (s.pc + 2).getLsbD 0 = false := even_add he rfl
    have n3 : (pcPlus s 3).toNat = (s.pc + 2).toNat + 1 := by
      rw [← toNat_add_one_of_even e2, pcPlus, BitVec.add_assoc]
      rfl
    simp only [Code.size, List.range_succ, List.range_zero, List.nil_append, List.map_cons, List.map_nil, List.cons_append,
      n0, n1, n3] at hb
    obtain ⟨rfl, hl⟩ := takeCode_word hb
    dsimp only
    rw [parcelAt, hl, hpc, hcfg, hleaves, hsecond]
    rfl

/-! ## A parcel of SoC memory, when the I-cache holds nothing else (R190) -/

/-- The I-cache gives a fetch nothing but what the lines filled hold: no line the debugger wrote is valid, and over none of the lines
filled has it written since. -/
structure CleanICache (s : State) : Prop where
  tags : s.icache.tags = []
  data : ∀ f ∈ s.icache.filled, ∀ p, lineOf p = f.1 → overwrittenData s p f.2 = none

/-- An I-cache the debugger has not written is clean. -/
theorem CleanICache.of_unwritten {s : State} (ht : s.icache.tags = []) (hd : s.icache.data = []) : CleanICache s where
  tags := ht
  data f _ p _ := by rw [overwrittenData, hd]; rfl

/-- What the fetch of a parcel from a clean I-cache leaves: devices may have seen it, and the line is looked up, or filled. -/
structure Refetched (s : State) (p : Word) (v : State) : Prop where
  frame : v = { s with icache := v.icache, deviceTrace := v.deviceTrace }
  icache : (v.icache.tags = s.icache.tags ∧ v.icache.data = s.icache.data ∧ v.icache.filled = s.icache.filled) ∨
    v.icache = (lookUp s p).icache.afterFills s.cfg [fillOf s p]

theorem writtenTags_of_tags {s : State} (h : s.icache.tags = []) (p : Word) : writtenTags s p = [] :=
  writtenTags_nil fun way => by rw [h]; rfl

theorem icacheFetch_unwritten {s : State} (h : s.icache.tags = []) (p : Word) : icacheFetch s p = (none, lookUp s p) := by
  rw [icacheFetch, writtenTags_of_tags h]
  rfl

/-- The way that serves a fetch is that of a line filled. -/
theorem servingWay_filled {s : State} {p : Word} {way : BitVec 2} (h : servingWay s p = some way) :
    (lineOf p, way) ∈ s.icache.filled := by
  unfold servingWay at h
  split at h
  · next f hf =>
    split at h
    · cases h
      have hl := List.find?_some hf
      rw [beq_iff_eq] at hl
      rw [← hl]
      exact List.mem_of_find?_eq_some hf
    · cases h
  · cases h

/-- From a clean I-cache, or past it, the parcel is memory's as the fetch side sees it (R171, R190, R191). -/
theorem fetchParcel_clean {s : State} {p : Word} (h : SocParcel s p) (hc : CleanICache s) :
    ∃ v, fetchParcel s p = .parcel (parcelAt (fetchByte s) p) v ∧ Refetched s p v := by
  obtain ⟨-, hr, hw, -⟩ := id h
  rw [fetchParcel, hr, hw, if_neg Bool.false_ne_true, if_neg (by simp)]
  split
  · rw [fetchCached, icacheFetch_unwritten hc.tags]
    dsimp only
    split
    · next way hs =>
      have hn : overwrittenData (lookUp s p) p way = none := hc.data _ (servingWay_filled hs) p rfl
      rw [lineParcel, hn]
      exact ⟨_, congrArg (Fetched.parcel · _) (busFetch_socParcel (s := lookUp s p) h), rfl, .inl ⟨rfl, rfl, rfl⟩⟩
    · obtain ⟨d, hd⟩ := fetchBus_socParcel (s := { lookUp s p with
        icache := (lookUp s p).icache.afterFills s.cfg [fillOf s p] }) h true
      exact ⟨_, hd, rfl, .inr rfl⟩
  · obtain ⟨d, hd⟩ := fetchBus_socParcel h false
    exact ⟨_, hd, rfl, .inl ⟨rfl, rfl, rfl⟩⟩

/-- An I-cache the debugger has not written stays so. -/
theorem Refetched.unwritten {s v : State} {p : Word} (h : Refetched s p v) (ht : s.icache.tags = []) (hd : s.icache.data = []) :
    CleanICache v := by
  rcases h.icache with ⟨et, ed, -⟩ | e
  · exact .of_unwritten (et.trans ht) (ed.trans hd)
  · refine .of_unwritten ?_ ?_
    · rw [e, ICache.afterFills, show (lookUp s p).icache.tags = [] from ht]
      rfl
    · rw [e, ICache.afterFills, show (lookUp s p).icache.data = [] from hd]
      rfl

/-- A line filled is one of before, or the new one in its way. -/
theorem mem_addLine {c : Build} {filled : List (Nat × BitVec 2)} {g : LineFill} {f : Nat × BitVec 2}
    (h : f ∈ addLine c filled g) : f ∈ filled ∨ g.line = f.1 ∧ g.way = some f.2 := by
  unfold addLine at h
  dsimp only at h
  split at h
  · exact .inl (List.mem_of_mem_filter h)
  · next w hw =>
    rcases List.mem_cons.mp h with rfl | h
    · exact .inr ⟨rfl, hw⟩
    · exact .inl (List.mem_of_mem_filter (List.mem_of_mem_filter h))

/-- A clean I-cache stays clean: what the debugger wrote in a line's place is lost when the line is filled (R190). -/
theorem Refetched.clean {s v : State} {p : Word} (h : Refetched s p v) (hb : s.cfg.icacheKb ∈ [16, 32, 64, 128, 256])
    (hc : CleanICache s) : CleanICache v := by
  have hcfg : v.cfg = s.cfg := by rw [h.frame]
  rcases h.icache with ⟨et, ed, ef⟩ | e
  · refine ⟨et.trans hc.tags, fun f hf q hq => ?_⟩
    rw [overwrittenData, ed, hcfg]
    exact hc.data f (ef ▸ hf) q hq
  · refine ⟨?_, fun f hf q hq => ?_⟩
    · rw [e, ICache.afterFills, show (lookUp s p).icache.tags = [] from hc.tags]
      rfl
    rw [e] at hf
    rw [overwrittenData, e, hcfg]
    refine (cellGet_filter s.icache.data
      (fun a => [fillOf s p].all fun g => !g.takes s.cfg (a / 65536) (a % 65536 / 16)) _).trans ?_
    rcases mem_addLine hf with hf | ⟨hl, hw⟩
    · exact (congrArg (ite _ · none) (hc.data f hf q hq)).trans (ite_self _)
    · obtain ⟨e1, e2⟩ := dataEntry_place s.cfg q f.2 hb
      rw [e1, e2, hq, ← hl]
      simp [LineFill.takes, hw]

/-- The fetch of an instruction in SoC memory gives its bytes; devices and the I-cache may notice (R168, R170, R171, R190). -/
theorem CodeInSocMemory.fetch {s : State} {c : Code} (h : CodeInSocMemory s c) :
    ∃ v, fetch s = .code c v ∧ v = { s with icache := v.icache, deviceTrace := v.deviceTrace } := by
  obtain ⟨he, hbytes, htake, hb, hout, ht, hd⟩ := h
  have parcel : ∀ p k, p.getLsbD 0 = false → p = pcPlus s k → p + 1 = pcPlus s (k + 1) → k + 1 < c.size →
      SocParcel s p ∧ parcelAt (fetchByte s) p = parcelAt (memByte s) p := by
    rintro p k hp rfl h1 hk
    obtain ⟨r0, w0, k0, f0, s0⟩ := hb k (by omega)
    obtain ⟨-, -, k1, f1, s1⟩ := hb (k + 1) hk
    rw [← h1] at k1 f1 s1
    refine ⟨⟨hp, r0, w0, k0, k1, f0, f1⟩, ?_⟩
    rw [toNat_add_one_of_even hp] at s1
    rw [parcelAt, parcelAt, fetchByte_of_held s0, fetchByte_of_held s1]
  obtain ⟨p₁, e₁⟩ := parcel s.pc 0 he (BitVec.add_zero _).symm rfl (one_lt_codeSize c)
  obtain ⟨u, hu, ru⟩ := fetchParcel_clean p₁ (.of_unwritten ht hd)
  have fu := ru.frame
  rw [e₁] at hu
  rw [hbytes] at htake
  have hpu : u.pc = s.pc ∧ u.cfg = s.cfg := by rw [fu]; exact ⟨rfl, rfl⟩
  by_cases h4 : c.size = 4
  · obtain ⟨p₂, e₂⟩ := parcel (s.pc + 2) 2 (even_add he rfl) rfl (by rw [pcPlus, BitVec.add_assoc]; rfl) (by omega)
    have p₂' : SocParcel u (s.pc + 2) := by rw [fu]; exact p₂
    obtain ⟨v, hv, rv⟩ := fetchParcel_clean p₂' (ru.unwritten ht hd)
    have e₂' : parcelAt (fetchByte u) (s.pc + 2) = parcelAt (memByte s) (s.pc + 2) := by rw [fu]; exact e₂
    rw [e₂'] at hv
    refine ⟨v, (fetch_of_parcels he htake hu hpu fun _ => ⟨by rw [leavesIccm, hout]; rfl, hv⟩).trans (by rw [if_pos h4]), ?_⟩
    have fv := rv.frame
    rw [fu] at fv
    exact fv
  · exact ⟨u, (fetch_of_parcels (v := u) he htake hu hpu fun h => absurd h h4).trans (by rw [if_neg h4]), fu⟩

/-- Settles O5: what the fetch gives is executed; in the ICCM, and in SoC memory, it gives the code at the pc. -/
theorem stepRunsTheDecodedInstruction : Obligations.StepRunsTheDecodedInstruction := by
  intro s u c i hin ht hd isFenceI runs
  have hruns : ∀ v, fetch u = .code c v → runs v := fun v hf => by
    have hstep := (step_executes hin ht).trans (executeNext_code hf hd)
    refine ⟨decodeCode_wellFormed hd, fun h => ?_, fun hp hi => ?_⟩
    · rw [hstep, if_neg]
      rw [fenceIDue_iff]
      exact fun ⟨hp, hi⟩ => h.elim (absurd hp) hi
    · rw [hstep, if_pos ((fenceIDue_iff v i).mpr ⟨hp, hi⟩)]
  refine ⟨hruns, fun h => hruns u h.fetch, fun h => ?_⟩
  obtain ⟨v, hf, hv⟩ := h.fetch
  exact ⟨v, hv, hruns v hf⟩

/-! ## Parcels that fault (R168 to R173) -/

/-- A parcel that faults by the rows of R173 is one whose fetch faults; in the ICCM's region it changes nothing. -/
theorem ParcelFaults.fetch {s : State} {p : Word} (h : ParcelFaults s p) :
    ∃ v, fetchParcel s p = .fault v ∧ FetchFrame s v ∧ (iccmRegion s.cfg p = true → v = s) := by
  have key : ∃ v, fetchParcel s p = .fault v ∧ (iccmRegion s.cfg p = true → v = s) := by
    unfold ParcelFaults at h
    unfold fetchParcel
    split at h
    · next hr =>
      rw [if_pos hr]
      rcases h with h | h
      · rw [h]
        exact ⟨s, rfl, fun _ => rfl⟩
      · have hf : anyFailed s [p.toNat / 4] = true := by simp [anyFailed, h]
        refine ⟨s, ?_, fun _ => rfl⟩
        split
        · rw [fetchIccm, hf, if_pos rfl]
        · rfl
    · next hr =>
      rw [if_neg hr]
      have bus : ∀ (t : State) (c : Bool), (readFails t p = true ∨ readFails t (p + 1) = true) →
          fetchBus t c p = .fault (traceDevice t (fetchSeen c p)) := fun t c hf =>
        if_pos (by rwa [Bool.or_eq_true])
      rcases h with h | ⟨hf, h⟩
      · rw [h]
        exact ⟨s, rfl, fun hc => absurd hc hr⟩
      · cases windowsAllow s.cfg.instWindows p
        · exact ⟨s, rfl, fun hc => absurd hc hr⟩
        rw [Bool.not_true, if_neg Bool.false_ne_true]
        split
        · next hc =>
          rw [cacheable, Bool.and_eq_true] at hc
          obtain ⟨ht, hl⟩ := (h.resolve_left (by rw [hc.1]; decide)).resolve_left (by rw [hc.2]; decide)
          have hs : servingWay (lookUp s p) p = none := by
            rw [servingWay, show (lookUp s p).icache.filled = [] from hl]
            rfl
          rw [fetchCached, icacheFetch_unwritten ht]
          dsimp only
          rw [hs]
          exact ⟨_, bus _ true hf, fun hc => absurd hc hr⟩
        · exact ⟨_, bus s false hf, fun hc => absurd hc hr⟩
  obtain ⟨v, hv, hi⟩ := key
  have hk := (fetchParcel_keeps s p).frame
  rw [hv] at hk
  exact ⟨v, hv, hk, hi⟩

/-- A fetch that faults takes exception 1 with the address of the parcel (R503, R523). -/
theorem step_fetchFault {s u v : State} {a : Word} (hin : s.inputs = []) (ht : turn (atBoundary s) = .execute u)
    (hs : u.stepping = false) (hf : fetch u = .fault a v) :
    GoesTo (step s) fun t => Trapped v t 1 a (exceptionTarget u) := by
  have hk := (fetch_keeps u).frame
  rw [hf] at hk
  have hv : FetchFrame u v := hk
  have htarget : exceptionTarget v = exceptionTarget u := by
    unfold exceptionTarget
    rw [hv]
  have hafter : afterInstr (takeException v 1 a) = takeException v 1 a := by
    have hn : (takeException v 1 a).stepping = false := by
      rw [takeException_stepping, hv]
      exact hs
    rw [afterInstr, hn]
    rfl
  refine ⟨takeException v 1 a, ?_, htarget ▸ takeException_spec v 1 a⟩
  rw [step_executes hin ht, executeNext, hf]
  dsimp only
  rw [fetchFault, hafter]

/-- Settles O7: the first parcel faults, or it is long and the instruction leaves the ICCM, or its second parcel faults. -/
theorem fetchOutsideIccmTraps : Obligations.FetchOutsideIccmTraps := by
  intro s u hin ht hs
  have trap : ∀ {a v}, fetch u = .fault a v → GoesTo (step s) fun t => Trapped v t 1 a (exceptionTarget u) :=
    step_fetchFault hin ht hs
  refine ⟨fun hp => ?_, fun hr hi hw hl he hn => trap ?_, fun v h hv hl hp => ?_⟩
  · obtain ⟨v, hv, hframe, hsame⟩ := hp.fetch
    have hf : fetch u = .fault u.pc v := by
      rw [fetch, hv]
      dsimp only
      rw [show v.pc = u.pc by rw [hframe]]
    obtain ⟨t, hst, htr⟩ := trap hf
    exact ⟨t, hst, v, hframe, hsame, htr⟩
  · have h4 : (u.pc.toNat + 1) / 4 = u.pc.toNat / 4 := by
      have := toNat_even he
      omega
    have hread : Readable u (u.pc.toNat / 4) := .inl hw
    have hparcel : fetchParcel u u.pc = .parcel (parcelAt (fetchByte u) u.pc) u := by
      rw [fetchParcel, if_pos hr, if_pos hi, fetchIccm, anyFailed_sound (by simpa using hw), if_neg Bool.false_ne_true,
        writeBack_sound _ _ _ (by simpa using hw), parcelAt, hread.checkedByte, Readable.checkedByte (h4 ▸ hread)]
      rfl
    rw [fetch, hparcel]
    dsimp only
    rw [hl, leavesIccm, hi, hn]
    rfl
  · have hframe := (fetchParcel_keeps u u.pc).frame
    rw [hv] at hframe
    have hpc : v.pc = u.pc := by rw [show FetchFrame u v from hframe]
    obtain ⟨w, hw, hfw, -⟩ := hp.fetch
    have hfault : ∃ w, fetch u = .fault (u.pc + 2) w ∧ FetchFrame v w := by
      rw [fetch, hv]
      dsimp only
      rw [hl, Bool.not_true, if_neg Bool.false_ne_true, hpc]
      split
      · exact ⟨v, rfl, rfl⟩
      · rw [hw]
        dsimp only
        exact ⟨w, by rw [show w.pc = v.pc by rw [hfw], hpc], hfw⟩
    obtain ⟨w, hw, hfw⟩ := hfault
    obtain ⟨t, hst, htr⟩ := trap hw
    exact ⟨t, hst, w, hfw, htr⟩

end Sys2Proof.Machine

/-! PROOFS. Loads from the DCCM and stores to it: values, check bits and counts (R161, R184, R185, R188, R221 to R223). -/

namespace Sys2Proof.Machine

/-! ## The value of a load (R161, R184, R351 to R355) -/

/-- A load form ends as the loads do, with a kind of load that makes of the bytes the value the form says. -/
theorem exec_loadForm_value {s : State} {i : Instr} {l : LoadForm} (h : loadForm s i = some l) :
    ∃ (k : LoadKind) (short : Bool), exec i s = finishLoad s short k l.rd l.addr ∧ k.size = l.size ∧ ilen short = l.length ∧
      ∀ f, k.extend (assemble f l.addr.toNat l.size) = loadedValue f l := by
  have value := fun (k : LoadKind) f => extend_assemble f l.addr.toNat k
  have word : ∀ v : Word, v.setWidth 32 = v ∧ v.signExtend 32 = v := fun v => ⟨BitVec.setWidth_eq v, BitVec.signExtend_eq v⟩
  unfold loadForm at h
  split at h <;> cases h
  · exact ⟨.signed8, false, rfl, rfl, rfl, value .signed8⟩
  · exact ⟨.signed16, false, rfl, rfl, rfl, value .signed16⟩
  · exact ⟨.word, false, rfl, rfl, rfl, fun f => (value .word f).trans (word _).2.symm⟩
  · exact ⟨.unsigned8, false, rfl, rfl, rfl, value .unsigned8⟩
  · exact ⟨.unsigned16, false, rfl, rfl, rfl, value .unsigned16⟩
  · exact ⟨.word, true, rfl, rfl, rfl, fun f => (value .word f).trans (word _).2.symm⟩
  · exact ⟨.word, true, rfl, rfl, rfl, fun f => (value .word f).trans (word _).2.symm⟩

/-- The bytes of an access decide their number. -/
theorem littleEndianValue_congr {f g : Nat → Byte} {a n : Nat} (h : ∀ k < n, f (a + k) = g (a + k)) :
    littleEndianValue f a n = littleEndianValue g a n := by
  induction n with
  | zero => rfl
  | succ n ih => rw [littleEndianValue, littleEndianValue, ih fun k hk => h k (Nat.lt_succ_of_lt hk), h n (Nat.lt_succ_self n)]

theorem loadedValue_congr {f g : Nat → Byte} {l : LoadForm} (h : ∀ k < l.size, f (l.addr.toNat + k) = g (l.addr.toNat + k)) :
    loadedValue f l = loadedValue g l := by
  unfold loadedValue
  rw [littleEndianValue_congr h]

theorem assemble_congr {f g : Nat → Byte} {a n : Nat} (hn : n = 1 ∨ n = 2 ∨ n = 4) (h : ∀ k < n, f (a + k) = g (a + k)) :
    assemble f a n = assemble g a n := by
  rw [assemble_eq f a n hn, assemble_eq g a n hn, littleEndianValue_congr h]

/-- What a load has of its value after some pieces. -/
def piecesValue (f : Nat → Byte) (a : Nat) (v : Word) (ps : List (Nat × Nat)) : Word :=
  ps.foldl (fun v p => v ||| assemble f (a + p.1) p.2 <<< (8 * p.1)) v

/-- The pieces of an access make its value (R184). -/
theorem piecesValue_cutAccess (f : Nat → Byte) (a : Nat) {n : Nat} (hn : n = 1 ∨ n = 2 ∨ n = 4) :
    piecesValue f a 0 (cutAccess false a n) = assemble f a n := by
  have key : ∀ b₀ b₁ b₂ b₃ : Byte,
      (b₀.setWidth 32 ||| b₁.setWidth 32 <<< 8 : Word) = (b₁ ++ b₀).setWidth 32 ∧
      ((b₁ ++ b₀).setWidth 32 ||| (b₃ ++ b₂).setWidth 32 <<< 16 : Word) = b₃ ++ b₂ ++ b₁ ++ b₀ ∧
      (b₀.setWidth 32 ||| (b₂ ++ b₁).setWidth 32 <<< 8 ||| b₃.setWidth 32 <<< 24 : Word) = b₃ ++ b₂ ++ b₁ ++ b₀ := by
    intro b₀ b₁ b₂ b₃
    refine ⟨?_, ?_, ?_⟩ <;>
    · refine BitVec.eq_of_getLsbD_eq fun i hi => ?_
      simp only [BitVec.getLsbD_or, BitVec.getLsbD_shiftLeft, BitVec.getLsbD_setWidth, BitVec.getLsbD_append]
      interval_cases i <;> simp
  obtain ⟨k2, k4, k4'⟩ := key (f a) (f (a + 1)) (f (a + 2)) (f (a + 3))
  unfold cutAccess
  rw [if_neg Bool.false_ne_true]
  split_ifs with h1 h2 h3
  · simp [piecesValue]
  · subst h2
    simpa [piecesValue, assemble] using k2
  · obtain rfl : n = 4 := by rcases hn with rfl | rfl | rfl <;> omega
    simpa [piecesValue, assemble, Nat.add_assoc] using k4
  · obtain rfl : n = 4 := by rcases hn with rfl | rfl | rfl <;> omega
    simpa [piecesValue, assemble, Nat.add_assoc] using k4'

/-! ## Words written back (R221) -/

/-- A word that was just read is not found correctable again. -/
theorem writeBackWord_again (m : Ccm) (s : State) (w : Nat) : writeBackWord m (writeBackWord m s w) w = writeBackWord m s w := by
  cases h : checkWord s w
  case corrected =>
    refine writeBackWord_sound m _ w (checkWord_good ?_)
    simp only [writeBackWord, h, setEcc, cellGet_cellSet, if_true]
  all_goals
    have he : writeBackWord m s w = s := by simp only [writeBackWord, h]
    rw [he, he]

/-- A write back does not change what a word's bytes read as: a corrected word is sound afterwards, with the same data. -/
theorem checkedByte_writeBack (m : Ccm) (s : State) (ws : List Nat) :
    checkedByte (writeBack m s ws) (memByte (writeBack m s ws)) = checkedByte s (memByte s) := by
  unfold writeBack
  induction ws generalizing s with
  | nil => rfl
  | cons w ws ih =>
    refine (ih (writeBackWord m s w)).trans (funext fun b => ?_)
    have hf := writeBackWord_frame m s w
    have hb : memByte (writeBackWord m s w) b = memByte s b := by unfold memByte; rw [hf]
    have hn : (writeBackWord m s w).stepNo = s.stepNo := by rw [hf]
    unfold checkedByte
    rw [hb, hn]
    by_cases hw : checkWord s (b / 4) = .corrected ∧ b / 4 = w
    · obtain ⟨hc, rfl⟩ := hw
      have hg : checkWord (writeBackWord m s (b / 4)) (b / 4) = .sound := by
        refine checkWord_good ?_
        simp only [writeBackWord, hc, setEcc, cellGet_cellSet, if_true]
      rw [hg, hc]
    · have hc : checkWord (writeBackWord m s w) (b / 4) = checkWord s (b / 4) := by
        refine checkWord_congr hn (by rw [hf]) (by rw [hf]) ?_
        unfold writeBackWord
        split <;> rename_i hk
        · have hbw : b / 4 ≠ w := fun he => hw ⟨he ▸ hk, he⟩
          simp only [setEcc, cellGet_cellSet, hbw, if_false]
          cases m <;> rfl
        · rfl
      rw [hc]

/-! ## Loads from the DCCM (R184, R185) -/

/-- The words of an access, piece by piece. -/
def piecesWords (a : Nat) (ps : List (Nat × Nat)) : List Nat := ps.flatMap fun p => wordsOf (a + p.1) p.2

/-- Undisturbed, the pieces of a load give the checked bytes, and their words are written back. -/
theorem dccmLoadPieces_quiet (a k : Nat) (v : Word) (s : State) (ps : List (Nat × Nat)) (hq : Quiet s k ps.length) :
    dccmLoadPieces a k v s ps =
      .done (piecesValue (checkedByte s (memByte s)) a v ps) (writeBack .dccm s (piecesWords a ps)) := by
  induction ps generalizing k v s with
  | nil => rfl
  | cons p ps ih =>
    have hi : (writeBack .dccm s (wordsOf (a + p.1) p.2)).inputs = s.inputs := by rw [writeBack_frame]
    rw [dccmLoadPieces, hq.head, ih _ _ _ (hq.tail hi), checkedByte_writeBack]
    rw [piecesWords, piecesWords, List.flatMap_cons, writeBack, writeBack, writeBack, List.foldl_append]
    rfl

/-- The pieces of an access touch its words, and write each back once. -/
theorem writeBack_piecesWords (m : Ccm) (s : State) (a : Nat) {n : Nat} (hn : n = 1 ∨ n = 2 ∨ n = 4) :
    writeBack m s (piecesWords a (cutAccess false a n)) = writeBack m s (wordsOf a n) := by
  unfold cutAccess piecesWords
  rw [if_neg Bool.false_ne_true]
  split_ifs with h1 h2 h3
  · simp
  · subst h2
    have h := wordsOf_one (a := a) (n := 1) (by omega) (by omega)
    have h' := wordsOf_one (a := a + 1) (n := 1) (by omega) (by omega)
    rcases Nat.lt_or_ge (a % 4) 3 with h3 | h3
    · simp [h, h', wordsOf_one (a := a) (n := 2) (by omega) (by omega), writeBack, writeBackWord_again,
        show (a + 1) / 4 = a / 4 by omega]
    · simp [h, h', wordsOf_two (a := a) (n := 2) (by omega) (by omega), writeBack, show (a + 1) / 4 = a / 4 + 1 by omega]
  all_goals obtain rfl : n = 4 := by rcases hn with rfl | rfl | rfl <;> omega
  · simp [wordsOf_one (a := a) (n := 2) (by omega) (by omega), wordsOf_one (a := a + 2) (n := 2) (by omega) (by omega),
      wordsOf_two (a := a) (n := 4) (by omega) (by omega), writeBack, show (a + 2) / 4 = a / 4 + 1 by omega]
  · have e1 := wordsOf_one (a := a) (n := 1) (by omega) (by omega)
    have e2 := wordsOf_one (a := a + 1) (n := 2) (by omega) (by omega)
    have e3 := wordsOf_one (a := a + 3) (n := 1) (by omega) (by omega)
    have e4 := wordsOf_two (a := a) (n := 4) (by omega) (by omega)
    have h5 : (a + 3) / 4 = a / 4 + 1 := by omega
    rcases show (a + 1) / 4 = a / 4 ∨ (a + 1) / 4 = a / 4 + 1 by omega with h6 | h6 <;>
      simp [e1, e2, e3, e4, h5, h6, writeBack, writeBackWord_again]

/-- A load from the DCCM that no uncorrectable error meets and no other agent disturbs (R185, R221). -/
theorem memLoad_dccm {s : State} {a : Word} {n : Nat} (hn : n = 1 ∨ n = 2 ∨ n = 4) (hd : WhollyInDccm s a n)
    (hf : anyFailed s (wordsOf a.toNat n) = false) (hu : Undisturbed s a n) :
    memLoad s a n = .done (assemble (checkedByte s (memByte s)) a.toNat n) (writeBack .dccm s (wordsOf a.toNat n)) := by
  rw [memLoad, classify_dccm hd]
  dsimp only
  rw [dccmLoad, hf, if_neg Bool.false_ne_true, dccmLoadPieces_quiet _ _ _ _ _ (hu.quiet rfl), piecesValue_cutAccess _ _ hn,
    writeBack_piecesWords _ _ _ hn]

/-- The pieces of a load complete, whatever happens between them. -/
theorem dccmLoadPieces_done (a k : Nat) (v : Word) (s : State) (ps : List (Nat × Nat)) :
    ∃ w, dccmLoadPieces a k v s ps = .done w (dccmLoadPieces a k v s ps).state := by
  induction ps generalizing k v s with
  | nil => exact ⟨v, rfl⟩
  | cons p ps ih => exact ih _ _ _

/-- What an undisturbed load from the DCCM does, as an instruction. -/
theorem dccmLoad_completes {s : State} {i : Instr} {l : LoadForm} (hl : loadForm s i = some l)
    (hd : WhollyInDccm s l.addr l.size) (hf : anyFailed s (wordsOf l.addr.toNat l.size) = false)
    (hu : Undisturbed s l.addr l.size) : GoesTo (exec i s) fun t =>
      WroteReg (writeBack .dccm s (wordsOf l.addr.toNat l.size)) t l.rd (loadedValue (checkedByte s (memByte s)) l)
        (s.pc + l.length) := by
  obtain ⟨k, short, he, hk, hlen, hv⟩ := exec_loadForm_value hl
  have hm := memLoad_dccm (hk ▸ k.size_cases) hd hf hu
  rw [← hk] at hm
  obtain ⟨t, ht, hw⟩ := finishLoad_done hm short l.rd
  rw [hk, hv, hlen, show (writeBack .dccm s (wordsOf l.addr.toNat l.size)).pc = s.pc by rw [writeBack_frame]] at hw
  exact ⟨t, he.trans ht, hw⟩

/-- Settles O20: sound words hold their data and are not written back; between pieces `AccessFrame` says what may happen. -/
theorem dccmLoads : Obligations.DccmLoads := by
  intro s i l hl hd hs
  have hf := anyFailed_sound hs
  refine ⟨fun hu => ?_, ?_⟩
  · obtain ⟨t, ht, hw⟩ := dccmLoad_completes hl hd hf hu
    rw [writeBack_sound _ _ _ hs] at hw
    have hv : loadedValue (checkedByte s (memByte s)) l = loadedValue (memByte s) l := by
      refine loadedValue_congr fun k hk => ?_
      rw [checkedByte, hs _ ((mem_wordsOf (Nat.zero_lt_of_lt hk)).mpr ⟨k, hk, rfl⟩)]
    exact ⟨t, ht, hv ▸ hw⟩
  · obtain ⟨k, short, he, hk, hlen, -⟩ := exec_loadForm_value hl
    obtain ⟨v, hm⟩ : ∃ v, memLoad s l.addr k.size = .done v (memLoad s l.addr k.size).state := by
      rw [memLoad, hk, classify_dccm hd]
      dsimp only
      rw [dccmLoad, hf, if_neg Bool.false_ne_true]
      exact dccmLoadPieces_done _ _ _ _ _
    obtain ⟨t, ht, hw⟩ := finishLoad_done hm short l.rd
    have hframe := (memLoad_keeps s l.addr k.size).frame
    rw [hframe.pc, hlen] at hw
    exact ⟨t, he.trans ht, _, _, hframe, hw⟩

/-- Settles O21: an uncorrectable error traps before any piece is read; else every word is written back once. -/
theorem dccmLoadErrors : Obligations.DccmLoadErrors := by
  intro s i l hl hd words
  refine ⟨fun hf => ?_, ?_⟩
  · obtain ⟨k, short, he, hk, -⟩ := exec_loadForm hl
    have hm : memLoad s l.addr k.size = .raises 5 s := by
      rw [memLoad, hk, classify_dccm hd]
      dsimp only
      rw [dccmLoad, if_pos hf]
    exact ⟨_, he.trans (finishLoad_raises hm short l.rd), takeException_spec s 5 l.addr⟩
  · intro hf hu
    have h := dccmLoad_completes hl hd hf hu
    rw [writeBack_eq .dccm s _ (wordsOf_nodup _ _)] at h
    exact h

/-! ## Stores to the DCCM (R184, R185, R221, R223) -/

/-- What an undisturbed store to the DCCM leaves: the bytes, with the spoilt ones of a word that is read and merged; the check
bits; and the count. -/
structure DccmStored (s : State) (a n : Nat) (v : Word) (whole : Bool) (t : State) : Prop where
  byte : ∀ b, memByte t b =
    if a ≤ b ∧ b < a + n then BitVec.ofNat 8 (v.toNat / 256 ^ (b - a))
    else if whole = false ∧ b / 4 ∈ wordsOf a n ∧ checkWord s (b / 4) = .spoilt then Config.corruptedByte s.stepNo b
    else memByte s b
  frame : t = { s with
    mem := t.mem, unfenced := t.unfenced, unfencedEcc := t.unfencedEcc
    ecc := soundAt
      ((wordsOf a n).filter fun w => whole || checkWord s w == .corrected || checkWord s w == .spoilt) s.ecc
    csr := { s.csr with
      mdccmect := countErrors (if whole then [] else correctedWords s (wordsOf a n)).length s.csr.mdccmect } }

/-- An aligned word is overwritten, check bits and all (R185, R223). -/
theorem dccmStored_whole (s : State) {a : Nat} (v : Word) (ha : a % 4 = 0) :
    DccmStored s a 4 v true (storeEcc (writeBytes storeByte s a 4 v) (a / 4) .good) where
  byte b := by
    show memByte (writeBytes storeByte s a 4 v) b = _
    rw [memByte_writeBytes memByte_storeByte, byteOf_eq]
    simp
  frame := by
    rw [wordsOf_one (by decide) (by omega), writeBytes_storeByte]
    simp [countErrors_zero, soundAt, storeEcc, setEcc]

/-- A smaller or a split store reads the words, merges its bytes into them and writes them back (R185, R221; log 6). -/
theorem Merged.stored {s t : State} {a n : Nat} {v : Word} (h : Merged s a v (wordsOf a n) n t) : DccmStored s a n v false t where
  byte b := by
    rw [h.byte, byteOf_eq]
    simp
  frame := by
    have hf := h.frame
    simpa [renewedWords, countMemory] using hf

/-- An undisturbed store to the DCCM that is not refused (R185). -/
theorem memStore_dccm {s : State} {a v : Word} {n : Nat} (hn : n = 1 ∨ n = 2 ∨ n = 4) (hd : WhollyInDccm s a n)
    (hw : wholeWord a n = true ∨ anyFailed s (wordsOf a.toNat n) = false) :
    ∃ t, memStore s a n v = .done 0 t ∧ AccessFrame s t ∧
      (Undisturbed s a n → DccmStored s a.toNat n v (wholeWord a n) t) := by
  have hk := (memStore_keeps s a n v).frame
  suffices h : ∃ t, memStore s a n v = .done 0 t ∧ (Undisturbed s a n → DccmStored s a.toNat n v (wholeWord a n) t) by
    obtain ⟨t, ht, hs⟩ := h
    rw [ht] at hk
    exact ⟨t, ht, hk, hs⟩
  rw [memStore, classify_dccm hd]
  dsimp only
  rw [dccmStore]
  cases hwhole : wholeWord a n
  · rw [hwhole] at hw
    rw [if_neg Bool.false_ne_true, hw.resolve_left Bool.false_ne_true, if_neg Bool.false_ne_true]
    exact ⟨_, rfl, fun hu => (dccmStorePieces_merged s a.toNat n v hn hu).stored⟩
  · rw [if_pos rfl]
    obtain ⟨rfl, ha⟩ := (wholeWord_iff a n).mp hwhole
    exact ⟨_, rfl, fun _ => dccmStored_whole s v ha⟩

/-- Settles O22: the store's access decides, and its instruction only retires. -/
theorem dccmStores : Obligations.DccmStores := by
  intro s i d hd hdccm whole words writes renewed corrected
  obtain ⟨short, he, hlen, hn⟩ := exec_storeForm hd
  refine ⟨fun hno => ?_, fun hw hu => ?_, fun hw => ?_⟩
  · obtain ⟨hwhole, hfail⟩ := not_or.mp hno
    have hm : memStore s d.addr d.size d.value = .raises 7 s := by
      rw [memStore, classify_dccm hdccm]
      dsimp only
      rw [dccmStore, if_neg hwhole, if_pos (Bool.of_not_eq_false hfail)]
    exact ⟨_, he.trans (finishStore_raises hm short), takeException_spec s 7 d.addr⟩
  · obtain ⟨u, hm, hf, hs⟩ := memStore_dccm hn hdccm hw (v := d.value)
    obtain ⟨hbyte, hframe⟩ := hs hu
    obtain ⟨t, ht, hret⟩ := finishStore_done hm short
    have hmem : t.mem = u.mem := by rw [hret.frame]
    refine ⟨t, he.trans ht, fun b => ?_, fun r => (hret.registers r).trans (reg_congr hf.regs r), ?_, ?_, ?_⟩
    · rw [← hbyte b]
      unfold memByte
      rw [hmem]
    · rw [hret.pc, hf.pc, hlen]
    · rw [hret.retired, hf.counters]
    · have h := hret.frame
      rw [hf.counters, hframe] at h
      rw [h]
  · obtain ⟨u, hm, hf, -⟩ := memStore_dccm hn hdccm hw (v := d.value)
    obtain ⟨t, ht, hret⟩ := finishStore_done hm short
    rw [hf.pc, hlen] at hret
    exact ⟨t, he.trans ht, u, hf, hret⟩

end Sys2Proof.Machine

/-! PROOFS. Accesses to the PIC's registers, and loads forwarded from the write buffer (R180, R204, R600, R602). -/

namespace Sys2Proof.Machine

/-! ## The PIC (R180, R600, R602) -/

/-- A register access to the PIC, and the retirement after it, change no register of the hart and no counter but those of retiring. -/
theorem Retires.afterPicStore {s t : State} {o : Nat} {v next : Word}
    (h : Retires (issuePicStore s o v) (issuePicStore s o v) t next) : Retires s (issuePicStore s o v) t next := by
  have hf := issuePicStore_frame s o v
  have hregs : (issuePicStore s o v).regs = s.regs := by rw [hf]
  have hcount : (issuePicStore s o v).counters = s.counters := by rw [hf]
  have hframe := h.frame
  rw [hcount] at hframe
  exact ⟨fun r => (h.registers r).trans (reg_congr hregs r), h.pc, by rw [h.retired, hcount], hframe⟩

/-- Settles O27: the class of the access is the PIC's, and the access is the register's. -/
theorem picAccesses : Obligations.PicAccesses := by
  refine ⟨fun s i l hl hp => ?_, fun s i d hd hp => ?_⟩
  · obtain ⟨k, short, he, hk, hlen⟩ := exec_loadForm hl
    have hm : memLoad s l.addr k.size = .done (loadPic s (l.addr.toNat - picBase s.cfg)) s := by
      rw [memLoad, hk, classify_pic hp]
    obtain rfl : k = .word := by
      have h4 : k.size = 4 := hk.trans hp.1
      cases k <;> first | rfl | cases h4
    obtain ⟨t, ht, hw⟩ := finishLoad_done hm short l.rd
    exact ⟨t, he.trans ht, hlen ▸ hw⟩
  · obtain ⟨short, he, hlen, -⟩ := exec_storeForm hd
    have hm : memStore s d.addr d.size d.value = .done 0 (issuePicStore s (d.addr.toNat - picBase s.cfg) d.value) := by
      rw [memStore, classify_pic hp]
    obtain ⟨t, ht, hret⟩ := finishStore_done hm short
    have hframe := issuePicStore_frame s (d.addr.toNat - picBase s.cfg) d.value
    have hpc : (issuePicStore s (d.addr.toNat - picBase s.cfg) d.value).pc = s.pc := by rw [hframe]
    have hmem : t.mem = s.mem := by rw [hret.frame, hframe]
    rw [hpc, hlen] at hret
    exact ⟨t, he.trans ht, hret.afterPicStore, fun b => by unfold memByte; rw [hmem]⟩

/-! ## Forwarding (R204) -/

/-- Where every byte is buffered the forwarded value is that of the bytes the hart sees. -/
theorem forwardedValue_eq {s : State} {a n : Nat} (hn : n = 1 ∨ n = 2 ∨ n = 4)
    (h : ∀ k < n, (bufferedStore s.wb (a + k)).isSome = true) : forwardedValue s.wb a n = assemble (dataByte s) a n := by
  refine assemble_congr hn fun k hk => ?_
  obtain ⟨st, hst⟩ := Option.isSome_iff_exists.mp (h k hk)
  unfold dataByte
  rw [hst]

/-- Settles O23: the load forwards, and is no transaction. -/
theorem busLoadsForward : Obligations.BusLoadsForward := by
  intro s i l hl hb hse hfwd
  obtain ⟨k, short, he, hk, hlen, hv⟩ := exec_loadForm_value hl
  have hall : forwards s.wb l.addr.toNat l.size = true := by
    rw [forwards, List.all_eq_true]
    intro j hj
    obtain ⟨st, hst, hside⟩ := hfwd j (List.mem_range.mp hj)
    rw [hst]
    exact congrArg Bool.not hside
  have hm : memLoad s l.addr k.size = .done (forwardedValue s.wb l.addr.toNat l.size) s := by
    rw [memLoad, hk, classify_bus hb, hse]
    dsimp only
    rw [busLoad, if_neg Bool.false_ne_true, if_pos hall]
  rw [forwardedValue_eq (hk ▸ k.size_cases) fun j hj => by
    obtain ⟨st, hst, -⟩ := hfwd j hj
    rw [hst]
    rfl] at hm
  obtain ⟨t, ht, hw⟩ := finishLoad_done hm short l.rd
  rw [hv, hlen] at hw
  exact ⟨t, he.trans ht, hw⟩

end Sys2Proof.Machine

/-! PROOFS. FENCE.I: the buffered stores are performed, and fetches see memory as it is (R191, R206, R440, R721 to R723). -/

namespace Sys2Proof.Machine

/-! ## Retiring after a fence -/

/-- A fence's retirement undoes nothing the fence has done. -/
theorem Fenced.retire {s u : State} (h : Fenced s u) (r : Retired) (next : Word) : Fenced s (retire u r next) := by
  rw [retire_frame]
  exact ⟨h.buffer, h.answered, h.performed, h.other, h.picQueue, h.pic, h.mrac⟩

theorem FetchFenced.retire {s u : State} (h : FetchFenced s u) (r : Retired) (next : Word) : FetchFenced s (retire u r next) := by
  rw [retire_frame]
  exact ⟨h.bytes, h.mrac, h.mfdc, h.tags, h.filled⟩

/-- That a FENCE.I has completed is recorded beside what it has done. -/
theorem Fenced.recorded {s u : State} (h : Fenced s u) : Fenced s (recordFenceI u) :=
  ⟨h.buffer, h.answered, h.performed, h.other, h.picQueue, h.pic, h.mrac⟩

theorem FetchFenced.recorded {s u : State} (h : FetchFenced s u) : FetchFenced s (recordFenceI u) :=
  ⟨h.bytes, h.mrac, h.mfdc, h.tags, h.filled⟩

/-! ## Fetching after a FENCE.I (R191, R440) -/

/-- With no line valid, two parcels of SoC memory are fetched as the fetch side sees them: the first may fill the line of the
second, and with it what the debugger wrote there is lost (R190). -/
theorem fetchParcel_twice {t : State} {p q : Word} (hp : SocParcel t p) (hq : SocParcel t q)
    (hb : t.cfg.icacheKb ∈ [16, 32, 64, 128, 256]) (hc : CleanICache t) :
    ∃ u v, fetchParcel t p = .parcel (parcelAt (fetchByte t) p) u ∧ fetchParcel u q = .parcel (parcelAt (fetchByte t) q) v := by
  obtain ⟨u, hu, ru⟩ := fetchParcel_clean hp hc
  have fu := ru.frame
  have hq' : SocParcel u q := by rw [fu]; exact hq
  have hby : fetchByte u = fetchByte t := by rw [fu]; rfl
  obtain ⟨v, hv, -⟩ := fetchParcel_clean hq' (ru.clean hb hc)
  exact ⟨u, v, hu, hby ▸ hv⟩

/-- Settles O33: the operation of FENCE.I is `fenceInstructions`, and what follows it retires. -/
theorem fenceISynchronises : Obligations.FenceISynchronises := by
  intro s imm rs1 rd
  obtain ⟨hfenced, hfetch⟩ := fenceInstructions_fenced s
  obtain ⟨hregs, hpc, hcount, hcsr, -, -⟩ := fenceInstructions_keepsHart s
  generalize hu : fenceInstructions s = u at hfenced hfetch hregs hpc hcount hcsr
  have hdue : u.fencesDue = s.fencesDue := by
    rw [← hu, fenceInstructions, (fenceData_spec s).2.2.2.2]
    rfl
  have hfetch' := hfetch.recorded.retire ⟨false, .fenceI, false⟩ (u.pc + 4)
  refine ⟨retire (recordFenceI u) ⟨false, .fenceI, false⟩ (u.pc + 4), by rw [← hu]; rfl, hfenced.recorded.retire _ _, hfetch',
    fun p q hp hq hb => ?_, ?_⟩
  · have hclean : CleanICache (retire (recordFenceI u) ⟨false, .fenceI, false⟩ (u.pc + 4)) := by
      refine ⟨?_, fun f hf => ?_⟩
      · rw [retire_frame, ← hu]
        rfl
      · rw [hfetch'.filled] at hf
        cases hf
    rw [← funext hfetch'.bytes]
    exact fetchParcel_twice hp hq hb hclean
  · rw [retire_frame]
    exact ⟨List.mem_cons_self, by rw [← hdue, ← hpc]; rfl, congrArg (· + 4) hpc, fun r => reg_congr hregs r,
      congrArg (·.minstret + 1) hcount, hcsr⟩

end Sys2Proof.Machine

/-! PROOFS. FENCE: the errors of the drain, and what is captured of them (R206, R207, R214, R215, R370). -/

namespace Sys2Proof.Machine

/-! ## One answer captured, or none (R215) -/

/-- The state once the answer has been captured. -/
def captured (s : State) (r : BusResponse) : State :=
  { s with
    csr := { s.csr with mdseac := capturedAddress s r }
    mdseacLocked := true
    dbusErr := some (if r.isLoad then .load else .store) }

/-- Answers reported at one moment: nothing is captured, because `mdseac` is locked or nothing failed, or one of the failed is. -/
theorem reportAnswers_cases (s : State) (batch : List BusResponse) :
    (s.mdseacLocked = true ∨ (∀ r ∈ batch, r.isError = false)) ∧ reportAnswers s batch = s ∨
      s.mdseacLocked = false ∧ ∃ r ∈ batch, r.isError = true ∧ reportAnswers s batch = captured s r := by
  cases hl : s.mdseacLocked
  · by_cases he : ∃ r ∈ batch, r.isError = true
    · obtain ⟨r, hm, hr, her, -⟩ := firstError_some he
      exact .inr ⟨rfl, r, hm, her, reportAnswers_captures hl hr⟩
    · have hn : ∀ r ∈ batch, r.isError = false := by simpa using he
      exact .inl ⟨.inr hn, by rw [reportAnswers, firstError_none hn]⟩
  · exact .inl ⟨.inl rfl, reportAnswers_locked s batch hl⟩

/-- Answers reported one after another capture one of the failed, or nothing, as those of one moment do. -/
theorem foldl_reportAnswers_cases (s : State) (batch : List BusResponse) :
    let t := batch.foldl (fun s r => reportAnswers s [r]) s
    (s.mdseacLocked = true ∨ (∀ r ∈ batch, r.isError = false)) ∧ t = s ∨
      s.mdseacLocked = false ∧ ∃ r ∈ batch, r.isError = true ∧ t = captured s r := by
  induction batch generalizing s with
  | nil => exact .inl ⟨.inr (by simp), rfl⟩
  | cons x rest ih =>
    simp only [List.foldl_cons, List.forall_mem_cons, List.exists_mem_cons_iff]
    rcases reportAnswers_cases s [x] with ⟨hx, he⟩ | ⟨hl, y, hy, hye, he⟩
    · rw [he]
      refine (ih s).imp (fun ⟨hn, h⟩ => ⟨?_, h⟩) fun ⟨hl, h⟩ => ⟨hl, .inr h⟩
      exact hx.elim .inl fun hx => hn.imp_right fun hn => ⟨hx x List.mem_cons_self, hn⟩
    · rw [List.mem_singleton] at hy
      subst hy
      rcases ih (reportAnswers s [y]) with ⟨-, h⟩ | ⟨hl', -⟩
      · exact .inr ⟨hl, .inl ⟨hye, h.trans he⟩⟩
      · rw [he] at hl'
        cases hl'

/-- All outstanding transactions answered: one of the failed is captured, or nothing. -/
theorem answerAll_cases (s : State) :
    (s.mdseacLocked = true ∨ (∀ r ∈ s.responses, r.isError = false)) ∧ answerAll s = { s with responses := [] } ∨
      s.mdseacLocked = false ∧ ∃ r ∈ s.responses, r.isError = true ∧ answerAll s = captured { s with responses := [] } r := by
  unfold answerAll
  dsimp only
  split_ifs with he ht
  · exact reportAnswers_cases { s with responses := [] } s.responses
  · exact foldl_reportAnswers_cases { s with responses := [] } s.responses
  · refine .inl ⟨.inr fun r hr => ?_, rfl⟩
    simpa using List.any_eq_false.mp (Bool.not_eq_true _ ▸ he) r hr

/-! ## A transaction of stores (R187, R201, R214) -/

/-- The oldest store leaves the buffer, with those coalesced into its transaction; the answer is outstanding. -/
def sendGroup (s : State) : State :=
  match s.wb with
  | [] => s
  | st :: rest =>
    let joined := rest.takeWhile (·.joined)
    let r := performGroup { s with wb := rest.dropWhile (·.joined) } (st :: joined)
    sendTransaction r.1 (groupResponse st joined r.2)

/-- Answers do not look at the buffer. -/
theorem answer_withWb (s : State) (n : Nat) (w : List BusStore) : answer { s with wb := w } n = { answer s n with wb := w } := by
  unfold answer reportAnswers
  dsimp only
  split
  · rfl
  · split <;> rfl

theorem waitForRoom_withWb (s : State) (w : List BusStore) : waitForRoom { s with wb := w } = { waitForRoom s with wb := w } := by
  by_cases h : s.responses.length < 255
  · rw [waitForRoom, waitForRoom, if_pos h, if_pos h]
  · rw [waitForRoom, waitForRoom, if_neg h, if_neg h, answer_withWb]

/-- A store is sent once there is room for its transaction; with `mfdc.sepd` it may be waited for. -/
theorem sendStore_eq (s : State) :
    sendStore s = s ∨ sendStore s = sendGroup (waitForRoom s) ∨ sendStore s = answerAll (sendGroup (waitForRoom s)) := by
  unfold sendStore sendGroup
  rw [waitForRoom_wb]
  cases s.wb with
  | nil => exact .inl rfl
  | cons st rest =>
    dsimp only
    rw [waitForRoom_withWb]
    split
    · exact .inr (.inr rfl)
    · exact .inr (.inl rfl)

/-- What the parts of a drain keep, the drain keeps. -/
theorem drain_induct {P : State → Prop} (hr : ∀ t, P t → P (waitForRoom t)) (hg : ∀ t, P t → P (sendGroup t))
    (ha : ∀ t, P t → P (answerAll t)) {s : State} (hs : P s) : P (answerAll (emptyBuffer s)) := by
  have hsend : ∀ t, P t → P (sendStore t) := fun t ht => by
    have h := hg _ (hr t ht)
    rcases sendStore_eq t with he | he | he <;> rw [he]
    · exact ht
    · exact h
    · exact ha _ h
  have hall : ∀ n t, P t → P (sendStores n t) := fun n => by
    induction n with
    | zero => exact fun _ ht => ht
    | succ n ih => exact fun t ht => ih _ (hsend t ht)
  exact ha _ (hall _ s hs)

/-- The error capture of `t` is that of `s`, and so are the other CSRs. -/
structure SameCapture (s t : State) : Prop where
  locked : t.mdseacLocked = s.mdseacLocked
  csr : t.csr = s.csr
  dbusErr : t.dbusErr = s.dbusErr

theorem SameCapture.refl (s : State) : SameCapture s s := ⟨rfl, rfl, rfl⟩

theorem SameCapture.trans {s t u : State} (h : SameCapture s t) (k : SameCapture t u) : SameCapture s u :=
  ⟨k.locked.trans h.locked, k.csr.trans h.csr, k.dbusErr.trans h.dbusErr⟩

/-- The SoC captures nothing when it performs a store. -/
theorem performStore_capture (s : State) (st : BusStore) : SameCapture s (performStore s st) := by
  have hbyte : ∀ whole t a b, SameCapture t (busWriteByte whole t a b) := fun whole t a b => by
    unfold busWriteByte
    split
    · split <;> exact ⟨rfl, rfl, rfl⟩
    all_goals exact .refl t
  have hheal : ∀ t, SameCapture t (healWord t st.addr) := fun t => by
    unfold healWord
    split
    · split <;> exact ⟨rfl, rfl, rfl⟩
    all_goals exact .refl t
  have hbytes := writeBytes_induct (P := SameCapture s) (fun t a b h => h.trans (hbyte (wholeWord st.addr st.size) t a b))
    s st.addr.toNat st.size st.data (.refl s)
  unfold performStore
  dsimp only
  rw [showStore_frame]
  split
  · exact (hbytes.trans (hheal _)).trans ⟨rfl, rfl, rfl⟩
  · exact hbytes.trans ⟨rfl, rfl, rfl⟩

theorem performGroup_capture (s : State) (g : List BusStore) : SameCapture s (performGroup s g).1 := by
  induction g generalizing s with
  | nil => exact .refl s
  | cons st rest ih => exact (performStore_capture s st).trans (ih _)

/-- A store with a byte that the SoC does not take fails, whatever memory holds (R183, R214). -/
theorem SocRejects.storeFails {s : State} {st : BusStore} (h : SocRejects s st) : storeFails s st = true := by
  obtain ⟨b, hb, hk⟩ := h
  refine List.any_eq_true.mpr ⟨b, hb, ?_⟩
  rcases hk with hk | hk <;> rw [writeFails, hk]

/-- Whether the SoC rejects a store is fixed by the build. -/
theorem SocRejects.congr {s t : State} {st : BusStore} (h : SocRejects s st) (hc : t.cfg = s.cfg) : SocRejects t st := by
  rw [SocRejects, hc]
  exact h

/-- The answer to a transaction is an error when the SoC rejects one of its stores. -/
theorem performGroup_rejects {s : State} {g : List BusStore} {st : BusStore} (hm : st ∈ g) (h : SocRejects s st) :
    (performGroup s g).2 = true := by
  induction g generalizing s with
  | nil => cases hm
  | cons x rest ih =>
    rw [performGroup, Bool.or_eq_true]
    rcases List.mem_cons.mp hm with rfl | hm
    · exact .inl h.storeFails
    · exact .inr (ih hm (h.congr (by rw [performStore_frame])))

/-- What sending a transaction of stores does to the buffer, the answers and the capture. -/
theorem sendGroup_spec {s : State} {st : BusStore} {rest : List BusStore} (hw : s.wb = st :: rest) :
    SameCapture s (sendGroup s) ∧ (sendGroup s).cfg = s.cfg ∧ (sendGroup s).wb = rest.dropWhile (·.joined) ∧
      ∃ r, (sendGroup s).responses = s.responses ++ [r] ∧ r.isLoad = false ∧
        ((∃ x ∈ st :: rest.takeWhile (·.joined), SocRejects s x) → r.isError = true) := by
  unfold sendGroup
  rw [hw]
  dsimp only
  generalize hu : { s with wb := rest.dropWhile (·.joined) } = u
  generalize hg : st :: rest.takeWhile (·.joined) = g
  have hcap := performGroup_capture u g
  obtain ⟨hwb, hresp⟩ := performGroup_queues u g
  have hcfg : (performGroup u g).1.cfg = u.cfg := by rw [performGroup_frame]
  have hrej : ∀ x ∈ g, SocRejects u x → (performGroup u g).2 = true := fun x hx h => performGroup_rejects hx h
  subst hu
  refine ⟨⟨hcap.locked, hcap.csr, hcap.dbusErr⟩, hcfg, hwb, _, congrArg (· ++ _) hresp, rfl, fun ⟨x, hx, h⟩ => hrej x hx h⟩

/-! ## Errors that are due (R207, R214, R215) -/

/-- A transaction outstanding has failed, or a buffered store will. -/
def ErrorDue (s : State) : Prop := (∃ r ∈ s.responses, r.isError = true) ∨ ∃ st ∈ s.wb, SocRejects s st

/-- An error is due, or has been captured; with `stores`, no load has failed, and it is a store's. -/
structure Reporting (stores : Prop) (s : State) : Prop where
  due : s.mdseacLocked = false → ErrorDue s
  kept : s.mdseacLocked = true → s.dbusErr.isSome = true ∧ (stores → s.dbusErr = some .store)
  loads : stores → ∀ r ∈ s.responses, r.isLoad = true → r.isError = false

section Reporting

variable {stores : Prop} {s : State} (h : Reporting stores s)
include h

/-- The capture of a failed transaction. -/
theorem Reporting.captured {r : BusResponse} (hr : r ∈ s.responses) (he : r.isError = true) (rs : List BusResponse)
    (hs : ∀ x ∈ rs, x ∈ s.responses) : Reporting stores (captured { s with responses := rs } r) where
  due hl := nomatch hl
  kept _ := ⟨rfl, fun hp => by
    have hl : r.isLoad = false := by
      by_contra hc
      rw [h.loads hp r hr (Bool.of_not_eq_false hc)] at he
      cases he
    show some (if r.isLoad then BusError.load else .store) = _
    rw [hl]
    rfl⟩
  loads hp x hx := h.loads hp x (hs x hx)

/-- Answers that are not captured, those of a locked capture or of a transaction that has not failed. -/
theorem Reporting.uncaptured {gone rs : List BusResponse} (hs : gone ++ rs = s.responses)
    (hn : s.mdseacLocked = true ∨ ∀ r ∈ gone, r.isError = false) : Reporting stores { s with responses := rs } where
  due hl := by
    have hn := hn.resolve_left (by rw [show s.mdseacLocked = false from hl]; exact Bool.false_ne_true)
    refine (h.due hl).imp (fun ⟨r, hr, he⟩ => ⟨r, ?_, he⟩) id
    rw [← hs, List.mem_append] at hr
    exact hr.resolve_left fun hg => by rw [hn r hg] at he; cases he
  kept := h.kept
  loads hp r hr := h.loads hp r (hs ▸ List.mem_append_right _ hr)

theorem Reporting.waitForRoom : Reporting stores (waitForRoom s) := by
  unfold Machine.waitForRoom
  split
  · exact h
  · generalize s.responses.length - 254 = n
    unfold answer
    rcases reportAnswers_cases { s with responses := s.responses.drop n } (s.responses.take n) with ⟨hn, e⟩ | ⟨-, r, hr, he, e⟩ <;>
      rw [e]
    · exact h.uncaptured (List.take_append_drop n _) hn
    · exact h.captured (List.mem_of_mem_take hr) he _ fun x hx => List.mem_of_mem_drop hx

theorem Reporting.answerAll : Reporting stores (answerAll s) := by
  rcases answerAll_cases s with ⟨hn, e⟩ | ⟨-, r, hr, he, e⟩ <;> rw [e]
  · exact h.uncaptured (List.append_nil _) hn
  · exact h.captured hr he [] (by simp)

theorem Reporting.sendGroup : Reporting stores (sendGroup s) := by
  cases hw : s.wb with
  | nil =>
    rw [Machine.sendGroup, hw]
    exact h
  | cons st rest =>
    obtain ⟨hc, hcfg, hwb, r, hr, hload, herr⟩ := sendGroup_spec hw
    refine ⟨fun hl => ?_, ?_, fun hp x hx hxl => ?_⟩
    · rcases h.due (hc.locked ▸ hl) with ⟨x, hx, hxe⟩ | ⟨x, hx, hxr⟩
      · exact .inl ⟨x, hr ▸ List.mem_append_left _ hx, hxe⟩
      · rw [hw, ← List.takeWhile_append_dropWhile (p := fun y : BusStore => y.joined) (l := rest), ← List.cons_append,
          List.mem_append] at hx
        rcases hx with hx | hx
        · exact .inl ⟨r, by rw [hr]; simp, herr ⟨x, hx, hxr⟩⟩
        · exact .inr ⟨x, hwb ▸ hx, hxr.congr hcfg⟩
    · rw [hc.locked, hc.dbusErr]
      exact h.kept
    · rw [hr, List.mem_append, List.mem_singleton] at hx
      rcases hx with hx | rfl
      · exact h.loads hp x hx hxl
      · rw [hload] at hxl
        cases hxl

/-- The drain reports an error that is due. -/
theorem Reporting.drained : (drainBus s).mdseacLocked = true ∧ (drainBus s).dbusErr.isSome = true ∧
    (stores → (drainBus s).dbusErr = some .store) := by
  have hd : Reporting stores (Machine.answerAll (emptyBuffer s)) :=
    drain_induct (fun _ ht => ht.waitForRoom) (fun _ ht => ht.sendGroup) (fun _ ht => ht.answerAll) h
  have hl : (Machine.answerAll (emptyBuffer s)).mdseacLocked = true := by
    by_contra hc
    rcases hd.due (Bool.not_eq_true _ ▸ hc) with ⟨r, hr, -⟩ | ⟨st, hst, -⟩
    · rw [answerAll_responses] at hr
      cases hr
    · rw [answerAll_wb, emptyBuffer_wb] at hst
      cases hst
  exact ⟨hl, hd.kept hl⟩

end Reporting

/-- While `mdseac` is locked the drain leaves the capture alone (R215). -/
theorem drainBus_locked {s : State} (h : s.mdseacLocked = true) : SameCapture s (drainBus s) := by
  have hd := drain_induct (P := fun t => SameCapture s t) (s := s) (fun t ht => ?_) (fun t ht => ?_) (fun t ht => ?_) (.refl s)
  · exact ⟨hd.locked, hd.csr, hd.dbusErr⟩
  · unfold waitForRoom
    split
    · exact ht
    · unfold answer
      rw [reportAnswers_locked _ _ (by exact ht.locked.trans h)]
      exact ht.trans ⟨rfl, rfl, rfl⟩
  · cases hw : t.wb with
    | nil =>
      rw [sendGroup, hw]
      exact ht
    | cons st rest => exact ht.trans (sendGroup_spec hw).1
  · rcases answerAll_cases t with ⟨-, e⟩ | ⟨hl, -⟩
    · rw [e]
      exact ht.trans ⟨rfl, rfl, rfl⟩
    · rw [ht.locked, h] at hl
      cases hl

/-- With nothing buffered the drain answers what is outstanding. -/
theorem drainBus_unbuffered {s : State} (h : s.wb = []) :
    drainBus s = { answerAll s with unfenced := [], unfencedEcc := [] } := by
  have he : emptyBuffer s = s := by rw [emptyBuffer, h]; rfl
  rw [drainBus, he]

/-- Settles O32: FENCE retires after `fenceData`, whose drain reports what is due. -/
theorem fenceDrains : Obligations.FenceDrains := by
  intro s fm pred succ rs1 rd
  obtain ⟨hregs, hpc, hcount, hcsr, -, -⟩ := fenceData_keepsHart s
  have hfence := (fenceData_fenced s).retire ⟨false, .fence, false⟩ ((fenceData s).pc + 4)
  obtain ⟨t, ht, hframe⟩ : ∃ t, t = retire (fenceData s) ⟨false, .fence, false⟩ ((fenceData s).pc + 4) ∧ t = { fenceData s with
      pc := (fenceData s).pc + 4
      counters := { (fenceData s).counters with minstret := (fenceData s).counters.minstret + 1, hpm := t.counters.hpm } } :=
    ⟨_, rfl, retire_frame _ _ _⟩
  have hlock : t.mdseacLocked = (drainBus s).mdseacLocked := by rw [hframe]; rfl
  have hdbus : t.dbusErr = (drainBus s).dbusErr := by rw [hframe]; rfl
  have htcsr : t.csr = (drainBus s).csr := by rw [hframe]; rfl
  refine ⟨t, by rw [ht]; rfl, ht ▸ hfence, ?_, fun r => ?_, ?_, ?_, ?_⟩
  · rw [hframe, hpc]
  · rw [ht, reg_retire]
    exact reg_congr hregs r
  · rw [hframe, hcount]
  · rw [htcsr]
    exact hcsr
  intro failed
  rw [hlock, hdbus, htcsr]
  refine ⟨fun hl => ?_, fun hw hn => ?_, fun hl he => ?_, fun hl hw he => ?_⟩
  · obtain ⟨h1, h2, h3⟩ := drainBus_locked hl
    exact ⟨h1.trans hl, h2, h3⟩
  · rw [drainBus_unbuffered hw]
    rcases answerAll_cases s with ⟨-, e⟩ | ⟨-, r, hr, he, -⟩
    · rw [e]
      exact ⟨rfl, rfl, rfl⟩
    · exact absurd ⟨r, hr, he⟩ hn
  · have h : Reporting (∀ r ∈ s.responses, r.isLoad = true → r.isError = false) s :=
      ⟨fun _ => he, fun hk => (by rw [hl] at hk; cases hk), id⟩
    exact h.drained
  · obtain ⟨x, hx, hxe⟩ := he
    rw [drainBus_unbuffered hw]
    rcases answerAll_cases s with ⟨hn, -⟩ | ⟨-, r, hr, hre, e⟩
    · rcases hn with hk | hn
      · rw [hl] at hk
        cases hk
      · rw [hn x hx] at hxe
        cases hxe
    · rw [e]
      refine ⟨fun hall => ?_, fun hpos => ?_⟩
      · show some (if r.isLoad then BusError.load else .store) = _
        rw [hall r hr hre]
        rfl
      · obtain ⟨k, hk, ha⟩ := capturedAddress_mem { s with responses := [] } (hpos r hr)
        exact ⟨r, hr, hre, k, hk, ha⟩

end Sys2Proof.Machine

/-! PROOFS. Loads of the system bus give the bytes as the hart sees them (R184, R186, R187, R203, R204, R206 to R208, R213). -/

namespace Sys2Proof.Machine

/-! ## One byte of SoC memory (R186, R204) -/

/-- SoC memory has the byte, in a word without an error mark. -/
structure CleanByte (s : State) (b : Nat) : Prop where
  lt : b < 2 ^ 32
  kind : busKind s.cfg (BitVec.ofNat 32 b) = .memory
  mark : cellGet s.ecc (b / 4) ≠ some .uncorrectable

theorem CleanByte.congr {s t : State} {b : Nat} (h : CleanByte s b) (hc : t.cfg = s.cfg) (he : t.ecc = s.ecc) : CleanByte t b :=
  ⟨h.lt, hc ▸ h.kind, he ▸ h.mark⟩

/-- The hart sees such a byte in `t` as in `s`, still without an error mark. -/
def KeepsByte (b : Nat) (s t : State) : Prop := CleanByte s b → CleanByte t b ∧ dataByte t b = dataByte s b

theorem KeepsByte.refl (b : Nat) (s : State) : KeepsByte b s s := fun h => ⟨h, rfl⟩

theorem KeepsByte.trans {b : Nat} {s t u : State} (h : KeepsByte b s t) (k : KeepsByte b t u) : KeepsByte b s u := fun hs =>
  have ht := h hs
  have hu := k ht.1
  ⟨hu.1, hu.2.trans ht.2⟩

theorem KeepsByte.of_eq {b : Nat} {s t : State} (hc : t.cfg = s.cfg) (he : t.ecc = s.ecc) (hm : t.mem = s.mem)
    (hw : t.wb = s.wb) : KeepsByte b s t := fun h => ⟨h.congr hc he, dataByte_congr hw hm b⟩

/-- What a store leaves of the byte: its own byte, or the byte as it was. -/
structure StoresByte (b : Nat) (s t : State) (new : Option Byte) : Prop where
  clean : CleanByte t b
  byte : memByte t b = new.getD (memByte s b)

/-- A byte without an error mark in the way is written (R186). -/
theorem busWriteByte_clean {s : State} {b : Nat} (h : CleanByte s b) (whole : Bool) (a : Nat) (v : Byte) :
    StoresByte b s (busWriteByte whole s a v) (if b = a then some v else none) := by
  obtain ⟨hlt, hk, hm⟩ := h
  by_cases hb : b = a
  · subst hb
    have hf : writeFails s whole (BitVec.ofNat 32 b) = false := by
      have hn : (BitVec.ofNat 32 b).toNat = b := by rw [BitVec.toNat_ofNat, Nat.mod_eq_of_lt hlt]
      rw [writeFails, hk, hn]
      simp [socFailed, hm]
    rw [busWriteByte, hk, hf, if_pos rfl]
    exact ⟨⟨hlt, hk, hm⟩, by rw [if_neg Bool.false_ne_true, memByte_storeFetchableByte, if_pos rfl]; rfl⟩
  · rw [if_neg hb]
    unfold busWriteByte
    split
    · split
      · exact ⟨⟨hlt, hk, hm⟩, rfl⟩
      · exact ⟨⟨hlt, hk, hm⟩, by rw [memByte_storeFetchableByte, if_neg hb]; rfl⟩
    all_goals exact ⟨⟨hlt, hk, hm⟩, rfl⟩

theorem writeBytes_clean {s : State} {b : Nat} (h : CleanByte s b) (whole : Bool) (a n : Nat) (v : Word) :
    StoresByte b s (writeBytes (busWriteByte whole) s a n v) (if a ≤ b ∧ b < a + n then some (byteOf v (b - a)) else none) := by
  induction n with
  | zero => exact ⟨h, by rw [if_neg (by omega)]; rfl⟩
  | succ n ih =>
    obtain ⟨hc, hb⟩ := busWriteByte_clean ih.clean whole (a + n) (byteOf v n)
    rw [writeBytes_succ]
    refine ⟨hc, hb.trans ?_⟩
    rw [ih.byte]
    split_ifs with h1 h2 h3 <;> first | rfl | omega | skip
    rw [h1, Nat.add_sub_cancel_left]
    rfl

/-- Healing a word puts no error mark on it, and no byte changes. -/
theorem healWord_clean {s : State} {b : Nat} (h : CleanByte s b) (a : Word) : StoresByte b s (healWord s a) none := by
  unfold healWord
  split
  · split
    · refine ⟨⟨h.lt, h.kind, ?_⟩, rfl⟩
      simp only [storeEcc, setEcc, cellGet_cellSet]
      split
      · simp
      · exact h.mark
    · exact ⟨h, rfl⟩
  all_goals exact ⟨h, rfl⟩

/-- The SoC performs a store. -/
theorem performStore_clean {s : State} {b : Nat} (h : CleanByte s b) (st : BusStore) :
    StoresByte b s (performStore s st)
      (if st.addr.toNat ≤ b ∧ b < st.addr.toNat + st.size then some (st.byteAt b) else none) := by
  have hw := writeBytes_clean h (wholeWord st.addr st.size) st.addr.toNat st.size st.data
  unfold performStore
  dsimp only
  rw [showStore_frame]
  split
  · have hh := healWord_clean hw.clean st.addr
    exact ⟨hh.clean.congr rfl rfl, hh.byte.trans hw.byte⟩
  · exact ⟨hw.clean.congr rfl rfl, hw.byte⟩

/-- A transaction's stores leave the newest one's byte. -/
theorem performGroup_clean {s : State} {b : Nat} (h : CleanByte s b) (g : List BusStore) :
    StoresByte b s (performGroup s g).1 ((bufferedStore g b).map (·.byteAt b)) := by
  induction g generalizing s with
  | nil => exact ⟨h, rfl⟩
  | cons st rest ih =>
    have hst := performStore_clean h st
    obtain ⟨hc, hb⟩ := ih hst.clean
    refine ⟨hc, hb.trans ?_⟩
    rw [hst.byte, bufferedStore]
    cases bufferedStore rest b with
    | some x => rfl
    | none =>
      simp only [Bool.and_eq_true, decide_eq_true_eq]
      split <;> rfl

theorem sendGroup_keepsByte (b : Nat) (s : State) : KeepsByte b s (sendGroup s) := by
  unfold sendGroup
  cases hw : s.wb with
  | nil => exact .refl b s
  | cons st rest =>
    intro h
    dsimp only
    obtain ⟨hc, hb⟩ := performGroup_clean (s := { s with wb := rest.dropWhile (·.joined) }) (h.congr rfl rfl)
      (st :: rest.takeWhile (·.joined))
    obtain ⟨hwb, -⟩ := performGroup_queues { s with wb := rest.dropWhile (·.joined) } (st :: rest.takeWhile (·.joined))
    refine ⟨hc.congr rfl rfl, ?_⟩
    have hl : s.wb = (st :: rest.takeWhile (·.joined)) ++ rest.dropWhile (·.joined) := by
      rw [hw, List.cons_append, List.takeWhile_append_dropWhile]
    unfold dataByte
    rw [hl, bufferedStore_append]
    dsimp only [sendTransaction]
    rw [hwb]
    cases bufferedStore (rest.dropWhile (·.joined)) b with
    | some x => rfl
    | none =>
      rw [Option.none_or]
      refine Eq.trans hb ?_
      cases bufferedStore (st :: rest.takeWhile (·.joined)) b <;> rfl

/-- A store sent leaves the byte as the hart saw it (R204, R209). -/
theorem sendStore_keepsByte (b : Nat) (s : State) : KeepsByte b s (sendStore s) := by
  have hr : KeepsByte b s (waitForRoom s) := .of_eq (by rw [waitForRoom_frame]) (by simp) (by simp) (by simp)
  have hg := hr.trans (sendGroup_keepsByte b (waitForRoom s))
  rcases sendStore_eq s with he | he | he <;> rw [he]
  · exact .refl b s
  · exact hg
  · exact hg.trans (.of_eq (by rw [answerAll_frame]) (by simp) (by simp) (by simp))

theorem emptyBuffer_keepsByte (b : Nat) (s : State) : KeepsByte b s (emptyBuffer s) := by
  have h : ∀ n t, KeepsByte b t (sendStores n t) := fun n => by
    induction n with
    | zero => exact fun t => .refl b t
    | succ n ih => exact fun t => (sendStore_keepsByte b t).trans (ih _)
  exact h _ s

theorem awaitSideEffects_keepsByte (b : Nat) (s : State) : KeepsByte b s (awaitSideEffects s) :=
  awaitSideEffects_induct (P := KeepsByte b s) (fun t h => h.trans (sendStore_keepsByte b t)) s (.refl b s)

end Sys2Proof.Machine

/-! PROOFS. What a load of SoC memory leaves: its value, the write buffer, and the transactions outstanding (R203, R204, R207, R208). -/

namespace Sys2Proof.Machine

/-! ## Reads that meet no error (R187, R212) -/

/-- An address in its aligned double-word. -/
theorem toNat_and_doubleWord (x : Word) : (x &&& ~~~7#32).toNat = x.toNat / 8 * 8 := by
  have h : x &&& ~~~7#32 = (x >>> 3) <<< 3 := by
    refine BitVec.eq_of_getLsbD_eq fun i hi => ?_
    simp only [BitVec.getLsbD_and, BitVec.getLsbD_shiftLeft, BitVec.getLsbD_ushiftRight]
    interval_cases i <;> simp
  have hx := x.isLt
  rw [h, BitVec.toNat_shiftLeft, BitVec.toNat_ushiftRight, Nat.shiftLeft_eq, Nat.shiftRight_eq_div_pow,
    Nat.mod_eq_of_lt (by omega)]

/-- Memory has all a read asks for or sees beside it, without an error mark. -/
structure SoundRead (s : State) (r : BusRead) : Prop where
  fits : r.addr.toNat + r.size ≤ 2 ^ 32
  asked : ∀ k < r.size, CleanByte s (r.addr.toNat + k)
  seen : ∀ b ∈ accessBytes (readSeen r.addr r.size r.sideEffect).addr (readSeen r.addr r.size r.sideEffect).size,
    CleanByte s b.toNat

theorem SoundRead.congr {s t : State} {r : BusRead} (h : SoundRead s r) (hc : t.cfg = s.cfg) (he : t.ecc = s.ecc) : SoundRead t r :=
  ⟨h.fits, fun k hk => (h.asked k hk).congr hc he, fun b hb => (h.seen b hb).congr hc he⟩

/-- A byte of an access that does not wrap. -/
theorem toNat_add_ofNat {a : Word} {k n : Nat} (h : a.toNat + n ≤ 2 ^ 32) (hk : k < n) :
    (a + BitVec.ofNat 32 k).toNat = a.toNat + k := by
  rw [BitVec.toNat_add, BitVec.toNat_ofNat]
  omega

theorem CleanByte.readFails {s : State} {b : Word} (h : CleanByte s b.toNat) : readFails s b = false := by
  obtain ⟨-, hk, hm⟩ := h
  rw [BitVec.ofNat_toNat, BitVec.setWidth_eq] at hk
  rw [Machine.readFails, hk]
  simp [socFailed, hm]

theorem CleanByte.busReadByte {s : State} {b : Nat} (h : CleanByte s b) : busReadByte s b = memByte s b := by
  rw [Machine.busReadByte, h.kind]

theorem SoundRead.isError {s : State} {r : BusRead} (h : SoundRead s r) : (readAnswer s r).isError = false := by
  refine readErrs_sound (fun b hb => ?_) fun b hb => (h.seen b hb).readFails
  obtain ⟨k, hk, rfl⟩ := List.mem_map.mp hb
  have hk := List.mem_range.mp hk
  exact CleanByte.readFails (toNat_add_ofNat h.fits hk ▸ h.asked k hk)

/-- A read that meets no error is answered with memory's bytes; an answer waited for before it does not matter (R207). -/
theorem loadTransaction_done {s : State} {r : BusRead} (h : SoundRead s r) (hn : r.size = 1 ∨ r.size = 2 ∨ r.size = 4)
    (blocking : Bool) : loadTransaction s r blocking =
      .done (assemble (memByte s) r.addr.toNat r.size) (loadTransaction s r blocking).state := by
  have hr : SoundRead (waitForRoom s) r := h.congr (by rw [waitForRoom_frame]) (by simp)
  have hv : assemble (busReadByte (waitForRoom s)) r.addr.toNat r.size = assemble (memByte s) r.addr.toNat r.size :=
    assemble_congr hn fun k hk => by
      rw [(hr.asked k hk).busReadByte, memByte, memByte, waitForRoom_mem]
  have he : readErrs (waitForRoom s) (accessBytes r.addr r.size)
      (accessBytes (readSeen r.addr r.size r.sideEffect).addr (readSeen r.addr r.size r.sideEffect).size) = false := hr.isError
  unfold loadTransaction
  dsimp only
  rw [he, hv]
  cases blocking <;> rfl

/-! ## Cut loads (R184, R187) -/

/-- With room on the bus a blocking load leaves nothing outstanding, however it ends; devices may have seen it. -/
theorem busLoadPieces_blocking (a : Word) (part : Bool) (k : Nat) (v : Word) (lost : Bool) (s : State) (ps : List (Nat × Nat))
    (hroom : s.responses.length < 255) (hq : Quiet s k ps.length) :
    ∃ d, (busLoadPieces a part true k v lost s ps).state = { s with deviceTrace := d } := by
  induction ps generalizing k v lost s with
  | nil =>
    refine ⟨s.deviceTrace, ?_⟩
    unfold busLoadPieces
    split <;> rfl
  | cons p ps ih =>
    obtain ⟨d, w, hl⟩ := loadTransaction_blocking hroom (pieceRead a part p)
    rw [pieceRead] at hl
    unfold busLoadPieces
    rw [hq.head, hl]
    split_ifs
    · exact ⟨d, rfl⟩
    · exact ih _ _ _ { s with deviceTrace := d } hroom (hq.tail rfl)

/-- Memory has the double-words of the access, without an error mark. -/
def SoundDoubles (s : State) (a : Word) (n : Nat) : Prop :=
  ∀ b, b / 8 = a.toNat / 8 ∨ b / 8 = (a.toNat + (n - 1)) / 8 → CleanByte s b

section Cut

variable {s : State} {a : Word} {n : Nat} (hn : n = 1 ∨ n = 2 ∨ n = 4) (ha : a.toNat + n ≤ 2 ^ 32)
include hn ha

omit ha in
/-- The bytes of the access are in its double-words. -/
theorem SoundDoubles.byte (h : SoundDoubles s a n) {k : Nat} (hk : k < n) : CleanByte s (a.toNat + k) := h _ (by omega)

theorem SoundDoubles.whole (h : SoundDoubles s a n) : SoundRead s ⟨a, n, true, false⟩ := by
  refine ⟨ha, fun k hk => h.byte hn hk, fun b hb => ?_⟩
  obtain ⟨k, hk, rfl⟩ := List.mem_map.mp hb
  have hk := List.mem_range.mp hk
  exact toNat_add_ofNat ha hk ▸ h.byte hn hk

theorem SoundDoubles.piece (h : SoundDoubles s a n) (part : Bool) {p : Nat × Nat} (hp : p ∈ cutAccess false a.toNat n) :
    SoundRead s (pieceRead a part p) := by
  obtain ⟨h1, h2⟩ := cutAccess_within hn hp
  have haddr : (a + BitVec.ofNat 32 p.1).toNat = a.toNat + p.1 := toNat_add_ofNat ha h1
  refine ⟨?_, fun k hk => ?_, fun b hb => ?_⟩
  · show (a + BitVec.ofNat 32 p.1).toNat + p.2 ≤ _
    omega
  · show CleanByte s ((a + BitVec.ofNat 32 p.1).toNat + k)
    have hk : k < p.2 := hk
    rw [haddr, Nat.add_assoc]
    exact h.byte hn (by omega)
  · obtain ⟨k, hk, rfl⟩ := List.mem_map.mp hb
    have hk : k < 8 := List.mem_range.mp hk
    have hd : ((a + BitVec.ofNat 32 p.1) &&& ~~~7#32).toNat = (a.toNat + p.1) / 8 * 8 := by
      rw [toNat_and_doubleWord, haddr]
    show CleanByte s (((a + BitVec.ofNat 32 p.1) &&& ~~~7#32) + BitVec.ofNat 32 k).toNat
    rw [toNat_add_ofNat (n := 8) (by omega) hk, hd]
    exact h _ (by omega)

omit hn in
/-- Undisturbed pieces that meet no error give memory's bytes, and leave memory and buffer as they are. -/
theorem busLoadPieces_done (part blocking : Bool) (k : Nat) (v : Word) (t : State) (ps : List (Nat × Nat))
    (hq : Quiet t k ps.length) (hp : ∀ p ∈ ps, p.1 < n ∧ (p.2 = 1 ∨ p.2 = 2 ∨ p.2 = 4) ∧ SoundRead t (pieceRead a part p)) :
    ∃ u, busLoadPieces a part blocking k v false t ps = .done (piecesValue (memByte t) a.toNat v ps) u ∧
      u.mem = t.mem ∧ u.wb = t.wb := by
  induction ps generalizing k v t with
  | nil => exact ⟨t, by rw [busLoadPieces, if_neg Bool.false_ne_true]; rfl, rfl, rfl⟩
  | cons p ps ih =>
    obtain ⟨⟨h1, h2, h3⟩, hrest⟩ := List.forall_mem_cons.mp hp
    have hd := loadTransaction_done h3 h2 blocking
    obtain ⟨hf, hm, he, hw, -⟩ := loadTransaction_spec t (pieceRead a part p) blocking
    generalize (loadTransaction t (pieceRead a part p) blocking).state = w at hd hf hm he hw
    have haddr : (pieceRead a part p).addr.toNat = a.toNat + p.1 := toNat_add_ofNat ha h1
    rw [haddr, pieceRead] at hd
    have hmem : memByte w = memByte t := by unfold memByte; rw [hm]
    obtain ⟨u, hu, hum, huw⟩ := ih (k + 1) (v ||| assemble (memByte t) (a.toNat + p.1) p.2 <<< (8 * p.1)) w (hq.tail hf.inputs)
      fun q hq' => ⟨(hrest q hq').1, (hrest q hq').2.1, (hrest q hq').2.2.congr (by rw [hf]) he⟩
    refine ⟨u, ?_, hum.trans hm, huw.trans hw⟩
    rw [busLoadPieces, hq.head, hd]
    rw [hmem] at hu
    exact hu

omit ha in
theorem cutAccess_size {p : Nat × Nat} (hp : p ∈ cutAccess false a.toNat n) : p.2 = 1 ∨ p.2 = 2 ∨ p.2 = 4 := by
  unfold cutAccess at hp
  rw [if_neg Bool.false_ne_true] at hp
  split_ifs at hp <;> simp only [List.mem_cons, List.not_mem_nil, or_false] at hp
  · subst hp; exact hn
  · rcases hp with rfl | rfl <;> simp
  · rcases hp with rfl | rfl <;> simp
  · rcases hp with rfl | rfl | rfl <;> simp

/-- An undisturbed idempotent load that meets no error gives memory's bytes, and leaves memory and buffer as they are. -/
theorem idempotentLoad_done (h : SoundDoubles s a n) (hq : Quiet s 0 (cutAccess false a.toNat n).length) :
    ∃ u, idempotentLoad s a n = .done (assemble (memByte s) a.toNat n) u ∧ u.mem = s.mem ∧ u.wb = s.wb := by
  have hp := busLoadPieces_done ha (a.toNat % n != 0) (blockingLoad s false) 0 0 s (cutAccess false a.toNat n) hq fun p hp =>
    ⟨(cutAccess_within hn hp).1, cutAccess_size hn hp, h.piece hn ha _ hp⟩
  rwa [piecesValue_cutAccess _ _ hn] at hp

/-- Such a load with room on the bus leaves its answers outstanding, or none if it blocks; devices may have seen it. -/
theorem idempotentLoad_sent (h : SoundDoubles s a n) (hq : Quiet s 0 (cutAccess false a.toNat n).length)
    (hroom : s.responses.length < 253) : ∃ d, (idempotentLoad s a n).state = { s with
      responses := s.responses ++ if blockingLoad s false then [] else (cutAccess false a.toNat n).map fun p =>
        ⟨a + BitVec.ofNat 32 p.1, p.2, true, false, a.toNat % n != 0⟩
      deviceTrace := d } := by
  have hlen : (cutAccess false a.toNat n).length ≤ 3 := by
    unfold cutAccess
    rw [if_neg Bool.false_ne_true]
    split_ifs <;> simp
  unfold idempotentLoad
  cases blockingLoad s false
  · obtain ⟨-, d, hs⟩ := busLoadPieces_sent a (a.toNat % n != 0) 0 0 false s _ (by omega) hq
    refine ⟨d, hs.trans ?_⟩
    have hmap : (cutAccess false a.toNat n).map (fun p => readAnswer s (pieceRead a (a.toNat % n != 0) p)) =
        (cutAccess false a.toNat n).map fun p => ⟨a + BitVec.ofNat 32 p.1, p.2, true, false, a.toNat % n != 0⟩ :=
      List.map_congr_left fun p hp => congrArg (fun e => BusResponse.mk (a + BitVec.ofNat 32 p.1) p.2 true e (a.toNat % n != 0))
        (h.piece hn ha (a.toNat % n != 0) hp).isError
    rw [hmap, if_neg Bool.false_ne_true]
  · obtain ⟨d, hs⟩ := busLoadPieces_blocking a (a.toNat % n != 0) 0 0 false s _ (by omega) hq
    exact ⟨d, by rw [hs, if_pos rfl, List.append_nil]⟩

end Cut

/-! ## Loads and the write buffer (R203, R204) -/

/-- The load waits until the buffer is empty: it has side effects, or the buffer holds it in part. -/
def EmptiesBuffer (s : State) (a n : Nat) (se : Bool) : Prop :=
  se = true ∨ forwards s.wb a n = false ∧ overlapsBuffer s.wb a n = true

/-- The load waits for the side-effect stores of the buffer. -/
def AwaitsStores (s : State) (a n : Nat) (se : Bool) : Prop :=
  se = false ∧ overlapsBuffer s.wb a n = false ∧ sideEffectStoresBlock s = true ∧ s.wb.any (·.sideEffect) = true

/-- Where nothing is buffered of an access, memory has what the hart sees of it. -/
theorem assemble_unbuffered {s t : State} {a n : Nat} (hn : n = 1 ∨ n = 2 ∨ n = 4) (hc : ∀ k < n, CleanByte s (a + k))
    (hk : ∀ b, KeepsByte b s t) (hb : ∀ k < n, bufferedStore t.wb (a + k) = none) :
    assemble (memByte t) a n = assemble (dataByte s) a n :=
  assemble_congr hn fun k hkn => by
    rw [← ((hk (a + k)) (hc k hkn)).2, dataByte, hb k hkn]

theorem SoundDoubles.kept {s t : State} {a : Word} {n : Nat} (h : SoundDoubles s a n) (hk : ∀ b, KeepsByte b s t) :
    SoundDoubles t a n := fun b hb => (hk b (h b hb)).1

/-- A byte that no store of the buffer holds, none holds after some have been sent. -/
theorem awaitSideEffects_unbuffered {s : State} {b : Nat} (h : bufferedStore s.wb b = none) :
    bufferedStore (awaitSideEffects s).wb b = none := by
  have hsub : ∀ st ∈ (awaitSideEffects s).wb, st ∈ s.wb :=
    awaitSideEffects_induct (P := fun t => ∀ st ∈ t.wb, st ∈ s.wb) (fun t ht st hst => by
      rw [sendStore_wb] at hst
      exact ht st (List.mem_of_mem_tail ((List.dropWhile_sublist _).subset hst))) s fun _ => id
  rw [Option.eq_none_iff_forall_ne_some]
  intro x hx
  obtain ⟨hm, hholds⟩ := bufferedStore_some hx
  have := bufferedStore_isSome (hsub x hm) hholds
  rw [h] at this
  cases this

/-- What waiting for the side-effect stores leaves in the buffer (R204; log 38). -/
theorem awaitSideEffects_younger {s : State} (hb : sideEffectStoresBlock s = true) (h : s.wb.any (·.sideEffect) = true) :
    (awaitSideEffects s).wb = youngerStores s.wb := by
  rw [awaitSideEffects, if_pos hb]
  exact sendSideEffects_younger _ s le_rfl h

/-- An undisturbed load that meets no error gives the bytes as the hart sees them; what it leaves in the buffer (R203, R204). -/
theorem busLoad_done {s : State} {a : Word} {n : Nat} (hn : n = 1 ∨ n = 2 ∨ n = 4) (ha : a.toNat + n ≤ 2 ^ 32)
    (h : SoundDoubles s a n) (hu : Undisturbed s a n) (se : Bool) :
    ∃ u, busLoad s a n se = .done (assemble (dataByte s) a.toNat n) u ∧
      (EmptiesBuffer s a.toNat n se → u.wb = []) ∧ (AwaitsStores s a.toNat n se → u.wb = youngerStores s.wb) ∧
      (¬EmptiesBuffer s a.toNat n se → ¬AwaitsStores s a.toNat n se → u.mem = s.mem ∧ u.wb = s.wb) := by
  have hbytes : ∀ k < n, CleanByte s (a.toNat + k) := fun k hk => h.byte hn hk
  have hempty : assemble (memByte (emptyBuffer s)) a.toNat n = assemble (dataByte s) a.toNat n :=
    assemble_unbuffered hn hbytes (fun b => emptyBuffer_keepsByte b s) fun k _ => by rw [emptyBuffer_wb]; rfl
  have hsound := h.kept fun b => emptyBuffer_keepsByte b s
  unfold busLoad
  cases se
  case true =>
    rw [if_pos rfl, loadTransaction_done (hsound.whole hn ha) hn true]
    dsimp only
    rw [hempty]
    refine ⟨_, rfl, fun _ => ?_, fun hw => (nomatch hw.1), fun he => absurd (.inl rfl) he⟩
    rw [(loadTransaction_spec _ _ _).2.2.2.1, emptyBuffer_wb]
  rw [if_neg Bool.false_ne_true]
  cases hf : forwards s.wb a.toNat n
  case true =>
    have hall : ∀ k < n, (bufferedStore s.wb (a.toNat + k)).isSome = true := fun k hk => by
      have := List.all_eq_true.mp hf k (List.mem_range.mpr hk)
      split at this
      · next st hst => rw [hst]; rfl
      · cases this
    have hov : overlapsBuffer s.wb a.toNat n = true :=
      List.any_eq_true.mpr ⟨0, List.mem_range.mpr (by omega), hall 0 (by omega)⟩
    rw [if_pos rfl, forwardedValue_eq hn hall]
    refine ⟨s, rfl, fun he => ?_, fun hw => ?_, fun _ _ => ⟨rfl, rfl⟩⟩
    · rcases he with he | ⟨he, -⟩
      · cases he
      · rw [hf] at he
        cases he
    · rw [AwaitsStores, hov] at hw
      cases hw.2.1
  rw [if_neg Bool.false_ne_true]
  cases hov : overlapsBuffer s.wb a.toNat n
  case true =>
    obtain ⟨u, hl, -, hw⟩ := idempotentLoad_done hn ha hsound (hu.quiet (emptyBuffer_frame s).inputs)
    rw [if_pos rfl, hl, hempty]
    refine ⟨u, rfl, fun _ => hw.trans (emptyBuffer_wb s), fun hw => ?_, fun he => absurd (.inr ⟨hf, hov⟩) he⟩
    rw [AwaitsStores, hov] at hw
    cases hw.2.1
  have hnone : ∀ k < n, bufferedStore s.wb (a.toNat + k) = none := fun k hk => by
    simpa using List.any_eq_false.mp hov k (List.mem_range.mpr hk)
  have hkeep := fun b => awaitSideEffects_keepsByte b s
  obtain ⟨u, hl, hm, hw⟩ := idempotentLoad_done hn ha (h.kept hkeep) (hu.quiet (awaitSideEffects_frame s).inputs)
  rw [if_neg Bool.false_ne_true, hl,
    assemble_unbuffered hn hbytes hkeep fun k hk => awaitSideEffects_unbuffered (hnone k hk)]
  refine ⟨u, rfl, fun he => ?_, fun ⟨_, _, hb, hse⟩ => hw.trans (awaitSideEffects_younger hb hse), fun _ hno => ?_⟩
  · rcases he with he | ⟨-, he⟩
    · cases he
    · rw [hov] at he
      cases he
  · have hidle : awaitSideEffects s = s := by
      refine awaitSideEffects_idle ?_
      by_contra hc
      obtain ⟨hb, hse⟩ := not_or.mp hc
      exact hno ⟨rfl, hov, Bool.of_not_eq_false hb, Bool.of_not_eq_false hse⟩
    rw [hidle] at hm hw
    exact ⟨hm, hw⟩

/-- Settles O24: the load's access decides, and its instruction writes what it gives. -/
theorem busLoadsFromMemory : Obligations.BusLoadsFromMemory := by
  intro s i l hl hb hu hmem sideEffect value overlaps emptied waits
  obtain ⟨k, short, he, hk, hlen, hv⟩ := exec_loadForm_value hl
  have hn : l.size = 1 ∨ l.size = 2 ∨ l.size = 4 := hk ▸ k.size_cases
  have ha := toNat_add_le_of_region hn hb.1
  have hsound : SoundDoubles s l.addr l.size := fun b hb8 => by
    have hlt : b < 2 ^ 32 := by omega
    have hbn : (BitVec.ofNat 32 b).toNat = b := by rw [BitVec.toNat_ofNat, Nat.mod_eq_of_lt hlt]
    have hlast : (lastByte l.addr l.size).toNat = l.addr.toNat + (l.size - 1) := toNat_add_ofNat ha (by omega)
    obtain ⟨hkind, hfail⟩ := hmem (BitVec.ofNat 32 b) (by rw [hbn, hlast]; exact hb8)
    refine ⟨hlt, hkind, fun hmark => ?_⟩
    rw [readFails, hkind, hbn] at hfail
    simp [socFailed, hmark] at hfail
  obtain ⟨u, hload, hempty, hyoung, hsame⟩ := busLoad_done hn ha hsound hu sideEffect
  have hm : memLoad s l.addr k.size = .done (assemble (dataByte s) l.addr.toNat l.size) u := by
    rw [memLoad, hk, classify_bus hb]
    exact hload
  have hframe := (busLoad_keeps s l.addr l.size sideEffect).frame
  have hview := (busLoad_view hu sideEffect).view
  rw [hload] at hframe hview
  replace hframe : AccessFrame s u := hframe
  replace hview : SameMemory s u := hview
  obtain ⟨t, ht, hw⟩ := finishLoad_done hm short l.rd
  rw [hv, hframe.pc, hlen] at hw
  refine ⟨⟨t, he.trans ht, u, hframe, fun hE => ?_, fun hW => ⟨hyoung hW, hview⟩, fun hE hW => ?_, hw⟩, fun hse hwb hroom => ?_⟩
  · have hwb : u.wb = [] := hempty hE
    refine ⟨hwb, fun hmark b hlt hkind => ?_, hview.2⟩
    rw [← hview.1 hmark b hlt hkind, dataByte, hwb]
    rfl
  · obtain ⟨hmem', hwb⟩ := hsame hE hW
    exact ⟨hwb, fun b => by rw [memByte, hmem', memByte]⟩
  · obtain ⟨d, hd⟩ := idempotentLoad_sent hn ha hsound (hu.quiet rfl) hroom
    rw [hse, busLoad_idempotent hn hwb] at hload
    rw [hload] at hd
    replace hd : u = _ := hd
    refine ⟨t, he.trans ht, u, by rw [hd], ?_, hw⟩
    rw [hd]
    dsimp only
    cases blockingLoad s false
    · rw [if_neg Bool.false_ne_true, if_neg Bool.false_ne_true]
      split <;> rename_i hal
      · rw [cutAccess_aligned false hal, hal]
        simp
      · have hpart : (l.addr.toNat % l.size != 0) = true := by simpa using hal
        rw [hpart]
    · rw [if_pos rfl, if_pos rfl, List.append_nil]

end Sys2Proof.Machine

/-! PROOFS. Encoding: a well-formed instruction is read back from its bytes (R241 to R251, R260 to R266). -/

namespace Sys2Proof

/-! ## Fields decoded from a code (R242, R260) -/

theorem decodeCode_toWord (f : Fields) : decodeCode (.word f.toWord) = decodeFields f :=
  congrArg decodeFields (ofWord_toWord f)

theorem decodeCode_toParcel (f : Fields16) : decodeCode (.half f.toParcel) = decodeFields16 f :=
  congrArg decodeFields16 (ofParcel_toParcel f)

theorem decodeCode_codeR (f7 : BitVec 7) (f3 : BitVec 3) (rd rs1 rs2 : Reg) :
    decodeCode (codeR f7 f3 rd rs1 rs2) = decodeOp ⟨f7, rs2, rs1, f3, rd, 0x33#7⟩ := decodeCode_toWord _

theorem decodeCode_codeShift (f7 : BitVec 7) (f3 : BitVec 3) (rd rs1 : Reg) (shamt : BitVec 5) :
    decodeCode (codeShift f7 f3 rd rs1 shamt) = decodeOpImm ⟨f7, shamt, rs1, f3, rd, 0x13#7⟩ := decodeCode_toWord _

theorem decodeCode_codeCArith (b12 : BitVec 1) (sel : BitVec 2) (rd : CReg) (r2 : BitVec 5) :
    decodeCode (codeCArith b12 sel rd r2) = decodeCArith ⟨4#3, b12, sel ++ rd, r2, 1#2⟩ := decodeCode_toParcel _

/-! ## Operands read back from the fields they were put in (R244, R262, R263, R265) -/

theorem evenOffset_iff {n : Nat} {off : BitVec n} : evenOffset off = true ↔ off.extractLsb' 0 1 = 0#1 := by
  rw [evenOffset, Bool.not_eq_true']
  refine ⟨fun h => BitVec.eq_of_getLsbD_eq fun i hi => ?_, fun h => low_bits off 1 0 h one_pos⟩
  obtain rfl : i = 0 := by omega
  simpa using h

theorem wordScaled_iff {n : Nat} {imm : BitVec n} : wordScaled imm = true ↔ imm.extractLsb' 0 2 = 0#2 := beq_iff_eq

/-- The three arguments of FENCE fill its immediate (R250). -/
theorem extract_fenceImm (fm pred succ : BitVec 4) :
    (fm ++ pred ++ succ).extractLsb' 8 4 = fm ∧ (fm ++ pred ++ succ).extractLsb' 4 4 = pred ∧
      (fm ++ pred ++ succ).extractLsb' 0 4 = succ := by
  refine ⟨?_, ?_, ?_⟩ <;>
  · refine BitVec.eq_of_getLsbD_eq fun i hi => ?_
    simp only [BitVec.getLsbD_extractLsb', BitVec.getLsbD_append]
    interval_cases i <;> simp

theorem lowReg_bits_append (a b : BitVec 1) (r : CReg) (f3 : BitVec 3) (b12 : BitVec 1) (r1 : BitVec 5) (op : BitVec 2) :
    (Fields16.mk f3 b12 r1 (a ++ b ++ r) op).lowReg = r := BitVec.extractLsb'_append_eq_right

theorem lowReg_append (sel : BitVec 2) (r : CReg) (f3 : BitVec 3) (b12 : BitVec 1) (r1 : BitVec 5) (op : BitVec 2) :
    (Fields16.mk f3 b12 r1 (sel ++ r) op).lowReg = r := BitVec.extractLsb'_append_eq_right

theorem highReg_append (sel : BitVec 2) (r : CReg) (f3 : BitVec 3) (b12 : BitVec 1) (r2 : BitVec 5) (op : BitVec 2) :
    (Fields16.mk f3 b12 (sel ++ r) r2 op).highReg = r := BitVec.extractLsb'_append_eq_right

theorem extract_sel (sel : BitVec 2) (r : CReg) : BitVec.extractLsb' 3 2 (n := 5) (sel ++ r) = sel :=
  BitVec.extractLsb'_append_eq_left

/-- The immediate of C.ADDI16SP has no bits but those of the plain one of C.LUI. -/
theorem imm16sp_eq_zero {f : Fields16} (h : f.imm6 = 0#6) : f.imm16sp = 0#10 := by
  have key : ∀ (b : BitVec 1) (r : BitVec 5), b ++ r = 0#6 →
      b ++ r.extractLsb' 1 2 ++ r.extractLsb' 3 1 ++ r.extractLsb' 0 1 ++ r.extractLsb' 4 1 ++ 0#4 = 0#10 := by
    decide
  exact key f.b12 f.r2 h

/-! ## Decoding after encoding -/

/-- Format by format: the decoder reads the opcode and function fields the encoder writes, and each immediate from where the
encoder puts it; what a well-formed instruction excludes is what the decoder gives to another instruction or to none. -/
theorem decodeCode_code {i : Instr} (h : i.wellFormed = true) : decodeCode i.code = some i := by
  cases i with
  | lui | auipc => simp only [Instr.code, codeU, decodeCode_toWord, decodeFields, immU_code]
  | jal => simp only [Instr.code, codeJ, decodeCode_toWord, decodeFields, immJ_code _ (evenOffset_iff.mp h)]
  | beq | bne | blt | bge | bltu | bgeu =>
    simp only [Instr.code, codeB, decodeCode_toWord, decodeFields, decodeBranch, immB_code _ (evenOffset_iff.mp h)]
  | sb | sh | sw => simp only [Instr.code, codeS, decodeCode_toWord, decodeFields, decodeStore, immS_code]
  | jalr => simp only [Instr.code, codeI, decodeCode_toWord, decodeFields, immI_code, if_true]
  | lb | lh | lw | lbu | lhu =>
    simp only [Instr.code, codeI, decodeCode_toWord, decodeFields, decodeLoad, immI_code]
  | addi | slti | sltiu | xori | ori | andi =>
    simp [Instr.code, codeI, decodeCode_toWord, decodeFields, decodeOpImm, immI_code]
  | slli | srli | srai => exact decodeCode_codeShift _ _ _ _ _
  | add | sub | sll | slt | sltu | xor | srl | sra | or | and => exact decodeCode_codeR _ _ _ _ _
  | mul | mulh | mulhsu | mulhu | div | divu | rem | remu => exact decodeCode_codeR _ _ _ _ _
  | fence fm pred succ =>
    obtain ⟨hf, hp, hs⟩ := extract_fenceImm fm pred succ
    simp only [Instr.code, codeI, decodeCode_toWord, decodeFields, decodeMiscMem, immI_code, hf, hp, hs]
  | fenceI => simp only [Instr.code, codeI, decodeCode_toWord, decodeFields, decodeMiscMem, immI_code]
  | csrrw | csrrs | csrrc | csrrwi | csrrsi | csrrci =>
    simp only [Instr.code, codeI, decodeCode_toWord, decodeFields, decodeSystem, immI_code]
  | ecall | ebreak | mret | wfi => rfl
  | cAddi4spn =>
    simp only [Instr.wellFormed, Bool.and_eq_true, wordScaled_iff, bne_iff_ne] at h
    obtain ⟨hs, hz⟩ := h
    simp only [Instr.code, code16, decodeCode_toParcel, decodeFields16, decodeQuadrant0, immIw_code _ hs,
      lowReg_bits_append]
    exact if_neg hz
  | cLw | cSw =>
    simp only [Instr.code, codeCls, code16, decodeCode_toParcel, decodeFields16, decodeQuadrant0, lowReg_bits_append,
      highReg_append, immLs_code _ (wordScaled_iff.mp h)]
  | cNop => simp [Instr.code, codeCi, code16, decodeCode_toParcel, decodeFields16, decodeQuadrant1, imm6_code]
  | cLi => simp only [Instr.code, codeCi, code16, decodeCode_toParcel, decodeFields16, decodeQuadrant1, imm6_code]
  | cAddi =>
    simp only [Instr.wellFormed, bne_iff_ne] at h
    simp only [Instr.code, codeCi, code16, decodeCode_toParcel, decodeFields16, decodeQuadrant1, imm6_code]
    exact if_neg h
  | cLui =>
    simp only [Instr.wellFormed, Bool.and_eq_true, bne_iff_ne] at h
    obtain ⟨hrd, hz⟩ := h
    simp only [Instr.code, codeCi, code16, decodeCode_toParcel, decodeFields16, decodeQuadrant1, imm6_code]
    exact (if_neg hz).trans (if_neg hrd)
  | cAddi16sp =>
    simp only [Instr.wellFormed, Bool.and_eq_true, beq_iff_eq, bne_iff_ne] at h
    obtain ⟨hs, hz⟩ := h
    simp only [Instr.code, code16, decodeCode_toParcel, decodeFields16, decodeQuadrant1, imm16sp_code _ hs, if_true]
    exact if_neg fun h6 => hz ((imm16sp_code _ hs _ _ _).symm.trans (imm16sp_eq_zero h6))
  | cJal | cJ =>
    simp only [Instr.code, codeCj, code16, decodeCode_toParcel, decodeFields16, decodeQuadrant1,
      immCj_code _ (evenOffset_iff.mp h)]
  | cBeqz | cBnez =>
    simp [Instr.code, codeCb, code16, decodeCode_toParcel, decodeFields16, decodeQuadrant1, highReg_append,
      immCb_code _ (evenOffset_iff.mp h)]
  | cSrli | cSrai | cAndi | cSub | cXor | cOr | cAnd =>
    simp [Instr.code, decodeCode_codeCArith, decodeCArith, imm6_code, decodeCa, extract_sel, lowReg_append,
      highReg_append]
  | cSlli => simp [Instr.code, code16, decodeCode_toParcel, decodeFields16, decodeQuadrant2]
  | cLwsp =>
    simp only [Instr.wellFormed, Bool.and_eq_true, wordScaled_iff, bne_iff_ne] at h
    obtain ⟨hrd, hs⟩ := h
    simp only [Instr.code, code16, decodeCode_toParcel, decodeFields16, decodeQuadrant2, immLwsp_code _ hs]
    exact if_neg hrd
  | cSwsp =>
    simp only [Instr.code, code16, decodeCode_toParcel, decodeFields16, decodeQuadrant2,
      immSwsp_code _ (wordScaled_iff.mp h)]
  | cJr | cJalr | cMv | cAdd | cEbreak =>
    simp_all [Instr.wellFormed, Instr.code, code16, decodeCode_toParcel, decodeFields16, decodeQuadrant2, decodeCr]

/-- Every opcode of the decoder's list shows the length of the instruction in its low two bits (R240, R241). -/
theorem decodeFields_long {f : Fields} {i : Instr} (h : decodeFields f = some i) : f.op.extractLsb' 0 2 = 3#2 := by
  unfold decodeFields at h
  split at h
  case h_12 => cases h
  all_goals
    rename_i ho
    rw [ho]
    rfl

/-- A code that decodes shows its own length: the bytes after it are not looked at (R241). -/
theorem takeCode_of_decodeCode {c : Code} {i : Instr} (h : decodeCode c = some i) (rest : List Byte) :
    takeCode (c.bytes ++ rest) = some (c, rest) := by
  cases c with
  | word w =>
    have ht := takeCode_word (Fields.ofWord w) (decodeFields_long h) rest
    rwa [toWord_ofWord] at ht
  | half p =>
    have hop : (Fields16.ofParcel p).op ≠ 3#2 := fun h3 => by
      rw [decodeCode, decodeFields16, h3] at h
      cases h
    have ht := takeCode_half (Fields16.ofParcel p) hop rest
    rwa [toParcel_ofParcel] at ht

/-- Settles O1: the bytes show the code, and the code its instruction. -/
theorem decodingUndoesEncoding : Obligations.DecodingUndoesEncoding := by
  intro i rest hi
  have hd : decodeCode i.code = some i := decodeCode_code hi
  rw [decode, encode, takeCode_of_decodeCode hd]
  dsimp only
  rw [hd]

end Sys2Proof

/-! PROOFS. Encoding: an instruction that was decoded encodes to the code it was read from (R242 to R251,
R260 to R266, R290, R292). -/

namespace Sys2Proof

/-! ## Words put together from decoded operands (R242, R244) -/

section Words

variable {f : Fields} {op f7 : BitVec 7} {f3 : BitVec 3} {rs2 rs1 rd : BitVec 5}

theorem word_eq_of_fields (h7 : f.f7 = f7) (hs2 : f.rs2 = rs2) (hs1 : f.rs1 = rs1) (h3 : f.f3 = f3) (hd : f.rd = rd)
    (ho : f.op = op) : Code.word (Fields.mk f7 rs2 rs1 f3 rd op).toWord = .word f.toWord := by
  subst h7 hs2 hs1 h3 hd ho
  rfl

theorem codeR_fields (ho : f.op = 0x33#7) (h7 : f.f7 = f7) (h3 : f.f3 = f3) :
    codeR f7 f3 f.rd f.rs1 f.rs2 = .word f.toWord := word_eq_of_fields h7 rfl rfl h3 rfl ho

theorem codeShift_fields (ho : f.op = 0x13#7) (h7 : f.f7 = f7) (h3 : f.f3 = f3) :
    codeShift f7 f3 f.rd f.rs1 f.rs2 = .word f.toWord := word_eq_of_fields h7 rfl rfl h3 rfl ho

theorem codeI_immI (ho : f.op = op) (h3 : f.f3 = f3) : codeI op f3 f.rd f.rs1 f.immI = .word f.toWord :=
  word_eq_of_fields BitVec.extractLsb'_append_eq_left.symm BitVec.extractLsb'_append_eq_right.symm rfl h3 rfl ho

theorem codeS_immS (ho : f.op = 0x23#7) (h3 : f.f3 = f3) : codeS f3 f.rs2 f.rs1 f.immS = .word f.toWord :=
  word_eq_of_fields BitVec.extractLsb'_append_eq_left.symm rfl rfl h3 BitVec.extractLsb'_append_eq_right.symm ho

theorem codeB_immB (ho : f.op = 0x63#7) (h3 : f.f3 = f3) : codeB f3 f.rs1 f.rs2 f.immB = .word f.toWord := by
  refine word_eq_of_fields ?_ rfl rfl h3 ?_ ho <;>
  · refine BitVec.eq_of_getLsbD_eq fun i hi => ?_
    simp only [Fields.immB, BitVec.getLsbD_append, BitVec.getLsbD_extractLsb']
    interval_cases i <;> simp

theorem codeU_immU (ho : f.op = op) : codeU op f.rd f.immU = .word f.toWord := by
  refine word_eq_of_fields ?_ ?_ ?_ ?_ rfl ho <;>
  · refine BitVec.eq_of_getLsbD_eq fun i hi => ?_
    simp only [Fields.immU, BitVec.getLsbD_append, BitVec.getLsbD_extractLsb']
    interval_cases i <;> simp

theorem codeJ_immJ (ho : f.op = 0x6F#7) : codeJ f.rd f.immJ = .word f.toWord := by
  refine word_eq_of_fields ?_ ?_ ?_ ?_ rfl ho <;>
  · refine BitVec.eq_of_getLsbD_eq fun i hi => ?_
    simp only [Fields.immJ, BitVec.getLsbD_append, BitVec.getLsbD_extractLsb']
    interval_cases i <;> simp

end Words

/-! ## Parcels put together from decoded operands (R260, R262, R263, R265) -/

section Parcels

variable {f : Fields16} {op sel : BitVec 2} {f3 : BitVec 3} {b12 : BitVec 1} {r1 r2 : BitVec 5}

theorem code16_fields (ho : f.op = op) (h3 : f.f3 = f3) (hb : f.b12 = b12) (h1 : f.r1 = r1) (h2 : f.r2 = r2) :
    code16 f3 b12 r1 r2 op = .half f.toParcel := by
  subst ho h3 hb h1 h2
  rfl

theorem codeCi_imm6 (ho : f.op = op) (h3 : f.f3 = f3) : codeCi f3 f.r1 f.imm6 op = .half f.toParcel :=
  code16_fields ho h3 BitVec.extractLsb'_append_eq_left.symm rfl BitVec.extractLsb'_append_eq_right.symm

theorem codeCls_immLs (ho : f.op = 0#2) (h3 : f.f3 = f3) :
    codeCls f3 f.lowReg f.highReg f.immLs = .half f.toParcel := by
  refine code16_fields ho h3 ?_ ?_ ?_ <;>
  · refine BitVec.eq_of_getLsbD_eq fun i hi => ?_
    simp only [Fields16.immLs, Fields16.lowReg, Fields16.highReg, BitVec.getLsbD_append, BitVec.getLsbD_extractLsb']
    interval_cases i <;> simp

theorem codeCj_immCj (ho : f.op = 1#2) (h3 : f.f3 = f3) : codeCj f3 f.immCj = .half f.toParcel := by
  refine code16_fields ho h3 ?_ ?_ ?_ <;>
  · refine BitVec.eq_of_getLsbD_eq fun i hi => ?_
    simp only [Fields16.immCj, BitVec.getLsbD_append, BitVec.getLsbD_extractLsb']
    interval_cases i <;> simp

theorem codeCb_immCb (ho : f.op = 1#2) (h3 : f.f3 = f3) : codeCb f3 f.highReg f.immCb = .half f.toParcel := by
  refine code16_fields ho h3 ?_ ?_ ?_ <;>
  · refine BitVec.eq_of_getLsbD_eq fun i hi => ?_
    simp only [Fields16.immCb, Fields16.highReg, BitVec.getLsbD_append, BitVec.getLsbD_extractLsb']
    interval_cases i <;> simp

theorem code_cAddi4spn (ho : f.op = 0#2) (h3 : f.f3 = 0#3) :
    (Instr.cAddi4spn f.lowReg f.immIw).code = .half f.toParcel := by
  refine code16_fields ho h3 ?_ ?_ ?_ <;>
  · refine BitVec.eq_of_getLsbD_eq fun i hi => ?_
    simp only [Fields16.immIw, Fields16.lowReg, BitVec.getLsbD_append, BitVec.getLsbD_extractLsb']
    interval_cases i <;> simp

theorem code_cAddi16sp (ho : f.op = 1#2) (h3 : f.f3 = 3#3) (h1 : f.r1 = 2#5) :
    (Instr.cAddi16sp f.imm16sp).code = .half f.toParcel := by
  refine code16_fields ho h3 ?_ h1 ?_ <;>
  · refine BitVec.eq_of_getLsbD_eq fun i hi => ?_
    simp only [Fields16.imm16sp, BitVec.getLsbD_append, BitVec.getLsbD_extractLsb']
    interval_cases i <;> simp

theorem code_cLwsp (ho : f.op = 2#2) (h3 : f.f3 = 2#3) : (Instr.cLwsp f.r1 f.immLwsp).code = .half f.toParcel := by
  refine code16_fields ho h3 ?_ rfl ?_ <;>
  · refine BitVec.eq_of_getLsbD_eq fun i hi => ?_
    simp only [Fields16.immLwsp, BitVec.getLsbD_append, BitVec.getLsbD_extractLsb']
    interval_cases i <;> simp

theorem code_cSwsp (ho : f.op = 2#2) (h3 : f.f3 = 6#3) : (Instr.cSwsp f.r2 f.immSwsp).code = .half f.toParcel := by
  refine code16_fields ho h3 ?_ ?_ rfl <;>
  · refine BitVec.eq_of_getLsbD_eq fun i hi => ?_
    simp only [Fields16.immSwsp, BitVec.getLsbD_append, BitVec.getLsbD_extractLsb']
    interval_cases i <;> simp

/-- A five-bit field is its upper two bits and the register in its lower three. -/
theorem eq_append_of_sel {r : BitVec 5} (h : r.extractLsb' 3 2 = sel) : r = sel ++ r.extractLsb' 0 3 := by
  subst h
  exact (BitVec.extractLsb'_append_extractLsb' (w := 2) (len := 3)).symm

theorem codeCArith_fields (ho : f.op = 1#2) (h3 : f.f3 = 4#3) (hb : f.b12 = b12) (hs : f.r1.extractLsb' 3 2 = sel)
    (h2 : f.r2 = r2) : codeCArith b12 sel f.highReg r2 = .half f.toParcel :=
  code16_fields ho h3 hb (eq_append_of_sel hs) h2

end Parcels

/-! ## The last row of a table -/

theorem eq_one_of_ne_zero : ∀ x : BitVec 1, x ≠ 0#1 → x = 1#1 := by decide

theorem eq_zero_of_ne_one : ∀ x : BitVec 1, x ≠ 1#1 → x = 0#1 := by decide

theorem eq_three_of_ne : ∀ x : BitVec 2, x ≠ 0#2 → x ≠ 1#2 → x ≠ 2#2 → x = 3#2 := by decide

theorem eq_seven_of_ne (x : BitVec 3) :
    x ≠ 0#3 → x ≠ 1#3 → x ≠ 2#3 → x ≠ 3#3 → x ≠ 4#3 → x ≠ 5#3 → x ≠ 6#3 → x = 7#3 := by
  bv_omega

/-! ## Encoding after decoding: 32-bit words (R245 to R251) -/

section DecodedWords

variable {f : Fields} {i : Instr}

theorem code_of_decodeOpImm (ho : f.op = 0x13#7) (h : decodeOpImm f = some i) : i.code = .word f.toWord := by
  unfold decodeOpImm at h
  split at h
  · cases h; exact codeI_immI ho ‹_›
  · split_ifs at h; cases h; exact codeShift_fields ho ‹_› ‹_›
  · cases h; exact codeI_immI ho ‹_›
  · cases h; exact codeI_immI ho ‹_›
  · cases h; exact codeI_immI ho ‹_›
  · split_ifs at h <;> cases h
    · exact codeShift_fields ho ‹_› ‹_›
    · exact codeShift_fields ho ‹_› ‹_›
  · cases h; exact codeI_immI ho ‹_›
  · cases h; exact codeI_immI ho (eq_seven_of_ne _ ‹_› ‹_› ‹_› ‹_› ‹_› ‹_› ‹_›)

theorem code_decodeOpBase (ho : f.op = 0x33#7) (h7 : f.f7 = 0#7) : (decodeOpBase f).code = .word f.toWord := by
  unfold decodeOpBase
  split
  case h_8 => exact codeR_fields ho h7 (eq_seven_of_ne _ ‹_› ‹_› ‹_› ‹_› ‹_› ‹_› ‹_›)
  all_goals exact codeR_fields ho h7 ‹_›

theorem code_decodeOpM (ho : f.op = 0x33#7) (h7 : f.f7 = 1#7) : (decodeOpM f).code = .word f.toWord := by
  unfold decodeOpM
  split
  case h_8 => exact codeR_fields ho h7 (eq_seven_of_ne _ ‹_› ‹_› ‹_› ‹_› ‹_› ‹_› ‹_›)
  all_goals exact codeR_fields ho h7 ‹_›

theorem code_of_decodeOp (ho : f.op = 0x33#7) (h : decodeOp f = some i) : i.code = .word f.toWord := by
  unfold decodeOp at h
  split_ifs at h with hbase hm hsub
  · cases h; exact code_decodeOpBase ho hbase
  · cases h; exact code_decodeOpM ho hm
  · split at h <;> cases h
    · exact codeR_fields ho hsub ‹_›
    · exact codeR_fields ho hsub ‹_›

theorem code_of_decodeMiscMem (ho : f.op = 0x0F#7) (h : decodeMiscMem f = some i) : i.code = .word f.toWord := by
  have himm : f.immI.extractLsb' 8 4 ++ f.immI.extractLsb' 4 4 ++ f.immI.extractLsb' 0 4 = f.immI := by
    refine BitVec.eq_of_getLsbD_eq fun i hi => ?_
    simp only [BitVec.getLsbD_append, BitVec.getLsbD_extractLsb']
    interval_cases i <;> simp
  unfold decodeMiscMem at h
  split at h <;> cases h
  · exact (congrArg (codeI 0x0F#7 0#3 f.rd f.rs1) himm).trans (codeI_immI ho ‹_›)
  · exact codeI_immI ho ‹_›

theorem code_of_decodeSystem (ho : f.op = 0x73#7) (h : decodeSystem f = some i) : i.code = .word f.toWord := by
  unfold decodeSystem at h
  split at h
  · unfold decodePriv at h
    rw [← codeI_immI ho ‹_›]
    split_ifs at h with hr hi hi hi hi <;> obtain ⟨hrd, hrs1⟩ := hr <;> cases h <;> rw [hrd, hrs1, hi] <;> rfl
  all_goals cases h
  all_goals exact codeI_immI ho ‹_›

theorem code_of_decodeFields (h : decodeFields f = some i) : i.code = .word f.toWord := by
  unfold decodeFields at h
  split at h
  case h_1 ho => unfold decodeLoad at h; split at h <;> cases h <;> exact codeI_immI ho ‹_›
  case h_2 ho => exact code_of_decodeMiscMem ho h
  case h_3 ho => exact code_of_decodeOpImm ho h
  case h_4 ho => cases h; exact codeU_immU ho
  case h_5 ho => unfold decodeStore at h; split at h <;> cases h <;> exact codeS_immS ho ‹_›
  case h_6 ho => exact code_of_decodeOp ho h
  case h_7 ho => cases h; exact codeU_immU ho
  case h_8 ho => unfold decodeBranch at h; split at h <;> cases h <;> exact codeB_immB ho ‹_›
  case h_9 ho => split at h <;> cases h; exact codeI_immI ho ‹_›
  case h_10 ho => cases h; exact codeJ_immJ ho
  case h_11 ho => exact code_of_decodeSystem ho h
  case h_12 => cases h

end DecodedWords

/-! ## Encoding after decoding: 16-bit parcels (R264 to R266) -/

section DecodedParcels

variable {f : Fields16} {i : Instr}

theorem code_of_decodeQuadrant0 (ho : f.op = 0#2) (h : decodeQuadrant0 f = some i) : i.code = .half f.toParcel := by
  unfold decodeQuadrant0 at h
  split at h
  · split at h <;> cases h; exact code_cAddi4spn ho ‹_›
  · cases h; exact codeCls_immLs ho ‹_›
  · cases h; exact codeCls_immLs ho ‹_›
  · cases h

theorem code_of_decodeCArith (ho : f.op = 1#2) (h3 : f.f3 = 4#3) (h : decodeCArith f = some i) :
    i.code = .half f.toParcel := by
  unfold decodeCArith at h
  split at h
  · split_ifs at h with hb
    cases h
    exact codeCArith_fields ho h3 (eq_zero_of_ne_one _ hb) ‹_› rfl
  · split_ifs at h with hb
    cases h
    exact codeCArith_fields ho h3 (eq_zero_of_ne_one _ hb) ‹_› rfl
  · cases h
    exact codeCArith_fields ho h3 BitVec.extractLsb'_append_eq_left.symm ‹_› BitVec.extractLsb'_append_eq_right.symm
  · have hs := eq_three_of_ne _ ‹_› ‹_› ‹_›
    unfold decodeCa at h
    split_ifs at h with hb
    have hb := eq_zero_of_ne_one _ hb
    split at h <;> cases h
    · exact codeCArith_fields ho h3 hb hs (eq_append_of_sel ‹_›)
    · exact codeCArith_fields ho h3 hb hs (eq_append_of_sel ‹_›)
    · exact codeCArith_fields ho h3 hb hs (eq_append_of_sel ‹_›)
    · exact codeCArith_fields ho h3 hb hs (eq_append_of_sel (eq_three_of_ne _ ‹_› ‹_› ‹_›))

theorem code_of_decodeQuadrant1 (ho : f.op = 1#2) (h : decodeQuadrant1 f = some i) : i.code = .half f.toParcel := by
  unfold decodeQuadrant1 at h
  split at h
  · split at h <;> cases h
    · next h1 =>
      rw [← codeCi_imm6 ho ‹_›, h1]
      rfl
    · exact codeCi_imm6 ho ‹_›
  · cases h; exact codeCj_immCj ho ‹_›
  · cases h; exact codeCi_imm6 ho ‹_›
  · split_ifs at h <;> cases h
    · exact code_cAddi16sp ho ‹_› ‹_›
    · exact codeCi_imm6 ho ‹_›
  · exact code_of_decodeCArith ho ‹_› h
  · cases h; exact codeCj_immCj ho ‹_›
  · cases h; exact codeCb_immCb ho ‹_›
  · cases h; exact codeCb_immCb ho (eq_seven_of_ne _ ‹_› ‹_› ‹_› ‹_› ‹_› ‹_› ‹_›)

theorem code_of_decodeCr (ho : f.op = 2#2) (h3 : f.f3 = 4#3) (h : decodeCr f = some i) : i.code = .half f.toParcel := by
  unfold decodeCr at h
  split_ifs at h with hb h2 h1 h2 h1 <;> cases h
  · exact code16_fields ho h3 hb rfl h2
  · exact code16_fields ho h3 hb rfl rfl
  · exact code16_fields ho h3 (eq_one_of_ne_zero _ hb) h1 h2
  · exact code16_fields ho h3 (eq_one_of_ne_zero _ hb) rfl h2
  · exact code16_fields ho h3 (eq_one_of_ne_zero _ hb) rfl rfl

theorem code_of_decodeQuadrant2 (ho : f.op = 2#2) (h : decodeQuadrant2 f = some i) : i.code = .half f.toParcel := by
  unfold decodeQuadrant2 at h
  split at h
  · split_ifs at h with hb
    cases h
    exact code16_fields ho ‹_› (eq_zero_of_ne_one _ hb) rfl rfl
  · split at h <;> cases h; exact code_cLwsp ho ‹_›
  · exact code_of_decodeCr ho ‹_› h
  · cases h; exact code_cSwsp ho ‹_›
  · cases h

theorem code_of_decodeFields16 (h : decodeFields16 f = some i) : i.code = .half f.toParcel := by
  unfold decodeFields16 at h
  split at h
  · exact code_of_decodeQuadrant0 ‹_› h
  · exact code_of_decodeQuadrant1 ‹_› h
  · exact code_of_decodeQuadrant2 ‹_› h
  · cases h

end DecodedParcels

theorem code_of_decodeCode {c : Code} {i : Instr} (h : decodeCode c = some i) : i.code = c := by
  cases c with
  | word w => rw [code_of_decodeFields h, toWord_ofWord]
  | half p => rw [code_of_decodeFields16 h, toParcel_ofParcel]

/-- Settles O2: the encoder puts every field back where the decoder took it from, the matched ones with the value of
their row. -/
theorem encodingUndoesDecoding : Obligations.EncodingUndoesDecoding :=
  fun _ _ h => ⟨decodeCode_wellFormed h, code_of_decodeCode h⟩

end Sys2Proof

/-! PROOFS. The 16-bit parcels that decode to no instruction are the reserved ones (R264, R266, R268). -/

namespace Sys2Proof

/-! ## What each table leaves out (R264 to R266) -/

theorem bits3_cases (x : BitVec 3) :
    x = 0#3 ∨ x = 1#3 ∨ x = 2#3 ∨ x = 3#3 ∨ x = 4#3 ∨ x = 5#3 ∨ x = 6#3 ∨ x = 7#3 := by
  decide +revert

section Tables

variable (f : Fields16)

theorem decodeQuadrant0_eq_none : decodeQuadrant0 f = none ↔
    f.f3 = 0#3 ∧ f.immIw = 0#10 ∨ f.f3 = 1#3 ∨ f.f3 = 3#3 ∨ f.f3 = 4#3 ∨ f.f3 = 5#3 ∨ f.f3 = 7#3 := by
  unfold decodeQuadrant0
  rcases bits3_cases f.f3 with h | h | h | h | h | h | h | h <;> simp [h]

theorem decodeCArith_eq_none : decodeCArith f = none ↔ f.r1.extractLsb' 3 2 ≠ 2#2 ∧ f.b12 = 1#1 := by
  unfold decodeCArith
  split
  · simp [*]
  · simp [*]
  · simp [*]
  · have hs : f.r1.extractLsb' 3 2 ≠ 2#2 := ‹_›
    unfold decodeCa
    split
    · simp [*]
    · split <;> simp [*]

theorem decodeQuadrant1_eq_none : decodeQuadrant1 f = none ↔
    f.f3 = 3#3 ∧ f.imm6 = 0#6 ∨ f.f3 = 4#3 ∧ f.r1.extractLsb' 3 2 ≠ 2#2 ∧ f.b12 = 1#1 := by
  unfold decodeQuadrant1
  rcases bits3_cases f.f3 with h | h | h | h | h | h | h | h <;> simp [h, decodeCArith_eq_none]
  case inl => split <;> simp
  case inr.inr.inr.inl => split <;> simp [*]

theorem decodeCr_eq_none : decodeCr f = none ↔ f.b12 = 0#1 ∧ f.r1 = 0#5 ∧ f.r2 = 0#5 := by
  unfold decodeCr
  split_ifs <;> simp [*]

theorem decodeQuadrant2_eq_none : decodeQuadrant2 f = none ↔
    f.f3 = 0#3 ∧ f.b12 = 1#1 ∨ f.f3 = 2#3 ∧ f.r1 = 0#5 ∨ (f.f3 = 4#3 ∧ f.b12 = 0#1 ∧ f.r1 = 0#5 ∧ f.r2 = 0#5) ∨
      f.f3 = 1#3 ∨ f.f3 = 3#3 ∨ f.f3 = 5#3 ∨ f.f3 = 7#3 := by
  unfold decodeQuadrant2
  rcases bits3_cases f.f3 with h | h | h | h | h | h | h | h <;> simp [h, decodeCr_eq_none]

end Tables

/-! ## The reserved parcels by their fields -/

/-- The rows of `ReservedRow`, said of the fields the decoder looks at. -/
def Fields16.Reserved (f : Fields16) : Prop :=
  (f.op = 0#2 ∧ f.f3 = 0#3 ∧ f.immIw = 0#10) ∨
  (f.op = 0#2 ∧ (f.f3 = 1#3 ∨ f.f3 = 3#3 ∨ f.f3 = 4#3 ∨ f.f3 = 5#3 ∨ f.f3 = 7#3)) ∨
  (f.op = 1#2 ∧ f.f3 = 3#3 ∧ f.imm6 = 0#6) ∨
  (f.op = 1#2 ∧ f.f3 = 4#3 ∧ f.r1.extractLsb' 3 2 ≠ 2#2 ∧ f.b12 = 1#1) ∨
  (f.op = 2#2 ∧ f.f3 = 0#3 ∧ f.b12 = 1#1) ∨
  (f.op = 2#2 ∧ f.f3 = 2#3 ∧ f.r1 = 0#5) ∨
  f = ⟨4#3, 0#1, 0#5, 0#5, 2#2⟩ ∨
  (f.op = 2#2 ∧ (f.f3 = 1#3 ∨ f.f3 = 3#3 ∨ f.f3 = 5#3 ∨ f.f3 = 7#3))

theorem decodeFields16_eq_none {f : Fields16} (h : f.op ≠ 3#2) : decodeFields16 f = none ↔ f.Reserved := by
  obtain ⟨f3, b12, r1, r2, op⟩ := f
  unfold decodeFields16 Fields16.Reserved
  rw [Fields16.mk.injEq]
  dsimp only at h ⊢
  split
  · simp [decodeQuadrant0_eq_none]
  · simp [decodeQuadrant1_eq_none]
  · simp [decodeQuadrant2_eq_none]
  · exact absurd (eq_three_of_ne _ ‹_› ‹_› ‹_›) h

section Bits

variable (h : BitVec 16)

theorem b12_ofParcel : (Fields16.ofParcel h).b12 = BitVec.ofBool (h.getLsbD 12) := by
  refine BitVec.eq_of_getLsbD_eq fun i hi => ?_
  obtain rfl : i = 0 := by omega
  simp [Fields16.ofParcel]

theorem b12_ofParcel_eq_zero : (Fields16.ofParcel h).b12 = 0#1 ↔ h.getLsbD 12 = false := by
  rw [b12_ofParcel]
  cases h.getLsbD 12 <;> decide

theorem b12_ofParcel_eq_one : (Fields16.ofParcel h).b12 = 1#1 ↔ h.getLsbD 12 = true := by
  rw [b12_ofParcel]
  cases h.getLsbD 12 <;> decide

theorem sel_ofParcel : (Fields16.ofParcel h).r1.extractLsb' 3 2 = h.extractLsb' 10 2 := by
  refine BitVec.eq_of_getLsbD_eq fun i hi => ?_
  simp only [Fields16.ofParcel, BitVec.getLsbD_extractLsb']
  interval_cases i <;> simp

/-- The immediate of C.ADDI4SPN is made of the bits 12 to 5, in another order. -/
theorem immIw_ofParcel_eq_zero : (Fields16.ofParcel h).immIw = 0#10 ↔ h.extractLsb' 5 8 = 0#8 := by
  have key : ∀ y : BitVec 8,
      y.extractLsb' 2 4 ++ y.extractLsb' 6 2 ++ y.extractLsb' 0 1 ++ y.extractLsb' 1 1 ++ 0#2 = 0#10 ↔ y = 0#8 := by
    decide
  rw [← key]
  refine iff_of_eq (congrArg (· = 0#10) (BitVec.eq_of_getLsbD_eq fun i hi => ?_))
  simp only [Fields16.immIw, Fields16.ofParcel, BitVec.getLsbD_append, BitVec.getLsbD_extractLsb']
  interval_cases i <;> simp

theorem imm6_ofParcel_eq_zero :
    (Fields16.ofParcel h).imm6 = 0#6 ↔ h.getLsbD 12 = false ∧ h.extractLsb' 2 5 = 0#5 := by
  have key : ∀ (b : BitVec 1) (r : BitVec 5), b ++ r = 0#6 ↔ b = 0#1 ∧ r = 0#5 := by decide
  rw [← b12_ofParcel_eq_zero]
  exact key _ _

theorem ofParcel_eq_0x8002 : h = 0x8002 ↔ Fields16.ofParcel h = ⟨4#3, 0#1, 0#5, 0#5, 2#2⟩ :=
  ⟨fun he => he ▸ rfl, fun he => by rw [← toParcel_ofParcel h, he]; rfl⟩

/-- Row by row, the list of reserved parcels is one of fields. -/
theorem reservedParcel_iff : Machine.ReservedParcel h ↔ (Fields16.ofParcel h).Reserved := by
  refine or_congr ?_ <| or_congr Iff.rfl <| or_congr ?_ <| or_congr ?_ <| or_congr ?_ <| or_congr Iff.rfl <|
    or_congr ?_ Iff.rfl
  · exact and_congr_right' (and_congr_right' (immIw_ofParcel_eq_zero h).symm)
  · exact and_congr_right' (and_congr_right' (imm6_ofParcel_eq_zero h).symm)
  · exact and_congr_right' (and_congr_right' (and_congr (by rw [sel_ofParcel]; rfl) (b12_ofParcel_eq_one h).symm))
  · exact and_congr_right' (and_congr_right' (b12_ofParcel_eq_one h).symm)
  · exact ofParcel_eq_0x8002 h

end Bits

/-- Settles O4: quadrant by quadrant, the decoder leaves out what the list has. -/
theorem reservedParcelsAreIllegal : Obligations.ReservedParcelsAreIllegal := by
  intro h hl
  rw [reservedParcel_iff]
  exact decodeFields16_eq_none (beq_eq_false_iff_ne.mp hl)

end Sys2Proof

/-! PROOFS. The step at a code that is no instruction, and the C forms with three-bit register fields (R262, R291, R400, R401,
R410 to R416, R502, R523). -/

namespace Sys2Proof.Machine

/-! ## Illegal codes (R291, R502, R523) -/

/-- Outside a single step nothing follows an instruction (R656). -/
theorem afterInstr_of_not_stepping {s : State} (h : s.stepping = false) : afterInstr s = s := by
  rw [afterInstr, h]
  rfl

theorem executeNext_illegal {u v : State} {c : Code} (hf : fetch u = .code c v) (hd : decodeCode c = none) :
    executeNext u = .next (illegalCode v c) := by
  unfold executeNext
  rw [hf]
  dsimp only
  rw [hd]

/-- Settles O6: the code fetched decodes to nothing, and nothing follows its exception. -/
theorem illegalCodesTrap : Obligations.IllegalCodesTrap := by
  intro s u v c hin ht hf hd hs
  have htrap : illegalCode v c = takeException v 2 c.bits :=
    afterInstr_of_not_stepping ((takeException_stepping v 2 c.bits).trans hs)
  exact ⟨_, (step_executes hin ht).trans (executeNext_illegal hf hd), htrap ▸ takeException_spec v 2 c.bits⟩

/-! ## Results as numbers (R17, R263) -/

theorem add_zextImm {n : Nat} (a : Word) (imm : BitVec n) :
    a + zextImm imm = BitVec.ofNat 32 (a.toNat + imm.toNat) := by
  rw [BitVec.ofNat_add, BitVec.ofNat_toNat, BitVec.ofNat_toNat, BitVec.setWidth_eq]
  rfl

theorem sub_eq_ofInt (a b : Word) : a - b = BitVec.ofInt 32 (a.toInt - b.toInt) :=
  BitVec.eq_of_toInt_eq (by rw [BitVec.toInt_sub, BitVec.toInt_ofInt])

theorem ushiftRight_eq_ofNat (a : Word) (n : Nat) : a >>> n = BitVec.ofNat 32 (a.toNat / 2 ^ n) := by
  rw [← Nat.shiftRight_eq_div_pow, ← BitVec.toNat_ushiftRight, BitVec.ofNat_toNat, BitVec.setWidth_eq]

theorem sshiftRight_eq_ofInt (a : Word) (n : Nat) : a.sshiftRight n = BitVec.ofInt 32 (a.toInt / 2 ^ n) := by
  rw [BitVec.sshiftRight_eq, Int.shiftRight_eq_div_pow]
  rfl

theorem sextImm_eq_ofInt {n : Nat} (imm : BitVec n) : sextImm imm = BitVec.ofInt 32 imm.toInt := rfl

/-! ## The C forms on x8 to x15 (R262, R401, R410 to R416) -/

theorem x8_eq_wideReg : ∀ r : CReg, x8 r = wideReg r := by decide

/-- A C form that ends as an integer instruction on a three-bit register writes its result there, with pc + 2. -/
theorem narrowAlu_spec {i : Instr} {s : State} {rd : CReg} {v : Word}
    (h : exec i s = finishAlu s true (wideReg rd) v) :
    GoesTo (exec i s) fun t => WroteReg s t (x8 rd) v (s.pc + 2) := by
  rw [h, x8_eq_wideReg]
  exact finishAlu_spec s true (wideReg rd) v

/-- Settles O15: each form ends as an integer instruction, with the result the statement gives as a number. -/
theorem compressedNarrowArithmetic : Obligations.CompressedNarrowArithmetic := by
  intro s rd rs2 imm uimm shamt a b gives
  have ha : a = reg s (wideReg rd) := by rw [← x8_eq_wideReg]
  have hb : b = reg s (wideReg rs2) := by rw [← x8_eq_wideReg]
  rw [ha, hb, ← add_zextImm, ← ushiftRight_eq_ofNat, ← sshiftRight_eq_ofInt, ← sextImm_eq_ofInt, ← sub_eq_ofInt]
  exact ⟨narrowAlu_spec rfl, narrowAlu_spec rfl, narrowAlu_spec rfl, narrowAlu_spec rfl, narrowAlu_spec rfl,
    narrowAlu_spec rfl, narrowAlu_spec rfl, narrowAlu_spec rfl⟩

end Sys2Proof.Machine

/-! PROOFS. The integer instructions: the words the spec gives for examples, and the results of the register and immediate forms
(R268, R300 to R322, R446, R451, R471, R474). -/

namespace Sys2Proof

/-- The decoder reads a well-formed instruction from the word that the encoder gives for it. -/
theorem decodeCode_of_code_eq {i : Instr} {w : Word} (hw : i.code = .word w) (hi : i.wellFormed = true) :
    decodeCode (.word w) = some i := hw ▸ decodeCode_code hi

/-- Settles O3: each word is the code of its instruction, and the parcel of zeros is a reserved one. -/
theorem specWordsDecode : Obligations.SpecWordsDecode :=
  ⟨decodeCode_of_code_eq rfl rfl, decodeCode_of_code_eq rfl rfl, decodeCode_of_code_eq rfl rfl,
    decodeCode_of_code_eq rfl rfl, decodeCode_of_code_eq rfl rfl, decodeCode_of_code_eq rfl rfl,
    decodeCode_of_code_eq rfl rfl, (reservedParcelsAreIllegal 0 rfl).mpr (.inl ⟨rfl, rfl, rfl⟩)⟩

end Sys2Proof

namespace Sys2Proof.Machine

/-! ## Sums, shifts and comparisons as numbers (R303 to R305, R309 to R319) -/

theorem add_eq_ofNat (a b : Word) : a + b = BitVec.ofNat 32 (a.toNat + b.toNat) := by
  rw [← add_zextImm, zextImm, BitVec.setWidth_eq]

theorem add_sextImm {n : Nat} (a : Word) (imm : BitVec n) : a + sextImm imm = BitVec.ofInt 32 (a.toInt + imm.toInt) := by
  rw [sextImm_eq_ofInt, BitVec.ofInt_add, BitVec.ofInt_toInt]

theorem shiftLeft_eq_ofNat (a : Word) (n : Nat) : a <<< n = BitVec.ofNat 32 (a.toNat * 2 ^ n) :=
  BitVec.eq_of_toNat_eq (by rw [BitVec.toNat_shiftLeft, Nat.shiftLeft_eq, BitVec.toNat_ofNat])

/-- The shift instructions take the low five bits of rs2 (R314, R318, R319). -/
theorem toNat_low5 (b : Word) : (b.extractLsb' 0 5).toNat = b.toNat % 32 := by
  rw [BitVec.extractLsb'_toNat, Nat.shiftRight_zero]

theorem boolWord_decide (p : Prop) [Decidable p] : boolWord (decide p) = if p then 1 else 0 := by
  split <;> simp [boolWord, *]

theorem boolWord_slt (a b : Word) : boolWord (a.slt b) = if a.toInt < b.toInt then 1 else 0 := boolWord_decide _

theorem boolWord_ult (a b : Word) : boolWord (a.ult b) = if a.toNat < b.toNat then 1 else 0 := boolWord_decide _

theorem toInt_sextImm {n : Nat} (imm : BitVec n) (h : n ≤ 32) : (sextImm imm).toInt = imm.toInt :=
  BitVec.toInt_signExtend_of_le h

theorem boolWord_slt_sextImm (a : Word) (imm : BitVec 12) :
    boolWord (a.slt (sextImm imm)) = if a.toInt < imm.toInt then 1 else 0 := by
  rw [boolWord_slt, toInt_sextImm imm (by decide)]

/-! ## The upper immediate (R244, R301, R302) -/

theorem toNat_upperImm (imm : BitVec 20) : (upperImm imm).toNat = imm.toNat * 4096 := by
  rw [upperImm, BitVec.toNat_append, BitVec.toNat_ofNat, Nat.zero_mod, Nat.or_zero, Nat.shiftLeft_eq]

theorem upperImm_eq_ofNat (imm : BitVec 20) : upperImm imm = BitVec.ofNat 32 (imm.toNat * 4096) := by
  rw [← toNat_upperImm, BitVec.ofNat_toNat, BitVec.setWidth_eq]

theorem add_upperImm (a : Word) (imm : BitVec 20) : a + upperImm imm = BitVec.ofNat 32 (a.toNat + imm.toNat * 4096) := by
  rw [add_eq_ofNat, toNat_upperImm]

/-! ## The integer instructions (R300 to R322, R474) -/

/-- A 32-bit instruction that ends as an integer instruction writes its result, however that is put, with pc + 4 (R300). -/
theorem alu_spec {i : Instr} {s : State} {rd : Reg} {v w : Word} (h : exec i s = finishAlu s false rd v) (hv : v = w) :
    GoesTo (exec i s) fun t => WroteReg s t rd w (s.pc + 4) := by
  rw [h, hv]
  exact finishAlu_spec s false rd w

/-- Settles O11: each instruction ends as an integer instruction, with the result the statement gives as a number. -/
theorem registerArithmetic : Obligations.RegisterArithmetic := by
  intro s rd rs1 rs2 a b gives
  have hlow : b.toNat % 32 = (b.extractLsb' 0 5).toNat := (toNat_low5 b).symm
  rw [hlow]
  exact ⟨alu_spec rfl (add_eq_ofNat a b), alu_spec rfl (sub_eq_ofInt a b), alu_spec rfl (shiftLeft_eq_ofNat a _),
    alu_spec rfl (boolWord_slt a b), alu_spec rfl (boolWord_ult a b), alu_spec rfl rfl,
    alu_spec rfl (ushiftRight_eq_ofNat a _), alu_spec rfl (sshiftRight_eq_ofInt a _), alu_spec rfl rfl, alu_spec rfl rfl⟩

/-- Settles O12: each instruction ends as an integer instruction; LUI and AUIPC with the upper immediate, WFI with nothing. -/
theorem immediateArithmetic : Obligations.ImmediateArithmetic := by
  intro s rd rs1 imm shamt upper a b gives
  have hb : b = sextImm imm := (sextImm_eq_ofInt imm).symm
  rw [hb]
  exact ⟨alu_spec rfl (add_sextImm a imm), alu_spec rfl (boolWord_slt_sextImm a imm),
    alu_spec rfl (boolWord_ult a (sextImm imm)), alu_spec rfl rfl, alu_spec rfl rfl, alu_spec rfl rfl,
    alu_spec rfl (shiftLeft_eq_ofNat a _), alu_spec rfl (ushiftRight_eq_ofNat a _),
    alu_spec rfl (sshiftRight_eq_ofInt a _), alu_spec rfl (upperImm_eq_ofNat upper),
    alu_spec rfl (add_upperImm s.pc upper), alu_spec rfl rfl⟩

end Sys2Proof.Machine

/-! PROOFS. Control transfer: the targets as numbers, the comparisons, the jumps and the branches
(R330 to R338, R406, R417 to R419, R422, R424). -/

namespace Sys2Proof.Machine

/-! ## Targets as numbers (R330 to R332) -/

theorem add_sextImm_ofNat {n : Nat} (a : Word) (off : BitVec n) :
    a + sextImm off = BitVec.ofInt 32 (a.toNat + off.toInt) := by
  rw [sextImm_eq_ofInt, BitVec.ofInt_add, BitVec.ofInt_natCast, BitVec.ofNat_toNat, BitVec.setWidth_eq]

theorem relTarget_eq_ofInt {n : Nat} (s : State) (off : BitVec n) :
    relTarget s off = BitVec.ofInt 32 (s.pc.toNat + off.toInt) := add_sextImm_ofNat s.pc off

/-- The mask of a register transfer clears bit 0 and keeps the other bits (R332). -/
theorem and_evenMask (v : Word) : v &&& 0xFFFFFFFE = BitVec.ofNat 32 (v.toNat - v.toNat % 2) := by
  have hmask : (0xFFFFFFFE : Word) = BitVec.allOnes 32 <<< 1 := by decide
  have hnat : v.toNat - v.toNat % 2 = v.toNat / 2 ^ 1 * 2 ^ 1 := by omega
  rw [hmask, ← BitVec.shiftLeft_ushiftRight, shiftLeft_eq_ofNat, BitVec.toNat_ushiftRight, Nat.shiftRight_eq_div_pow, hnat]

theorem regTarget_eq_ofNat {n : Nat} (s : State) (rs1 : Reg) (off : BitVec n) :
    let sum := (BitVec.ofInt 32 ((reg s rs1).toNat + off.toInt)).toNat
    regTarget s rs1 off = BitVec.ofNat 32 (sum - sum % 2) := by
  rw [regTarget, add_sextImm_ofNat, and_evenMask]

/-- C.JR and C.JALR add nothing to the register (R422, R424). -/
theorem regTarget_zero (s : State) (rs1 : Reg) :
    regTarget s rs1 0#12 = BitVec.ofNat 32 ((reg s rs1).toNat - (reg s rs1).toNat % 2) := by
  have hsum : reg s rs1 + sextImm 0#12 = reg s rs1 := BitVec.add_zero _
  rw [regTarget, hsum, and_evenMask]

/-! ## The comparisons (R17, R333 to R338) -/

theorem holds_eq_iff (a b : Word) : Cond.eq.holds a b = true ↔ a = b := beq_iff_eq

theorem holds_ne_iff (a b : Word) : Cond.ne.holds a b = true ↔ a ≠ b := bne_iff_ne

theorem holds_lt_iff (a b : Word) : Cond.lt.holds a b = true ↔ a.toInt < b.toInt := BitVec.slt_iff_toInt_lt

theorem holds_ge_iff (a b : Word) : Cond.ge.holds a b = true ↔ b.toInt ≤ a.toInt := by
  rw [← Int.not_lt, ← holds_lt_iff, Bool.not_eq_true]
  exact iff_of_eq (Bool.not_eq_true' _)

theorem holds_ltu_iff (a b : Word) : Cond.ltu.holds a b = true ↔ a.toNat < b.toNat := BitVec.ult_iff_lt

theorem holds_geu_iff (a b : Word) : Cond.geu.holds a b = true ↔ b.toNat ≤ a.toNat := by
  rw [← Nat.not_lt, ← holds_ltu_iff, Bool.not_eq_true]
  exact iff_of_eq (Bool.not_eq_true' _)

/-! ## The jumps and the branches (R330, R331) -/

/-- An instruction that ends as a jump links the next address and goes to its target, however that is put. -/
theorem jump_spec (short : Bool) {i : Instr} {s : State} {rd : Reg} {target next : Word}
    (h : exec i s = finishJump s short rd target) (ht : target = next) :
    GoesTo (exec i s) fun t => WroteReg s t rd (s.pc + ilen short) next := by
  rw [h, ht]
  exact finishJump_spec s short rd next

/-- Settles O18: each instruction ends as a jump, to the target the statement gives as a number. -/
theorem jumps : Obligations.Jumps := by
  intro s rd rs1 far off gives even
  exact ⟨jump_spec false rfl (relTarget_eq_ofInt s far), jump_spec false rfl (regTarget_eq_ofNat s rs1 off),
    jump_spec true rfl (relTarget_eq_ofInt s off), jump_spec true rfl (relTarget_eq_ofInt s off),
    jump_spec true rfl (regTarget_zero s rs1), jump_spec true rfl (regTarget_zero s rs1)⟩

section
variable {n : Nat} {i : Instr} {s : State} {taken : Bool} {off : BitVec n} {p : Prop} [Decidable p]

/-- An instruction that ends as a branch, taken exactly when `p` holds, goes to its target then. -/
theorem branch_spec (short : Bool) (h : exec i s = finishBranch s short taken (relTarget s off)) (hp : taken = true ↔ p) :
    GoesTo (exec i s) fun t =>
      WroteReg s t 0 0 (if p then BitVec.ofInt 32 (s.pc.toNat + off.toInt) else s.pc + ilen short) := by
  rw [h, ← relTarget_eq_ofInt, ← if_congr hp rfl rfl]
  exact finishBranch_spec s short taken (relTarget s off)

/-- An instruction that ends as a branch, taken exactly when `p` fails, falls through when `p` holds. -/
theorem branch_not_spec (short : Bool) (h : exec i s = finishBranch s short taken (relTarget s off))
    (hp : taken = true ↔ ¬p) :
    GoesTo (exec i s) fun t =>
      WroteReg s t 0 0 (if p then s.pc + ilen short else BitVec.ofInt 32 (s.pc.toNat + off.toInt)) := by
  rw [← ite_not]
  exact branch_spec short h hp

end

/-- Settles O19: each instruction ends as a branch, taken when the comparison the statement gives holds. -/
theorem branches : Obligations.Branches := by
  intro s rs1 rs2 r off near a b target short goes
  rw [x8_eq_wideReg]
  exact ⟨branch_spec false rfl (holds_eq_iff a b), branch_not_spec false rfl (holds_ne_iff a b),
    branch_spec false rfl (holds_lt_iff a b), branch_spec false rfl (holds_ge_iff a b),
    branch_spec false rfl (holds_ltu_iff a b), branch_spec false rfl (holds_geu_iff a b),
    branch_spec true rfl (holds_eq_iff _ 0), branch_not_spec true rfl (holds_ne_iff _ 0)⟩

end Sys2Proof.Machine

/-! PROOFS. ECALL and EBREAK: the exceptions they take, and EBREAK's way into Debug Mode (R371, R372, R425, R476, R504, R509, R520,
R523, R645, R649, R656, R663). -/

namespace Sys2Proof.Machine

/-! ## Traps of an instruction that was counted (R520, R674) -/

/-- A trap entered after events were counted is a trap from the state before them: only event counters differ. -/
theorem Trapped.of_countEvents {s t : State} {f : Nat → Nat → Nat} {c v target : Word}
    (h : Trapped (Machine.countEvents s f) t c v target) : Trapped s t c v target where
  pc := h.pc
  mepc := h.mepc.trans (countEvents_pc s f)
  mcause := h.mcause
  mtval := h.mtval
  mpie := h.mpie.trans (by rw [countEvents_csr])
  mie := h.mie
  mpp := h.mpp
  registers r := (h.registers r).trans (reg_countEvents s f r)
  memory b := (h.memory b).trans (dataByte_congr (countEvents_wb s f) (countEvents_mem s f) b)
  frame := by
    have hframe := h.frame
    rw [countEvents_frame s f] at hframe
    exact hframe

/-- An exception taken by an instruction that was counted goes where the exceptions of the state before it go. -/
theorem takeException_countEvents_spec (s : State) (f : Nat → Nat → Nat) (c v : Word) :
    Trapped s (takeException (countEvents s f) c v) c v (exceptionTarget s) := by
  have htrap := takeException_spec (countEvents s f) c v
  rw [exceptionTarget, countEvents_csr] at htrap
  exact htrap.of_countEvents

/-- Settles O29: event 20 is counted, and the exception is taken. -/
theorem ecallTraps : Obligations.EcallTraps := fun s => ⟨_, rfl, takeException_countEvents_spec s _ 11 0⟩

/-! ## A breakpoint that enters Debug Mode (R476, R645, R649, R656, R663) -/

/-- The cause field of `dcsr` reads the cause it was given (R59, R656). -/
theorem cause_withCause (dcsr : Word) (c : DebugCause) : (withCause dcsr c).extractLsb' 6 3 = c.code := by
  refine BitVec.eq_of_getLsbD_eq fun n hn => ?_
  unfold withCause
  interval_cases n <;> simp

/-- Of the hart's registers a breakpoint into Debug Mode leaves all but `dpc`, `dcsr` and `mdseac`. -/
theorem breakToDebug_hart (s : State) :
    let t := breakToDebug s
    t.regs = s.regs ∧ t.pc = s.pc ∧ t.counters = s.counters ∧
      t.csr = { s.csr with dpc := s.pc, dcsr := t.csr.dcsr, mdseac := t.csr.mdseac } := by
  have hk := drainBus_keepsHart s
  dsimp only
  rw [breakToDebug, enterDebug_spec]
  refine ⟨hk.regs, hk.pc, hk.counters, ?_⟩
  dsimp only
  rw [hk.csrs]

/-- A breakpoint into Debug Mode quiesces the core: the bus is drained, the stores are performed (R206, R649). -/
theorem breakToDebug_drains (s : State) :
    let t := breakToDebug s
    t.wb = [] ∧ t.responses = [] ∧ StoresPerformed s t ∧ OtherMemoryKept s t := by
  obtain ⟨-, hw, hr, -⟩ := drainBus_spec s
  exact ⟨hw, hr, drainBus_performs s, (drainBus_view s).view.2⟩

/-- The cause is the breakpoint's, with its indication, or in a single step the step's, without one (R645, R656, R663). -/
theorem breakToDebug_cause (s : State) :
    let t := breakToDebug s
    if s.stepping then t.csr.dcsr.extractLsb' 6 3 = 4#3 ∧ t.brkptStatus = s.brkptStatus
      else t.csr.dcsr.extractLsb' 6 3 = 1#3 ∧ t.brkptStatus = true := by
  dsimp only
  unfold breakToDebug
  cases s.stepping
  · exact ⟨cause_withCause _ _, Bool.or_true _⟩
  · exact ⟨cause_withCause _ _, Bool.or_false _⟩

/-! ## EBREAK and C.EBREAK (R372, R425) -/

/-- Bit 15 of `dcsr`, ebreakm, decides between the exception and Debug Mode, once events are counted (R476; log 4). -/
theorem finishBreak_eq (s : State) : ∃ f, finishBreak s =
    .next (if s.csr.dcsr.getLsbD 15 then breakToDebug (countEvents s f) else takeException (countEvents s f) 3 s.pc) := by
  refine ⟨fun _ e => (e == 19).toNat, ?_⟩
  unfold finishBreak
  dsimp only
  rw [countEvents_csr, countEvents_pc]
  split <;> rfl

/-- Stores performed since events were counted are performed since the state before: counting touches no memory. -/
theorem storesPerformed_of_countEvents {s t : State} {f : Nat → Nat → Nat} (hp : StoresPerformed (countEvents s f) t)
    (ho : OtherMemoryKept (countEvents s f) t) : StoresPerformed s t ∧ OtherMemoryKept s t := by
  rw [countEvents_frame] at hp ho
  exact ⟨hp, ho⟩

/-- Settles O30: both forms end as a breakpoint, which takes the exception or enters Debug Mode. -/
theorem ebreakTrapsOrHalts : Obligations.EbreakTrapsOrHalts := by
  intro s i hi
  have hx : exec i s = finishBreak s := by
    rcases hi with rfl | rfl <;> rfl
  obtain ⟨f, hf⟩ := finishBreak_eq s
  rw [hx, hf]
  refine ⟨fun hm => ?_, fun hm => ?_⟩
  · rw [hm, if_neg Bool.false_ne_true]
    exact ⟨_, rfl, takeException_countEvents_spec s f 3 s.pc⟩
  · rw [if_pos hm]
    obtain ⟨hregs, hpc, hcounters, hcsr⟩ := breakToDebug_hart (countEvents s f)
    obtain ⟨hwb, hresp, hperf, hother⟩ := breakToDebug_drains (countEvents s f)
    obtain ⟨hperf, hother⟩ := storesPerformed_of_countEvents hperf hother
    have hcause := breakToDebug_cause (countEvents s f)
    dsimp only at hcause
    rw [countEvents_stepping, countEvents_brkptStatus] at hcause
    rw [countEvents_csr, countEvents_pc] at hcsr
    refine ⟨_, rfl, rfl, rfl, hwb, hresp, hperf, hother, hcause, hpc.trans (countEvents_pc s f), fun r => ?_, ?_, hcsr⟩
    · exact reg_congr (hregs.trans (countEvents_regs s f)) r
    · rw [hcounters, countEvents_counters]

end Sys2Proof.Machine

/-! PROOFS. Multiplication and division: the halves of the product, the quotients and remainders, and the fixed results of the
special cases (R380 to R389). -/

namespace Sys2Proof.Machine

/-! ## Products as numbers (R381 to R384) -/

theorem mul_eq_ofInt (a b : Word) : a * b = BitVec.ofInt 32 (a.toInt * b.toInt) := by
  rw [BitVec.ofInt_mul, BitVec.ofInt_toInt, BitVec.ofInt_toInt]

/-- The upper half of a 64-bit two's complement number is its quotient by 2 ^ 32, rounded down. -/
theorem extractHigh_ofInt (x : Int) : (BitVec.ofInt 64 x).extractLsb' 32 32 = BitVec.ofInt 32 (x / 2 ^ 32) := by
  apply BitVec.eq_of_toNat_eq
  rw [BitVec.extractLsb'_toNat, BitVec.toNat_ofInt, BitVec.toNat_ofInt, Nat.shiftRight_eq_div_pow]
  omega

theorem highProduct_eq_ofInt (a b : Int) : highProduct a b = BitVec.ofInt 32 (a * b / 2 ^ 32) := extractHigh_ofInt (a * b)

/-! ## Quotients and remainders (R385 to R389) -/

section
variable {a b : Word}

theorem divSigned_of_zero (hb : b = 0) : divSigned a b = 0xFFFFFFFF := if_pos hb

theorem divUnsigned_of_zero (hb : b = 0) : divUnsigned a b = 0xFFFFFFFF := if_pos hb

theorem remSigned_of_zero (hb : b = 0) : remSigned a b = a := if_pos hb

theorem remUnsigned_of_zero (hb : b = 0) : remUnsigned a b = a := if_pos hb

theorem divSigned_of_overflow (ho : a = 0x80000000 ∧ b = 0xFFFFFFFF) : divSigned a b = 0x80000000 := by
  obtain ⟨rfl, rfl⟩ := ho
  rfl

theorem remSigned_of_overflow (ho : a = 0x80000000 ∧ b = 0xFFFFFFFF) : remSigned a b = 0 := by
  obtain ⟨rfl, rfl⟩ := ho
  rfl

theorem divSigned_eq_ofInt (hb : b ≠ 0) (ho : ¬(a = 0x80000000 ∧ b = 0xFFFFFFFF)) :
    divSigned a b = BitVec.ofInt 32 (a.toInt.tdiv b.toInt) := (if_neg hb).trans (if_neg ho)

/-- What the quotient toward zero leaves of the dividend is the remainder with the dividend's sign (R387). -/
theorem remSigned_eq_ofInt (hb : b ≠ 0) (ho : ¬(a = 0x80000000 ∧ b = 0xFFFFFFFF)) :
    remSigned a b = BitVec.ofInt 32 (a.toInt - b.toInt * a.toInt.tdiv b.toInt) := by
  rw [← Int.tmod_def]
  exact (if_neg hb).trans (if_neg ho)

theorem divUnsigned_eq_ofNat (hb : b ≠ 0) : divUnsigned a b = BitVec.ofNat 32 (a.toNat / b.toNat) := if_neg hb

theorem remUnsigned_eq_ofNat (hb : b ≠ 0) : remUnsigned a b = BitVec.ofNat 32 (a.toNat % b.toNat) := if_neg hb

end

/-! ## The instructions (R380) -/

/-- An instruction that ends as a multiplication or division writes its result, however that is put, with pc + 4. -/
theorem mulDiv_spec {cls : InstrClass} {i : Instr} {s : State} {rd : Reg} {v w : Word}
    (h : exec i s = finishMulDiv s cls rd v) (hv : v = w) :
    GoesTo (exec i s) fun t => WroteReg s t rd w (s.pc + 4) := by
  rw [h, hv]
  exact finishMulDiv_spec s cls rd w

/-- Settles O16: each instruction ends as a multiplication, with the half of the product the statement gives as a number. -/
theorem multiplication : Obligations.Multiplication := by
  intro s rd rs1 rs2 a b gives
  exact ⟨mulDiv_spec rfl (mul_eq_ofInt a b), mulDiv_spec rfl (highProduct_eq_ofInt a.toInt b.toInt),
    mulDiv_spec rfl (highProduct_eq_ofInt a.toInt b.toNat), mulDiv_spec rfl (highProduct_eq_ofInt a.toNat b.toNat)⟩

/-- Settles O17: a zero divisor, the overflow, signed division otherwise, and unsigned division. -/
theorem division : Obligations.Division := by
  intro s rd rs1 rs2 a b overflow gives
  refine ⟨fun hzero => ?_, fun hover => ?_, fun hb ho => ?_, fun hb => ?_⟩
  · exact ⟨mulDiv_spec rfl (divSigned_of_zero hzero), mulDiv_spec rfl (divUnsigned_of_zero hzero),
      mulDiv_spec rfl (remSigned_of_zero hzero), mulDiv_spec rfl (remUnsigned_of_zero hzero)⟩
  · exact ⟨mulDiv_spec rfl (divSigned_of_overflow hover), mulDiv_spec rfl (remSigned_of_overflow hover)⟩
  · exact ⟨mulDiv_spec rfl (divSigned_eq_ofInt hb ho), mulDiv_spec rfl (remSigned_eq_ofInt hb ho)⟩
  · exact ⟨mulDiv_spec rfl (divUnsigned_eq_ofNat hb), mulDiv_spec rfl (remUnsigned_eq_ofNat hb)⟩

end Sys2Proof.Machine

/-! PROOFS. The C integer forms with full register fields (R263, R400, R404, R405, R407 to R409, R420, R423, R426). -/

namespace Sys2Proof.Machine

/-- The twelve zeros below the C.LUI immediate are a factor of 4096, which sign extension keeps (R263, R409). -/
theorem cUpperImm_eq_ofInt (imm : BitVec 6) : cUpperImm imm = BitVec.ofInt 32 (imm.toInt * 4096) := by
  have htoInt : (imm ++ 0#12).toInt = imm.toInt * 4096 := BitVec.toInt_append_zero.trans (Int.mul_comm _ _)
  rw [cUpperImm, BitVec.signExtend, htoInt]

/-- A C form that ends as an integer instruction writes its result, however that is put, with pc + 2 (R400). -/
theorem compressedAlu_spec {i : Instr} {s : State} {rd : Reg} {v w : Word} (h : exec i s = finishAlu s true rd v)
    (hv : v = w) : GoesTo (exec i s) fun t => WroteReg s t rd w (s.pc + 2) := by
  rw [h, hv]
  exact finishAlu_spec s true rd w

/-- Settles O14: each form ends as an integer instruction, with the result the statement gives as a number; C.NOP with
nothing, C.MV with the source itself. -/
theorem compressedArithmetic : Obligations.CompressedArithmetic := by
  intro s rd rs2 imm wide shamt a gives
  exact ⟨compressedAlu_spec rfl rfl, compressedAlu_spec rfl (add_sextImm a imm),
    compressedAlu_spec rfl (sextImm_eq_ofInt imm), compressedAlu_spec rfl (cUpperImm_eq_ofInt imm),
    compressedAlu_spec rfl (add_sextImm (reg s 2) wide), compressedAlu_spec rfl (shiftLeft_eq_ofNat a _),
    compressedAlu_spec rfl rfl, compressedAlu_spec rfl (add_eq_ofNat a (reg s rs2))⟩

end Sys2Proof.Machine

/-! PROOFS. A Zicsr instruction completes on every CSR the access check allows: what CSR reads and writes leave of the registers and
the pc (R445 to R452, R672). -/

namespace Sys2Proof.Machine

/-! ## The registers and the pc under CSR accesses (R445) -/

/-- A read of `dicago` changes only `dicad0` and `dicad1` (R115). -/
theorem readArray_csrs (s : State) : readArray s = { s with csr := (readArray s).csr } := by
  unfold readArray
  dsimp only
  split <;> rfl

/-- The side effect of a read changes CSRs only. -/
theorem csrReadEffect_csrs (s : State) (c : Csr) : csrReadEffect s c = { s with csr := (csrReadEffect s c).csr } := by
  unfold csrReadEffect
  split
  · exact readArray_csrs s
  · rfl

/-- No CSR write changes a general register or the pc: not the halt of `mpmc`, nor the fences of `dmst`, either
(R103, R108, R445). -/
theorem csrWrite_regs_pc (s : State) (c : Csr) (v : Word) : (csrWrite s c v).regs = s.regs ∧ (csrWrite s c v).pc = s.pc := by
  cases c
  case mfdc => exact ⟨recordMfdcWrite_regs _, recordMfdcWrite_pc _⟩
  case dmst =>
    obtain ⟨hregs, hpc, -⟩ := writeDmst_keepsHart s (v := v)
    exact ⟨hregs, hpc⟩
  case mpmc =>
    rw [csrWrite_mpmc]
    split
    · obtain ⟨-, -, hregs, hpc, -⟩ := firmwareHalt_drains s
      exact ⟨hregs, hpc⟩
    · exact ⟨rfl, rfl⟩
  case dicago =>
    unfold csrWrite writeArray
    dsimp only
    split_ifs <;> exact ⟨rfl, rfl⟩
  case mhpmevent | mhpmcounter | mhpmcounterh =>
    unfold csrWrite
    dsimp only
    split <;> exact ⟨rfl, rfl⟩
  all_goals exact ⟨rfl, rfl⟩

/-! ## Completion (R446 to R452) -/

/-- An access the check allows: the value is read before anything happens, then come the read's side effect on the CSRs, the
instruction's retirement, and the write (R445, R672; log 52). -/
theorem exec_csr_allowed {s : State} {i : Instr} {f : CsrForm} {c : Csr} (hf : csrForm s i = some f)
    (hc : csrCheck s f.csr f.writes = .allowed c) :
    let old := csrRead (beforeStep s) c
    ∃ csrs, exec i s = .next (if f.writes then csrWrite (csrRetired { s with csr := csrs } f.rd old) c (f.value old)
      else csrRetired { s with csr := csrs } f.rd old) := by
  intro old
  obtain ⟨reads, hr⟩ := exec_csrForm hf
  have hread : ∃ csrs, (if reads then csrReadEffect s c else s) = { s with csr := csrs } := by
    split
    · exact ⟨_, csrReadEffect_csrs s c⟩
    · exact ⟨s.csr, rfl⟩
  obtain ⟨csrs, hcsrs⟩ := hread
  refine ⟨csrs, ?_⟩
  rw [hr, csrAccess, hc]
  dsimp only
  rw [hcsrs]
  rfl

/-- Settles O35: the instruction retires with the old value in `rd`, and a write that follows keeps the registers and the pc. -/
theorem csrInstructionsComplete : Obligations.CsrInstructionsComplete := by
  intro s i f c hf hc
  obtain ⟨csrs, hx⟩ := exec_csr_allowed hf hc
  have hw := csrRetired_wroteReg { s with csr := csrs } f.rd (csrRead (beforeStep s) c)
  generalize csrRetired { s with csr := csrs } f.rd (csrRead (beforeStep s) c) = u at hx hw
  have hkeeps : ∀ v, (if f.writes then csrWrite u c v else u).regs = u.regs ∧
      (if f.writes then csrWrite u c v else u).pc = u.pc := fun v => by
    split
    · exact csrWrite_regs_pc u c v
    · exact ⟨rfl, rfl⟩
  obtain ⟨hregs, hpc⟩ := hkeeps (f.value (csrRead (beforeStep s) c))
  exact ⟨_, hx, fun h => (reg_congr hregs _).trans (hw.target h), fun r h => (reg_congr hregs r).trans (hw.others r h),
    reg_zero _, hpc.trans hw.pc⟩

end Sys2Proof.Machine

/-! PROOFS. MRET: the return from a trap (R471, R525). -/

namespace Sys2Proof.Machine

/-- Retiring from a state with the registers and counters of `s` is the instruction's only other effect. -/
theorem retires_retire {s u : State} (hregs : u.regs = s.regs) (hcount : u.counters = s.counters) (r : Retired)
    (next : Word) : Retires s u (retire u r next) next where
  registers i := (reg_retire u r next i).trans (reg_congr hregs i)
  pc := retire_pc u r next
  retired := by simp [retire_counters, hcount]
  frame := by rw [retire_frame, ← hcount]

/-- The state a return goes on in depends on the state it starts from by `mstatus` and the pc only, so that the pc the return
sets may be forgotten under a retirement, which sets it again (R525). -/
theorem retires_of_returnFromTrap {s t : State} {next : Word} (h : Retires s (returnFromTrap s) t next) :
    Retires s { s with csr := { s.csr with mstatus := returnStatus s.csr.mstatus } } t next :=
  ⟨h.registers, h.pc, h.retired, h.frame⟩

theorem exec_mret (s : State) : exec .mret s = .next (retire (returnFromTrap s) ⟨false, .mret, false⟩ s.csr.mepc) := rfl

/-- Settles O31: `returnStatus` has the bits the return is due, and the instruction retires from the state it makes. -/
theorem mretReturns : Obligations.MretReturns := by
  intro s
  have hret := retires_of_returnFromTrap
    (retires_retire (returnFromTrap_regs s) (returnFromTrap_counters s) ⟨false, .mret, false⟩ s.csr.mepc)
  have hstatus : (retire (returnFromTrap s) ⟨false, .mret, false⟩ s.csr.mepc).csr.mstatus = returnStatus s.csr.mstatus := by
    rw [retire_csr, returnFromTrap_csr]
  obtain ⟨hmie, hmpie, hmpp⟩ := returnStatus_bits s.csr.mstatus
  refine ⟨_, exec_mret s, ?_⟩
  beta_reduce
  rw [hstatus]
  exact ⟨hmie, hmpie, hmpp, hret, fun b => dataByte_congr (by simp) (by simp) b⟩

end Sys2Proof.Machine

/-! PROOFS. The PIC: which sources there are, what their gateways request, and which of them wins (R570, R575, R576,
R583 to R585). -/

namespace Sys2Proof.Machine

/-! ## Single bits -/

theorem getLsbD_putBit {w : Nat} (x : BitVec w) (i : Nat) (b : Bool) {j : Nat} (hj : j < w) :
    (putBit x i b).getLsbD j = if j = i then b else x.getLsbD j := by
  by_cases h : j = i
  · subst h
    cases b <;> simp [putBit, hj]
  · cases b <;> simp [putBit, hj, h]

/-- Every other bit stays, whatever the width. -/
theorem getLsbD_putBit_other {w : Nat} (x : BitVec w) {i j : Nat} (b : Bool) (h : j ≠ i) :
    (putBit x i b).getLsbD j = x.getLsbD j := by
  by_cases hj : j < w
  · rw [getLsbD_putBit x i b hj, if_neg h]
  · rw [BitVec.getLsbD_of_ge _ _ (by omega), BitVec.getLsbD_of_ge _ _ (by omega)]

/-- Bit 0 of a word, as a register of one bit shows it. -/
theorem setWidth_ofBool_bit0 (v : Word) : (BitVec.ofBool (v.getLsbD 0)).setWidth 32 = v &&& 1 := by
  refine BitVec.eq_of_getLsbD_eq fun n hn => ?_
  interval_cases n <;> simp

/-- Bits 1 and 0 of a word, as a register of two bits shows them. -/
theorem setWidth_ofBool_bits10 (v : Word) :
    (BitVec.ofBool (v.getLsbD 1) ++ BitVec.ofBool (v.getLsbD 0)).setWidth 32 = v &&& 3 := by
  refine BitVec.eq_of_getLsbD_eq fun n hn => ?_
  rw [BitVec.getLsbD_setWidth, BitVec.getLsbD_append]
  interval_cases n <;> simp

/-- The low four bits of a word, as a register of four bits shows them. -/
theorem setWidth_low4 (v : Word) : (v.extractLsb' 0 4).setWidth 32 = v &&& 0xF := by
  refine BitVec.eq_of_getLsbD_eq fun n hn => ?_
  interval_cases n <;> simp

/-! ## Sources (R570, R575) -/

theorem validSource_iff (c : Build) (n : Nat) : validSource c n = true ↔ 1 ≤ n ∧ n ≤ c.picTotalInt := by
  simp [validSource]

/-- The mask of the sources holds those that exist (R570). -/
theorem getLsbD_sourceMask (c : Build) (n : Nat) :
    (sourceMask c).getLsbD n = (decide (n < 256) && validSource c n) := by
  have hbit : (2 ^ (c.picTotalInt + 1) - 2).testBit n = validSource c n := by
    rw [show 2 ^ (c.picTotalInt + 1) - 2 = 2 * (2 ^ c.picTotalInt - 1) by rw [pow_succ]; omega]
    cases n with
    | zero => simp [validSource]
    | succ n => simp [Nat.testBit_succ, Nat.testBit_two_pow_sub_one, validSource]
  rw [sourceMask, BitVec.getLsbD_ofNat, hbit]

theorem validSource_lt {c : Build} {n : Nat} (hc : c.picTotalInt ≤ 255) (h : validSource c n = true) : n < 256 := by
  have := (validSource_iff c n).mp h
  omega

/-- A source that exists has a configurable gateway if the build says so (R575). -/
theorem getLsbD_configurable {c : Build} {n : Nat} (hn : n < 256) (h : validSource c n = true) :
    (configurable c).getLsbD n = c.gatewayConfigurable.getLsbD n := by
  rw [configurable, BitVec.getLsbD_and, getLsbD_sourceMask, h, decide_eq_true hn, Bool.and_true, Bool.and_true]

theorem getLsbD_configurable_eq_false {c : Build} {n : Nat}
    (h : validSource c n = false ∨ c.gatewayConfigurable.getLsbD n = false) : (configurable c).getLsbD n = false := by
  rw [configurable, BitVec.getLsbD_and, getLsbD_sourceMask]
  rcases h with h | h <;> rw [h] <;> simp

/-! ## Gateways (R575, R576, R583) -/

/-- One source's request: the level against the polarity, or the pending bit when edge-triggered, each where the gateway is
configurable. -/
theorem getLsbD_requests (c : Build) (p : PicRegs) {n : Nat} (hn : n < 256) (h : validSource c n = true) :
    (requests c p).getLsbD n =
      if p.gwType.getLsbD n && c.gatewayConfigurable.getLsbD n then p.ip.getLsbD n
      else (p.prev.getLsbD n ^^ (p.gwPol.getLsbD n && c.gatewayConfigurable.getLsbD n)) := by
  simp only [requests, BitVec.getLsbD_and, BitVec.getLsbD_or, BitVec.getLsbD_xor, BitVec.getLsbD_not,
    getLsbD_configurable hn h, getLsbD_sourceMask, h, decide_eq_true hn, Bool.and_true, Bool.true_and]
  cases p.gwType.getLsbD n && c.gatewayConfigurable.getLsbD n <;> simp

/-- Settles O49: no request of a source that is none; the others' by the kind of their gateway. -/
theorem gatewayRequests : Obligations.GatewayRequests := by
  intro c p n hc
  refine ⟨fun h => ?_, fun h hg => ?_, fun h hg => ?_⟩
  · rw [requests, BitVec.getLsbD_and, getLsbD_sourceMask, h, Bool.and_false, Bool.and_false]
  · simp [getLsbD_requests c p (validSource_lt hc h) h, hg]
  · simp [getLsbD_requests c p (validSource_lt hc h) h, hg]

/-! ## The winner (R584, R585) -/

/-- `w` is the winner among sources 1 to `m`: nobody's priority exceeds its own, and it is the first that has it; nobody, ID 0,
when the priority is 0. -/
structure WinsUpTo (p : PicRegs) (m : Nat) (w : BitVec 4 × BitVec 8) : Prop where
  highest : ∀ n, 1 ≤ n → n ≤ m → candidate p n ≤ w.1
  nobody : w.1 = 0 → w.2 = 0
  first : w.1 ≠ 0 → 1 ≤ w.2.toNat ∧ w.2.toNat ≤ m ∧ candidate p w.2.toNat = w.1 ∧
    ∀ n, 1 ≤ n → n < w.2.toNat → candidate p n < w.1

/-- Where no source has a priority to take part with, nobody wins. -/
theorem winsUpTo_nobody {p : PicRegs} {m : Nat} (h : ∀ n, 1 ≤ n → n ≤ m → candidate p n = 0) : WinsUpTo p m (0, 0) :=
  ⟨fun n h1 hm => h n h1 hm ▸ BitVec.le_refl _, fun _ => rfl, fun h => absurd rfl h⟩

/-- One more source wins if its priority is higher; with the same priority the earlier one stays. -/
theorem WinsUpTo.succ {p : PicRegs} {m : Nat} {w : BitVec 4 × BitVec 8} (h : WinsUpTo p m w) (hm : m + 1 < 256) :
    WinsUpTo p (m + 1) (if w.1 < candidate p (m + 1) then (candidate p (m + 1), BitVec.ofNat 8 (m + 1)) else w) := by
  have upTo : ∀ {v : BitVec 4}, (∀ n, 1 ≤ n → n ≤ m → candidate p n ≤ v) → candidate p (m + 1) ≤ v →
      ∀ n, 1 ≤ n → n ≤ m + 1 → candidate p n ≤ v := fun hle hlast n h1 hn => by
    rcases Nat.le_succ_iff.mp hn with hn | rfl
    · exact hle n h1 hn
    · exact hlast
  split
  · next hlt =>
    have hid : (BitVec.ofNat 8 (m + 1)).toNat = m + 1 := Nat.mod_eq_of_lt hm
    refine ⟨upTo (fun n h1 hn => BitVec.le_trans (h.highest n h1 hn) (BitVec.le_of_lt hlt)) (BitVec.le_refl _),
      fun h0 => ?_, fun _ => ?_⟩
    · rw [show candidate p (m + 1) = 0 from h0] at hlt
      exact absurd hlt BitVec.not_lt_zero
    · dsimp only
      rw [hid]
      exact ⟨by omega, le_rfl, rfl, fun n h1 hn => Nat.lt_of_le_of_lt (h.highest n h1 (by omega)) hlt⟩
  · next hle =>
    refine ⟨upTo h.highest (BitVec.not_lt.mp hle), h.nobody, fun h0 => ?_⟩
    obtain ⟨h1, hm', heq, hbelow⟩ := h.first h0
    exact ⟨h1, hm'.trans (Nat.le_succ m), heq, hbelow⟩

/-- One more source in the search: it takes part with its candidate's priority. -/
theorem winnerUpTo_succ (p : PicRegs) (m : Nat) :
    winnerUpTo p (p.staged &&& p.inten) (m + 1) =
      let w := winnerUpTo p (p.staged &&& p.inten) m
      if w.1 < candidate p (m + 1) then (candidate p (m + 1), BitVec.ofNat 8 (m + 1)) else w := by
  rw [winnerUpTo, candidate, BitVec.getLsbD_and]
  cases p.staged.getLsbD (m + 1) && p.inten.getLsbD (m + 1) <;> simp

theorem winnerUpTo_wins (p : PicRegs) (m : Nat) (hm : m < 256) :
    WinsUpTo p m (winnerUpTo p (p.staged &&& p.inten) m) := by
  induction m with
  | zero => exact winsUpTo_nobody fun n h1 h0 => absurd (h1.trans h0) (by decide)
  | succ m ih =>
    rw [winnerUpTo_succ]
    exact (ih (by omega)).succ hm

/-- Settles O48: the search over the sources, and the case in which none takes part. -/
theorem winnerIsHighestThenLowest : Obligations.WinnerIsHighestThenLowest := by
  intro c p hc
  have hw : WinsUpTo p c.picTotalInt (picWinner c p) := by
    unfold picWinner
    dsimp only
    split
    · next hnone =>
      refine winsUpTo_nobody fun n _ _ => ?_
      rw [candidate, ← BitVec.getLsbD_and, hnone]
      simp
    · exact winnerUpTo_wins p c.picTotalInt (by omega)
  exact ⟨hw.highest, hw.nobody, hw.first⟩

end Sys2Proof.Machine

/-! PROOFS. The PIC's registers as the hart reads them back, the edge latch, and the addresses at which no register stands
(R577, R600 to R608). -/

namespace Sys2Proof.Machine

/-! ## The newest registers (R602) -/

/-- A view that all updates act in takes one more update last. -/
theorem applyUpdates_concat (c : Build) (step i : Nat) (g : GatewayView) (p : PicRegs) (us : List PicUpdate) (u : PicUpdate) :
    applyUpdates c step (fun _ => true) i g p (us ++ [u]) =
      applyUpdate c step (us.foldl GatewayView.after g) (applyUpdates c step (fun _ => true) i g p us) u := by
  induction us generalizing i g p with
  | nil => simp [applyUpdates]
  | cons x xs ih => simp [applyUpdates, ih]

/-- The newest registers after one more update. -/
theorem picNewest_concat (s : State) (u : PicUpdate) (csr : Csrs) :
    picNewest { s with picQueue := s.picQueue ++ [u], csr := csr } =
      applyUpdate s.cfg s.stepNo (s.picQueue.foldl GatewayView.after .none) (picNewest s) u :=
  applyUpdates_concat _ _ _ _ _ _ _

/-- A store anywhere but to the order register waits in the queue, and does nothing else. -/
theorem issuePicStore_register (s : State) {o : Nat} (v : Word) (h : o ≠ 0x3000) :
    issuePicStore s o v = { s with picQueue := s.picQueue ++ [.store o v] } := if_neg h

/-- Such a store is in the newest registers. -/
theorem picNewest_issuePicStore (s : State) {o : Nat} (v : Word) (h : o ≠ 0x3000) :
    picNewest (issuePicStore s o v) = storePic s.cfg s.stepNo (picNewest s) o v := by
  rw [issuePicStore_register s v h]
  exact picNewest_concat s (.store o v) s.csr

/-- The newest order is the one last stored to the order register, whether the store changes it or not (R606). -/
theorem picNewest_order (s : State) (v : Word) : (picNewest (issuePicStore s 0x3000 v)).priord = v.getLsbD 0 := by
  unfold issuePicStore
  rw [if_pos rfl]
  split
  · next hsame => exact (beq_iff_eq.mp hsame).symm
  · unfold issueOrder
    split <;> rw [picNewest_concat] <;> rfl

/-! ## The registers by page (R603 to R608) -/

section Pages

variable {c : Build} {step o n : Nat} {p : PicRegs} (v : Word) {s : State}

theorem storePic_priority (hp : o / 0x1000 = 0) (hn : o % 0x1000 / 4 = n) (h : validSource c n = true) :
    storePic c step p o v = { p with
      ipl := p.ipl.set (BitVec.ofNat 8 n) (v.extractLsb' 0 4 ^^^ orderMask p.priord)
      doubt := putBit p.doubt n false } := by
  simp only [storePic, hp, hn, h, if_true]

theorem storePic_enable (hp : o / 0x1000 = 2) (hn : o % 0x1000 / 4 = n) (h : validSource c n = true) :
    storePic c step p o v = { p with inten := putBit p.inten n (v.getLsbD 0) } := by
  simp only [storePic, hp, hn, h, if_true]

theorem storePic_gateway (hp : o / 0x1000 = 4) (hn : o % 0x1000 / 4 = n) (h : (configurable c).getLsbD n = true) :
    storePic c step p o v = restage c n { p with
      gwType := putBit p.gwType n (v.getLsbD 1)
      gwPol := putBit p.gwPol n (v.getLsbD 0)
      ip := putBit p.ip n ((Config.gatewayIp step).getLsbD n) } := by
  simp only [storePic, hp, hn, h, if_true]

theorem storePic_clear (hp : o / 0x1000 = 5) (hn : o % 0x1000 / 4 = n) (h : (configurable c).getLsbD n = true) :
    storePic c step p o v = restage c n { p with ip := putBit p.ip n false } := by
  simp only [storePic, hp, hn, h, if_true]

theorem loadPic_priority (hp : o / 0x1000 = 0) (hn : o % 0x1000 / 4 = n) (h : validSource s.cfg n = true)
    (hd : (picNewest s).doubt.getLsbD n = false) :
    loadPic s o = ((picNewest s).ipl.get (BitVec.ofNat 8 n) ^^^ orderMask (picNewest s).priord).setWidth 32 := by
  simp only [loadPic, hp, hn, h, hd, if_true, Bool.false_eq_true, if_false]

theorem loadPic_pending (hp : o / 0x1000 = 1) (hn : o % 0x1000 / 4 = n) (h : n ≤ s.cfg.picTotalInt / 32) :
    loadPic s o = pendingWord s.cfg (picNow s 3) n := by
  simp only [loadPic, hp, hn, h, if_true]

theorem loadPic_enable (hp : o / 0x1000 = 2) (hn : o % 0x1000 / 4 = n) (h : validSource s.cfg n = true) :
    loadPic s o = (BitVec.ofBool ((picNewest s).inten.getLsbD n)).setWidth 32 := by
  simp only [loadPic, hp, hn, h, if_true]

theorem loadPic_order : loadPic s 0x3000 = (BitVec.ofBool (picNewest s).priord).setWidth 32 := rfl

theorem loadPic_gateway (hp : o / 0x1000 = 4) (hn : o % 0x1000 / 4 = n) (h : (configurable s.cfg).getLsbD n = true) :
    loadPic s o =
      (BitVec.ofBool ((picNewest s).gwType.getLsbD n) ++ BitVec.ofBool ((picNewest s).gwPol.getLsbD n)).setWidth 32 := by
  simp only [loadPic, hp, hn, h, if_true]

theorem loadPic_clear (hp : o / 0x1000 = 5) : loadPic s o = 0 := by
  simp only [loadPic, hp]

end Pages

/-! ## Reading back what was stored (R603 to R608) -/

section ReadBack

variable (s : State) {n : Nat} (v : Word) (hn : n < 256) (h : validSource s.cfg n = true)
include hn h

/-- A priority reads back in the order it was stored under (R581, R603). -/
theorem loadPic_issue_priority : loadPic (issuePicStore s (4 * n) v) (4 * n) = v &&& 0xF := by
  have hp : 4 * n / 0x1000 = 0 := by omega
  have hw : 4 * n % 0x1000 / 4 = n := by omega
  have hnew := (picNewest_issuePicStore s (o := 4 * n) v (by omega)).trans (storePic_priority v hp hw h)
  have hcfg : (issuePicStore s (4 * n) v).cfg = s.cfg := by rw [issuePicStore_register s v (by omega)]
  rw [loadPic_priority hp hw (hcfg ▸ h) (hnew ▸ getLsbD_putBit_false _ hn), hnew]
  dsimp only
  rw [Bank256.get_set, if_pos rfl, BitVec.xor_assoc, BitVec.xor_self, BitVec.xor_zero]
  exact setWidth_low4 v

/-- An enable bit reads back (R604). -/
theorem loadPic_issue_enable : loadPic (issuePicStore s (0x2000 + 4 * n) v) (0x2000 + 4 * n) = v &&& 1 := by
  have hp : (0x2000 + 4 * n) / 0x1000 = 2 := by omega
  have hw : (0x2000 + 4 * n) % 0x1000 / 4 = n := by omega
  have hcfg : (issuePicStore s (0x2000 + 4 * n) v).cfg = s.cfg := by rw [issuePicStore_register s v (by omega)]
  rw [loadPic_enable hp hw (hcfg ▸ h), picNewest_issuePicStore s v (by omega), storePic_enable v hp hw h]
  dsimp only
  rw [getLsbD_putBit _ _ _ hn, if_pos rfl]
  exact setWidth_ofBool_bit0 v

/-- A gateway's type and polarity read back (R607). -/
theorem loadPic_issue_gateway (hg : s.cfg.gatewayConfigurable.getLsbD n = true) :
    loadPic (issuePicStore s (0x4000 + 4 * n) v) (0x4000 + 4 * n) = v &&& 3 := by
  have hp : (0x4000 + 4 * n) / 0x1000 = 4 := by omega
  have hw : (0x4000 + 4 * n) % 0x1000 / 4 = n := by omega
  have hc : (configurable s.cfg).getLsbD n = true := (getLsbD_configurable hn h).trans hg
  have hcfg : (issuePicStore s (0x4000 + 4 * n) v).cfg = s.cfg := by rw [issuePicStore_register s v (by omega)]
  rw [loadPic_gateway hp hw (hcfg ▸ hc), picNewest_issuePicStore s v (by omega), storePic_gateway v hp hw hc]
  dsimp only [restage]
  rw [getLsbD_putBit _ _ _ hn, getLsbD_putBit _ _ _ hn, if_pos rfl, if_pos rfl]
  exact setWidth_ofBool_bits10 v

/-- A bit of the pending words is its source's request (R583, R605). -/
theorem getLsbD_loadPic_pending :
    (loadPic s (0x1000 + 4 * (n / 32))).getLsbD (n % 32) = (requests s.cfg (picNow s 3)).getLsbD n := by
  have hle : n / 32 ≤ s.cfg.picTotalInt / 32 := Nat.div_le_div_right ((validSource_iff s.cfg n).mp h).2
  rw [loadPic_pending (by omega) (n := n / 32) (by omega) hle, pendingWord, BitVec.getLsbD_extractLsb',
    decide_eq_true (Nat.mod_lt n (by decide)), Bool.true_and, Nat.div_add_mod]

end ReadBack

/-! ## The edge latch (R577, R608) -/

/-- A sample latches the edges it sees at gateways without a waiting store. -/
theorem takeSample_ip (s : State) (levels : BitVec 256) :
    (takeSample s levels).pic.ip = s.pic.ip ||| (edgesSeen s.cfg s.pic levels &&& ~~~(gatewayStores s.picQueue)) := by
  unfold takeSample
  dsimp only
  split <;> rfl

/-- The sample sees an edge of a source whose input becomes active, if its gateway is edge-triggered. -/
theorem getLsbD_edgesSeen (c : Build) (p : PicRegs) (levels : BitVec 256) {n : Nat} (hn : n < 256)
    (hc : (configurable c).getLsbD n = true) (ht : p.gwType.getLsbD n = true) :
    (edgesSeen c p levels).getLsbD n =
      ((levels.getLsbD n ^^ p.gwPol.getLsbD n) && !(p.prev.getLsbD n ^^ p.gwPol.getLsbD n)) := by
  simp only [edgesSeen, BitVec.getLsbD_and, BitVec.getLsbD_xor, BitVec.getLsbD_not, hc, ht, decide_eq_true hn, Bool.and_true,
    Bool.true_and]

/-- A store to a clear register, whatever its value, clears its source's pending bit at the fence, and no other (R608). -/
theorem settlePic_clear (s : State) {n : Nat} (v : Word) (hn : n < 256) (hc : (configurable s.cfg).getLsbD n = true)
    (hq : s.picQueue = []) :
    (settlePic (issuePicStore s (0x5000 + 4 * n) v)).pic.ip = putBit s.pic.ip n false := by
  have hnew : picNewest s = s.pic := by rw [picNewest, hq]; rfl
  rw [settlePic_pic, picNewest_issuePicStore s v (by omega), hnew,
    storePic_clear v (by omega : (0x5000 + 4 * n) / 0x1000 = 5) (by omega : (0x5000 + 4 * n) % 0x1000 / 4 = n) hc]
  rfl

/-- Settles O50: register by register; then the latch, and its clearing. -/
theorem picRegistersReadBack : Obligations.PicRegistersReadBack := by
  intro s n v hmax h
  have hn := validSource_lt hmax h
  refine ⟨loadPic_issue_priority s v hn h, loadPic_issue_enable s v hn h, ?_, loadPic_clear (by omega),
    getLsbD_loadPic_pending s hn h, fun hg => ⟨loadPic_issue_gateway s v hn h hg, fun levels ht hw => ?_, fun hq => ?_⟩⟩
  · rw [loadPic_order, picNewest_order]
    exact setWidth_ofBool_bit0 v
  · have hc : (configurable s.cfg).getLsbD n = true := (getLsbD_configurable hn h).trans hg
    rw [takeSample_ip, BitVec.getLsbD_or, BitVec.getLsbD_and, BitVec.getLsbD_not, hw,
      getLsbD_edgesSeen s.cfg s.pic levels hn hc ht, decide_eq_true hn, Bool.not_false, Bool.and_true, Bool.and_true]
  · have hc : (configurable s.cfg).getLsbD n = true := (getLsbD_configurable hn h).trans hg
    dsimp only
    rw [settlePic_clear s v hn hc hq]
    exact ⟨getLsbD_putBit_false _ hn, fun m hm => getLsbD_putBit_other _ false hm⟩

/-! ## Addresses without a register (R600, R601) -/

/-- What keeps an offset from being a register's, by the page it is in. -/
structure NoPicRegister (c : Build) (o : Nat) : Prop where
  priority : o / 0x1000 = 0 → validSource c (o % 0x1000 / 4) = false
  pending : o / 0x1000 = 1 → ¬ o % 0x1000 / 4 ≤ c.picTotalInt / 32
  enable : o / 0x1000 = 2 → validSource c (o % 0x1000 / 4) = false
  order : o / 0x1000 = 3 → o % 0x1000 / 4 ≠ 0
  gateway : o / 0x1000 = 4 ∨ o / 0x1000 = 5 → (configurable c).getLsbD (o % 0x1000 / 4) = false

/-- No register stands at an unused offset. -/
theorem noPicRegister_of_unused {c : Build} {o : Nat} (h : unusedPicOffset c o) : NoPicRegister c o := by
  have invalid : ∀ {n : Nat}, n = 0 ∨ c.picTotalInt < n → validSource c n = false := fun hn => by
    rw [Bool.eq_false_iff, Ne, validSource_iff]
    omega
  unfold unusedPicOffset unusedPicWord at h
  refine ⟨fun hp => invalid (by omega), fun hp => by omega, fun hp => invalid (by omega), fun hp => by omega, fun hp => ?_⟩
  have hg : o % 0x1000 / 4 = 0 ∨ c.picTotalInt < o % 0x1000 / 4 ∨ c.gatewayConfigurable.getLsbD (o % 0x1000 / 4) = false := by
    rcases h with h | h | h | h | ⟨-, -, hgateway⟩ | h
    case inr.inr.inr.inr.inl => exact hgateway
    all_goals omega
  rcases hg with hg | hg | hg
  · exact getLsbD_configurable_eq_false (.inl (invalid (.inl hg)))
  · exact getLsbD_configurable_eq_false (.inl (invalid (.inr hg)))
  · exact getLsbD_configurable_eq_false (.inr hg)

/-- A load from there gives 0. -/
theorem NoPicRegister.load {s : State} {o : Nat} (h : NoPicRegister s.cfg o) : loadPic s o = 0 := by
  unfold loadPic
  dsimp only
  split
  case h_1 hp => rw [h.priority hp]; rfl
  case h_2 hp => rw [if_neg (h.pending hp)]
  case h_3 hp => rw [h.enable hp]; rfl
  case h_4 hp => rw [if_neg (h.order hp)]
  case h_5 hp => rw [h.gateway (.inl hp)]; rfl
  case h_6 => rfl

/-- A store there is dropped. -/
theorem NoPicRegister.store {c : Build} {o : Nat} (h : NoPicRegister c o) (step : Nat) (p : PicRegs) (v : Word) :
    storePic c step p o v = p := by
  unfold storePic
  dsimp only
  split
  case h_1 hp => rw [h.priority hp]; rfl
  case h_2 hp => rw [h.enable hp]; rfl
  case h_3 hp => rw [h.gateway (.inl hp)]; rfl
  case h_4 hp => rw [h.gateway (.inr hp)]; rfl
  case h_5 => rfl

/-- The order register is no unused address. -/
theorem NoPicRegister.ne_order {c : Build} {o : Nat} (h : NoPicRegister c o) : o ≠ 0x3000 := fun ho =>
  h.order (by omega) (by omega)

/-- What the newest registers depend on. -/
theorem picNewest_congr {s t : State} (hc : t.cfg = s.cfg) (hs : t.stepNo = s.stepNo) (hp : t.pic = s.pic)
    (hq : t.picQueue = s.picQueue) : picNewest t = picNewest s := by
  rw [picNewest, picNewest, hc, hs, hp, hq]

/-- A store issued to no register, and the retirement after it, leave the newest registers as they were. -/
theorem NoPicRegister.picNewest_of_retires {s t : State} {o : Nat} {v next : Word} (h : NoPicRegister s.cfg o)
    (hret : Retires s { s with picQueue := s.picQueue ++ [.store o v] } t next) : picNewest t = picNewest s := by
  have hissue := picNewest_issuePicStore s v h.ne_order
  rw [issuePicStore_register s v h.ne_order, h.store] at hissue
  rw [← hissue]
  exact picNewest_congr (by rw [hret.frame]) (by rw [hret.frame]) (by rw [hret.frame]) (by rw [hret.frame])

/-- Settles O51: the access is that of O27, and the register accessed is none. -/
theorem unusedPicAddresses : Obligations.UnusedPicAddresses := by
  obtain ⟨hloads, hstores⟩ := picAccesses
  refine ⟨fun s i l hl hp hu => ?_, fun s i d hd hp hu => ?_⟩
  · have hload := hloads s i l hl hp
    rw [(noPicRegister_of_unused hu).load] at hload
    exact hload
  · have hno := noPicRegister_of_unused hu
    obtain ⟨t, ht, hret, -⟩ := hstores s i d hd hp
    rw [issuePicStore_register s d.value hno.ne_order] at hret
    have hq : t.picQueue = s.picQueue ++ [.store (d.addr.toNat - picBase s.cfg) d.value] := by rw [hret.frame]
    exact ⟨t, ht, hq ▸ hret, hno.picNewest_of_retires hret⟩

end Sys2Proof.Machine

/-! PROOFS. Interrupts and NMIs at a boundary, the claim, halted harts, and a debugger's resume (R500, R520 to R523, R530, R531,
R550 to R552, R593, R641, R650, R655 to R665). -/

namespace Sys2Proof.Machine

/-! ## Which interrupt is takeable (R530, R531, R665) -/

theorem stepHoldsInterrupts_iff (s : State) :
    stepHoldsInterrupts s = true ↔ s.stepping = true ∧ s.csr.dcsr.getLsbD 11 = false := by
  simp [stepHoldsInterrupts]

/-- Settles O45: the three conditions of a takeable interrupt, and the order of the enabled ones. -/
theorem interruptPriority : Obligations.InterruptPriority := by
  intro s ext err tim held
  have hheld : stepHoldsInterrupts s = true ↔ held := stepHoldsInterrupts_iff s
  refine ⟨fun h => if_neg ?_, fun hm ha hs => if_pos ?_⟩
  · rw [Bool.and_eq_true, Bool.and_eq_true, Bool.not_eq_true', beq_iff_eq]
    rintro ⟨⟨hm, ha⟩, hs⟩
    rcases h with h | h | h
    · exact Bool.false_ne_true (h.symm.trans hm)
    · exact h ha
    · exact Bool.false_ne_true (hs.symm.trans (hheld.mpr h))
  · rw [hm, ha, Bool.eq_false_iff.mpr fun h => hs (hheld.mp h)]
    rfl

/-! ## Entering interrupts and NMIs (R520 to R523, R552, R652) -/

/-- Taking an interrupt is a trap to the base of `mtvec`, or to its place in the vector table, and ends PAUSE. -/
theorem takeInterrupt_spec (s : State) (code : Word) :
    Trapped { s with pauseCount := 0 } (takeInterrupt s code) (0x80000000 ||| code) 0
      (if s.csr.mtvec.getLsbD 0 then exceptionTarget s + 4 * code else exceptionTarget s) := by
  rw [← trapBase_eq]
  exact (enterTrap_spec { s with pauseCount := 0 } (0x80000000 ||| code) 0 (interruptTarget s code)).countEvents _

/-- Taking an NMI is a trap to the NMI vector, and ends PAUSE. -/
theorem takeNmi_spec (s : State) (cause : Word) :
    Trapped { s with pauseCount := 0 } (takeNmi s cause) cause 0 (s.pins.nmiVec ++ 0#1) :=
  enterTrap_spec { s with pauseCount := 0 } cause 0 _

/-- Without a bus error the NMI is the pin's. -/
theorem enterNmi_pin {s : State} (h : s.dbusErr = none) :
    Trapped { s with nmiPending := false, pauseCount := 0 } (enterNmi s) 0 0 (s.pins.nmiVec ++ 0#1) := by
  have henter : enterNmi s = takeNmi { s with nmiPending := false } 0 := by rw [enterNmi, h]
  rw [henter]
  exact takeNmi_spec { s with nmiPending := false } 0

/-- With a bus error alone the NMI is the error's. -/
theorem enterNmi_bus {s : State} {e : BusError} (hp : s.nmiPending = false) (h : s.dbusErr = some e) :
    Trapped { s with dbusErr := none, pauseCount := 0 } (enterNmi s) e.cause 0 (s.pins.nmiVec ++ 0#1) := by
  have henter : enterNmi s = takeNmi { s with dbusErr := none } e.cause := by
    rw [enterNmi, h, hp]
    rfl
  rw [henter]
  exact takeNmi_spec { s with dbusErr := none } e.cause

/-- With both, the NMI is one of the two. -/
theorem enterNmi_both {s : State} {e : BusError} (h : s.dbusErr = some e) :
    Trapped { s with nmiPending := false, pauseCount := 0 } (enterNmi s) 0 0 (s.pins.nmiVec ++ 0#1) ∨
      Trapped { s with dbusErr := none, pauseCount := 0 } (enterNmi s) e.cause 0 (s.pins.nmiVec ++ 0#1) := by
  have henter : enterNmi s = if s.nmiPending && Config.pinNmiFirst s.stepNo then takeNmi { s with nmiPending := false } 0
      else takeNmi { s with dbusErr := none } e.cause := by rw [enterNmi, h]
  rw [henter]
  split
  · exact .inl (takeNmi_spec { s with nmiPending := false } 0)
  · exact .inr (takeNmi_spec { s with dbusErr := none } e.cause)

/-! ## The turn of a running hart (R530, R531, R552, R652) -/

/-- A running hart that the PMU does not ask to halt looks at the NMIs first. -/
theorem turn_nmi {u : State} (ha : u.activity = .running) (hh : u.seen.cpuHaltReq = false) :
    turn u = nmiTurn { u with waits := { u.waits with pmuHalt := none } } :=
  calc turn u = runningTurn u := by unfold turn; rw [ha]
    _ = _ := runningTurn_noHalt u (.inl hh)

/-- Where the hart's turn is to go on, the step pauses or executes. -/
theorem step_of_goOn {s v : State} (hin : s.inputs = []) (h : turn (atBoundary s) = goOn v) : step s = goesOn v := by
  rw [step_noEvent s hin, h]
  by_cases hp : v.pauseCount = 0 <;> simp only [goOn, goesOn, hp, if_true, if_false]

/-- Where the hart's turn is over, so is the step. -/
theorem step_of_over {s v : State} (hin : s.inputs = []) (h : turn (atBoundary s) = .over v) : step s = .next v := by
  rw [step_noEvent s hin, h]

/-- Settles O46: without an NMI the turn is the interrupt's. -/
theorem interruptIsTaken : Obligations.InterruptIsTaken := by
  intro s u code hin hu ha hh hn hb hcode delay waiting
  have hnmi : nmiPresent u = false := by rw [nmiPresent, hn, hb]; rfl
  have hturn : turn (atBoundary s) =
      match delay with
      | 0 => .over (takeInterrupt (waiting none) code)
      | n + 1 => goOn (waiting (some n)) :=
    calc turn (atBoundary s) = turn u := by rw [hu]
      _ = nmiTurn _ := turn_nmi ha hh
      _ = interruptTurn _ := nmiTurn_none _ hnmi
      _ = _ := interruptTurn_some _ code hcode
  refine ⟨fun h0 => ?_, fun n hsucc => ?_⟩
  · rw [h0] at hturn
    exact ⟨_, step_of_over hin hturn, takeInterrupt_spec (waiting none) code⟩
  · rw [hsucc] at hturn
    exact step_of_goOn hin hturn

/-- Outside a single step a pending NMI is entered when it waits no longer; else the hart goes on, and the wait gets shorter. -/
theorem step_nmi {s u : State} (hin : s.inputs = []) (hu : atBoundary s = u) (ha : u.activity = .running)
    (hh : u.seen.cpuHaltReq = false) (hs : u.stepping = false) (hp : nmiPresent u = true) :
    let delay := u.waits.nmi.getD (Config.nmiDelay u.stepNo)
    let waiting := fun w : Option Nat => { u with waits := { u.waits with pmuHalt := none, nmi := w } }
    (delay = 0 → step s = .next (enterNmi (waiting none))) ∧
      ∀ n, delay = n + 1 → step s = goesOn (waiting (some n)) := by
  intro delay waiting
  have hreq : nmiRequested u = true := by simp [nmiRequested, debugMode, hp, ha, hs]
  have hturn : turn (atBoundary s) =
      match delay with
      | 0 => .over (enterNmi (waiting none))
      | n + 1 => goOn (waiting (some n)) :=
    calc turn (atBoundary s) = turn u := by rw [hu]
      _ = nmiTurn _ := turn_nmi ha hh
      _ = _ := nmiTurn_requested _ hreq
  refine ⟨fun h0 => ?_, fun n hsucc => ?_⟩
  · rw [h0] at hturn
    exact step_of_over hin hturn
  · rw [hsucc] at hturn
    exact step_of_goOn hin hturn

/-- Settles O47: outside a single step the turn is the NMI's, and the pending requests decide which; in a single step the hart
goes on. -/
theorem nmiIsTaken : Obligations.NmiIsTaken := by
  intro s u hin hu ha hh delay waiting vector pin bus enters
  have henters : u.stepping = false → nmiPresent u = true → ∀ P : State → Prop, P (enterNmi (waiting none)) → enters P :=
    fun hs hp P hP => by
      obtain ⟨hnow, hlater⟩ := step_nmi hin hu ha hh hs hp
      exact ⟨fun h0 => ⟨_, hnow h0, hP⟩, hlater⟩
  have hpin : u.nmiPending = true → nmiPresent u = true := fun hn => by rw [nmiPresent, hn]; rfl
  have hbus : ∀ e, u.dbusErr = some e → nmiPresent u = true := fun e hb => by rw [nmiPresent, hb]; exact Bool.or_true _
  refine ⟨fun hs => ⟨fun hn hb => ?_, fun hn hb => ?_, fun hn hb => ?_, fun hn e hb => ?_⟩, fun hs hpending => ?_⟩
  · exact henters hs (hpin hn) _ (enterNmi_pin (s := waiting none) hb)
  · exact henters hs (hbus _ hb) _ (enterNmi_bus (s := waiting none) hn hb)
  · exact henters hs (hbus _ hb) _ (enterNmi_bus (s := waiting none) hn hb)
  · exact henters hs (hpin hn) _ (enterNmi_both (s := waiting none) hb)
  · have hp : nmiPresent u = true := (Bool.or_eq_true _ _).mpr hpending
    refine step_of_goOn hin ?_
    rw [hu]
    exact (turn_nmi ha hh).trans (nmiTurn_held _ hp (by simp [debugMode, hs]))

/-! ## The claim (R122, R123, R593) -/

/-- What the registers as the PIC acts on them depend on. -/
theorem picNow_congr {s t : State} (hc : t.cfg = s.cfg) (hs : t.stepNo = s.stepNo) (hp : t.pic = s.pic)
    (hq : t.picQueue = s.picQueue) (u : Nat) : picNow t u = picNow s u := by
  rw [picNow, picNow, hc, hs, hp, hq]

/-- An instruction that writes a register touches nothing of the PIC. -/
theorem WroteReg.picNow_eq {s t : State} {rd : Reg} {v next : Word} (h : WroteReg s t rd v next) (u : Nat) :
    picNow t u = picNow s u :=
  picNow_congr (by rw [h.frame]) (by rw [h.frame]) (by rw [h.frame]) (by rw [h.frame]) u

/-- The claim after an instruction that writes a register captures the winner of the state before it. -/
theorem captureClaim_of_wroteReg {s w : State} {rd : Reg} {v next : Word} (h : WroteReg s w rd v next) :
    captureClaim w = { w with csr := { s.csr with
      claimid := (picWinner s.cfg (picNow s 2)).2, iclid := (picWinner s.cfg (picNow s 2)).1
      priDoubt := putBit s.csr.priDoubt 1 false } } := by
  have hcfg : w.cfg = s.cfg := by rw [h.frame]
  have hcsr : w.csr = s.csr := by rw [h.frame]
  rw [captureClaim, hcfg, hcsr, h.picNow_eq 2]

/-- Settles O43: the instruction retires with 0, and a write then captures the winner. -/
theorem claimCapturesTheWinner : Obligations.ClaimCapturesTheWinner := by
  intro s i f hf hn win
  have ho : OrdinaryCsr 0xBCA .meicpct := ⟨rfl, rfl, rfl, nofun, nofun⟩
  cases hw : f.writes
  · exact ⟨_, by rw [exec_csr hf (hn ▸ ho.allowed fun _ => by decide) ho.noEffect, hw]; rfl,
      csrRetired_wroteCsr s f.rd 0, nofun⟩
  · have hret := csrRetired_wroteReg s f.rd 0
    have hclaim := captureClaim_of_wroteReg hret
    refine ⟨_, ho.writes hf hn (by decide) hw, ?_⟩
    rw [show csrWrite (csrRetired s f.rd (csrRead (beforeStep s) .meicpct)) .meicpct
      (f.value (csrRead (beforeStep s) .meicpct)) = captureClaim (csrRetired s f.rd 0) from rfl, hclaim]
    refine ⟨hret.wroteCsr (by simp) rfl, fun _ => ?_⟩
    rw [← hret.picNow_eq 4, csrRead, csrPriority, getLsbD_putBit_false _ (by decide)]
    rfl

/-! ## Halted harts (R641, R650, R655) -/

/-- Serving the MPC's halt request does not change what the hart sees. -/
theorem serveMpcHalt_seen (s : State) : (serveMpcHalt s).seen = s.seen := by
  have hdrain : ∀ t : State, (drainBus t).seen = t.seen := fun t => by rw [(drainBus_spec t).1]
  unfold serveMpcHalt
  dsimp only
  split_ifs
  · exact hdrain _
  · rfl
  · rfl

/-- A hart that the MPC does not ask to run, and does not halt either, keeps at a boundary its activity and its CSRs but for
the error capture. -/
theorem atBoundary_keepsActivity {s : State} (hr : (boundary s).seen.mpcRunReq = false)
    (hh : s.activity = .dbHalt ∨ (boundary s).seen.mpcHaltReq = false) :
    (atBoundary s).activity = s.activity ∧ (atBoundary s).csr = { s.csr with mdseac := (atBoundary s).csr.mdseac } := by
  have hf := boundary_frame s
  unfold BoundaryFrame at hf
  have hact : (boundary s).activity = s.activity := by rw [hf]
  have hcsr : (boundary s).csr = { s.csr with mdseac := (boundary s).csr.mdseac } := by rw [hf]
  have hserve : (serveMpcHalt (boundary s)).csr = (boundary s).csr ∧
      (serveMpcHalt (boundary s)).activity = (boundary s).activity := by
    obtain ⟨-, -, hkept | ⟨-, hno, hreq⟩⟩ := serveMpcHalt_keeps (boundary s)
    · exact hkept
    · rcases hh with hh | hh
      · exact absurd (hact.trans hh) hno
      · exact absurd (hh.symm.trans hreq) Bool.false_ne_true
  have hrun : serveMpcRun (serveMpcHalt (boundary s)) = serveMpcHalt (boundary s) := by
    rw [serveMpcRun, serveMpcHalt_seen, hr]
    rfl
  obtain ⟨-, -, hc, hact'⟩ := countResumed_keeps (serveMpcHalt (boundary s))
  rw [atBoundary, hrun, hc, hact', hserve.1, hserve.2]
  exact ⟨hact, hcsr⟩

/-- The turn of a halted hart that does not wake does nothing. -/
theorem turn_halted {u : State} (h : u.activity = .dbHalt ∨ u.activity = .pmuFwHalt ∧ wakes u = false) :
    turn u = .over u := by
  unfold turn
  rcases h with h | ⟨h, hw⟩
  · rw [h]
  · rw [h, hw]
    rfl

/-- Settles O56: the boundary keeps the hart halted, and its turn does nothing. -/
theorem haltedHartsRunNothing : Obligations.HaltedHartsRunNothing := by
  intro s hin hr h
  have hne : s.activity ≠ .running := by
    rcases h with h | ⟨h, -⟩ <;> rw [h] <;> nofun
  obtain ⟨hact, hcsr⟩ := atBoundary_keepsActivity hr (h.imp_right fun hp => hp.2.1)
  obtain ⟨hkeeps, hpc, -⟩ := atBoundary_keeps s
  have hturn : turn (atBoundary s) = .over (atBoundary s) :=
    turn_halted (h.imp hact.trans fun ⟨hp, _, hwakes⟩ => ⟨hact.trans hp, hwakes⟩)
  refine ⟨_, step_of_over hin hturn, hact, hkeeps.regs, hpc.trans (if_neg fun hrun => ?_), hkeeps.minstret, hcsr⟩
  exact hne (hact.symm.trans hrun.2)

/-! ## A debugger's resume (R655, R657, R660, R661, R663, R665) -/

theorem debugResume_ignored {s : State} (h : s.dbgHaltState = false) : debugResume s = s := by
  unfold debugResume debuggerMayAct
  rw [h, Bool.and_false]
  rfl

theorem debugResume_exits {s : State} (ha : s.activity = .dbHalt) (hd : s.dbgHaltState = true)
    (hm : s.mpcHaltState = false) :
    debugResume s = exitDebug { s with dbgHaltState := false } (s.csr.dcsr.getLsbD 2) := by
  unfold debugResume debuggerMayAct
  rw [ha, hd]
  dsimp only
  rw [hm]
  rfl

theorem step_debugResume {s : State} {rest : List HostEvent} (h : s.inputs = .debugResume :: rest) :
    step s = .next (debugResume { s with inputs := rest, stepNo := s.stepNo + 1 }) := by
  unfold step
  rw [h]
  rfl

end Sys2Proof.Machine

namespace Sys2Proof

open Machine

/-- Settles O58: the event is the debugger's resume, which leaves the halt by `exitDebug`, or is ignored. -/
theorem debugResume : Obligations.DebugResume := by
  intro s rest hin ha
  let event := { s with inputs := rest, stepNo := s.stepNo + 1 }
  refine ⟨fun hd hm => ?_, fun hd => ?_⟩
  · refine ⟨_, step_debugResume hin, ?_⟩
    rw [debugResume_exits (s := event) ha hd hm]
    exact ⟨rfl, rfl, rfl, rfl, rfl, rfl, rfl, rfl⟩
  · rw [step_debugResume hin, debugResume_ignored (s := event) hd]

end Sys2Proof
